-- ==== Sys2Proof/Word.lean ====
section
/-! DEFINITION. The words and numbers the manual names: bytes, management words, addresses, ring, slot, line and tag numbers. -/

namespace Sys2Proof

/-- One byte of a transfer (Table 8-1). -/
abbrev Byte := BitVec 8

/-- One management-port word (10 R161, chapter 12). -/
abbrev Word := BitVec 32

/-- A byte address of the one space both ports share (08 R130, R132). -/
abbrev Addr := BitVec 40

/-- A word address of the register window (10 R160, 12 R174). -/
abbrev WordAddr := BitVec 16

/-- Ring 0 to ring 3. -/
abbrev RingId := Fin 4

/-- Slot 0 to slot 7 (Table 1-1). -/
abbrev SlotId := Fin 8

/-- Event line EVT0 to EVT7 (07 R120). -/
abbrev LineId := Fin 8

/-- A downstream TAG, the index of an outstanding-table entry (08 R132, 09 R154). -/
abbrev DownTag := Fin 32

/-- A bus initiator, 0 to 15 (Table 8-1). -/
abbrev Initiator := Fin 16

/-- An upstream TAG, 0 to 255 (Table 8-1). -/
abbrev UpTag := BitVec 8

/-- A ring number as a command word carries it, 0 to 7 (12 R180). -/
abbrev RingField := Fin 8

end Sys2Proof
end

