-- ==== Sys2Proof/Config.lean ====
section
/-! DEFINITION. What the part fixes (00_scope Table 0-5, 12 R174), the bound of the model's walk loop, and the model's free value. -/

namespace Sys2Proof.Config

/-- Entries of the hold queue (09 R148). -/
def holdCapacity : Nat := 16

/-- The first address past the 40-bit space (08 R134). -/
def addressTop : Nat := 2 ^ 40

/-- The largest value of BYTES_READ (03 Table 3-2). -/
def bytesReadMax : Nat := 0xFFFFFFFF

/-- The largest value of LATER_COUNT (08 R144). -/
def laterCountMax : Nat := 65535

/-- The identification word (12 R174). -/
def identification : Word := 0x5A480148#32

/-- The frame code of a write frame (10 R160). -/
def writeCode : Nat := 0x02

/-- The frame code of a read frame (10 R160). -/
def readCode : Nat := 0x0B

/-- The most walks one re-examination makes in the model. DEDUCED: 09 R151 says the number is bounded and gives no
number; log 15 counts why no reachable state comes near this one. -/
def walkBound : Nat := 1024

/-- A FREE VALUE (log 10): which of the events that one edge delivers, or of the expiries of one timebase step, is
taken next. No body: nothing in Lean can evaluate it. The spec gives no order (07 R122, R123, R124). It is read only where
at least two events are still to be taken. -/
opaque freePick : Nat → Nat

/-- A FREE VALUE (log 32): the level of MISO while CS_N is low and the port waits for it to rise. No body: nothing in Lean
can evaluate it. 10 R160 has MISO driven there, and 10 R163 gives the port no frame that would name the level. -/
opaque freeLevel : Nat → Bool

end Sys2Proof.Config
end

