-- ==== Sys2Proof/Syntax.lean ====
section
/-! DEFINITION. The commands: one constructor per row of spec/opcode_table.json, with the operands the rules give the event. -/

namespace Sys2Proof

/-- KIND of a transfer (Table 8-1). -/
inductive Kind
  | read
  | write
  deriving DecidableEq, Repr

/-- What a request carries beside its address: a READ its LENGTH, a WRITE its DATA of exactly LENGTH bytes (08 R130). -/
inductive Payload
  | read (length : Nat)
  | write (data : List Byte)
  deriving DecidableEq, Repr

/-- An upstream request (Table 8-1). -/
structure Request where
  initiator : Initiator
  tag : UpTag
  addr : Addr
  payload : Payload
  deriving DecidableEq, Repr

/-- STATUS of a response (Table 8-2). -/
inductive Status
  | okay
  | error
  deriving DecidableEq, Repr

/-- The two sides of a ring, each with its aperture and its stall timer. -/
inductive Side
  | fill
  | drain
  deriving DecidableEq, Repr

/-- The commands. Each docstring names the row of spec/opcode_table.json and its rule. -/
inductive Instr
  /-- RESET_N (06 R103, 09 R159): the reset input is asserted. -/
  | resetN
  /-- RESET_N_RISE (07 R120, 10 R163): RESET_N rises; bit n of `levels` is the level of EVTn at that moment. -/
  | resetNRise (levels : BitVec 8)
  /-- UPSTREAM_REQUEST (09 R149): a request is presented at the upstream port. -/
  | upstreamRequest (request : Request)
  /-- DOWNSTREAM_RESPONSE (09 R156): a downstream response with its TAG, STATUS and DATA. -/
  | downstreamResponse (tag : DownTag) (status : Status) (data : List Byte)
  /-- EVENT_EDGE (07 R122): the detector sees a transition of a line that EDGE selects. -/
  | eventEdge (line : LineId) (rising : Bool)
  /-- STALL_TIMER_EXPIRY (07 R127). -/
  | stallTimerExpiry (ring : RingId) (side : Side)
  /-- SHADOW_WRITE (05 R84): a complete word written to word `index` of a ring's shadow descriptor. -/
  | shadowWrite (ring : RingId) (index : Fin 32) (word : Word)
  /-- EVENT_LINE_CONFIGURATION (07 R120). -/
  | eventLineConfiguration (word : Word)
  /-- ATTENTION_MASK_WRITE (10 R170). -/
  | attentionMaskWrite (ring : RingId) (word : Word)
  /-- GLOBAL_ATTENTION_MASK_WRITE (10 R170). -/
  | globalAttentionMaskWrite (word : Word)
  /-- REGISTER_WRITE (12 R174): a word written to a word address. -/
  | registerWrite (addr : WordAddr) (word : Word)
  /-- COMMIT (05 R91), ring number as written. -/
  | commit (ring : RingField)
  /-- START (06 R105), ring number as written. -/
  | start (ring : RingField)
  /-- STOP (06 R107), ring number as written. -/
  | stop (ring : RingField)
  /-- ABORT (06 R115), ring number as written. -/
  | abort (ring : RingField)
  /-- CLOSE (02 R30), ring number as written. -/
  | close (ring : RingField)
  /-- RELEASE (03 R57), ring number as written. -/
  | release (ring : RingField)
  /-- ACK (10 R168) of a ring, with the cause set of bits 25:16. -/
  | ack (ring : RingField) (causes : BitVec 10)
  /-- ACK_GLOBAL (08 R145): ACK with the GLOBAL flag; the ring bits are kept as written (12 Table 12-8). -/
  | ackGlobal (ring : RingField) (causes : BitVec 10)
  /-- RECORD_ISSUE (04 R77): the arbiter grants an offered head record a free entry. -/
  | recordIssue
  /-- RE_EXAMINATION (09 R151). -/
  | reExamination
  /-- RELEASE_COMPLETION (01 R14) of one slot. -/
  | releaseCompletion (ring : RingId) (slot : SlotId)
  /-- CLOSING_ADVANCE (01 R8) of one slot's entry. -/
  | closingAdvance (ring : RingId) (slot : SlotId)
  /-- SETTLE (01 R9) of one slot's entry. -/
  | settle (ring : RingId) (slot : SlotId)
  /-- PENDING_COMMIT_APPLICATION (05 R95). -/
  | pendingCommitApplication (ring : RingId)
  /-- ENDING_COMPLETION (06 R111). -/
  | endingCompletion (ring : RingId)
  /-- ABORT_COMPLETION (06 R117). -/
  | abortCompletion (ring : RingId)
  /-- LINE_TRANSITION (07 R120): the detector sees a transition of a line that EDGE does not select. -/
  | lineTransition (line : LineId) (rising : Bool)
  /-- TIMEBASE_STEP (07 R124): one step of the 1 µs timebase. -/
  | timebaseStep
  /-- FRAME_BEGIN (10 R160): CS_N falls, if it is high, and the port takes the bits `mosi`, first bit first (log 2). -/
  | frameBegin (mosi : List Bool)
  /-- FRAME_END (10 R163): CS_N rises. -/
  | frameEnd
  deriving DecidableEq, Repr

end Sys2Proof
end

