-- ==== Sys2Proof/WellFormed.lean ====
section
/-! DEFINITION. Which command terms are events the spec describes: the lengths that the types do not bound. -/

namespace Sys2Proof

/-- LENGTH of a request (Table 8-1). -/
def Payload.length : Payload → Nat
  | .read n => n
  | .write bytes => bytes.length

/-- LENGTH is 1 to 256 (08 R130, Table 8-1). -/
def Request.wellFormed (q : Request) : Bool :=
  1 ≤ q.payload.length && q.payload.length ≤ 256

/-- The command is in the formats of 08 R130 and R132. -/
def Instr.wellFormed : Instr → Bool
  | .upstreamRequest q => q.wellFormed
  | .downstreamResponse _ _ bytes => bytes.length ≤ 256
  | .resetN | .resetNRise _ | .eventEdge _ _ | .stallTimerExpiry _ _ | .shadowWrite _ _ _
  | .eventLineConfiguration _ | .attentionMaskWrite _ _ | .globalAttentionMaskWrite _ | .registerWrite _ _
  | .commit _ | .start _ | .stop _ | .abort _ | .close _ | .release _ | .ack _ _ | .ackGlobal _ _
  | .recordIssue | .reExamination | .releaseCompletion _ _ | .closingAdvance _ _ | .settle _ _
  | .pendingCommitApplication _ | .endingCompletion _ | .abortCompletion _ | .lineTransition _ _
  | .timebaseStep | .frameBegin _ | .frameEnd => true

end Sys2Proof
end

