-- ==== Sys2Proof/Decode.lean ====
section
/-! DEFINITION. The command that a word spells by the bits of spec/opcode_table.json. No row of the table gives bits
(every row's "fields" is empty and none has "fixed"), so no word spells a command (log 19). -/

namespace Sys2Proof

/-- The command spelled by the `nbits` bits `w`, for the rows of the table that give bits: there is none. -/
def decodeTableWord (nbits w : Nat) : Option Instr :=
  match nbits, w with
  | _, _ => none

end Sys2Proof
end

