-- ==== Sys2Proof/Machine/State.lean ====
section
/-! DEFINITION. The state of the VX48 as plain data, the reasons a step can stop, and the machine right after reset. -/

namespace Sys2Proof.Machine

/-- Reasons for a model fault. There is none: the spec gives every event an outcome in every state (a refused
transaction, a ring in FAULT are states and outputs of the block). Nothing raises one, which is safe. -/
inductive Fault
  deriving DecidableEq, Repr

/-- Reasons for a refusal. -/
inductive Refusal
  /-- Raised by no arm of `exec`: every row has its meaning. Safe. -/
  | notModelled (mnemonic : String)
  /-- Raised by UPSTREAM_REQUEST and DOWNSTREAM_RESPONSE for a term outside the formats of 08 R130 and R132
  (`Instr.wellFormed` is false): no event the spec describes. Safe. -/
  | illFormed
  deriving DecidableEq, Repr

/-! ### Names of the manual -/

/-- Slot STATE (Table 1-2). -/
inductive SlotState
  | free | filling | closing | recording | settled | draining | retained | releasing
  deriving DecidableEq, Repr

/-- Close causes (Table 2-4). -/
inductive CloseCause
  | limit | full | event | command | stop
  deriving DecidableEq, Repr

/-- Ring run states (Table 6-1). -/
inductive RunState
  | idle | running | ending | fault | aborting
  deriving DecidableEq, Repr

/-- Ring fault causes (06 R103). -/
inductive FaultCause
  | none | fillStall | drainStall | writeError | readError
  deriving DecidableEq, Repr

/-- Last commit-lost cause (05 R94). -/
inductive LostCause
  | none
  | structuralChange
  | invalid (check : Nat)
  | faulted
  | aborted
  deriving DecidableEq, Repr

/-- Fill substates (Table 2-1). -/
inductive FillSub
  | closed | filling | noSlot | waiting
  deriving DecidableEq, Repr

/-- Drain substates (Table 3-1). -/
inductive DrainSub
  | empty | waiting | draining | retained
  deriving DecidableEq, Repr

/-- Record kinds (Table 4-1). -/
inductive RecordKind
  | close | reclaim
  deriving DecidableEq, Repr

/-- Refusal causes (Table 8-3). -/
inductive RefusalCause
  | straddle | ringFault | aborted | wrongDirection | fillClosed | guard | outsideSlot | ringEnding
  deriving DecidableEq, Repr

/-- Edge selections (Table 7-1). -/
inductive EdgeSel
  | none | rising | falling | both
  deriving DecidableEq, Repr

/-- The seven commands of the command register (Table 10-2). -/
inductive CommandKind
  | commit | start | stop | abort | close | release | ack
  deriving DecidableEq, Repr

/-- Causes of a refused command (10 R167). -/
inductive CommandCause
  | none | wrongState | noDescriptor | invalid | structuralChange | nothingToClose | nothingToRelease | badRing
  deriving DecidableEq, Repr

/-! ### Parts of a ring -/

/-- A descriptor's fields as stored numbers, each of the width of Table 12-3 (12 R176, R177). -/
structure Descriptor where
  fillBase : Addr
  drainBase : Addr
  aperSize : BitVec 32
  slotSize : BitVec 32
  slotCount : BitVec 4
  fillMode : BitVec 2
  drainMode : BitVec 2
  recordEnable : Bool
  recordCount : BitVec 9
  recordBase : Addr
  slotBase : Vector Addr 8
  closeOnLimit : Bool
  closeLimit : BitVec 27
  closeEvent : BitVec 4
  releaseEvent : BitVec 4
  releaseOnLimit : Bool
  haltOnError : Bool
  overrun : BitVec 2
  underrun : BitVec 2
  guard : BitVec 2
  fillGap : BitVec 8
  drainGap : BitVec 8
  stallTimeout : BitVec 16
  budget : BitVec 16
  pattern : BitVec 32
  deriving DecidableEq, Repr

/-- The all-zero descriptor (05 R84, R85). -/
def Descriptor.zero : Descriptor where
  fillBase := 0
  drainBase := 0
  aperSize := 0
  slotSize := 0
  slotCount := 0
  fillMode := 0
  drainMode := 0
  recordEnable := false
  recordCount := 0
  recordBase := 0
  slotBase := Vector.replicate 8 0
  closeOnLimit := false
  closeLimit := 0
  closeEvent := 0
  releaseEvent := 0
  releaseOnLimit := false
  haltOnError := false
  overrun := 0
  underrun := 0
  guard := 0
  fillGap := 0
  drainGap := 0
  stallTimeout := 0
  budget := 0
  pattern := 0

/-- A slot record (Table 1-1); its SLOT number is its index. -/
structure Slot where
  state : SlotState
  base : Addr
  seq : BitVec 16
  fillLength : Nat
  bytesAccepted : Nat
  cause : Option CloseCause
  tainted : Bool
  afterGap : Bool
  outstanding : Nat
  deriving DecidableEq, Repr

/-- A slot record after RESET_N (01 R1). -/
def Slot.zero : Slot where
  state := .free
  base := 0
  seq := 0
  fillLength := 0
  bytesAccepted := 0
  cause := none
  tainted := false
  afterGap := false
  outstanding := 0

/-- A ready-queue entry: its slot and its answered mark; its stage is the slot's STATE (01 R7). -/
structure ReadyEntry where
  slot : SlotId
  answered : Bool
  deriving DecidableEq, Repr

/-- A record built and not yet issued; its LAP and position are given at its issue (04 R72, R73, R74). -/
structure LogRecord where
  kind : RecordKind
  slot : SlotId
  seq : BitVec 16
  cause : Option CloseCause
  tainted : Bool
  afterGap : Bool
  fillLength : Nat
  bytesAccepted : Nat
  deriving DecidableEq, Repr

/-- The ten counters of Table 10-4. -/
structure Counters where
  closes : BitVec 32
  releases : BitVec 32
  retains : BitVec 32
  droppedWrites : BitVec 32
  reclaims : BitVec 32
  patternReads : BitVec 32
  writeErrors : BitVec 32
  readErrors : BitVec 32
  recordErrors : BitVec 32
  guardRefusals : BitVec 32
  deriving DecidableEq, Repr

/-- Every counter 0 (10 R172). -/
def Counters.zero : Counters := ⟨0, 0, 0, 0, 0, 0, 0, 0, 0, 0⟩

/-- One ring controller with its record writer and its two stall timers. A stall timer is `none` when stopped and holds
its remaining µs, 1 to 65535, when running; 0 stands only within a step of the timebase, for an expiry still to be taken
in that step (07 R124, R127, log 7). -/
structure Ring where
  shadow : Descriptor
  active : Descriptor
  activeValid : Bool
  commitPending : Bool
  lostCause : LostCause
  started : Bool
  runState : RunState
  faultCause : FaultCause
  budgetRemaining : Nat
  slots : Vector Slot 8
  freeList : List SlotId
  ready : List ReadyEntry
  releasing : List SlotId
  fillSlot : Option SlotId
  drainSlot : Option SlotId
  nextSeq : BitVec 16
  fillSub : FillSub
  fillCursor : Nat
  fillBytes : Nat
  highMark : Nat
  gapPending : Bool
  drainSub : DrainSub
  drainCursor : Nat
  bytesRead : Nat
  underrunNoted : Bool
  records : List LogRecord
  recordIndex : Nat
  lap : BitVec 8
  fillTimer : Option Nat
  drainTimer : Option Nat
  counters : Counters
  attention : BitVec 10
  mask : BitVec 10
  deriving DecidableEq, Repr

/-- A ring after RESET_N (01 R1, Table 1-4, 02 R20, 03 R47, 04 R70, 05 R84, R85, R94, 06 R103, 10 R169, R170, R172). -/
def Ring.zero : Ring where
  shadow := Descriptor.zero
  active := Descriptor.zero
  activeValid := false
  commitPending := false
  lostCause := .none
  started := false
  runState := .idle
  faultCause := .none
  budgetRemaining := 0
  slots := Vector.replicate 8 Slot.zero
  freeList := []
  ready := []
  releasing := []
  fillSlot := none
  drainSlot := none
  nextSeq := 0
  fillSub := .closed
  fillCursor := 0
  fillBytes := 0
  highMark := 0
  gapPending := false
  drainSub := .empty
  drainCursor := 0
  bytesRead := 0
  underrunNoted := false
  records := []
  recordIndex := 0
  lap := 0
  fillTimer := none
  drainTimer := none
  counters := Counters.zero
  attention := 0
  mask := 0

/-! ### Parts of the issue unit, the decoder and the management port -/

/-- Why an entry is held, with the ring for the two waits (09 R148). -/
inductive Reason
  | order
  | table
  | fillWait (ring : RingId)
  | drainWait (ring : RingId)
  deriving DecidableEq, Repr

/-- A hold-queue entry (09 R148). -/
structure Held where
  order : Nat
  request : Request
  reason : Reason
  deriving DecidableEq, Repr

/-- An outstanding-table entry in use (09 R154). -/
inductive Entry
  | pass (initiator : Initiator) (tag : UpTag) (kind : Kind)
  | fill (ring : RingId) (slot : SlotId) (initiator : Initiator) (tag : UpTag)
  | drain (ring : RingId) (slot : SlotId) (initiator : Initiator) (tag : UpTag)
  | record (ring : RingId) (slot : SlotId) (kind : RecordKind)
  deriving DecidableEq, Repr

/-- The refusal record when full (08 R144). -/
structure RefusalRecord where
  cause : RefusalCause
  initiator : Initiator
  tag : UpTag
  addr : Addr
  kind : Kind
  ring : RingId
  deriving DecidableEq, Repr

/-- The command result (10 R167, 12 Table 12-8). -/
structure CommandResult where
  command : Option CommandKind
  target : RingField
  isGlobal : Bool
  refused : Bool
  cause : CommandCause
  check : Nat
  count : BitVec 8
  deriving DecidableEq, Repr

/-- The command result after RESET_N (10 R167). -/
def CommandResult.zero : CommandResult := ⟨none, 0, false, false, .none, 0, 0⟩

/-- The management port's frame state (10 R160, R163). -/
inductive Frame
  /-- No frame: CS_N is high, or RESET_N is low. -/
  | none
  /-- CS_N was low when RESET_N rose: no frame until it has risen and fallen again (R163). -/
  | blocked
  /-- The code and the address are not complete; the bits taken so far. -/
  | header (taken : List Bool)
  /-- An unknown frame code (R160). -/
  | ignored
  /-- A write frame: current word address and the bits taken of the word being moved. -/
  | write (addr : WordAddr) (moving : List Bool)
  /-- The turnaround byte of a read frame: current word address and the number of its bits taken (R162). -/
  | turnaround (addr : WordAddr) (taken : Nat)
  /-- A word of a read frame: the current word address, already past the word sampled, and the bits of that word from the
  one on MISO now to its last (R162). -/
  | read (addr : WordAddr) (shifting : List Bool)
  deriving DecidableEq, Repr

/-- The management port: the level of CS_N and the frame state. -/
structure MgmtPort where
  csLow : Bool
  frame : Frame
  deriving DecidableEq, Repr

/-- An upstream response (Table 8-2); DATA for a READ only. -/
structure UpResponse where
  initiator : Initiator
  tag : UpTag
  status : Status
  data : Option (List Byte)
  deriving DecidableEq, Repr

/-- A downstream request (08 R132). -/
structure DownRequest where
  downTag : DownTag
  initiator : Initiator
  tag : UpTag
  addr : Addr
  payload : Payload
  deriving DecidableEq, Repr

/-- One thing the block sends out during an event. -/
inductive PortEvent
  | upstream (response : UpResponse)
  | downstream (request : DownRequest)
  | miso (word : Word)
  deriving DecidableEq, Repr

/-- The whole block. `sent` is what left its ports in the last event; `choices` and `pending` are the model's own. -/
structure State where
  resetLow : Bool
  rings : Vector Ring 4
  hold : List Held
  nextOrder : Nat
  waiting : List Request
  table : Vector (Option Entry) 32
  rrLast : RingId
  stray : BitVec 32
  reexamAsked : Bool
  walkChanged : Bool
  refusal : Option RefusalRecord
  laterCount : Nat
  edges : Vector EdgeSel 8
  levels : BitVec 8
  globalAttn : Bool
  globalMask : Bool
  result : CommandResult
  port : MgmtPort
  sent : List PortEvent
  choices : Nat
  pending : List Instr
  deriving DecidableEq, Repr

/-- The machine right after reset: every field as RESET_N leaves it, with RESET_N high again, the lines low and CS_N
high (DESIGN CHOICE, log 11), and no request waiting at the port (log 6). -/
def State.reset : State where
  resetLow := false
  rings := Vector.replicate 4 Ring.zero
  hold := []
  nextOrder := 0
  waiting := []
  table := Vector.replicate 32 none
  rrLast := 3
  stray := 0
  reexamAsked := false
  walkChanged := false
  refusal := none
  laterCount := 0
  edges := Vector.replicate 8 .none
  levels := 0
  globalAttn := false
  globalMask := false
  result := CommandResult.zero
  port := ⟨false, .none⟩
  sent := []
  choices := 0
  pending := []

end Sys2Proof.Machine
end

