-- ==== Sys2Proof/Machine/Flags.lean ====
section
/-! DEFINITION. Attention causes and sets, the saturating counters, and the output ATTN_N (chapter 10). -/

namespace Sys2Proof.Machine

/-- The ring attention causes (Table 10-3). -/
inductive RingCause
  | settled | released | ended | fault | commitApplied | commitLost | overrun | underrun | error | recordError
  deriving DecidableEq, Repr

/-- The bit of a cause in a ring's attention set and mask (12 R179). -/
def causeBit : RingCause → Nat
  | .settled => 0
  | .released => 1
  | .ended => 2
  | .fault => 3
  | .commitApplied => 4
  | .commitLost => 5
  | .overrun => 6
  | .underrun => 7
  | .error => 8
  | .recordError => 9

/-- Adding a cause to a set; adding one already present changes nothing (10 R169). -/
def addCause (c : RingCause) (a : BitVec 10) : BitVec 10 :=
  a ||| (1#10 <<< causeBit c)

/-- The cause is in the ring's attention set. -/
def Ring.hasCause (c : RingCause) (r : Ring) : Bool :=
  r.attention.getLsbD (causeBit c)

/-- The ring's attention cause is set (10 R169). -/
def Ring.attend (c : RingCause) (r : Ring) : Ring :=
  { r with attention := addCause c r.attention }

/-- A ring ACK removes each carried cause (10 R168). -/
def Ring.acknowledge (causes : BitVec 10) (r : Ring) : Ring :=
  { r with attention := r.attention &&& ~~~causes }

/-- The counters of Table 10-4. -/
inductive Counter
  | closes | releases | retains | droppedWrites | reclaims | patternReads | writeErrors | readErrors | recordErrors
  | guardRefusals
  deriving DecidableEq, Repr

/-- Increment by one, stopping at FFFFFFFFh (10 R172, 09 R157). -/
def satInc (x : BitVec 32) : BitVec 32 :=
  if x = BitVec.allOnes 32 then x else x + 1

/-- The value of a counter. -/
def Counters.value (c : Counter) (k : Counters) : BitVec 32 :=
  match c with
  | .closes => k.closes
  | .releases => k.releases
  | .retains => k.retains
  | .droppedWrites => k.droppedWrites
  | .reclaims => k.reclaims
  | .patternReads => k.patternReads
  | .writeErrors => k.writeErrors
  | .readErrors => k.readErrors
  | .recordErrors => k.recordErrors
  | .guardRefusals => k.guardRefusals

/-- One counter incremented, the others as they were (10 R172). -/
def Counters.bump (c : Counter) (k : Counters) : Counters :=
  match c with
  | .closes => { k with closes := satInc k.closes }
  | .releases => { k with releases := satInc k.releases }
  | .retains => { k with retains := satInc k.retains }
  | .droppedWrites => { k with droppedWrites := satInc k.droppedWrites }
  | .reclaims => { k with reclaims := satInc k.reclaims }
  | .patternReads => { k with patternReads := satInc k.patternReads }
  | .writeErrors => { k with writeErrors := satInc k.writeErrors }
  | .readErrors => { k with readErrors := satInc k.readErrors }
  | .recordErrors => { k with recordErrors := satInc k.recordErrors }
  | .guardRefusals => { k with guardRefusals := satInc k.guardRefusals }

/-- A ring counts one event. -/
def Ring.count (c : Counter) (r : Ring) : Ring :=
  { r with counters := r.counters.bump c }

/-- PRESENT of a ring in the attention summary: its set is not empty (10 R171). -/
def Ring.present (r : Ring) : Bool :=
  r.attention != 0

/-- PENDING of a ring: its set and its mask have a cause in common (10 R171). -/
def Ring.attnPending (r : Ring) : Bool :=
  (r.attention &&& r.mask) != 0

/-- PENDING of the global set (10 R171). -/
def State.globalPending (s : State) : Bool :=
  s.globalAttn && s.globalMask

/-- ATTN_N is asserted, driven low, exactly while some set and mask intersect (10 R170, R171). -/
def State.attnAsserted (s : State) : Bool :=
  s.rings.toList.any Ring.attnPending || s.globalPending

end Sys2Proof.Machine
end

