-- ==== Sys2Proof/Machine/Operands.lean ====
section
/-! DEFINITION. The forms in which values arrive and leave: serial bits, packed words, descriptor words, byte ranges,
translated addresses, pattern and record bytes (chapters 8 and 12). -/

namespace Sys2Proof.Machine

/-- Slots 0 to 7 in ascending order. -/
def allSlots : List SlotId := [0, 1, 2, 3, 4, 5, 6, 7]

/-- Rings 0 to 3 in ascending order. -/
def allRings : List RingId := [0, 1, 2, 3]

/-- Outstanding-table indexes 0 to 31 in ascending order. -/
def allTags : List DownTag :=
  [0, 1, 2, 3, 4, 5, 6, 7, 8, 9, 10, 11, 12, 13, 14, 15] ++
  [16, 17, 18, 19, 20, 21, 22, 23, 24, 25, 26, 27, 28, 29, 30, 31]

/-! ### Serial bits (10 R160) -/

/-- The number that bits spell, most significant first. -/
def bitsToNat (bits : List Bool) : Nat :=
  bits.foldl (fun n b => 2 * n + b.toNat) 0

/-- The 32 bits of a word in the order they travel: most significant byte and bit first. -/
def wordBits (w : Word) : List Bool :=
  (List.range 32).map (fun i => w.getLsbD (31 - i))

/-- The frame that the first bits taken since the fall of CS_N make, up to the end of byte 2 (10 R160): the code, then the
word address, high byte first. A write frame goes on with its first word, a read frame with its turnaround byte. -/
def headerFrame (bits : List Bool) : Frame :=
  if bits.length < 8 then .header bits
  else
    let code := bitsToNat (bits.take 8)
    let addr := BitVec.ofNat 16 (bitsToNat ((bits.drop 8).take 16))
    if code = Config.writeCode then
      if bits.length < 24 then .header bits else .write addr []
    else if code = Config.readCode then
      if bits.length < 24 then .header bits else .turnaround addr 0
    else .ignored

/-! ### Packed words -/

/-- One field of a packed word: its lowest bit, its width and its value. -/
structure Field where
  low : Nat
  width : Nat
  value : Nat
  deriving DecidableEq, Repr

/-- A word packed from fields; bits outside every field are 0 (12 R174). -/
def packWord (fields : List Field) : Word :=
  fields.foldl (fun w f => w ||| (BitVec.ofNat 32 (f.value % 2 ^ f.width) <<< f.low)) 0

/-- The low word of a 40-bit base (12 R176). -/
def baseLow (a : Addr) : Word := a.extractLsb' 0 32

/-- Bits 39:32 of a base in bits 7:0 of the next word (12 R176). -/
def baseHigh (a : Addr) : Word := (a.extractLsb' 32 8).setWidth 32

/-- A base with its low 32 bits written. -/
def withBaseLow (a : Addr) (w : Word) : Addr := a.extractLsb' 32 8 ++ w

/-- A base with its bits 39:32 written; the excess bits of the word are discarded (12 R177). -/
def withBaseHigh (a : Addr) (w : Word) : Addr := w.extractLsb' 0 8 ++ a.extractLsb' 0 32

/-! ### Descriptor words (12 Table 12-3) -/

/-- Writing a complete word of a descriptor changes the fields held in that word (05 R84, 12 R177). -/
def Descriptor.writeWord (i : Fin 32) (w : Word) (d : Descriptor) : Descriptor :=
  match i.val with
  | 0 => { d with fillBase := withBaseLow d.fillBase w }
  | 1 => { d with fillBase := withBaseHigh d.fillBase w }
  | 2 => { d with drainBase := withBaseLow d.drainBase w }
  | 3 => { d with drainBase := withBaseHigh d.drainBase w }
  | 4 => { d with aperSize := w }
  | 5 => { d with slotSize := w }
  | 6 => { d with
      slotCount := w.extractLsb' 0 4
      fillMode := w.extractLsb' 8 2
      drainMode := w.extractLsb' 10 2
      recordEnable := w.getLsbD 16 }
  | 7 => { d with recordCount := w.extractLsb' 0 9 }
  | 8 => { d with recordBase := withBaseLow d.recordBase w }
  | 9 => { d with recordBase := withBaseHigh d.recordBase w }
  | 26 => { d with closeOnLimit := w.getLsbD 31, closeLimit := w.extractLsb' 0 27 }
  | 27 => { d with
      closeEvent := w.extractLsb' 0 4
      releaseEvent := w.extractLsb' 4 4
      releaseOnLimit := w.getLsbD 8
      haltOnError := w.getLsbD 9
      overrun := w.extractLsb' 16 2
      underrun := w.extractLsb' 18 2
      guard := w.extractLsb' 20 2 }
  | 28 => { d with
      fillGap := w.extractLsb' 0 8
      drainGap := w.extractLsb' 8 8
      stallTimeout := w.extractLsb' 16 16 }
  | 29 => { d with budget := w.extractLsb' 0 16 }
  | 30 => { d with pattern := w }
  | 31 => d
  | n =>
    let k : SlotId := Fin.ofNat 8 ((n - 10) / 2)
    if n % 2 = 0 then { d with slotBase := d.slotBase.set k (withBaseLow d.slotBase[k] w) }
    else { d with slotBase := d.slotBase.set k (withBaseHigh d.slotBase[k] w) }

/-- A word of a descriptor as it is read; unassigned bits read 0 (12 R174, R176). -/
def Descriptor.readWord (i : Fin 32) (d : Descriptor) : Word :=
  match i.val with
  | 0 => baseLow d.fillBase
  | 1 => baseHigh d.fillBase
  | 2 => baseLow d.drainBase
  | 3 => baseHigh d.drainBase
  | 4 => d.aperSize
  | 5 => d.slotSize
  | 6 => packWord [⟨0, 4, d.slotCount.toNat⟩, ⟨8, 2, d.fillMode.toNat⟩, ⟨10, 2, d.drainMode.toNat⟩,
      ⟨16, 1, d.recordEnable.toNat⟩]
  | 7 => packWord [⟨0, 9, d.recordCount.toNat⟩]
  | 8 => baseLow d.recordBase
  | 9 => baseHigh d.recordBase
  | 26 => packWord [⟨31, 1, d.closeOnLimit.toNat⟩, ⟨0, 27, d.closeLimit.toNat⟩]
  | 27 => packWord [⟨0, 4, d.closeEvent.toNat⟩, ⟨4, 4, d.releaseEvent.toNat⟩, ⟨8, 1, d.releaseOnLimit.toNat⟩,
      ⟨9, 1, d.haltOnError.toNat⟩, ⟨16, 2, d.overrun.toNat⟩, ⟨18, 2, d.underrun.toNat⟩, ⟨20, 2, d.guard.toNat⟩]
  | 28 => packWord [⟨0, 8, d.fillGap.toNat⟩, ⟨8, 8, d.drainGap.toNat⟩, ⟨16, 16, d.stallTimeout.toNat⟩]
  | 29 => packWord [⟨0, 16, d.budget.toNat⟩]
  | 30 => d.pattern
  | 31 => 0
  | n =>
    let k : SlotId := Fin.ofNat 8 ((n - 10) / 2)
    if n % 2 = 0 then baseLow d.slotBase[k] else baseHigh d.slotBase[k]

/-- The live fields of Table 5-2 copied from `source`; the structural fields of `d` kept (05 R95). -/
def Descriptor.withLiveFields (source d : Descriptor) : Descriptor :=
  { d with
    slotBase := source.slotBase
    closeOnLimit := source.closeOnLimit
    closeLimit := source.closeLimit
    closeEvent := source.closeEvent
    releaseOnLimit := source.releaseOnLimit
    releaseEvent := source.releaseEvent
    fillGap := source.fillGap
    drainGap := source.drainGap
    overrun := source.overrun
    underrun := source.underrun
    pattern := source.pattern
    stallTimeout := source.stallTimeout
    budget := source.budget
    haltOnError := source.haltOnError
    guard := source.guard }

/-- The structural comparison: the ten fields of Table 5-1 are equal as stored numbers (05 R87). -/
def Descriptor.sameStructure (d e : Descriptor) : Bool :=
  d.fillBase == e.fillBase && d.drainBase == e.drainBase && d.aperSize == e.aperSize && d.slotCount == e.slotCount &&
  d.slotSize == e.slotSize && d.fillMode == e.fillMode && d.drainMode == e.drainMode &&
  d.recordEnable == e.recordEnable && d.recordBase == e.recordBase && d.recordCount == e.recordCount

/-! ### Encodings (12 Table 12-4). Unused encodings stop a START or an application (check 11), so a ring that is not
IDLE holds none; log 16 says what the comparisons below make of one. -/

/-- FILL_MODE is STREAMED. -/
def Descriptor.fillStreamed (d : Descriptor) : Bool := d.fillMode == 1

/-- DRAIN_MODE is STREAMED. -/
def Descriptor.drainStreamed (d : Descriptor) : Bool := d.drainMode == 1

/-- An event field names line n: 8 + n. -/
def namesLine (field : BitVec 4) (n : LineId) : Bool := field.toNat == 8 + n.val

/-- OVERRUN is DROP. -/
def Descriptor.overrunDrop (d : Descriptor) : Bool := d.overrun == 1

/-- OVERRUN is RECLAIM. -/
def Descriptor.overrunReclaim (d : Descriptor) : Bool := d.overrun == 2

/-- UNDERRUN is PATTERN. -/
def Descriptor.underrunPattern (d : Descriptor) : Bool := d.underrun == 1

/-- UNDERRUN is REPEAT. -/
def Descriptor.underrunRepeat (d : Descriptor) : Bool := d.underrun == 2

/-- The requests a GUARD value catches (08 R139). -/
def Descriptor.guardCatches (d : Descriptor) (k : Kind) : Bool :=
  match d.guard.toNat, k with
  | 1, .write => true
  | 2, _ => true
  | _, _ => false

/-- The slots below SLOT_COUNT, ascending (01 R4, R6). A count above 8 gives the eight slots there are (log 12). -/
def Descriptor.usedSlots (d : Descriptor) : List SlotId :=
  allSlots.filter (fun k => k.val < d.slotCount.toNat)

/-! ### Byte ranges (05 R88, 08 R134) -/

/-- A byte range [lo, hi) of exact addresses; it does not wrap at the top (08 R134). -/
structure ByteRange where
  lo : Nat
  hi : Nat
  deriving DecidableEq, Repr

/-- Two ranges share at least one byte address (05 R88, 08 R134). -/
def ByteRange.overlaps (a b : ByteRange) : Bool :=
  max a.lo b.lo < min a.hi b.hi

/-- Every byte of `a` is in `b` (08 R134). -/
def ByteRange.inside (a b : ByteRange) : Bool :=
  b.lo ≤ a.lo && a.hi ≤ b.hi

/-- [B, B + S) (00_scope). -/
def byteRange (base : Addr) (size : Nat) : ByteRange :=
  ⟨base.toNat, base.toNat + size⟩

/-- KIND of a request. -/
def requestKind (q : Request) : Kind :=
  match q.payload with
  | .read _ => .read
  | .write _ => .write

/-- The byte range of a request (08 R130). -/
def requestRange (q : Request) : ByteRange :=
  byteRange q.addr q.payload.length

/-- The fill aperture (05 R88). -/
def Descriptor.fillAperture (d : Descriptor) : ByteRange := byteRange d.fillBase d.aperSize.toNat

/-- The drain aperture (05 R88). -/
def Descriptor.drainAperture (d : Descriptor) : ByteRange := byteRange d.drainBase d.aperSize.toNat

/-- The slot region at a base (05 R88). -/
def Descriptor.slotRegion (d : Descriptor) (base : Addr) : ByteRange := byteRange base d.slotSize.toNat

/-- The record region, if the ring has one (05 R88). -/
def Descriptor.recordRegions (d : Descriptor) : List ByteRange :=
  if d.recordEnable then [byteRange d.recordBase (16 * d.recordCount.toNat)] else []

/-! ### Addresses and data -/

/-- A slot's base plus an offset, as a downstream ADDRESS (02 R24, R26, 03 R52, R53). -/
def translate (base : Addr) (offset : Nat) : Addr :=
  BitVec.ofNat 40 (base.toNat + offset)

/-- The address of a log position (04 R70, R77). -/
def logAddress (d : Descriptor) (position : Nat) : Addr :=
  BitVec.ofNat 40 (d.recordBase.toNat + 16 * position)

/-- Byte i of a word, byte 0 the least significant. -/
def wordByte (w : Word) (i : Nat) : Byte := w.extractLsb' (8 * i) 8

/-- DATA of a pattern answer: the byte at address A is byte (A mod 4) of PATTERN (03 R62). -/
def patternData (pattern : Word) (addr : Addr) (length : Nat) : List Byte :=
  (List.range length).map (fun i => wordByte pattern ((addr.toNat + i) % 4))

/-- A number as little-endian bytes (12 R181). -/
def littleEndian (n count : Nat) : List Byte :=
  (List.range count).map (fun i => BitVec.ofNat 8 (n / 256 ^ i))

/-- A close cause as it is coded in slot records and records (12 R179, R181); 0 for none. -/
def causeCode : Option CloseCause → Nat
  | none => 0
  | some .limit => 1
  | some .full => 2
  | some .event => 3
  | some .command => 4
  | some .stop => 5

/-- A record's KIND byte (12 R181). -/
def recordKindCode : RecordKind → Nat
  | .close => 1
  | .reclaim => 2

/-- The 16 bytes of a record (12 Table 12-9). -/
def recordBytes (x : LogRecord) (lap : BitVec 8) : List Byte :=
  littleEndian x.seq.toNat 2 ++
  [BitVec.ofNat 8 x.slot.val, BitVec.ofNat 8 (recordKindCode x.kind), BitVec.ofNat 8 (causeCode x.cause),
    BitVec.ofNat 8 (x.tainted.toNat + 2 * x.afterGap.toNat), lap, 0] ++
  littleEndian x.fillLength 4 ++ littleEndian x.bytesAccepted 4

/-- DATA of a refused request: LENGTH bytes of 00h for a READ, none for a WRITE (08 R131). -/
def refusedData (q : Request) : Option (List Byte) :=
  match q.payload with
  | .read n => some (List.replicate n 0)
  | .write _ => none

end Sys2Proof.Machine
end

