-- ==== Sys2Proof/Machine/Ops.lean ====
section
/-! DEFINITION. The named operations over the state: rings and slots, what leaves the ports, the refusal record, the
hold queue, the outstanding table and its arbiter (chapters 8 and 9). -/

namespace Sys2Proof.Machine

/-! ### Rings and slots -/

/-- Ring i. -/
def State.ring (i : RingId) (s : State) : Ring := s.rings[i]

/-- The state with ring i replaced. -/
def State.setRing (i : RingId) (r : Ring) (s : State) : State :=
  { s with rings := s.rings.set i r }

/-- The state with ring i changed by `f`. -/
def State.modRing (i : RingId) (f : Ring → Ring) (s : State) : State :=
  s.setRing i (f (s.ring i))

/-- Slot record k. -/
def Ring.slot (k : SlotId) (r : Ring) : Slot := r.slots[k]

/-- The ring with slot record k changed by `f`. -/
def Ring.modSlot (k : SlotId) (f : Slot → Slot) (r : Ring) : Ring :=
  { r with slots := r.slots.set k (f (r.slot k)) }

/-- The ring with slot k in another STATE. -/
def Ring.setSlotState (k : SlotId) (st : SlotState) (r : Ring) : Ring :=
  r.modSlot k (fun x => { x with state := st })

/-- The run states in which the slot pool moves and records are offered (Table 6-1, 01 R17, 04 R77). -/
def Ring.moves (r : Ring) : Bool :=
  r.runState == .running || r.runState == .ending

/-- The ring is not IDLE (06 R103). -/
def Ring.notIdle (r : Ring) : Bool := r.runState != .idle

/-! ### Events -/

/-- The state at the start of an event: nothing has left the ports in it yet (log 5). -/
def State.fresh (s : State) : State := { s with sent := [] }

/-- A re-examination of the hold queue is asked for (09 Table 9-1). -/
def State.askReexam (s : State) : State := { s with reexamAsked := true }

/-- Something changed that calls for a further walk (09 R151). -/
def State.noteChange (s : State) : State := { s with walkChanged := true }

/-! ### What leaves the ports -/

/-- An upstream response leaves the port at the moment it is made (09 R147). -/
def State.respond (i : Initiator) (tag : UpTag) (status : Status) (bytes : Option (List Byte)) (s : State) : State :=
  { s with sent := s.sent ++ [.upstream ⟨i, tag, status, bytes⟩] }

/-- A downstream request is sent (08 R132). -/
def State.sendDown (q : DownRequest) (s : State) : State :=
  { s with sent := s.sent ++ [.downstream q] }

/-! ### Refusals (08 R143 to R145) -/

/-- A refusal fills an empty refusal record and sets REFUSAL, or counts in LATER_COUNT (08 R144). -/
def State.noteRefusal (q : Request) (cause : RefusalCause) (i : RingId) (s : State) : State :=
  match s.refusal with
  | none =>
    { s with refusal := some ⟨cause, q.initiator, q.tag, q.addr, requestKind q, i⟩, globalAttn := true }
  | some _ => { s with laterCount := min (s.laterCount + 1) Config.laterCountMax }

/-- A refusal: an upstream ERROR, with no downstream request, entered in the refusal record (08 R143). -/
def State.refuse (q : Request) (cause : RefusalCause) (i : RingId) (s : State) : State :=
  (s.respond q.initiator q.tag .error (refusedData q)).noteRefusal q cause i

/-! ### The hold queue (09 R148) -/

/-- An entry joins at the tail with its arrival order and reason. -/
def State.join (q : Request) (r : Reason) (s : State) : State :=
  { s with hold := s.hold ++ [⟨s.nextOrder, q, r⟩], nextOrder := s.nextOrder + 1 }

/-- The entry with arrival order k. -/
def State.held? (k : Nat) (s : State) : Option Held :=
  s.hold.find? (fun h => h.order == k)

/-- The entry with arrival order k takes a reason; a reason that changes is a change of the walk (09 R151). -/
def State.setReason (k : Nat) (r : Reason) (s : State) : State :=
  match s.held? k with
  | none => s
  | some h =>
    if h.reason = r then s
    else { s with
      hold := s.hold.map (fun g => if g.order == k then { g with reason := r } else g)
      walkChanged := true }

/-- The entry with arrival order k leaves the queue; the others keep their order (09 R148). -/
def State.removeHeld (k : Nat) (s : State) : State :=
  { s with hold := s.hold.filter (fun h => h.order != k), walkChanged := true }

/-- Some entry is held with reason TABLE. -/
def State.anyTable (s : State) : Bool := s.hold.any (fun h => h.reason == .table)

/-- Some write of ring i is held with reason FILL_WAIT. -/
def State.anyFillWait (i : RingId) (s : State) : Bool := s.hold.any (fun h => h.reason == .fillWait i)

/-- Some read of ring i is held with reason DRAIN_WAIT. -/
def State.anyDrainWait (i : RingId) (s : State) : Bool := s.hold.any (fun h => h.reason == .drainWait i)

/-- The entries that `p` picks are answered ERROR with a cause and leave the queue, oldest first (09 R153, 08 R146). -/
def State.answerHeld (p : Held → Bool) (cause : RefusalCause) (i : RingId) (s : State) : State :=
  let answered := s.hold.filter p
  let left : State := { s with
    hold := s.hold.filter (fun h => !p h)
    walkChanged := s.walkChanged || !answered.isEmpty }
  answered.foldl (fun t h => t.refuse h.request cause i) left

/-- HOLD_DEPTH (09 R148). -/
def State.holdDepth (s : State) : Nat := s.hold.length

/-- The upstream port accepts a request: RESET_N is high and a hold entry is free (09 R147). -/
def State.upstreamReady (s : State) : Bool :=
  !s.resetLow && s.hold.length < Config.holdCapacity

/-! ### The outstanding table and its arbiter (09 R154, R155) -/

/-- The lowest-numbered free entry. -/
def State.freeTag? (s : State) : Option DownTag :=
  allTags.find? (fun t => s.table[t].isNone)

/-- Entry t becomes in use. -/
def State.grant (t : DownTag) (e : Entry) (s : State) : State :=
  { s with table := s.table.set t (some e) }

/-- Entry t becomes free. -/
def State.freeEntry (t : DownTag) (s : State) : State :=
  { s with table := s.table.set t none }

/-- TABLE_IN_USE (09 R154). -/
def State.tableInUse (s : State) : Nat := s.table.toList.countP Option.isSome

/-- The ring an entry belongs to; a PASS entry belongs to none (09 R154). -/
def entryRing : Entry → Option RingId
  | .pass _ _ _ => none
  | .fill i _ _ _ => some i
  | .drain i _ _ _ => some i
  | .record i _ _ => some i

/-- Some FILL, DRAIN or RECORD entry belongs to ring i (09 R154, 06 R110, R117). -/
def State.ownsEntry (i : RingId) (s : State) : Bool :=
  s.table.toList.any (fun e => (e.bind entryRing) == some i)

/-- The ring offers its head record (04 R77). -/
def Ring.offers (r : Ring) : Bool := r.moves && !r.records.isEmpty

/-- Some ring offers a record. -/
def State.anyOffer (s : State) : Bool := s.rings.toList.any Ring.offers

/-- The rings in the order of the record tier: from the ring after the one served last (09 R155). -/
def State.recordOrder (s : State) : List RingId :=
  [s.rrLast + 1, s.rrLast + 2, s.rrLast + 3, s.rrLast]

/-- The ring the record tier serves next. -/
def State.offeringRing? (s : State) : Option RingId :=
  s.recordOrder.find? (fun i => (s.ring i).offers)

/-- RECORD_INDEX and LAP advance at an issue (04 R74). -/
def Ring.advanceLog (r : Ring) : Ring :=
  if r.recordIndex + 1 = r.active.recordCount.toNat then { r with recordIndex := 0, lap := r.lap + 1 }
  else { r with recordIndex := r.recordIndex + 1 }

/-- The head record leaves the queue and the log position advances (04 R77). -/
def Ring.takeRecord (rest : List LogRecord) (r : Ring) : Ring :=
  { r.advanceLog with records := rest }

/-- The record writer issues ring i's head record x into entry t, in one step (04 R77). -/
def State.issueRecord (i : RingId) (t : DownTag) (x : LogRecord) (rest : List LogRecord) (s : State) : State :=
  let r := s.ring i
  let request : DownRequest :=
    ⟨t, 0, 0, logAddress r.active r.recordIndex, .write (recordBytes x r.lap)⟩
  { ((s.modRing i (Ring.takeRecord rest)).grant t (.record i x.slot x.kind)).sendDown request with
    rrLast := i }

/-- One grant of the record tier: the first offering ring in turn takes the lowest free entry (09 R155). -/
def State.grantRecord? (s : State) : Option (RingId × State) :=
  match s.freeTag?, s.offeringRing? with
  | some t, some i =>
    match (s.ring i).records with
    | x :: rest => some (i, s.issueRecord i t x rest)
    | [] => none
  | _, _ => none

/-- Grants of the record tier until no entry is free or no ring offers; `n` bounds their number. -/
def State.grantRecordsUpTo : Nat → State → State
  | 0, s => s
  | n + 1, s =>
    match s.grantRecord? with
    | none => s
    | some (_, t) => State.grantRecordsUpTo n t

/-- A free entry and an offered record do not stand side by side (09 R155). A grant uses one of 32 entries, so 32
grants are all there can be. -/
def State.grantRecords (s : State) : State := State.grantRecordsUpTo 32 s

/-- The entry that a PASS, FILL or DRAIN transaction may take at its decode, if any: an arrival only when no entry is
held with reason TABLE, a held entry (`who` is its arrival order) without that test (09 R149, R151, R155). -/
def State.mayIssue (who : Option Nat) (s : State) : Option DownTag :=
  if s.anyOffer then none
  else if who.isNone && s.anyTable then none
  else s.freeTag?

end Sys2Proof.Machine
end

