-- ==== Sys2Proof/Machine/Pool.lean ====
section
/-! DEFINITION. The slot pool (chapter 1) with the records it builds (chapter 4), the fill side's take and the drain
side's take and release (02 R21, 03 R49, R58, R59), and the return from ENDING to IDLE that a release can bring (06 R110, R111). -/

namespace Sys2Proof.Machine

/-! ### Close fields and records -/

/-- The close fields cleared, as at a take (01 R3). -/
def Slot.clearClose (x : Slot) : Slot :=
  { x with seq := 0, fillLength := 0, bytesAccepted := 0, cause := none, tainted := false, afterGap := false }

/-- A slot record at a take or reclaim: the close fields cleared, STATE FILLING, BASE latched (01 R2, R3, R6). -/
def Slot.refill (base : Addr) (x : Slot) : Slot :=
  { x.clearClose with state := .filling, base := base }

/-- A CLOSE record, from the slot's close fields as they stand (04 R72). -/
def closeRecord (k : SlotId) (x : Slot) : LogRecord :=
  ⟨.close, k, x.seq, x.cause, x.tainted, x.afterGap, x.fillLength, x.bytesAccepted⟩

/-- A RECLAIM record, from the slot's close fields before the reclaim clears them (04 R73). -/
def reclaimRecord (k : SlotId) (x : Slot) : LogRecord :=
  ⟨.reclaim, k, x.seq, none, x.tainted, x.afterGap, x.fillLength, x.bytesAccepted⟩

/-- A record joins the tail of the ring's record queue (04 R75). -/
def Ring.queueRecord (x : LogRecord) (r : Ring) : Ring :=
  { r with records := r.records ++ [x] }

/-! ### Advancing the ready queue (01 R8, R9) -/

/-- The head of the ready queue is SETTLED. -/
def Ring.headSettled (r : Ring) : Bool :=
  match r.ready with
  | [] => false
  | e :: _ => (r.slot e.slot).state == .settled

/-- A condition on the predecessor's stage; it holds for the head, which has none (01 R7). -/
def predecessorIs (allowed : List SlotState) (pred : Option SlotState) : Bool :=
  match pred with
  | none => true
  | some st => allowed.contains st

/-- A CLOSING entry advances (01 R8). -/
def Ring.closingAdvances (e : ReadyEntry) (pred : Option SlotState) (r : Ring) : Bool :=
  r.moves && (r.slot e.slot).state == .closing && (r.slot e.slot).outstanding == 0 &&
  predecessorIs (if r.active.recordEnable then [.recording, .settled] else [.settled]) pred

/-- A RECORDING entry settles (01 R9). -/
def Ring.recordingSettles (e : ReadyEntry) (pred : Option SlotState) (r : Ring) : Bool :=
  r.moves && (r.slot e.slot).state == .recording && e.answered && predecessorIs [.settled] pred

/-- An entry becomes SETTLED, and attention SETTLED is set (01 R10). -/
def Ring.settleSlot (k : SlotId) (r : Ring) : Ring :=
  (r.setSlotState k .settled).attend .settled

/-- One entry tested, with its predecessor's stage (01 R8, R9). -/
def Ring.advanceOne (e : ReadyEntry) (pred : Option SlotState) (r : Ring) : Ring :=
  if r.closingAdvances e pred then
    if r.active.recordEnable then
      (r.setSlotState e.slot .recording).queueRecord (closeRecord e.slot (r.slot e.slot))
    else r.settleSlot e.slot
  else if r.recordingSettles e pred then r.settleSlot e.slot
  else r

/-- The entries tested from the head toward the tail (01 R8). -/
def Ring.advanceFrom : List ReadyEntry → Option SlotState → Ring → Ring
  | [], _, r => r
  | e :: es, pred, r =>
    let next := r.advanceOne e pred
    Ring.advanceFrom es (some (next.slot e.slot).state) next

/-- The cascade over the whole queue (01 R8, R10). -/
def Ring.advance (r : Ring) : Ring := Ring.advanceFrom r.ready none r

/-- Some entry is SETTLED in `after` that was not in `before`. -/
def settledSince (before after : Ring) : Bool :=
  before.ready.any fun e => (before.slot e.slot).state != .settled && (after.slot e.slot).state == .settled

/-- The cascade of ring i; a settle asks for a re-examination (01 R10). -/
def State.advanceRing (i : RingId) (s : State) : State :=
  let before := s.ring i
  let after := before.advance
  let t := s.setRing i after
  if settledSince before after then t.askReexam else t

/-! ### The drain side's take (03 R49) -/

/-- The three conditions of the drain take. -/
def Ring.drainMayTake (r : Ring) : Bool :=
  (r.drainSub == .empty || r.drainSub == .waiting) && r.moves && r.headSettled

/-- The drain side takes the head of the ready queue (01 R11, 03 R49). -/
def Ring.drainTake (r : Ring) : Ring :=
  match r.ready with
  | [] => r
  | e :: rest =>
    { r.setSlotState e.slot .draining with
      ready := rest
      drainSlot := some e.slot
      drainSub := .draining
      drainCursor := 0
      bytesRead := 0
      underrunNoted := false
      drainTimer := none }

/-- The drain side of ring i takes a settled head if it may; the entries behind the head are tested again, since their
predecessor has left (01 R8), and a re-examination is asked for (09 Table 9-1). -/
def State.takeSettled (i : RingId) (s : State) : State :=
  if (s.ring i).drainMayTake then
    (((s.modRing i Ring.drainTake).advanceRing i).askReexam).noteChange
  else s

/-- The cascade and what it hands on: a drain take by an EMPTY or WAITING drain side (01 R10). -/
def State.settleRing (i : RingId) (s : State) : State :=
  (s.advanceRing i).takeSettled i

/-! ### The fill side's take (02 R21) and the return of a slot to the free list (01 R14) -/

/-- The fill side takes the head of the free list (01 R2, R3, R6, 02 R20, R21). -/
def Ring.fillTake (r : Ring) : Ring :=
  match r.freeList with
  | [] => r
  | k :: rest =>
    { r.modSlot k (Slot.refill r.active.slotBase[k]) with
      freeList := rest
      fillSlot := some k
      fillSub := .filling
      fillCursor := 0
      fillBytes := 0
      highMark := 0
      fillTimer := none }

/-- The three conditions of the fill take (02 R21). -/
def Ring.fillMayTake (r : Ring) : Bool :=
  (r.fillSub == .noSlot || r.fillSub == .waiting) && r.runState == .running && !r.freeList.isEmpty

/-- The fill side of ring i takes the free-list head if it may; a re-examination is asked for if it was WAITING (02 R21). -/
def State.takeFree (i : RingId) (s : State) : State :=
  if (s.ring i).fillMayTake then
    let t := (s.modRing i Ring.fillTake).noteChange
    if (s.ring i).fillSub == .waiting then t.askReexam else t
  else s

/-- A slot becomes FREE and joins the free-list tail (01 R6). -/
def Ring.appendFree (k : SlotId) (r : Ring) : Ring :=
  { r.setSlotState k .free with freeList := r.freeList ++ [k] }

/-- A RELEASING slot leaves the releasing set for the free list (01 R14). -/
def Ring.freeReleased (k : SlotId) (r : Ring) : Ring :=
  { r.appendFree k with releasing := r.releasing.filter (· != k) }

/-- The same with what follows it: a fill side without a slot takes the head at once (01 R6, R14). -/
def State.freeReleased (i : RingId) (k : SlotId) (s : State) : State :=
  (s.modRing i (Ring.freeReleased k)).takeFree i

/-- A slot's OUTSTANDING falls by one (01 R5). -/
def Ring.countDown (k : SlotId) (r : Ring) : Ring :=
  r.modSlot k (fun x => { x with outstanding := x.outstanding - 1 })

/-- A slot's OUTSTANDING falls by one; at 0 a CLOSING slot may advance and a RELEASING slot returns to the free list,
while the ring is RUNNING or ENDING (01 R5, R8, R14, R17). -/
def State.countResponse (i : RingId) (k : SlotId) (s : State) : State :=
  let t := s.modRing i (Ring.countDown k)
  let r := t.ring i
  if (r.slot k).outstanding == 0 && r.moves then
    match (r.slot k).state with
    | .closing => t.settleRing i
    | .releasing => t.freeReleased i k
    | _ => t
  else t

/-! ### The return from ENDING to IDLE (06 R110, R111) -/

/-- The free list of a fresh start: 0 to SLOT_COUNT − 1 ascending (01 R6). -/
def Ring.rebuildFree (r : Ring) : Ring :=
  { r with freeList := r.active.usedSlots }

/-- The whole shadow copied, as by a COMMIT in IDLE and at the return to IDLE: BUDGET_REMAINING loaded, attention
COMMIT_APPLIED set, the free list rebuilt under a new SLOT_COUNT if the ring has been started (05 R91, R97, 01 R18). -/
def Ring.copyShadow (r : Ring) : Ring :=
  let t := ({ r with
    active := r.shadow
    activeValid := true
    commitPending := false
    budgetRemaining := r.shadow.budget.toNat }).attend .commitApplied
  if r.shadow.slotCount != r.active.slotCount && r.started then t.rebuildFree else t

/-- Both working states as ENDING→IDLE and ABORT completion leave them (02 R20, 03 R47). -/
def Ring.clearWork (r : Ring) : Ring :=
  { r with
    fillCursor := 0
    fillBytes := 0
    highMark := 0
    gapPending := false
    drainCursor := 0
    bytesRead := 0
    underrunNoted := false }

/-- The ring's side of the return to IDLE, steps 1 to 5 (06 R111). -/
def Ring.returnToIdle (r : Ring) : Ring :=
  let t := { r.clearWork with runState := .idle }
  (if t.commitPending then t.copyShadow else t).attend .ended

/-- The seven completion conditions, in ENDING (06 R110). -/
def State.endingDone (i : RingId) (s : State) : Bool :=
  let r := s.ring i
  r.runState == .ending && r.fillSub == .closed && r.ready.isEmpty && r.drainSub == .empty && r.releasing.isEmpty &&
  r.records.isEmpty && !s.anyFillWait i && !s.anyDrainWait i && !s.ownsEntry i

/-- The ENDING completion test, and the return to IDLE when all seven hold (06 R110, R111). -/
def State.testEnding (i : RingId) (s : State) : State :=
  if s.endingDone i then (s.modRing i Ring.returnToIdle).askReexam else s

/-! ### Release and retention (03 R58, R59) -/

/-- A release in the ring: the drain slot enters the releasing set and leaves the drain side EMPTY in one step (01 R4),
with the count and the attention (03 R58). -/
def Ring.release (d : SlotId) (r : Ring) : Ring :=
  { ((r.setSlotState d .releasing).count .releases).attend .released with
    releasing := r.releasing ++ [d]
    drainSlot := none
    drainCursor := 0
    bytesRead := 0
    drainSub := .empty
    drainTimer := none }

/-- A release of the drain slot (03 R58): a slot with no read in flight passes on to the free list at once (01 R14), and a
settled head is taken. -/
def State.releaseSlot (i : RingId) (s : State) : State :=
  match (s.ring i).drainSlot with
  | none => s
  | some d =>
    let entered := s.modRing i (Ring.release d)
    let freed := if ((s.ring i).slot d).outstanding == 0 then entered.freeReleased i d else entered
    (freed.takeSettled i).askReexam

/-- A retention of the drain slot (03 R59). -/
def Ring.retain (r : Ring) : Ring :=
  match r.drainSlot with
  | none => r
  | some d =>
    { (r.setSlotState d .retained).count .retains with
      drainSub := .retained
      drainCursor := 0
      bytesRead := 0
      drainTimer := none }

/-- A trigger releases, rather than retains (03 R58). -/
def Ring.triggerReleases (r : Ring) : Bool :=
  r.runState == .ending || !r.active.underrunRepeat || r.headSettled

/-- A drain slot exists. -/
def Ring.hasDrainSlot (r : Ring) : Bool := r.drainSub == .draining || r.drainSub == .retained

/-- A release trigger on the drain slot (03 R58, R59); a release is followed by the completion test (06 R110). -/
def State.trigger (i : RingId) (s : State) : State :=
  if (s.ring i).triggerReleases then (s.releaseSlot i).testEnding i
  else s.modRing i Ring.retain

/-! ### Departures from the hold queue -/

/-- The fill side has no slot and does not wait: its timer is stopped (02 R19, R35, 07 R126). -/
def Ring.emptyFill (r : Ring) : Ring :=
  { r with fillSub := .noSlot, fillTimer := none }

/-- The drain side has no slot and no longer waits: its timer is stopped (03 R46, 07 R126). -/
def Ring.endDrainWait (r : Ring) : Ring :=
  { r with drainSub := .empty, drainTimer := none }

/-- When the last held wait of a side leaves the hold queue, the side leaves WAITING and its timer stops (02 R19, 03
R46, 07 R126; of a WAITING fill side log 33); the departure of a DRAIN_WAIT read tests the completion (06 R110). -/
def State.afterDeparture (r : Reason) (s : State) : State :=
  match r with
  | .fillWait i =>
    if !s.anyFillWait i && (s.ring i).fillSub == .waiting then
      s.modRing i Ring.emptyFill
    else s
  | .drainWait i =>
    (if !s.anyDrainWait i && (s.ring i).drainSub == .waiting then
      s.modRing i Ring.endDrainWait
    else s).testEnding i
  | .order => s
  | .table => s

/-- A transaction that is answered or issued leaves the hold queue, if it was held: `who` is its arrival order (09 R148). -/
def State.leave (who : Option Nat) (s : State) : State :=
  match who with
  | none => s
  | some k =>
    match s.held? k with
    | none => s
    | some h => (s.removeHeld k).afterDeparture h.reason

end Sys2Proof.Machine
end

