-- ==== Sys2Proof/Machine/Checks.lean ====
section
/-! DEFINITION. The validity checks of START and of an application (05 R86 to R90) and what an applied or lost commit
does (05 R95, R96, R98). -/

namespace Sys2Proof.Machine

/-! ### Ranges (05 R88) -/

/-- The slot regions of a ring under check, from the descriptor being checked. -/
def Descriptor.slotRegions (d : Descriptor) : List ByteRange :=
  d.usedSlots.map (fun k => d.slotRegion d.slotBase[k])

/-- The slot regions of another ring: each slot at its latched BASE and at the active SLOT_BASE (05 R88). -/
def Ring.standingSlotRegions (r : Ring) : List ByteRange :=
  r.active.usedSlots.flatMap
    (fun k => [r.active.slotRegion (r.slot k).base, r.active.slotRegion r.active.slotBase[k]])

/-- Both apertures of a descriptor. -/
def Descriptor.apertures (d : Descriptor) : List ByteRange := [d.fillAperture, d.drainAperture]

/-- The other rings that are not IDLE (05 R88). -/
def State.otherRings (i : RingId) (s : State) : List Ring :=
  ((allRings.filter (· != i)).map (fun j => s.ring j)).filter Ring.notIdle

/-- No range of the one list overlaps a range of the other. -/
def disjointFrom (xs ys : List ByteRange) : Bool :=
  xs.all fun x => ys.all fun y => !x.overlaps y

/-- The ranges of a list are pairwise disjoint. -/
def pairwiseDisjoint : List ByteRange → Bool
  | [] => true
  | x :: xs => (xs.all fun y => !x.overlaps y) && pairwiseDisjoint xs

/-- The number is 2^a with a from `low` to `high`. -/
def isPowerBetween (low high n : Nat) : Bool :=
  ((List.range (high + 1)).drop low).any (fun a => n == 2 ^ a)

/-! ### The twelve checks (05 Table 5-3), each on a descriptor d of ring i -/

/-- Check 1: APER_SIZE is a power of two from 4 KiB to 64 MiB. -/
def Descriptor.check1 (d : Descriptor) : Bool := isPowerBetween 12 26 d.aperSize.toNat

/-- Check 2: both bases are multiples of APER_SIZE. -/
def Descriptor.check2 (d : Descriptor) : Bool :=
  d.fillBase.toNat % d.aperSize.toNat == 0 && d.drainBase.toNat % d.aperSize.toNat == 0

/-- Check 3: FILL_BASE differs from DRAIN_BASE. -/
def Descriptor.check3 (d : Descriptor) : Bool := d.fillBase != d.drainBase

/-- Check 4: neither aperture overlaps a range of another ring that is not IDLE. -/
def State.check4 (i : RingId) (d : Descriptor) (s : State) : Bool :=
  (s.otherRings i).all fun r =>
    disjointFrom d.apertures (r.active.apertures ++ r.standingSlotRegions ++ r.active.recordRegions)

/-- Check 5: SLOT_COUNT is 2 to 8. -/
def Descriptor.check5 (d : Descriptor) : Bool := 2 ≤ d.slotCount.toNat && d.slotCount.toNat ≤ 8

/-- Check 6: SLOT_SIZE is a multiple of 256 from 256 to APER_SIZE. -/
def Descriptor.check6 (d : Descriptor) : Bool :=
  d.slotSize.toNat % 256 == 0 && 256 ≤ d.slotSize.toNat && d.slotSize.toNat ≤ d.aperSize.toNat

/-- Check 7: each used SLOT_BASE is a multiple of 256, and its region ends at or below the top. -/
def Descriptor.check7 (d : Descriptor) : Bool :=
  d.usedSlots.all fun k =>
    d.slotBase[k].toNat % 256 == 0 && d.slotBase[k].toNat + d.slotSize.toNat ≤ Config.addressTop

/-- The ranges that check 8 compares in both forms: own apertures and record region, other rings' slots and logs (05
R89, R90). -/
def State.check8Common (i : RingId) (d : Descriptor) (s : State) : Bool :=
  pairwiseDisjoint d.slotRegions &&
  disjointFrom d.slotRegions (d.apertures ++ d.recordRegions) &&
  (s.otherRings i).all fun r => disjointFrom d.slotRegions (r.standingSlotRegions ++ r.active.recordRegions)

/-- Check 8 at an application also holds each new region against the latched range of every other slot (05 R90). -/
def Ring.newRegionsClear (d : Descriptor) (r : Ring) : Bool :=
  d.usedSlots.all fun k => d.usedSlots.all fun j =>
    j == k || !(d.slotRegion d.slotBase[k]).overlaps (d.slotRegion (r.slot j).base)

/-- Check 9: no slot region overlaps an aperture of this ring or of any ring that is not IDLE. -/
def State.check9 (i : RingId) (d : Descriptor) (s : State) : Bool :=
  disjointFrom d.slotRegions d.apertures &&
  (s.otherRings i).all fun r => disjointFrom d.slotRegions r.active.apertures

/-- Check 10: with CLOSE_ON_LIMIT, CLOSE_LIMIT is 1 to SLOT_SIZE. -/
def Descriptor.check10 (d : Descriptor) : Bool :=
  !d.closeOnLimit || (1 ≤ d.closeLimit.toNat && d.closeLimit.toNat ≤ d.slotSize.toNat)

/-- An event field holds NONE or a line (12 Table 12-4). -/
def eventFieldValid (f : BitVec 4) : Bool := f == 0 || 8 ≤ f.toNat

/-- Check 11: the enumerated fields hold valid encodings (12 Table 12-4). -/
def Descriptor.check11 (d : Descriptor) : Bool :=
  d.fillMode.toNat ≤ 1 && d.drainMode.toNat ≤ 1 && eventFieldValid d.closeEvent && eventFieldValid d.releaseEvent &&
  d.overrun != 3 && d.underrun != 3 && d.guard != 3

/-- Check 12: the record region (05 Table 5-3, R89). -/
def State.check12 (i : RingId) (d : Descriptor) (s : State) : Bool :=
  !d.recordEnable ||
  (isPowerBetween 2 8 d.recordCount.toNat &&
   d.recordBase.toNat % (16 * d.recordCount.toNat) == 0 &&
   disjointFrom d.recordRegions (d.apertures ++ d.slotRegions) &&
   (s.otherRings i).all fun r =>
     disjointFrom d.recordRegions (r.active.apertures ++ r.standingSlotRegions ++ r.active.recordRegions))

/-- The number of the first check that fails. -/
def firstFailure (checks : List (Nat × Bool)) : Option Nat :=
  (checks.find? (fun c => !c.2)).map (·.1)

/-- The twelve checks at START, on the active descriptor, in the order of their numbers (05 R89). -/
def State.startFailure (i : RingId) (s : State) : Option Nat :=
  let d := (s.ring i).active
  firstFailure [(1, d.check1), (2, d.check2), (3, d.check3), (4, s.check4 i d), (5, d.check5), (6, d.check6),
    (7, d.check7), (8, s.check8Common i d), (9, s.check9 i d), (10, d.check10), (11, d.check11), (12, s.check12 i d)]

/-- The live checks at an application, on the shadow (05 R90). -/
def State.liveFailure (i : RingId) (s : State) : Option Nat :=
  let d := (s.ring i).shadow
  firstFailure [(7, d.check7), (8, s.check8Common i d && (s.ring i).newRegionsClear d), (9, s.check9 i d),
    (10, d.check10), (11, d.check11)]

/-! ### The pending commit (05 R95, R96, R98) -/

/-- A pending commit is lost with a cause (05 R96, R98). -/
def Ring.loseCommit (cause : LostCause) (r : Ring) : Ring :=
  ({ r with commitPending := false, lostCause := cause }).attend .commitLost

/-- A pending commit is applied: the live fields, the budget, the flag and the attention (05 R95). -/
def Ring.applyCommit (r : Ring) : Ring :=
  ({ r with
    active := Descriptor.withLiveFields r.shadow r.active
    budgetRemaining := r.shadow.budget.toNat
    commitPending := false }).attend .commitApplied

/-- The application of ring i's pending commit: comparison, live checks, then copy or loss (05 R95, R96). -/
def State.applyPending (i : RingId) (s : State) : State :=
  let r := s.ring i
  if !r.shadow.sameStructure r.active then s.modRing i (Ring.loseCommit .structuralChange)
  else
    match s.liveFailure i with
    | some n => s.modRing i (Ring.loseCommit (.invalid n))
    | none => ((s.modRing i Ring.applyCommit).askReexam).noteChange

/-- Step 4 of a close: run when COMMIT_PENDING is set and the ring is still RUNNING (02 R34). -/
def State.applyIfPending (i : RingId) (s : State) : State :=
  if (s.ring i).commitPending && (s.ring i).runState == .running then s.applyPending i else s

end Sys2Proof.Machine
end

