-- ==== Sys2Proof/Machine/Fill.lean ====
section
/-! DEFINITION. The fill side (chapter 2): the close procedure, the end of the fill, reclaim, overrun and the write
decision; with what a decision of the issue unit can come to. -/

namespace Sys2Proof.Machine

/-- What a decode or a side's decision comes to: answered or issued, or to be held with a reason (09 R149, R151). -/
inductive Verdict
  | done
  | hold (reason : Reason)
  deriving DecidableEq, Repr

/-! ### The close procedure (02 R32 to R35) -/

/-- The slot record with the close fields of the frame that the fill side closes (02 R32). -/
def Ring.closeFields (cause : CloseCause) (r : Ring) (x : Slot) : Slot :=
  { x with
    state := .closing
    seq := r.nextSeq
    fillLength := r.highMark
    bytesAccepted := r.fillBytes
    cause := some cause
    afterGap := x.afterGap || r.gapPending }

/-- Steps 1 and 2 in the ring: the close fields, NEXT_SEQ, the working state, the ready queue and CLOSES (02 R32). -/
def Ring.closeInto (cause : CloseCause) (k : SlotId) (r : Ring) : Ring :=
  let closed := r.modSlot k (r.closeFields cause)
  let queued : Ring := { closed with
    nextSeq := r.nextSeq + 1
    fillCursor := 0
    fillBytes := 0
    highMark := 0
    gapPending := false
    fillSlot := none
    ready := r.ready ++ [⟨k, false⟩] }
  queued.count .closes

/-- Steps 1 and 2 of a close of ring i's fill slot, with the advance and the record grants that follow (02 R32, 01 R8). -/
def State.closeSlot (i : RingId) (cause : CloseCause) (s : State) : State :=
  match (s.ring i).fillSlot with
  | none => s
  | some k => (((s.modRing i (Ring.closeInto cause k)).settleRing i).grantRecords).noteChange

/-- Step 3 of a close, the decrement of a budget (02 R33). -/
def Ring.spendBudget (r : Ring) : Ring :=
  if r.active.budget = 0 then { r with budgetRemaining := 0 }
  else { r with budgetRemaining := r.budgetRemaining - 1 }

/-- The budget is exhausted (02 R33). -/
def Ring.budgetSpent (r : Ring) : Bool :=
  r.active.budget != 0 && r.budgetRemaining == 0

/-- The ring's own part of the end of the fill: the fill side CLOSED, its timer stopped, the ring ENDING (06 R107
steps 1 and 2). -/
def Ring.endFill (r : Ring) : Ring :=
  { r with fillSub := .closed, fillTimer := none, runState := .ending }

/-- The end of the fill (02 R33, R41, 06 R107 steps 1 to 4, R108): the ring's own part, its held writes answered
FILL_CLOSED, and a RETAINED drain slot released if the ready queue is empty (03 R65). `also` is the arrival order of a
held write whose overflow close ended the fill: it is answered likewise, in its place in the queue (08 R146, log 13). -/
def State.endFill (i : RingId) (also : Option Nat) (s : State) : State :=
  let ended := (s.modRing i Ring.endFill).answerHeld (fun h => h.reason == .fillWait i || some h.order == also) .fillClosed i
  let r := ended.ring i
  (if r.drainSub == .retained && r.ready.isEmpty then ended.releaseSlot i else ended).askReexam

/-- Step 5 of a close: the next slot, or NO_SLOT (02 R35). -/
def State.nextFillSlot (i : RingId) (s : State) : State :=
  (s.modRing i Ring.emptyFill).takeFree i

/-- Steps 4 and 5 of a close, with the re-examination they ask for (02 R34, R35). -/
def State.finishClose (i : RingId) (s : State) : State :=
  (((s.applyIfPending i).nextFillSlot i).askReexam).noteChange

/-- The close procedure of a close that is no STOP close (02 R32 to R35). -/
def State.closeFrame (i : RingId) (cause : CloseCause) (also : Option Nat) (s : State) : State :=
  let counted := (s.closeSlot i cause).modRing i Ring.spendBudget
  if (counted.ring i).budgetSpent then (counted.endFill i also).testEnding i
  else counted.finishClose i

/-- The fill side can close a frame: the ring is RUNNING and the fill side FILLING with BYTES_ACCEPTED above 0 (02 R29, R30). -/
def Ring.canClose (r : Ring) : Bool :=
  r.runState == .running && r.fillSub == .filling && 0 < r.fillBytes

/-! ### Overrun (02 R36 to R39) -/

/-- The fill side's hold of an overrunning write: on the change from NO_SLOT to WAITING attention OVERRUN is set and
the timer starts, if STALL_TIMEOUT is not 0 (02 R37, 07 R125). -/
def Ring.fillStall (r : Ring) : Ring :=
  if r.fillSub == .noSlot then
    ({ r with
      fillSub := .waiting
      fillTimer := if r.active.stallTimeout = 0 then none else some r.active.stallTimeout.toNat }).attend .overrun
  else r

/-- A dropped write, in the ring (02 R38). -/
def Ring.dropWrite (r : Ring) : Ring :=
  ({ r with gapPending := true }.count .droppedWrites).attend .overrun

/-- The reclaim of the settled head, in the ring: the RECLAIM record first, then the slot becomes the fill slot (02
R39, 01 R11, 04 R73, R76). -/
def Ring.reclaim (r : Ring) : Ring :=
  match r.ready with
  | [] => r
  | e :: rest =>
    let recorded := if r.active.recordEnable then r.queueRecord (reclaimRecord e.slot (r.slot e.slot)) else r
    (({ recorded.modSlot e.slot (Slot.refill r.active.slotBase[e.slot]) with
      ready := rest
      fillSlot := some e.slot
      fillSub := .filling
      fillCursor := 0
      fillBytes := 0
      highMark := 0
      gapPending := true
      fillTimer := none }).count .reclaims).attend .overrun

/-- A reclaim by ring i's fill side; the entries behind the head are tested again, since their predecessor has left
(01 R8), and an offered record is granted (09 R155). -/
def State.reclaimHead (i : RingId) (s : State) : State :=
  (((s.modRing i Ring.reclaim).settleRing i).grantRecords).noteChange

/-! ### The write decision (02 R23 to R28) -/

/-- The write's offset in the fill slot: ADDRESS − FILL_BASE in MAPPED mode, CURSOR in STREAMED mode (02 R24, R26). -/
def Ring.fillOffset (q : Request) (r : Ring) : Nat :=
  if r.active.fillStreamed then r.fillCursor else q.addr.toNat - r.active.fillBase.toNat

/-- The bound check of step 1, MAPPED mode only (02 R24). -/
def Ring.writeOutside (q : Request) (r : Ring) : Bool :=
  !r.active.fillStreamed &&
  r.active.slotSize.toNat < (q.addr.toNat - r.active.fillBase.toNat) + q.payload.length

/-- The write overflows the fill slot (02 R25, R27). -/
def Ring.writeOverflows (q : Request) (r : Ring) : Bool :=
  r.fillSub == .filling &&
  (if r.active.fillStreamed then r.active.slotSize.toNat < r.fillCursor + q.payload.length
   else r.active.slotSize.toNat < r.fillBytes + q.payload.length)

/-- An accepted write, in the ring: OUTSTANDING and the working state (01 R5, 02 R24, R26). -/
def Ring.acceptWrite (q : Request) (k : SlotId) (r : Ring) : Ring :=
  let n := q.payload.length
  let counted := r.modSlot k (fun x => { x with outstanding := x.outstanding + 1 })
  if r.active.fillStreamed then
    { counted with
      highMark := r.fillCursor + n
      fillCursor := r.fillCursor + n + r.active.fillGap.toNat
      fillBytes := r.fillBytes + n }
  else
    { counted with
      fillBytes := r.fillBytes + n
      highMark := max r.highMark (r.fillOffset q + n) }

/-- The check after an accepted write (02 R28). -/
def State.limitClose (i : RingId) (s : State) : State :=
  let r := s.ring i
  if r.active.closeOnLimit && r.active.closeLimit.toNat ≤ r.fillBytes then s.closeFrame i .limit none
  else if r.active.fillStreamed && r.active.slotSize.toNat ≤ r.fillCursor then s.closeFrame i .full none
  else s

/-- Step 3: the write is issued into fill slot k at entry t and accepted (02 R23). -/
def State.acceptFill (who : Option Nat) (i : RingId) (k : SlotId) (t : DownTag) (q : Request) (s : State) : State :=
  let r := s.ring i
  let request : DownRequest :=
    ⟨t, q.initiator, q.tag, translate (r.slot k).base (r.fillOffset q), q.payload⟩
  ((((s.grant t (.fill i k q.initiator q.tag)).sendDown request).modRing i (Ring.acceptWrite q k)).leave who).limitClose i

/-- Step 3: placement of a write in the fill slot, or a hold with reason TABLE (02 R23). -/
def State.placeWrite (who : Option Nat) (i : RingId) (q : Request) (s : State) : State × Verdict :=
  match s.mayIssue who, (s.ring i).fillSlot with
  | some t, some k => (s.acceptFill who i k t q, .done)
  | _, _ => (s, .hold .table)

/-- An answer that is a refusal: the transaction leaves the hold queue, if it was held. -/
def State.refuseAnswer (who : Option Nat) (q : Request) (cause : RefusalCause) (i : RingId) (s : State) : State × Verdict :=
  ((s.refuse q cause i).leave who, .done)

/-- Step 4: an overrunning write meets the policy in force (02 R36 to R39, Table 2-5). -/
def State.overrun (who : Option Nat) (i : RingId) (q : Request) (s : State) : State × Verdict :=
  let r := s.ring i
  if r.active.overrunDrop then
    (((s.modRing i Ring.dropWrite).respond q.initiator q.tag .okay none).leave who, .done)
  else if r.active.overrunReclaim && r.headSettled then
    (s.reclaimHead i).placeWrite who i q
  else (s.modRing i Ring.fillStall, .hold (.fillWait i))

/-- The write has been answered with the held writes: it was held, and the end of the fill took it from the queue. -/
def State.answeredAlready (who : Option Nat) (s : State) : Bool :=
  match who with
  | none => false
  | some k => (s.held? k).isNone

/-- Steps 3 and 4: the decision under the substate that step 2 left. A write whose overflow close ended the fill is
refused FILL_CLOSED (02 R33), unless `endFill` has answered it in its place in the queue. -/
def State.decideAfterOverflow (who : Option Nat) (i : RingId) (q : Request) (s : State) : State × Verdict :=
  match (s.ring i).fillSub with
  | .filling => s.placeWrite who i q
  | .noSlot => s.overrun who i q
  | .waiting => s.overrun who i q
  | .closed => if s.answeredAlready who then (s, .done) else s.refuseAnswer who q .fillClosed i

/-- The fill side's decision of a write, in four steps (02 R23). -/
def State.decideWrite (who : Option Nat) (i : RingId) (q : Request) (s : State) : State × Verdict :=
  if (s.ring i).writeOutside q then s.refuseAnswer who q .outsideSlot i
  else if (s.ring i).writeOverflows q then (s.closeFrame i .full who).decideAfterOverflow who i q
  else s.decideAfterOverflow who i q

end Sys2Proof.Machine
end

