-- ==== Sys2Proof/Machine/Drain.lean ====
section
/-! DEFINITION. The drain side's read decision (chapter 3). Its take, release and retention stand in Pool.lean. -/

namespace Sys2Proof.Machine

/-- The read's offset in the drain slot: ADDRESS − DRAIN_BASE in MAPPED mode, CURSOR in STREAMED mode (03 R52, R53). -/
def Ring.drainOffset (q : Request) (r : Ring) : Nat :=
  if r.active.drainStreamed then r.drainCursor else q.addr.toNat - r.active.drainBase.toNat

/-- The bound check of step 1, MAPPED mode only (03 R52). -/
def Ring.readOutside (q : Request) (r : Ring) : Bool :=
  !r.active.drainStreamed &&
  r.active.slotSize.toNat < (q.addr.toNat - r.active.drainBase.toNat) + q.payload.length

/-- A STREAMED read past the end of the slot (03 R53). -/
def Ring.readPastEnd (q : Request) (r : Ring) : Bool :=
  r.active.drainStreamed && r.active.slotSize.toNat < r.drainCursor + q.payload.length

/-- The drain position (03 Table 3-2). -/
def Ring.drainPosition (r : Ring) : Nat :=
  if r.active.drainStreamed then r.drainCursor else r.bytesRead

/-- An accepted read, in the ring: OUTSTANDING and the working state (01 R5, 03 R52, R53). -/
def Ring.acceptRead (q : Request) (d : SlotId) (r : Ring) : Ring :=
  let n := q.payload.length
  let counted := r.modSlot d (fun x => { x with outstanding := x.outstanding + 1 })
  let read := { counted with bytesRead := min (r.bytesRead + n) Config.bytesReadMax }
  if r.active.drainStreamed then { read with drainCursor := r.drainCursor + n + r.active.drainGap.toNat } else read

/-- The check after an accepted read (03 R55). -/
def State.limitRelease (i : RingId) (d : SlotId) (s : State) : State :=
  let r := s.ring i
  if r.active.releaseOnLimit && (r.slot d).fillLength ≤ r.drainPosition then s.trigger i else s

/-- The read is issued from drain slot d at entry t and accepted (03 R51). -/
def State.acceptDrain (who : Option Nat) (i : RingId) (d : SlotId) (t : DownTag) (q : Request) (s : State) : State :=
  let r := s.ring i
  let request : DownRequest :=
    ⟨t, q.initiator, q.tag, translate (r.slot d).base (r.drainOffset q), q.payload⟩
  ((((s.grant t (.drain i d q.initiator q.tag)).sendDown request).modRing i (Ring.acceptRead q d)).leave who).limitRelease i d

/-- Step 2: placement of a read in the drain slot, a refusal past its end, or a hold with reason TABLE (03 R51, R53). -/
def State.placeRead (who : Option Nat) (i : RingId) (q : Request) (s : State) : State × Verdict :=
  if (s.ring i).readPastEnd q then s.refuseAnswer who q .outsideSlot i
  else
    match s.mayIssue who, (s.ring i).drainSlot with
    | some t, some d => (s.acceptDrain who i d t q, .done)
    | _, _ => (s, .hold .table)

/-- The drain side's hold of an underrunning read: on the change from EMPTY to WAITING attention UNDERRUN is set and
the timer starts, if STALL_TIMEOUT is not 0 (03 R61, 07 R125). -/
def Ring.drainStall (r : Ring) : Ring :=
  if r.drainSub == .empty then
    ({ r with
      drainSub := .waiting
      drainTimer := if r.active.stallTimeout = 0 then none else some r.active.stallTimeout.toNat }).attend .underrun
  else r

/-- A pattern answer, in the ring: the counter, and attention at the first since the last take (03 R62). -/
def Ring.patternAnswer (r : Ring) : Ring :=
  let counted := r.count .patternReads
  if r.underrunNoted then counted else { counted with underrunNoted := true }.attend .underrun

/-- Step 4: an underrunning read meets the policy in force (03 R61 to R64, Table 3-5). -/
def State.underrun (who : Option Nat) (i : RingId) (q : Request) (s : State) : State × Verdict :=
  let r := s.ring i
  if r.active.underrunPattern || r.active.underrunRepeat then
    (((s.modRing i Ring.patternAnswer).respond q.initiator q.tag .okay
      (some (patternData r.active.pattern q.addr q.payload.length))).leave who, .done)
  else (s.modRing i Ring.drainStall, .hold (.drainWait i))

/-- The drain side's decision of a read, in four steps (03 R51). -/
def State.decideRead (who : Option Nat) (i : RingId) (q : Request) (s : State) : State × Verdict :=
  let r := s.ring i
  if r.readOutside q then s.refuseAnswer who q .outsideSlot i
  else if r.hasDrainSlot then s.placeRead who i q
  else if r.runState == .ending && r.ready.isEmpty then s.refuseAnswer who q .ringEnding i
  else s.underrun who i q

end Sys2Proof.Machine
end

