-- ==== Sys2Proof/Machine/Issue.lean ====
section
/-! DEFINITION. Aperture decode, the backing guard and pass-through (chapter 8); arrival, the hold queue's
re-examination and acceptance at the upstream port (chapter 9). -/

namespace Sys2Proof.Machine

/-! ### Aperture matching (08 R134, R135) -/

/-- The decoded apertures, rings in ascending order (08 R134). -/
def State.decodedApertures (s : State) : List (RingId × Side × ByteRange) :=
  (allRings.filter (fun i => (s.ring i).notIdle)).flatMap fun i =>
    [(i, .fill, (s.ring i).active.fillAperture), (i, .drain, (s.ring i).active.drainAperture)]

/-- How a request stands to the decoded apertures. -/
inductive Match
  | outside
  | straddles (ring : RingId)
  | lies (ring : RingId) (side : Side)
  deriving DecidableEq, Repr

/-- The request's match: wholly inside one aperture, touching one or two (then the lower-numbered ring), or none (08
R134, R135). -/
def State.matchRequest (q : Request) (s : State) : Match :=
  let touched := s.decodedApertures.filter (fun a => (requestRange q).overlaps a.2.2)
  match touched.find? (fun a => (requestRange q).inside a.2.2) with
  | some a => .lies a.1 a.2.1
  | none =>
    match touched with
    | [] => .outside
    | a :: _ => .straddles a.1

/-! ### The backing guard (08 R139, R140) -/

/-- A ring's guarded ranges: its slots at their latched BASE, and its record region. -/
def Ring.guardedRanges (r : Ring) : List ByteRange :=
  r.active.usedSlots.map (fun k => r.active.slotRegion (r.slot k).base) ++ r.active.recordRegions

/-- The ring's guard catches the request. -/
def Ring.guardHits (q : Request) (r : Ring) : Bool :=
  r.notIdle && r.active.guardCatches (requestKind q) && r.guardedRanges.any (fun g => (requestRange q).overlaps g)

/-- The lowest-numbered catching ring. -/
def State.guardRing? (q : Request) (s : State) : Option RingId :=
  allRings.find? (fun i => (s.ring i).guardHits q)

/-! ### The decode (08 R133) -/

/-- A pass-through request is issued unchanged as a PASS entry, or held with reason TABLE (08 R141, 09 R149). -/
def State.passThrough (who : Option Nat) (q : Request) (s : State) : State × Verdict :=
  match s.mayIssue who with
  | none => (s, .hold .table)
  | some t =>
    (((s.grant t (.pass q.initiator q.tag (requestKind q))).sendDown
      ⟨t, q.initiator, q.tag, q.addr, q.payload⟩).leave who, .done)

/-- Steps 2 to 5, for a request that lies in an aperture (08 R136 to R138). -/
def State.decodeInside (who : Option Nat) (i : RingId) (side : Side) (q : Request) (s : State) : State × Verdict :=
  match (s.ring i).runState, side, requestKind q with
  | .fault, _, _ => s.refuseAnswer who q .ringFault i
  | .aborting, _, _ => s.refuseAnswer who q .aborted i
  | _, .fill, .read => s.refuseAnswer who q .wrongDirection i
  | _, .drain, .write => s.refuseAnswer who q .wrongDirection i
  | .ending, .fill, .write => s.refuseAnswer who q .fillClosed i
  | _, .fill, .write => s.decideWrite who i q
  | _, .drain, .read => s.decideRead who i q

/-- Steps 6 and 7, for a request that touches no decoded aperture (08 R139 to R141). -/
def State.decodeOutside (who : Option Nat) (q : Request) (s : State) : State × Verdict :=
  match s.guardRing? q with
  | some i => (s.modRing i (Ring.count .guardRefusals)).refuseAnswer who q .guard i
  | none => s.passThrough who q

/-- The decode of a request from step 1, with what the side or the issue unit then does (08 R133, 09 R149, R151). `who`
is the arrival order of a held entry, `none` for an arrival. -/
def State.decode (who : Option Nat) (q : Request) (s : State) : State × Verdict :=
  match s.matchRequest q with
  | .straddles i => s.refuseAnswer who q .straddle i
  | .lies i side => s.decodeInside who i side q
  | .outside => s.decodeOutside who q

/-! ### Re-examination (09 R151) -/

/-- An older entry of the same initiator is still held. -/
def State.blocked (h : Held) (s : State) : Bool :=
  s.hold.any (fun g => g.order < h.order && g.request.initiator == h.request.initiator)

/-- One entry visited by a walk, if it is still held: blocked, or decoded afresh (09 R151). -/
def State.visit (k : Nat) (s : State) : State :=
  match s.held? k with
  | none => s
  | some h =>
    if s.blocked h then s.setReason k .order
    else
      match s.decode (some k) h.request with
      | (t, .done) => t
      | (t, .hold r) => t.setReason k r

/-- A walk: the entries from the head to the tail; a record offered on the way is granted before the next entry (09
R151, R155). -/
def State.walk (s : State) : State :=
  (s.hold.map Held.order).foldl (fun t k => (t.visit k).grantRecords) s

/-- The state with both requests for a walk cleared. -/
def State.calm (s : State) : State := { s with reexamAsked := false, walkChanged := false }

/-- Walks until one changes nothing; `n` bounds their number (09 R151, log 15). -/
def State.walks : Nat → State → State
  | 0, s => s.calm
  | n + 1, s =>
    let t := s.calm.walk
    if t.reexamAsked || t.walkChanged then State.walks n t else t

/-- The re-examination, if one is asked for (09 R151). -/
def State.reexamine (s : State) : State :=
  if s.reexamAsked then State.walks Config.walkBound s else s.calm

/-! ### Arrival and acceptance (09 R147, R149) -/

/-- An accepted request: the order check, the decode and its outcome, then the re-examination that its decode asked
for (09 R149). -/
def State.arrive (q : Request) (s : State) : State :=
  let handled :=
    if s.hold.any (fun h => h.request.initiator == q.initiator) then s.join q .order
    else
      match s.decode none q with
      | (t, .done) => t
      | (t, .hold r) => t.join q r
  handled.grantRecords.reexamine

/-- The upstream port takes the waiting requests one at a time while a hold entry is free, each as an arrival of its
own (09 R147, R158). -/
def State.acceptFrom : List Request → State → State
  | [], s => { s with waiting := [] }
  | q :: qs, s =>
    if s.upstreamReady then State.acceptFrom qs ({ s with waiting := qs }.arrive q)
    else { s with waiting := q :: qs }

/-- The end of every event: the re-examination it asked for, then the requests that the port can now accept (09 R151,
R158). -/
def State.finish (s : State) : State :=
  let t := s.grantRecords.reexamine
  State.acceptFrom t.waiting t

end Sys2Proof.Machine
end

