-- ==== Sys2Proof/Machine/Runs.lean ====
section
/-! DEFINITION. Ring run states (chapter 6): START, STOP, FAULT entry, ABORT and its completion, COMMIT, CLOSE and
RELEASE as a ring takes them, and ACK (chapter 10). A command that acts ends with `State.finish`, since its whole effect
is one event (10 R166); one that is refused, or accepted with no effect, changes the command result alone. -/

namespace Sys2Proof.Machine

/-- The outcome of a command (10 R167). -/
inductive Reply
  | accepted
  | refused (cause : CommandCause) (check : Nat)
  deriving DecidableEq, Repr

/-! ### START (06 R105, R106) -/

/-- A slot record at START: the RESET_N values, with BASE latched below SLOT_COUNT and kept above (01 R1). -/
def Ring.startSlot (r : Ring) (k : SlotId) : Slot :=
  { Slot.zero with base := if k.val < r.active.slotCount.toNat then r.active.slotBase[k] else (r.slot k).base }

/-- Steps 1 to 7 of an accepted START (06 R106). -/
def Ring.begin (r : Ring) : Ring :=
  let fresh : Ring := { r.clearWork with
    slots := Vector.ofFn r.startSlot
    freeList := r.active.usedSlots
    ready := []
    releasing := []
    records := []
    fillSlot := none
    drainSlot := none
    nextSeq := 0
    budgetRemaining := r.active.budget.toNat
    recordIndex := 0
    lap := 0
    counters := Counters.zero
    started := true
    runState := .running
    fillSub := .noSlot
    fillTimer := none
    drainSub := .empty
    drainTimer := none }
  fresh.fillTake

/-- START taken by ring i (06 R104, R105). -/
def State.startRing (i : RingId) (s : State) : State × Reply :=
  let r := s.ring i
  if r.runState != .idle then (s, .refused .wrongState 0)
  else if !r.activeValid then (s, .refused .noDescriptor 0)
  else
    match s.startFailure i with
    | some n => (s, .refused .invalid n)
    | none => ((s.modRing i Ring.begin).askReexam.finish, .accepted)

/-! ### STOP (06 R107, 02 R41) -/

/-- An empty fill slot returned to the free list (01 R15, 02 R20). -/
def Ring.returnFillSlot (r : Ring) : Ring :=
  match r.fillSlot with
  | none => r
  | some k => { r.appendFree k with fillSlot := none, fillCursor := 0, fillBytes := 0, highMark := 0 }

/-- STOP's handling of the fill slot (02 R41, step 1). -/
def State.stopFillSlot (i : RingId) (s : State) : State :=
  let r := s.ring i
  if r.fillSub == .filling then
    if 0 < r.fillBytes then (s.closeSlot i .stop).modRing i Ring.spendBudget
    else s.modRing i Ring.returnFillSlot
  else s

/-- STOP taken by ring i: the end of the fill, the re-examination of step 4 in its place, then the completion test of
step 5 (06 R104, R107, log 14). -/
def State.stopRing (i : RingId) (s : State) : State × Reply :=
  if (s.ring i).runState != .running then (s, .refused .wrongState 0)
  else (((((s.stopFillSlot i).endFill i none).reexamine).testEnding i).finish, .accepted)

/-! ### FAULT (06 R113) -/

/-- The held waits of ring i, both sides. -/
def isWaitOf (i : RingId) (h : Held) : Bool :=
  h.reason == .fillWait i || h.reason == .drainWait i

/-- A pending commit, if there is one, is lost with a cause (05 R98). -/
def Ring.losePending (cause : LostCause) (r : Ring) : Ring :=
  if r.commitPending then r.loseCommit cause else r

/-- The ring's own part of FAULT entry, steps 1 to 5: the run state and cause, a WAITING side without its wait, both
timers stopped, a pending commit lost, attention FAULT (06 R113, 02 R42, 03 R66). -/
def Ring.enterFault (cause : FaultCause) (r : Ring) : Ring :=
  let halted : Ring := { r with
    runState := .fault
    faultCause := cause
    fillSub := if r.fillSub == .waiting then .noSlot else r.fillSub
    drainSub := if r.drainSub == .waiting then .empty else r.drainSub
    fillTimer := none
    drainTimer := none }
  (halted.losePending .faulted).attend .fault

/-- FAULT entry (06 R113). The answers of step 2 read nothing that steps 3 to 5 write, and the other way about. -/
def State.enterFault (i : RingId) (cause : FaultCause) (s : State) : State :=
  ((s.modRing i (Ring.enterFault cause)).answerHeld (isWaitOf i) .ringFault i).askReexam

/-! ### ABORT (06 R115, R117) -/

/-- The ring's own part of an accepted ABORT, steps 1 to 5: ABORTING, both sides and timers, the record queue discarded,
a pending commit lost (06 R115, 02 R43, 03 R67, 04 R83, 05 R98). -/
def Ring.enterAbort (r : Ring) : Ring :=
  let sides : Ring := { r with
    runState := .aborting
    fillSub := .closed
    drainSub := if r.drainSub == .waiting then .empty else r.drainSub
    fillTimer := none
    drainTimer := none
    records := [] }
  sides.losePending .aborted

/-- ABORT completion, steps 1 to 4, in the ring (06 R117, 01 R18). -/
def Ring.completeAbort (r : Ring) : Ring :=
  let freed := r.active.usedSlots.foldl (fun x k => x.setSlotState k .free) r
  let rest : Ring := { freed.clearWork with
    ready := []
    releasing := []
    fillSlot := none
    drainSlot := none
    freeList := r.active.usedSlots
    fillSub := .closed
    drainSub := .empty
    runState := .idle }
  rest.attend .ended

/-- The ABORT completion test: no outstanding-table entry belongs to the ring (06 R117). -/
def State.testAborting (i : RingId) (s : State) : State :=
  if (s.ring i).runState == .aborting && !s.ownsEntry i then (s.modRing i Ring.completeAbort).askReexam else s

/-- ABORT taken by ring i: the re-examination of step 6 in its place, then the completion test of step 7 (06 R104,
R115, log 14). The held waits are answered oldest first (09 R153, log 13). -/
def State.abortRing (i : RingId) (s : State) : State × Reply :=
  let r := s.ring i
  if r.runState == .idle || r.runState == .aborting then (s, .accepted)
  else
    let entered := ((s.modRing i Ring.enterAbort).answerHeld (isWaitOf i) .aborted i).askReexam
    ((entered.reexamine.testAborting i).finish, .accepted)

/-! ### COMMIT, CLOSE, RELEASE and ACK -/

/-- COMMIT_PENDING is set (05 R92). -/
def Ring.pendCommit (r : Ring) : Ring := { r with commitPending := true }

/-- COMMIT taken by ring i (05 R91 to R93). -/
def State.commitRing (i : RingId) (s : State) : State × Reply :=
  let r := s.ring i
  match r.runState with
  | .idle => ((s.modRing i Ring.copyShadow).askReexam.finish, .accepted)
  | .running | .ending =>
    if r.shadow.sameStructure r.active then (s.modRing i Ring.pendCommit, .accepted)
    else (s, .refused .structuralChange 0)
  | .fault | .aborting => (s, .refused .wrongState 0)

/-- CLOSE taken by ring i (02 R30). -/
def State.closeRing (i : RingId) (s : State) : State × Reply :=
  let r := s.ring i
  if r.runState != .running then (s, .refused .wrongState 0)
  else if r.canClose then ((s.closeFrame i .command none).finish, .accepted)
  else (s, .refused .nothingToClose 0)

/-- RELEASE taken by ring i (03 R57). -/
def State.releaseRing (i : RingId) (s : State) : State × Reply :=
  let r := s.ring i
  if !r.moves then (s, .refused .wrongState 0)
  else if r.hasDrainSlot then ((s.trigger i).finish, .accepted)
  else (s, .refused .nothingToRelease 0)

/-- ACK of ring i (10 R168). -/
def State.ackRing (causes : BitVec 10) (i : RingId) (s : State) : State × Reply :=
  (s.modRing i (Ring.acknowledge causes), .accepted)

/-- A global ACK carrying REFUSAL clears the refusal state in one step; another has no effect (08 R145, 10 R168). -/
def State.ackRefusal (causes : BitVec 10) (s : State) : State :=
  if causes.getLsbD 0 then { s with globalAttn := false, refusal := none, laterCount := 0 } else s

/-! ### The command result (10 R166, R167) -/

/-- The command result is overwritten and COUNT incremented (10 R167). -/
def State.setResult (c : CommandKind) (target : RingField) (isGlobal : Bool) (reply : Reply) (s : State) : State :=
  let n := s.result.count + 1
  match reply with
  | .accepted => { s with result := ⟨some c, target, isGlobal, false, .none, 0, n⟩ }
  | .refused cause check => { s with result := ⟨some c, target, isGlobal, true, cause, check, n⟩ }

/-- A command with a ring target: BAD_RING above 3, else the ring takes it (10 R166). -/
def State.takeCommand (c : CommandKind) (target : RingField) (f : RingId → State → State × Reply) (s : State) : State :=
  if h : target.val < 4 then
    let out := f ⟨target.val, h⟩ s
    out.1.setResult c target false out.2
  else s.setResult c target false (.refused .badRing 0)

/-- A global ACK, which names no ring (10 R166, R168). -/
def State.takeGlobalAck (target : RingField) (causes : BitVec 10) (s : State) : State :=
  (s.ackRefusal causes).setResult .ack target true .accepted

end Sys2Proof.Machine
end

