-- ==== Sys2Proof/Machine/Window.lean ====
section
/-! DEFINITION. What a read of the register window returns (chapter 12, 10 R162, R165, R171, R173). -/

namespace Sys2Proof.Machine

/-! ### Encodings of the read words -/

/-- EDGE as it is coded (12 R175). -/
def edgeCode : EdgeSel → Nat
  | .none => 0
  | .rising => 1
  | .falling => 2
  | .both => 3

/-- Run state as it is coded (12 Table 12-5). -/
def runCode : RunState → Nat
  | .idle => 0
  | .running => 1
  | .ending => 2
  | .fault => 3
  | .aborting => 4

/-- Fill substate as it is coded (12 Table 12-5). -/
def fillCode : FillSub → Nat
  | .closed => 0
  | .filling => 1
  | .noSlot => 2
  | .waiting => 3

/-- Drain substate as it is coded (12 Table 12-5). -/
def drainCode : DrainSub → Nat
  | .empty => 0
  | .waiting => 1
  | .draining => 2
  | .retained => 3

/-- A slot holder as it is coded: Fh for none (12 Table 12-5). -/
def holderCode : Option SlotId → Nat
  | none => 0xF
  | some k => k.val

/-- Fault cause as it is coded (12 Table 12-5). -/
def faultCode : FaultCause → Nat
  | .none => 0
  | .fillStall => 1
  | .drainStall => 2
  | .writeError => 3
  | .readError => 4

/-- Last commit-lost cause as it is coded (12 Table 12-5). -/
def lostCode : LostCause → Nat
  | .none => 0
  | .structuralChange => 1
  | .invalid _ => 2
  | .faulted => 3
  | .aborted => 4

/-- Its check number, for INVALID (05 R94, R96). DESIGN CHOICE (log 31): under the other causes R94 and Table 12-5 give
these bits no value, and they read 0. -/
def lostCheck : LostCause → Nat
  | .invalid n => n
  | .none | .structuralChange | .faulted | .aborted => 0

/-- Slot STATE as it is coded (12 Table 12-6). -/
def slotStateCode : SlotState → Nat
  | .free => 0
  | .filling => 1
  | .closing => 2
  | .recording => 3
  | .settled => 4
  | .draining => 5
  | .retained => 6
  | .releasing => 7

/-- The stage of a ready-queue entry as it is coded in the snapshot (12 R179); no other state stands in the queue. -/
def stageCode : SlotState → Nat
  | .closing => 1
  | .recording => 2
  | .settled => 3
  | .free | .filling | .draining | .retained | .releasing => 0

/-- Refusal cause as it is coded (12 R175). -/
def refusalCode : RefusalCause → Nat
  | .straddle => 1
  | .ringFault => 2
  | .aborted => 3
  | .wrongDirection => 4
  | .fillClosed => 5
  | .guard => 6
  | .outsideSlot => 7
  | .ringEnding => 8

/-- KIND as it is coded in the refusal record (12 R175). -/
def kindCode : Kind → Nat
  | .read => 0
  | .write => 1

/-- A command's code (12 Table 12-7). -/
def commandCode : CommandKind → Nat
  | .commit => 1
  | .start => 2
  | .stop => 3
  | .abort => 4
  | .close => 5
  | .release => 6
  | .ack => 7

/-- COMMAND of the command result as it is coded; 0 for none (12 Table 12-8). -/
def resultCode : Option CommandKind → Nat
  | none => 0
  | some c => commandCode c

/-- CAUSE of the command result as it is coded (12 Table 12-8). -/
def commandCauseCode : CommandCause → Nat
  | .none => 0
  | .wrongState => 1
  | .noDescriptor => 2
  | .invalid => 3
  | .structuralChange => 4
  | .nothingToClose => 5
  | .nothingToRelease => 6
  | .badRing => 7

/-! ### Global words (12 R175, R180) -/

/-- The event line configuration word. -/
def State.edgeWord (s : State) : Word :=
  packWord ((List.finRange 8).map fun n : LineId => ⟨2 * n.val, 2, edgeCode s.edges[n]⟩)

/-- The line level word. -/
def State.levelWord (s : State) : Word := s.levels.setWidth 32

/-- The command result word (12 Table 12-8). -/
def CommandResult.word (x : CommandResult) : Word :=
  packWord [⟨0, 4, resultCode x.command⟩, ⟨4, 3, x.target.val⟩, ⟨7, 1, x.isGlobal.toNat⟩, ⟨8, 1, x.refused.toNat⟩,
    ⟨9, 3, commandCauseCode x.cause⟩, ⟨12, 4, x.check⟩, ⟨16, 8, x.count.toNat⟩]

/-- The three words of the refusal record with LATER_COUNT; all zero when the record is empty (12 R175). -/
def State.refusalWord (i : Fin 3) (s : State) : Word :=
  match s.refusal with
  | none => 0
  | some x =>
    match i.val with
    | 0 => packWord [⟨31, 1, 1⟩, ⟨24, 4, refusalCode x.cause⟩, ⟨23, 1, kindCode x.kind⟩, ⟨20, 2, x.ring.val⟩,
        ⟨16, 4, x.initiator.val⟩, ⟨0, 16, s.laterCount⟩]
    | 1 => baseLow x.addr
    | _ => packWord [⟨8, 8, x.tag.toNat⟩, ⟨0, 8, (baseHigh x.addr).toNat⟩]

/-- Word 0011h: HOLD_DEPTH and TABLE_IN_USE. -/
def State.depthWord (s : State) : Word := packWord [⟨0, 5, s.holdDepth⟩, ⟨16, 6, s.tableInUse⟩]

/-- The ring attention summary word: PRESENT and PENDING of each set (10 R171). -/
def State.summaryWord (s : State) : Word :=
  packWord ((allRings.flatMap fun i =>
    [⟨2 * i.val, 1, (s.ring i).present.toNat⟩, ⟨2 * i.val + 1, 1, (s.ring i).attnPending.toNat⟩]) ++
    [⟨8, 1, s.globalAttn.toNat⟩, ⟨9, 1, s.globalPending.toNat⟩])

/-- A word of the global block (12 Table 12-1). The command register and the unassigned words read 0. -/
def State.readGlobal (a : Nat) (s : State) : Word :=
  match a with
  | 0x00 => Config.identification
  | 0x01 => s.edgeWord
  | 0x02 => s.levelWord
  | 0x05 => s.result.word
  | 0x08 => s.refusalWord 0
  | 0x09 => s.refusalWord 1
  | 0x0A => s.refusalWord 2
  | 0x10 => s.stray
  | 0x11 => s.depthWord
  | 0x20 => packWord [⟨0, 1, s.globalAttn.toNat⟩]
  | 0x21 => packWord [⟨0, 1, s.globalMask.toNat⟩]
  | 0x22 => s.summaryWord
  | _ => 0

/-! ### Ring words (12 R176, R178, R179) -/

/-- A timer word: running in bit 31, the remaining µs in 15:0; a stopped timer reads 0 (07 R124). -/
def timerWord : Option Nat → Word
  | none => 0
  | some n => packWord [⟨31, 1, 1⟩, ⟨0, 16, n⟩]

/-- The free-list word: length, then 3 bits per entry, head first (12 Table 12-5). -/
def Ring.freeListWord (r : Ring) : Word :=
  packWord (⟨0, 4, r.freeList.length⟩ :: (r.freeList.zipIdx.map fun e => ⟨4 + 3 * e.2, 3, e.1.val⟩))

/-- Word +080h. -/
def Ring.statusWord (r : Ring) : Word :=
  packWord [⟨0, 3, runCode r.runState⟩, ⟨4, 2, fillCode r.fillSub⟩, ⟨6, 2, drainCode r.drainSub⟩,
    ⟨8, 4, holderCode r.fillSlot⟩, ⟨12, 4, holderCode r.drainSlot⟩, ⟨16, 1, r.commitPending.toNat⟩,
    ⟨17, 3, faultCode r.faultCause⟩, ⟨20, 5, r.records.length⟩, ⟨25, 1, r.gapPending.toNat⟩,
    ⟨26, 1, r.underrunNoted.toNat⟩]

/-- The ring status words +080h to +08Bh (12 Table 12-5). -/
def Ring.readStatus (i : Nat) (r : Ring) : Word :=
  match i with
  | 0x0 => r.statusWord
  | 0x1 => packWord [⟨0, 16, r.nextSeq.toNat⟩, ⟨16, 16, r.budgetRemaining⟩]
  | 0x2 => packWord [⟨0, 8, r.recordIndex⟩, ⟨8, 8, r.lap.toNat⟩, ⟨16, 4, lostCode r.lostCause⟩,
      ⟨20, 4, lostCheck r.lostCause⟩]
  | 0x3 => r.freeListWord
  | 0x4 => packWord (r.releasing.map fun k => ⟨k.val, 1, 1⟩)
  | 0x5 => BitVec.ofNat 32 r.fillCursor
  | 0x6 => BitVec.ofNat 32 r.fillBytes
  | 0x7 => BitVec.ofNat 32 r.highMark
  | 0x8 => BitVec.ofNat 32 r.drainCursor
  | 0x9 => BitVec.ofNat 32 r.bytesRead
  | 0xA => timerWord r.fillTimer
  | 0xB => timerWord r.drainTimer
  | _ => 0

/-- A slot record's words (12 Table 12-6). -/
def Slot.readWord (i : Fin 4) (x : Slot) : Word :=
  match i.val with
  | 0 => packWord [⟨0, 3, slotStateCode x.state⟩, ⟨3, 6, x.outstanding⟩, ⟨9, 3, causeCode x.cause⟩,
      ⟨12, 1, x.tainted.toNat⟩, ⟨13, 1, x.afterGap.toNat⟩, ⟨16, 16, x.seq.toNat⟩]
  | 1 => x.base.extractLsb' 8 32
  | 2 => BitVec.ofNat 32 x.fillLength
  | _ => BitVec.ofNat 32 x.bytesAccepted

/-- A snapshot entry word (12 R179). -/
def Ring.entryWord (e : ReadyEntry) (r : Ring) : Word :=
  packWord [⟨0, 3, e.slot.val⟩, ⟨4, 2, stageCode (r.slot e.slot).state⟩, ⟨6, 1, e.answered.toNat⟩,
    ⟨16, 16, (r.slot e.slot).seq.toNat⟩]

/-- The ready-queue snapshot: the count, then the entries head first, 0 beyond it (12 R179). -/
def Ring.readSnapshot (i : Nat) (r : Ring) : Word :=
  match i with
  | 0 => packWord [⟨0, 4, r.ready.length⟩]
  | n + 1 =>
    match r.ready[n]? with
    | some e => r.entryWord e
    | none => 0

/-- The counters, in the order of Table 10-4 (12 R179). -/
def Counters.readWord (i : Nat) (k : Counters) : Word :=
  match i with
  | 0 => k.closes
  | 1 => k.releases
  | 2 => k.retains
  | 3 => k.droppedWrites
  | 4 => k.reclaims
  | 5 => k.patternReads
  | 6 => k.writeErrors
  | 7 => k.readErrors
  | 8 => k.recordErrors
  | 9 => k.guardRefusals
  | _ => 0

/-- A word of a ring block, by its offset (12 Table 12-2). -/
def Ring.readWord (off : Nat) (r : Ring) : Word :=
  if off < 0x020 then r.shadow.readWord (Fin.ofNat 32 off)
  else if off < 0x040 then 0
  else if off < 0x060 then r.active.readWord (Fin.ofNat 32 (off - 0x040))
  else if off = 0x060 then packWord [⟨0, 1, r.activeValid.toNat⟩]
  else if off < 0x080 then 0
  else if off < 0x08C then r.readStatus (off - 0x080)
  else if off < 0x0C0 then 0
  else if off < 0x0E0 then (r.slot (Fin.ofNat 8 ((off - 0x0C0) / 4))).readWord (Fin.ofNat 4 (off - 0x0C0))
  else if off < 0x100 then 0
  else if off < 0x109 then r.readSnapshot (off - 0x100)
  else if off < 0x140 then 0
  else if off < 0x14A then r.counters.readWord (off - 0x140)
  else if off = 0x180 then r.attention.setWidth 32
  else if off = 0x181 then r.mask.setWidth 32
  else 0

/-- The base of ring n's block (12 R174). -/
def ringBlock (i : RingId) : Nat := 0x1000 + i.val * 0x400

/-- A read of the register window (12 R174). -/
def State.readWord (a : WordAddr) (s : State) : Word :=
  let n := a.toNat
  if n < 0x100 then s.readGlobal n
  else if 0x1000 ≤ n ∧ n < 0x2000 then (s.ring (Fin.ofNat 4 ((n - 0x1000) / 0x400))).readWord ((n - 0x1000) % 0x400)
  else 0

end Sys2Proof.Machine
end

