-- ==== Sys2Proof/Machine/Port.lean ====
section
/-! DEFINITION. The management port: the words software may write and what each does (10 R164, R166), the frame that
carries a word (10 R160, R161, log 1), the bits the port takes (10 R160 to R162, log 2) and the level of MISO. -/

namespace Sys2Proof.Machine

/-! ### The writable words -/

/-- A shadow word of ring i takes a written value (05 R84). -/
def State.writeShadow (i : RingId) (k : Fin 32) (w : Word) (s : State) : State :=
  s.modRing i fun r => { r with shadow := r.shadow.writeWord k w }

/-- EDGE from its two bits (12 R175). -/
def edgeOf (bits : BitVec 2) : EdgeSel :=
  match bits.toNat with
  | 0 => .none
  | 1 => .rising
  | 2 => .falling
  | _ => .both

/-- The eight selections take the written values; the detector levels are as they were (07 R120). -/
def State.writeEdges (w : Word) (s : State) : State :=
  { s with edges := Vector.ofFn fun n : LineId => edgeOf (w.extractLsb' (2 * n.val) 2) }

/-- Ring i's attention mask becomes the written set (10 R170, 12 R179). -/
def State.writeMask (i : RingId) (w : Word) (s : State) : State :=
  s.modRing i fun r => { r with mask := w.extractLsb' 0 10 }

/-- The global attention mask becomes the written set (10 R170, 12 R175). -/
def State.writeGlobalMask (w : Word) (s : State) : State :=
  { s with globalMask := w.getLsbD 0 }

/-- A word written to the command register (10 R166, 12 Table 12-7). -/
def State.writeCommand (w : Word) (s : State) : State :=
  let target : RingField := Fin.ofNat 8 (w.extractLsb' 4 3).toNat
  let causes : BitVec 10 := w.extractLsb' 16 10
  match (w.extractLsb' 0 4).toNat with
  | 1 => s.takeCommand .commit target State.commitRing
  | 2 => s.takeCommand .start target State.startRing
  | 3 => s.takeCommand .stop target State.stopRing
  | 4 => s.takeCommand .abort target State.abortRing
  | 5 => s.takeCommand .close target State.closeRing
  | 6 => s.takeCommand .release target State.releaseRing
  | 7 => if w.getLsbD 7 then s.takeGlobalAck target causes else s.takeCommand .ack target (State.ackRing causes)
  | _ => s

/-- A complete word written to a word address (10 R164, 12 R174): a read-only or unassigned address ignores it. -/
def State.writeWord (a : WordAddr) (w : Word) (s : State) : State :=
  let n := a.toNat
  if n = 0x0001 then s.writeEdges w
  else if n = 0x0004 then s.writeCommand w
  else if n = 0x0021 then s.writeGlobalMask w
  else if 0x1000 ≤ n ∧ n < 0x2000 then
    let i : RingId := Fin.ofNat 4 ((n - 0x1000) / 0x400)
    let off := (n - 0x1000) % 0x400
    if off < 0x020 then s.writeShadow i (Fin.ofNat 32 off) w
    else if off = 0x181 then s.writeMask i w
    else s
  else s

/-! ### The word a command stands for -/

/-- The address of word k of ring i's shadow descriptor (12 Table 12-2). -/
def shadowAddr (i : RingId) (k : Fin 32) : WordAddr := BitVec.ofNat 16 (ringBlock i + k.val)

/-- The address of ring i's attention mask (12 Table 12-2). -/
def maskAddr (i : RingId) : WordAddr := BitVec.ofNat 16 (ringBlock i + 0x181)

/-- The command register's word for a command (12 Table 12-7). -/
def commandWord (c : CommandKind) (target : RingField) (isGlobal : Bool) (causes : BitVec 10) : Word :=
  packWord [⟨0, 4, commandCode c⟩, ⟨4, 3, target.val⟩, ⟨7, 1, isGlobal.toNat⟩, ⟨16, 10, causes.toNat⟩]

/-! ### The frame that carries a word (10 R160, R161, R163) -/

/-- The port takes this word at this address now: in a frame of its own where none is open, or as the word being moved
of the open write frame (log 1). -/
def State.takesWord (a : WordAddr) (w : Word) (s : State) : Bool :=
  !s.resetLow &&
  match s.port.frame with
  | .none => !s.port.csLow
  | .write addr moving => addr == a && (wordBits w).take moving.length == moving
  | .blocked | .header _ | .ignored | .turnaround _ _ | .read _ _ => false

/-- The frame after a complete word: the address is incremented, wrapping, and the next word begins (10 R161). -/
def Frame.afterWord : Frame → Frame
  | .write addr _ => .write (addr + 1) []
  | f => f

/-- The frame after a word, in the state. -/
def State.movePast (s : State) : State :=
  { s with port := { s.port with frame := s.port.frame.afterWord } }

/-- One word written at the management port, as one event with its effect (10 R161); a word that the port does not take
now is no event (log 1). -/
def State.portWrite (a : WordAddr) (w : Word) (effect : State → State) (s : State) : State :=
  if s.takesWord a w then effect s.fresh.movePast else s.fresh

/-! ### The bits of a frame (10 R160 to R162) -/

/-- The port with another frame state. -/
def State.setFrame (f : Frame) (s : State) : State := { s with port := { s.port with frame := f } }

/-- A read frame samples the word at its current word address as one whole, because its first bit is due on MISO, and the
address moves on by one, wrapping (10 R162, R165). -/
def State.sample (a : WordAddr) (s : State) : State :=
  { s with
    port := { s.port with frame := .read (a + 1) (wordBits (s.readWord a)) }
    sent := s.sent ++ [.miso (s.readWord a)] }

/-- A further bit of the word being moved of a write frame: its last bit writes the word, as one event (10 R161). -/
def State.takeWriteBit (a : WordAddr) (bits : List Bool) (s : State) : State :=
  if bits.length < 32 then s.setFrame (.write a bits)
  else (s.setFrame (.write (a + 1) [])).writeWord a (BitVec.ofNat 32 (bitsToNat bits))

/-- One bit of MOSI taken, with the bit of MISO that follows it (10 R160 to R162). An ignored frame takes none, and a port
without a frame neither; the counter of the free value is all that moves while the port waits for CS_N to rise (log 32). -/
def State.takeBit (s : State) (b : Bool) : State :=
  match s.port.frame with
  | .none => s
  | .blocked => { s with choices := s.choices + 1 }
  | .ignored => s
  | .header taken => s.setFrame (headerFrame (taken ++ [b]))
  | .write a moving => s.takeWriteBit a (moving ++ [b])
  | .turnaround a taken => if taken + 1 < 8 then s.setFrame (.turnaround a (taken + 1)) else s.sample a
  | .read a shifting =>
    if 1 < shifting.length then s.setFrame (.read a shifting.tail) else s.sample a

/-! ### CS_N and RESET_N at the port (10 R160, R163) -/

/-- CS_N falls and a frame begins; none begins while RESET_N is low. With CS_N low already it is the frame that is open
(log 2). -/
def State.openFrame (s : State) : State :=
  if s.port.csLow then s else { s with port := ⟨true, if s.resetLow then .none else .header []⟩ }

/-- CS_N falls, if it is high, and the port takes the bits that follow, one after another (10 R160 to R162). -/
def State.takeFrameBits (mosi : List Bool) (s : State) : State :=
  mosi.foldl State.takeBit s.fresh.openFrame

/-- CS_N rises: the frame ends, and the bits of an incomplete word are discarded. -/
def State.closePort (s : State) : State :=
  { s.fresh with port := ⟨false, .none⟩ }

/-- The clock of an open read frame runs on to the next sampling: the end of the turnaround byte, or of the word being
shifted out (10 R162, log 3). -/
def State.sampleRead (s : State) : State :=
  match s.port.frame with
  | .turnaround a _ => s.fresh.sample a
  | .read a _ => s.fresh.sample a
  | .none | .blocked | .header _ | .ignored | .write _ _ => s

/-- MISO is driven: CS_N is low and RESET_N high; it is released otherwise (10 R160, R163). -/
def State.misoDriven (s : State) : Bool := s.port.csLow && !s.resetLow

/-- The level of MISO, `none` while it is released: FFh in bytes 0 to 2, in the words of a write frame, in an ignored frame
and in the turnaround byte; the bits of the sampled word after it (10 R160, R162). While the port waits for CS_N to rise it
has no frame, and the level is a free value (log 32). -/
def State.misoLevel (s : State) : Option Bool :=
  if s.misoDriven then
    match s.port.frame with
    | .read _ shifting => some (shifting.headD true)
    | .blocked => some (Config.freeLevel s.choices)
    | .none | .header _ | .ignored | .write _ _ | .turnaround _ _ => some true
  else none

end Sys2Proof.Machine
end

