-- ==== Sys2Proof/Machine/Respond.lean ====
section
/-! DEFINITION. The handling of a downstream response by the owner of its entry (09 R156, R157, 02 R44, R45, 03 R68,
R69, 04 R78 to R80, 08 R141). -/

namespace Sys2Proof.Machine

/-- A slot's TAINTED flag is set (02 R45). -/
def Ring.taint (k : SlotId) (r : Ring) : Ring :=
  r.modSlot k fun x => { x with tainted := true }

/-- An ERROR response to a fill write: the slot tainted, the counter, the attention (02 R45 steps 1 and 2). -/
def Ring.noteWriteError (k : SlotId) (r : Ring) : Ring := ((r.taint k).count .writeErrors).attend .error

/-- An ERROR response to a drain read: the counter and the attention (03 R69 step 1). -/
def Ring.noteReadError (r : Ring) : Ring := (r.count .readErrors).attend .error

/-- An ERROR response to a record: the counter and the attention (04 R79). -/
def Ring.noteRecordError (r : Ring) : Ring := (r.count .recordErrors).attend .recordError

/-- An ERROR response under HALT_ON_ERROR takes a RUNNING or ENDING ring into FAULT (06 R112). -/
def State.haltOnError (i : RingId) (cause : FaultCause) (s : State) : State :=
  if (s.ring i).active.haltOnError && (s.ring i).moves then s.enterFault i cause else s

/-- The response to a fill write (02 R44, R45). -/
def State.fillResponse (i : RingId) (k : SlotId) (who : Initiator) (tag : UpTag) (status : Status) (s : State) : State :=
  match status with
  | .okay => (s.countResponse i k).respond who tag .okay none
  | .error =>
    (((s.modRing i (Ring.noteWriteError k)).haltOnError i .writeError).countResponse i k).respond who tag .error none

/-- The response to a drain read (03 R68, R69). -/
def State.drainResponse (i : RingId) (k : SlotId) (who : Initiator) (tag : UpTag) (status : Status) (bytes : List Byte)
    (s : State) : State :=
  match status with
  | .okay => (s.countResponse i k).respond who tag .okay (some bytes)
  | .error =>
    (((s.modRing i Ring.noteReadError).haltOnError i .readError).countResponse i k).respond who tag .error (some bytes)

/-- The answered mark is set on the ready-queue entry of slot k (04 R78). -/
def Ring.markAnswered (k : SlotId) (r : Ring) : Ring :=
  { r with ready := r.ready.map fun e => if e.slot = k then { e with answered := true } else e }

/-- The response to a record (04 R78, R79, R80). The entry settles only in RUNNING or ENDING, as `settleRing` says. -/
def State.recordResponse (i : RingId) (k : SlotId) (kind : RecordKind) (status : Status) (s : State) : State :=
  let counted :=
    match status with
    | .okay => s
    | .error => s.modRing i Ring.noteRecordError
  match kind with
  | .close => (counted.modRing i (Ring.markAnswered k)).settleRing i
  | .reclaim => counted

/-- DATA of the upstream response to a PASS entry: the downstream DATA for a READ (08 R141). -/
def passData (kind : Kind) (bytes : List Byte) : Option (List Byte) :=
  match kind with
  | .read => some bytes
  | .write => none

/-- Step 2 of a response: the owner's handling (09 R156). -/
def State.answerOwner (e : Entry) (status : Status) (bytes : List Byte) (s : State) : State :=
  match e with
  | .pass who tag kind => s.respond who tag status (passData kind bytes)
  | .fill i k who tag => s.fillResponse i k who tag status
  | .drain i k who tag => s.drainResponse i k who tag status bytes
  | .record i k kind => s.recordResponse i k kind status

/-- Step 3 of a response: the completion test of the ring the entry belonged to (09 R156). -/
def State.testCompletion (e : Entry) (s : State) : State :=
  match entryRing e with
  | none => s
  | some i => (s.testEnding i).testAborting i

/-- A response whose TAG names a free entry is discarded and counted (09 R157). -/
def State.countStray (s : State) : State := { s with stray := satInc s.stray }

/-- A downstream response, whole: free, owner, completion, and the grant and re-examination of `finish` (09 R156). -/
def State.takeResponse (t : DownTag) (status : Status) (bytes : List Byte) (s : State) : State :=
  match s.table[t] with
  | none => s.countStray
  | some e => (((s.freeEntry t).answerOwner e status bytes).testCompletion e).askReexam.finish

end Sys2Proof.Machine
end

