-- ==== Sys2Proof/Machine/Events.lean ====
section
/-! DEFINITION. RESET_N, the event lines and the stall timers (chapters 6, 7 and 9). -/

namespace Sys2Proof.Machine

/-! ### RESET_N (06 R103, 09 R159, 10 R163) -/

/-- RESET_N is low: every register and queue at its RESET_N value, no frame. The level of CS_N and the requests waiting
at the upstream port are outside; the detectors see no transition, so their levels stand (07 R120, 09 R147). -/
def State.inReset (s : State) : State :=
  { State.reset with
    resetLow := true
    levels := s.levels
    port := ⟨s.port.csLow, .none⟩
    waiting := s.waiting
    choices := s.choices
    pending := s.pending }

/-- RESET_N rises: each detector level takes its line's level, the management port waits for CS_N to fall (to rise
first, if it is low), and the upstream port accepts what waits (07 R120, 10 R163, 09 R147). -/
def State.riseFromReset (levels : BitVec 8) (s : State) : State :=
  { s with resetLow := false, levels := levels, port := ⟨s.port.csLow, if s.port.csLow then .blocked else .none⟩ }

/-! ### Event lines (07 R120 to R123) -/

/-- The transitions an EDGE value selects (Table 7-1). -/
def edgeSelects (e : EdgeSel) (rising : Bool) : Bool :=
  match e, rising with
  | .none, _ => false
  | .rising, up => up
  | .falling, up => !up
  | .both, _ => true

/-- The detector levels with line n at a level. -/
def levelSet (n : LineId) (high : Bool) (levels : BitVec 8) : BitVec 8 :=
  if high then levels ||| (1#8 <<< n.val) else levels &&& ~~~(1#8 <<< n.val)

/-- The ring's sides that an edge of line n reaches (07 R122). -/
def Ring.receivers (n : LineId) (i : RingId) (r : Ring) : List (RingId × Side) :=
  (if namesLine r.active.closeEvent n then [(i, Side.fill)] else []) ++
  (if namesLine r.active.releaseEvent n then [(i, Side.drain)] else [])

/-- The sides of all rings that an edge of line n reaches, each ring comparing at the moment of delivery (07 R122). -/
def State.receivers (n : LineId) (s : State) : List (RingId × Side) :=
  allRings.flatMap fun i => (s.ring i).receivers n i

/-- A close event or a release event received by a ring (02 R29, 03 R56, 06 R118). -/
def State.takeEvent (x : RingId × Side) (s : State) : State :=
  match x.2 with
  | .fill => if (s.ring x.1).canClose then s.closeFrame x.1 .event none else s
  | .drain => if (s.ring x.1).moves && (s.ring x.1).hasDrainSlot then s.trigger x.1 else s

/-- The order in which received events, or the expiries of one timebase step, are taken, which the spec leaves open (07
R122, R123, R124): where two or more are left, the free value `Config.freePick` at the counter c says which is taken next
(log 10). `n` is how many there are. -/
def takeOrder : Nat → Nat → List (RingId × Side) → List (RingId × Side)
  | 0, _, todo => todo
  | n + 1, c, todo =>
    match todo with
    | x :: y :: rest =>
      let k := Config.freePick c % (rest.length + 2)
      (x :: y :: rest).getD k x :: takeOrder n (c + 1) ((x :: y :: rest).eraseIdx k)
    | [x] => [x]
    | [] => []

/-- An edge of line n, delivered to every ring (07 R122): each received event is taken, one after another. -/
def State.deliver (n : LineId) (s : State) : State :=
  let todo := s.receivers n
  (takeOrder todo.length s.choices todo).foldl (fun t x => t.takeEvent x)
    { s with choices := s.choices + (todo.length - 1) }

/-- A transition that the detector of line n sees: its level follows, and it is an edge if EDGE selects it (07 R120,
R121). -/
def State.seeTransition (n : LineId) (rising : Bool) (s : State) : State :=
  let seen := { s with levels := levelSet n rising s.levels }
  if edgeSelects s.edges[n] rising then (seen.deliver n).finish else seen

/-! ### Stall timers (07 R124, R127) -/

/-- A running timer's remaining time falls by one (07 R124). -/
def tickTimer (t : Option Nat) : Option Nat := t.map (· - 1)

/-- Both timers of a ring at a step of the timebase. -/
def Ring.tick (r : Ring) : Ring :=
  { r with fillTimer := tickTimer r.fillTimer, drainTimer := tickTimer r.drainTimer }

/-- The decrement of a timebase step, in every ring (07 R124). -/
def State.tickAll (s : State) : State := { s with rings := s.rings.map Ring.tick }

/-- A ring's stall timer of one side. -/
def Ring.timer (side : Side) (r : Ring) : Option Nat :=
  match side with
  | .fill => r.fillTimer
  | .drain => r.drainTimer

/-- The fault cause of a timer's expiry (06 R112). -/
def stallCause : Side → FaultCause
  | .fill => .fillStall
  | .drain => .drainStall

/-- The expiry of a timer, with its whole event: FAULT entry (07 R127, 06 R113). -/
def State.faultFrom (x : RingId × Side) (s : State) : State := (s.enterFault x.1 (stallCause x.2)).finish

/-- A timer's remaining time has reached 0, and its ring is RUNNING or ENDING (07 R127). -/
def Ring.timerRunOut (side : Side) (r : Ring) : Bool := r.timer side == some 0 && r.moves

/-- The timers of all rings whose remaining time has reached 0. -/
def State.dueTimers (s : State) : List (RingId × Side) :=
  allRings.flatMap fun i =>
    (if (s.ring i).fillTimer == some 0 then [(i, Side.fill)] else []) ++
    (if (s.ring i).drainTimer == some 0 then [(i, Side.drain)] else [])

/-- One due timer's turn: it expires, unless an expiry before it has stopped it (07 R127, R129). -/
def State.takeExpiry (s : State) (x : RingId × Side) : State :=
  if (s.ring x.1).timerRunOut x.2 then s.faultFrom x else s

/-- One step of the 1 µs timebase: every running timer falls by one, and each that reaches 0 expires within the step, as an
event of its own, one after another in an order the spec leaves open (07 R124, R127; log 7, log 10). -/
def State.timebaseStep (s : State) : State :=
  let due := s.tickAll.dueTimers
  (takeOrder due.length s.choices due).foldl State.takeExpiry
    { s.tickAll with choices := s.choices + (due.length - 1) }

/-- A timer stands at its last microsecond, and its ring is RUNNING or ENDING. -/
def Ring.expires (side : Side) (r : Ring) : Bool :=
  (match r.timer side with
    | some n => n ≤ 1
    | none => false) && r.moves

/-- An expiry taken apart from the other timers' step: the timer's own last step brings it to 0 (07 R124: the timers run
independently; log 7). One that cannot fall in this state has no effect (log 8). -/
def State.expire (i : RingId) (side : Side) (s : State) : State :=
  if (s.ring i).expires side then s.faultFrom (i, side) else s

end Sys2Proof.Machine
end

