-- ==== Sys2Proof/Machine/Internal.lean ====
section
/-! DEFINITION. The steps the block makes of itself, each with its own test (chapters 1, 4, 5, 6 and 9). An external event
makes every such step that it enables before it ends (log 9); taken as a command, a step whose test fails has no effect. -/

namespace Sys2Proof.Machine

/-- One record grant, and the completion test that a record issue calls for (04 R77, 06 R110). -/
def State.issueOne (s : State) : State :=
  match s.grantRecord? with
  | none => s
  | some (i, t) => (t.testEnding i).finish

/-- A RELEASING slot of a RUNNING or ENDING ring has no read left in flight (01 R14). -/
def Ring.releaseDone (k : SlotId) (r : Ring) : Bool :=
  r.moves && r.releasing.contains k && (r.slot k).state == .releasing && (r.slot k).outstanding == 0

/-- A releasing slot's return to the free list, with the completion test (01 R14, 06 R110). -/
def State.completeRelease (i : RingId) (k : SlotId) (s : State) : State :=
  if (s.ring i).releaseDone k then ((s.freeReleased i k).testEnding i).finish else s

/-- The ready queue from slot k's entry on. -/
def Ring.fromEntry (k : SlotId) (r : Ring) : List ReadyEntry := r.ready.dropWhile fun e => e.slot != k

/-- The stage of the predecessor of slot k's entry. -/
def Ring.stageBefore (k : SlotId) (r : Ring) : Option SlotState :=
  (r.ready.takeWhile fun e => e.slot != k).getLast?.map fun e => (r.slot e.slot).state

/-- Slot k's entry meets a condition on itself and its predecessor. -/
def Ring.entryMeets (k : SlotId) (test : ReadyEntry → Option SlotState → Ring → Bool) (r : Ring) : Bool :=
  match r.fromEntry k with
  | [] => false
  | e :: _ => test e (r.stageBefore k) r

/-- Slot k's entry advances, and the cascade goes on toward the tail (01 R8, R9); what follows a settle follows (01 R10). -/
def State.advanceAt (i : RingId) (k : SlotId) (s : State) : State :=
  let before := s.ring i
  let after := Ring.advanceFrom (before.fromEntry k) (before.stageBefore k) before
  let t := s.setRing i after
  (if settledSince before after then t.askReexam else t).takeSettled i

/-- The advance of a CLOSING entry (01 R8). -/
def State.advanceClosing (i : RingId) (k : SlotId) (s : State) : State :=
  if (s.ring i).entryMeets k Ring.closingAdvances then (((s.advanceAt i k).grantRecords).testEnding i).finish else s

/-- The settle of a RECORDING entry (01 R9). -/
def State.settleRecording (i : RingId) (k : SlotId) (s : State) : State :=
  if (s.ring i).entryMeets k Ring.recordingSettles then (((s.advanceAt i k).grantRecords).testEnding i).finish else s

/-- The ring stands within a close, between its step 3 and its step 5: RUNNING, the closed slot has left the fill side, and
the next is not yet taken (02 R22, R32 to R35). -/
def Ring.inClose (r : Ring) : Bool :=
  r.runState == .running && r.fillSub == .filling && r.fillSlot.isNone

/-- The application of a pending commit, where it falls due: within a close, before the take of the next fill slot (02 R22,
R34, 05 R95). Step 5 of that close follows it (log 28). -/
def State.applyAlone (i : RingId) (s : State) : State :=
  if (s.ring i).commitPending && (s.ring i).inClose then (s.finishClose i).finish else s

/-- The ENDING completion, if its seven conditions hold (06 R110, R111). -/
def State.completeEnding (i : RingId) (s : State) : State :=
  if s.endingDone i then (s.testEnding i).finish else s

/-- The conditions of an ABORT completion (06 R117). -/
def State.abortDone (i : RingId) (s : State) : Bool :=
  (s.ring i).runState == .aborting && !s.ownsEntry i

/-- The ABORT completion, if no outstanding-table entry belongs to the ring (06 R117). -/
def State.completeAborting (i : RingId) (s : State) : State :=
  if s.abortDone i then (s.testAborting i).finish else s

/-- A re-examination (09 R151); none is made while RESET_N is low (09 R159). -/
def State.reexamineNow (s : State) : State :=
  if s.resetLow then s else s.askReexam.finish

end Sys2Proof.Machine
end

