-- ==== Sys2Proof/Machine/PinsAndPorts.lean ====
section
/-! DEFINITION. The meanings of the commands at the pins and the two bus ports: reset, requests, responses, lines, time. -/

namespace Sys2Proof.Machine

/-- RESET_N: the reset input is low (06 R103, 09 R159). -/
def execResetN (s : State) : Host.Outcome State Fault Refusal := .next s.inReset

/-- RESET_N_RISE (07 R120, 10 R163, 09 R147); no event while RESET_N is high (log 8). -/
def execResetNRise (levels : BitVec 8) (s : State) : Host.Outcome State Fault Refusal :=
  .next (if s.resetLow then (s.fresh.riseFromReset levels).finish else s.fresh)

/-- UPSTREAM_REQUEST: the request is presented, and accepted when the port can take it (09 R147, R149); while RESET_N is
low it waits (log 6). -/
def execUpstreamRequest (q : Request) (s : State) : Host.Outcome State Fault Refusal :=
  if q.wellFormed then
    let presented := { s.fresh with waiting := s.waiting ++ [q] }
    .next (if s.resetLow then presented else presented.finish)
  else .refused .illFormed

/-- DOWNSTREAM_RESPONSE (09 R156, R157); not taken in while RESET_N is low (09 R159). -/
def execDownstreamResponse (t : DownTag) (status : Status) (bytes : List Byte) (s : State) :
    Host.Outcome State Fault Refusal :=
  if bytes.length ≤ 256 then .next (if s.resetLow then s.fresh else s.fresh.takeResponse t status bytes)
  else .refused .illFormed

/-- EVENT_EDGE (07 R121, R122); while RESET_N is low the detectors see no transition (07 R120). -/
def execEventEdge (n : LineId) (rising : Bool) (s : State) : Host.Outcome State Fault Refusal :=
  .next (if s.resetLow then s.fresh else s.fresh.seeTransition n rising)

/-- LINE_TRANSITION (07 R120). It differs from EVENT_EDGE only in what EDGE holds (log 23). -/
def execLineTransition (n : LineId) (rising : Bool) (s : State) : Host.Outcome State Fault Refusal :=
  .next (if s.resetLow then s.fresh else s.fresh.seeTransition n rising)

/-- TIMEBASE_STEP (07 R124, R127). -/
def execTimebaseStep (s : State) : Host.Outcome State Fault Refusal := .next s.fresh.timebaseStep

/-- STALL_TIMER_EXPIRY (07 R127). -/
def execStallTimerExpiry (i : RingId) (side : Side) (s : State) : Host.Outcome State Fault Refusal :=
  .next (s.fresh.expire i side)

end Sys2Proof.Machine
end

