-- ==== Sys2Proof/Machine/Registers.lean ====
section
/-! DEFINITION. The meanings of the frame commands and of the words written to registers other than the command register. -/

namespace Sys2Proof.Machine

/-- FRAME_BEGIN (10 R160 to R162). -/
def execFrameBegin (mosi : List Bool) (s : State) : Host.Outcome State Fault Refusal := .next (s.takeFrameBits mosi)

/-- FRAME_END (10 R163). -/
def execFrameEnd (s : State) : Host.Outcome State Fault Refusal := .next s.closePort

/-- SHADOW_WRITE (05 R84). -/
def execShadowWrite (i : RingId) (k : Fin 32) (w : Word) (s : State) : Host.Outcome State Fault Refusal :=
  .next (s.portWrite (shadowAddr i k) w (State.writeShadow i k w))

/-- EVENT_LINE_CONFIGURATION (07 R120). -/
def execEventLineConfiguration (w : Word) (s : State) : Host.Outcome State Fault Refusal :=
  .next (s.portWrite 0x0001#16 w (State.writeEdges w))

/-- ATTENTION_MASK_WRITE (10 R170). -/
def execAttentionMaskWrite (i : RingId) (w : Word) (s : State) : Host.Outcome State Fault Refusal :=
  .next (s.portWrite (maskAddr i) w (State.writeMask i w))

/-- GLOBAL_ATTENTION_MASK_WRITE (10 R170). -/
def execGlobalAttentionMaskWrite (w : Word) (s : State) : Host.Outcome State Fault Refusal :=
  .next (s.portWrite 0x0021#16 w (State.writeGlobalMask w))

/-- REGISTER_WRITE: any word address (10 R164, 12 R174). -/
def execRegisterWrite (a : WordAddr) (w : Word) (s : State) : Host.Outcome State Fault Refusal :=
  .next (s.portWrite a w (State.writeWord a w))

end Sys2Proof.Machine
end

