-- ==== Sys2Proof/Machine/Commands.lean ====
section
/-! DEFINITION. The meanings of the commands of the command register (10 R166). -/

namespace Sys2Proof.Machine

/-- A command that names a ring, written to the command register at 0004h (10 R166, 12 Table 12-7). -/
def State.command (c : CommandKind) (target : RingField) (causes : BitVec 10) (f : RingId → State → State × Reply)
    (s : State) : State :=
  s.portWrite 0x0004#16 (commandWord c target false causes) (State.takeCommand c target f)

/-- COMMIT (05 R91 to R93). -/
def execCommit (target : RingField) (s : State) : Host.Outcome State Fault Refusal :=
  .next (s.command .commit target 0 State.commitRing)

/-- START (06 R104 to R106). -/
def execStart (target : RingField) (s : State) : Host.Outcome State Fault Refusal :=
  .next (s.command .start target 0 State.startRing)

/-- STOP (06 R104, R107). -/
def execStop (target : RingField) (s : State) : Host.Outcome State Fault Refusal :=
  .next (s.command .stop target 0 State.stopRing)

/-- ABORT (06 R104, R115). -/
def execAbort (target : RingField) (s : State) : Host.Outcome State Fault Refusal :=
  .next (s.command .abort target 0 State.abortRing)

/-- CLOSE (02 R30). -/
def execClose (target : RingField) (s : State) : Host.Outcome State Fault Refusal :=
  .next (s.command .close target 0 State.closeRing)

/-- RELEASE (03 R57). -/
def execRelease (target : RingField) (s : State) : Host.Outcome State Fault Refusal :=
  .next (s.command .release target 0 State.releaseRing)

/-- ACK of a ring (10 R168). -/
def execAck (target : RingField) (causes : BitVec 10) (s : State) : Host.Outcome State Fault Refusal :=
  .next (s.command .ack target causes (State.ackRing causes))

/-- ACK with the global flag (08 R145, 10 R168). -/
def execAckGlobal (target : RingField) (causes : BitVec 10) (s : State) : Host.Outcome State Fault Refusal :=
  .next (s.portWrite 0x0004#16 (commandWord .ack target true causes) (State.takeGlobalAck target causes))

end Sys2Proof.Machine
end

