-- ==== Sys2Proof/Machine/Steps.lean ====
section
/-! DEFINITION. The meanings of the steps the block makes of itself, as commands (log 9). -/

namespace Sys2Proof.Machine

/-- RECORD_ISSUE (04 R77, 09 R155). -/
def execRecordIssue (s : State) : Host.Outcome State Fault Refusal := .next s.fresh.issueOne

/-- RE_EXAMINATION (09 R151). -/
def execReExamination (s : State) : Host.Outcome State Fault Refusal := .next s.fresh.reexamineNow

/-- RELEASE_COMPLETION (01 R14). -/
def execReleaseCompletion (i : RingId) (k : SlotId) (s : State) : Host.Outcome State Fault Refusal :=
  .next (s.fresh.completeRelease i k)

/-- CLOSING_ADVANCE (01 R8). -/
def execClosingAdvance (i : RingId) (k : SlotId) (s : State) : Host.Outcome State Fault Refusal :=
  .next (s.fresh.advanceClosing i k)

/-- SETTLE (01 R9). -/
def execSettle (i : RingId) (k : SlotId) (s : State) : Host.Outcome State Fault Refusal :=
  .next (s.fresh.settleRecording i k)

/-- PENDING_COMMIT_APPLICATION (05 R95, R96). -/
def execPendingCommitApplication (i : RingId) (s : State) : Host.Outcome State Fault Refusal :=
  .next (s.fresh.applyAlone i)

/-- ENDING_COMPLETION (06 R110, R111). -/
def execEndingCompletion (i : RingId) (s : State) : Host.Outcome State Fault Refusal :=
  .next (s.fresh.completeEnding i)

/-- ABORT_COMPLETION (06 R117). -/
def execAbortCompletion (i : RingId) (s : State) : Host.Outcome State Fault Refusal :=
  .next (s.fresh.completeAborting i)

end Sys2Proof.Machine
end

