-- ==== Sys2Proof/Machine/Dispatch.lean ====
section
/-! DEFINITION. One arm per command: a direct call of its meaning. -/

namespace Sys2Proof.Machine

def exec (i : Instr) (s : State) : Host.Outcome State Fault Refusal :=
  match i with
  | .resetN => Sys2Proof.Machine.execResetN s
  | .resetNRise levels => Sys2Proof.Machine.execResetNRise levels s
  | .upstreamRequest request => Sys2Proof.Machine.execUpstreamRequest request s
  | .downstreamResponse tag status data => Sys2Proof.Machine.execDownstreamResponse tag status data s
  | .eventEdge line rising => Sys2Proof.Machine.execEventEdge line rising s
  | .stallTimerExpiry ring side => Sys2Proof.Machine.execStallTimerExpiry ring side s
  | .shadowWrite ring index word => Sys2Proof.Machine.execShadowWrite ring index word s
  | .eventLineConfiguration word => Sys2Proof.Machine.execEventLineConfiguration word s
  | .attentionMaskWrite ring word => Sys2Proof.Machine.execAttentionMaskWrite ring word s
  | .globalAttentionMaskWrite word => Sys2Proof.Machine.execGlobalAttentionMaskWrite word s
  | .registerWrite addr word => Sys2Proof.Machine.execRegisterWrite addr word s
  | .commit ring => Sys2Proof.Machine.execCommit ring s
  | .start ring => Sys2Proof.Machine.execStart ring s
  | .stop ring => Sys2Proof.Machine.execStop ring s
  | .abort ring => Sys2Proof.Machine.execAbort ring s
  | .close ring => Sys2Proof.Machine.execClose ring s
  | .release ring => Sys2Proof.Machine.execRelease ring s
  | .ack ring causes => Sys2Proof.Machine.execAck ring causes s
  | .ackGlobal ring causes => Sys2Proof.Machine.execAckGlobal ring causes s
  | .recordIssue => Sys2Proof.Machine.execRecordIssue s
  | .reExamination => Sys2Proof.Machine.execReExamination s
  | .releaseCompletion ring slot => Sys2Proof.Machine.execReleaseCompletion ring slot s
  | .closingAdvance ring slot => Sys2Proof.Machine.execClosingAdvance ring slot s
  | .settle ring slot => Sys2Proof.Machine.execSettle ring slot s
  | .pendingCommitApplication ring => Sys2Proof.Machine.execPendingCommitApplication ring s
  | .endingCompletion ring => Sys2Proof.Machine.execEndingCompletion ring s
  | .abortCompletion ring => Sys2Proof.Machine.execAbortCompletion ring s
  | .lineTransition line rising => Sys2Proof.Machine.execLineTransition line rising s
  | .timebaseStep => Sys2Proof.Machine.execTimebaseStep s
  | .frameBegin mosi => Sys2Proof.Machine.execFrameBegin mosi s
  | .frameEnd => Sys2Proof.Machine.execFrameEnd s

end Sys2Proof.Machine
end

