-- ==== Sys2Proof/Machine/Step.lean ====
section
/-! DEFINITION. One step of the block: the command at the front of the queue, or the port's own action on an empty queue. -/

namespace Sys2Proof.Machine

/-- The queue with its front command taken. -/
def State.withQueue (rest : List Instr) (s : State) : State := { s with pending := rest }

/-- One step. With nothing queued an open read frame runs on to its next sampling (log 3); otherwise the block idles (log
4). -/
def step (s : State) : Host.Outcome State Fault Refusal :=
  match s.pending with
  | [] => .next s.sampleRead
  | c :: rest => exec c (s.withQueue rest)

/-- The command that a word spells by the table's bits put at the front of the queue; no row has bits (log 19). -/
def State.withFetchWord (s : State) (nbits w : Nat) : State :=
  match decodeTableWord nbits w with
  | some c => s.withQueue (c :: s.pending)
  | none => s

end Sys2Proof.Machine
end

