-- ==== Sys2Proof/Safety.lean ====
section
/-! DEFINITION. The predicates that the statements speak of: which states step, and what holds between events. -/

namespace Sys2Proof.Machine

/-- The step of this state gives a next state. -/
def State.steps (s : State) : Prop := ∃ t, step s = .next t

/-! ### Between events -/

/-- Nothing is left to do: no walk is asked for, no free entry stands beside an offered record (09 R155), and no request
waits at a port that could accept it (09 R147). -/
def State.quiet (s : State) : Bool :=
  !s.reexamAsked && !s.walkChanged && (s.freeTag?.isNone || !s.anyOffer) && (s.waiting.isEmpty || !s.upstreamReady)

/-- The hold queue holds at most 16 entries (09 R148). -/
def State.holdBounded (s : State) : Prop := s.hold.length ≤ Config.holdCapacity

/-- The refusal record is full exactly when REFUSAL is set, and LATER_COUNT counts only beside a full record, up to its
largest value (08 R144). -/
def State.refusalSound (s : State) : Prop :=
  s.refusal.isSome = s.globalAttn ∧ (s.refusal = none → s.laterCount = 0) ∧ s.laterCount ≤ Config.laterCountMax

/-- Held entries stand in arrival order, and an entry whose reason is not ORDER has no older one of its initiator (09
R148). -/
def State.holdOrdered (s : State) : Prop :=
  s.hold.Pairwise (fun g h => g.order < h.order) ∧ (∀ h ∈ s.hold, h.order < s.nextOrder) ∧
  ∀ h ∈ s.hold, h.reason ≠ .order →
    ∀ g ∈ s.hold, g.order < h.order → g.request.initiator ≠ h.request.initiator

/-- A running stall timer holds 1 to 65535 µs and runs only while its side is WAITING, the fill timer only in RUNNING, the
drain timer only in RUNNING or ENDING (07 R124 to R127). -/
def Ring.timersSound (r : Ring) : Prop :=
  (∀ n, r.fillTimer = some n → 1 ≤ n ∧ n ≤ 65535 ∧ r.fillSub = .waiting ∧ r.runState = .running) ∧
  (∀ n, r.drainTimer = some n → 1 ≤ n ∧ n ≤ 65535 ∧ r.drainSub = .waiting ∧ r.moves = true)

/-- COMMIT_PENDING is clear outside RUNNING and ENDING (05 R93, R98, 06 R106). -/
def Ring.commitSound (r : Ring) : Prop := r.moves = false → r.commitPending = false

/-- In a ring that is not IDLE each slot below SLOT_COUNT stands once in the place that its STATE names and in no other,
the slots from SLOT_COUNT on stand in none and are FREE, and a side without a slot has an empty holder (01 R4, R15, 02
R19, 03 R46). -/
def Ring.placesSound (r : Ring) : Prop :=
  r.runState ≠ .idle →
    (∀ k, r.freeList.count k = if (r.slot k).state = .free ∧ k.val < r.active.slotCount.toNat then 1 else 0) ∧
    (∀ k, r.fillSlot = some k ↔ (r.slot k).state = .filling) ∧
    (∀ k, (r.ready.map ReadyEntry.slot).count k =
      if (r.slot k).state ∈ [SlotState.closing, .recording, .settled] then 1 else 0) ∧
    (∀ k, r.drainSlot = some k ↔ (r.slot k).state ∈ [SlotState.draining, .retained]) ∧
    (∀ k, r.releasing.count k = if (r.slot k).state = .releasing then 1 else 0) ∧
    (∀ k, r.active.slotCount.toNat ≤ k.val → (r.slot k).state = .free) ∧
    (r.fillSub = .noSlot ∨ r.fillSub = .waiting → r.fillSlot = none) ∧
    (r.drainSub = .empty ∨ r.drainSub = .waiting → r.drainSlot = none)

/-- Ring v is ring r after the close of its fill slot k with a cause: the close fields, NEXT_SEQ and CLOSES (02 R32). -/
def Ring.closedAs (k : SlotId) (cause : CloseCause) (r v : Ring) : Prop :=
  (v.slot k).seq = r.nextSeq ∧ (v.slot k).fillLength = r.highMark ∧ (v.slot k).bytesAccepted = r.fillBytes ∧
  (v.slot k).cause = some cause ∧ (v.slot k).afterGap = ((r.slot k).afterGap || r.gapPending) ∧
  v.nextSeq = r.nextSeq + 1 ∧ v.counters.closes = satInc r.counters.closes

/-- A property of every ring. -/
def State.everyRing (p : Ring → Prop) (s : State) : Prop := ∀ i, p (s.ring i)

/-! ### The words of a statement about one command -/

/-- A ring's number as a command word carries it. -/
def ringField (i : RingId) : RingField := Fin.ofNat 8 i.val

/-- The command register takes this command's word now. -/
def State.takesCommand (c : CommandKind) (target : RingField) (isGlobal : Bool) (causes : BitVec 10) (s : State) : Bool :=
  s.takesWord 0x0004#16 (commandWord c target isGlobal causes)

/-- The frame at the beginning of the word being moved. -/
def Frame.wordStart : Frame → Frame
  | .write a _ => .write a []
  | f => f

/-- The bits of a FRAME_BEGIN complete no word of a write frame (10 R161): the code and the address take 24, a word 32. -/
def State.completesNoWord (mosi : List Bool) (s : State) : Bool :=
  match (if s.port.csLow then s.port.frame else .header []) with
  | .header taken => taken.length + mosi.length < 24 + 32
  | .write _ moving => moving.length + mosi.length < 32
  | .none | .blocked | .ignored | .turnaround _ _ | .read _ _ => true

/-- The aperture of one side. -/
def Descriptor.aperture (side : Side) (d : Descriptor) : ByteRange :=
  match side with
  | .fill => d.fillAperture
  | .drain => d.drainAperture

/-- The request shares a byte with a decoded aperture: that of one side of a ring that is not IDLE (08 R134). -/
def State.touchesAperture (q : Request) (i : RingId) (side : Side) (s : State) : Bool :=
  (s.ring i).notIdle && (requestRange q).overlaps ((s.ring i).active.aperture side)

/-- The request, presented now, is accepted alone and is decoded: RESET_N is high, a hold entry is free, nothing is left
to do, nothing else waits, and no entry of its initiator is held (09 R147, R149). -/
def State.decodesNow (q : Request) (s : State) : Bool :=
  q.wellFormed && s.upstreamReady && s.quiet && s.waiting.isEmpty &&
  !s.hold.any (fun h => h.request.initiator == q.initiator)

/-- An arrival may take table entry t: no ring offers a record, no entry is held TABLE, t is the lowest free (09 R149). -/
def State.entryFor (t : DownTag) (s : State) : Bool :=
  !s.anyOffer && !s.anyTable && s.freeTag? == some t

/-- The request is a write that lies in the fill aperture of ring i, which is RUNNING: the fill side decides it (08 R133,
R136 to R138). -/
def State.fillDecides (q : Request) (i : RingId) (s : State) : Prop :=
  s.matchRequest q = .lies i .fill ∧ (s.ring i).runState = .running ∧ requestKind q = .write

/-- The request is a read that lies in the drain aperture of ring i, which is RUNNING or ENDING: the drain side decides it. -/
def State.drainDecides (q : Request) (i : RingId) (s : State) : Prop :=
  s.matchRequest q = .lies i .drain ∧ (s.ring i).moves = true ∧ requestKind q = .read

/-- The issue unit gives an arrival no entry: a ring offers a record, an entry is held TABLE, or none is free (09 R149). -/
def State.entryNone (s : State) : Prop := s.anyOffer = true ∨ s.anyTable = true ∨ s.freeTag? = none

/-! ### The ranges and the twelve checks (05 R88 to R90) -/

/-- An aperture of a descriptor (05 R88). -/
def Descriptor.apertureRange (d : Descriptor) (g : ByteRange) : Prop :=
  g = byteRange d.fillBase d.aperSize.toNat ∨ g = byteRange d.drainBase d.aperSize.toNat

/-- A slot region at the descriptor's SLOT_BASE (05 R88). -/
def Descriptor.slotRange (d : Descriptor) (g : ByteRange) : Prop :=
  ∃ k : SlotId, k.val < d.slotCount.toNat ∧ g = byteRange d.slotBase[k] d.slotSize.toNat

/-- The record region of a descriptor that has one (05 R88). -/
def Descriptor.logRange (d : Descriptor) (g : ByteRange) : Prop :=
  d.recordEnable = true ∧ g = byteRange d.recordBase (16 * d.recordCount.toNat)

/-- A slot region of a ring at the slot's latched BASE (05 R88). -/
def Ring.latchedRange (r : Ring) (g : ByteRange) : Prop :=
  ∃ k : SlotId, k.val < r.active.slotCount.toNat ∧ g = byteRange (r.slot k).base r.active.slotSize.toNat

/-- A slot region or the record region of another ring, as R88 takes them: each slot at its latched BASE and at the active
SLOT_BASE. -/
def Ring.storeRange (r : Ring) (g : ByteRange) : Prop :=
  r.active.slotRange g ∨ r.latchedRange g ∨ r.active.logRange g

/-- A range of another ring that is not IDLE (05 R88). -/
def State.otherRange (i : RingId) (p : Ring → ByteRange → Prop) (s : State) (g : ByteRange) : Prop :=
  ∃ j, j ≠ i ∧ (s.ring j).runState ≠ .idle ∧ p (s.ring j) g

/-- No range of the one kind shares a byte with one of the other. -/
def rangesApart (p q : ByteRange → Prop) : Prop := ∀ a b, p a → q b → a.overlaps b = false

/-- Check n of Table 5-3 holds of a descriptor of ring i (05 R89). -/
def State.checkHolds (i : RingId) (d : Descriptor) (n : Nat) (s : State) : Prop :=
  match n with
  | 1 => ∃ a, 12 ≤ a ∧ a ≤ 26 ∧ d.aperSize.toNat = 2 ^ a
  | 2 => d.aperSize.toNat ∣ d.fillBase.toNat ∧ d.aperSize.toNat ∣ d.drainBase.toNat
  | 3 => d.fillBase ≠ d.drainBase
  | 4 => rangesApart d.apertureRange (s.otherRange i fun r g => r.active.apertureRange g ∨ r.storeRange g)
  | 5 => 2 ≤ d.slotCount.toNat ∧ d.slotCount.toNat ≤ 8
  | 6 => 256 ∣ d.slotSize.toNat ∧ 256 ≤ d.slotSize.toNat ∧ d.slotSize.toNat ≤ d.aperSize.toNat
  | 7 => ∀ k : SlotId, k.val < d.slotCount.toNat →
      256 ∣ d.slotBase[k].toNat ∧ d.slotBase[k].toNat + d.slotSize.toNat ≤ 2 ^ 40
  | 8 => (∀ j k : SlotId, j ≠ k → j.val < d.slotCount.toNat → k.val < d.slotCount.toNat →
        (byteRange d.slotBase[j] d.slotSize.toNat).overlaps (byteRange d.slotBase[k] d.slotSize.toNat) = false) ∧
      rangesApart d.slotRange (fun g => d.apertureRange g ∨ d.logRange g) ∧
      rangesApart d.slotRange (s.otherRange i Ring.storeRange)
  | 9 => rangesApart d.slotRange d.apertureRange ∧
      rangesApart d.slotRange (s.otherRange i fun r => r.active.apertureRange)
  | 10 => d.closeOnLimit = true → 1 ≤ d.closeLimit.toNat ∧ d.closeLimit.toNat ≤ d.slotSize.toNat
  | 11 => d.fillMode.toNat ≤ 1 ∧ d.drainMode.toNat ≤ 1 ∧ (d.closeEvent = 0 ∨ 8 ≤ d.closeEvent.toNat) ∧
      (d.releaseEvent = 0 ∨ 8 ≤ d.releaseEvent.toNat) ∧ d.overrun ≠ 3 ∧ d.underrun ≠ 3 ∧ d.guard ≠ 3
  | 12 => d.recordEnable = true →
      (∃ a, 2 ≤ a ∧ a ≤ 8 ∧ d.recordCount.toNat = 2 ^ a) ∧ 16 * d.recordCount.toNat ∣ d.recordBase.toNat ∧
      rangesApart d.logRange (fun g => d.apertureRange g ∨ d.slotRange g) ∧
      rangesApart d.logRange (s.otherRange i fun r g => r.active.apertureRange g ∨ r.storeRange g)
  | _ => True

/-- Live check n holds of ring i's shadow at an application (05 R90): check 8 also holds each new region against the latched
range of every other slot of the ring. -/
def State.liveHolds (i : RingId) (n : Nat) (s : State) : Prop :=
  let r := s.ring i
  let d := r.shadow
  s.checkHolds i d n ∧ (n = 8 → ∀ j k : SlotId, j ≠ k → j.val < d.slotCount.toNat → k.val < d.slotCount.toNat →
    (byteRange d.slotBase[k] d.slotSize.toNat).overlaps (byteRange (r.slot j).base d.slotSize.toNat) = false)

/-- The outcome of checks made in the order of their numbers: none fails, or the number of the first that fails. -/
def firstFailing (numbers : List Nat) (holds : Nat → Prop) : Option Nat → Prop
  | none => ∀ n ∈ numbers, holds n
  | some n => n ∈ numbers ∧ ¬ holds n ∧ ∀ m ∈ numbers, m < n → holds m

/-! ### The layout of a word (chapter 12) -/

/-- The word holds each value in its bits, from `low` on and `width` wide, and its other bits read 0 (12 R174). -/
def wordHolds (w : Word) (fields : List (Nat × Nat × Nat)) : Prop :=
  (∀ f ∈ fields, w.extractLsb' f.1 f.2.1 = BitVec.ofNat f.2.1 f.2.2) ∧
  ∀ b, b < 32 → (∀ f ∈ fields, b < f.1 ∨ f.1 + f.2.1 ≤ b) → w.getLsbD b = false

/-- The word of ring i's block at an offset (12 R174). -/
def State.ringWord (i : RingId) (off : Nat) (s : State) : Word := s.readWord (BitVec.ofNat 16 (0x1000 + 0x400 * i.val + off))

/-- The bits of a descriptor word that hold a field (12 Table 12-3). -/
def assignedBits (k : Fin 32) : Word :=
  match k.val with
  | 1 | 3 | 9 | 11 | 13 | 15 | 17 | 19 | 21 | 23 | 25 => 0x000000FF#32
  | 6 => 0x00010F0F#32
  | 7 => 0x000001FF#32
  | 26 => 0x87FFFFFF#32
  | 27 => 0x003F03FF#32
  | 29 => 0x0000FFFF#32
  | 31 => 0
  | _ => 0xFFFFFFFF#32

/-- A word address that software can write (12 Tables 12-1, 12-2). -/
def writableWord (a : WordAddr) : Prop :=
  a = 0x0001#16 ∨ a = 0x0004#16 ∨ a = 0x0021#16 ∨ (∃ i k, a = shadowAddr i k) ∨ ∃ i, a = maskAddr i

end Sys2Proof.Machine
end

