-- ==== Sys2Proof/Certificates/Slice0/Obligations.lean ====
section
/-! DEFINITION. The statements for the provers: what each command does, in the spec's terms, and what every step keeps. -/

open Sys2Proof Sys2Proof.Machine

/-! ### Steps and reset -/

/-- A step takes the command at the front of the queue and is its `exec` on the state with the queue's rest. -/
def Obligations.StepTakesFrontCommand : Prop :=
  ∀ (c : Instr) (rest : List Instr) (s : State),
    step { s with pending := c :: rest } = exec c { s with pending := rest }

/-- With an empty queue an open read frame runs on to its next sampling, from the turnaround byte or from a word: the word at
the current word address is sampled whole, and the address moves on, wrapping (10 R161, R162, R165; the model's choice of the
moment, log 3); otherwise nothing changes (log 4). -/
def Obligations.EmptyQueueSamplesOrIdles : Prop :=
  ∀ s : State, s.pending = [] →
    (∀ a, (∃ n, s.port.frame = .turnaround a n) ∨ (∃ bits, s.port.frame = .read a bits) →
      step s = .next { s with
        port := ⟨s.port.csLow, .read (a + 1) (wordBits (s.readWord a))⟩
        sent := [.miso (s.readWord a)] }) ∧
    ((∀ a n, s.port.frame ≠ .turnaround a n) → (∀ a bits, s.port.frame ≠ .read a bits) → step s = .next s)

/-- Every command in the spec's formats gives a next state in every state and leaves the queue's rest as it was; a term
outside the formats is refused under its own name (log 17). -/
def Obligations.EveryCommandCompletes : Prop :=
  ∀ (c : Instr) (s : State),
    (c.wellFormed = true → ∃ t, exec c s = .next t ∧ t.pending = s.pending) ∧
    (c.wellFormed = false → exec c s = .refused .illFormed)

/-- RESET_N low: every register, queue and table at its RESET_N value, no frame, nothing sent, no request accepted. The
level of CS_N, the detectors' levels and the requests waiting outside stand as they were (log 6, 11). -/
def Obligations.ResetNLoadsResetValues : Prop :=
  ∀ s : State, ∃ t, exec .resetN s = .next t ∧
    t.resetLow = true ∧ t.upstreamReady = false ∧
    t.hold = [] ∧ (∀ k : DownTag, t.table[k] = none) ∧ t.rrLast = 3 ∧ t.stray = 0 ∧
    t.refusal = none ∧ t.laterCount = 0 ∧ t.globalAttn = false ∧ t.globalMask = false ∧
    (∀ n : LineId, t.edges[n] = .none) ∧ t.result = ⟨none, 0, false, false, .none, 0, 0⟩ ∧
    t.port = ⟨s.port.csLow, .none⟩ ∧ t.sent = [] ∧ t.attnAsserted = false ∧
    t.levels = s.levels ∧ t.waiting = s.waiting ∧
    (∀ i : RingId, t.ring i = Ring.zero)

/-- The RESET_N values of a ring: descriptors, run state, slots and collections, both sides, records, timers, counters,
attention. -/
def Obligations.RingResetValues : Prop :=
  (∀ k : Fin 32, Ring.zero.shadow.readWord k = 0 ∧ Ring.zero.active.readWord k = 0) ∧
  Ring.zero.activeValid = false ∧ Ring.zero.commitPending = false ∧ Ring.zero.lostCause = .none ∧
  Ring.zero.runState = .idle ∧ Ring.zero.faultCause = .none ∧ Ring.zero.budgetRemaining = 0 ∧
  (∀ k : SlotId, Ring.zero.slot k = ⟨.free, 0, 0, 0, 0, none, false, false, 0⟩) ∧
  Ring.zero.freeList = [] ∧ Ring.zero.ready = [] ∧ Ring.zero.releasing = [] ∧
  Ring.zero.fillSlot = none ∧ Ring.zero.drainSlot = none ∧ Ring.zero.nextSeq = 0 ∧
  Ring.zero.fillSub = .closed ∧ Ring.zero.fillCursor = 0 ∧ Ring.zero.fillBytes = 0 ∧ Ring.zero.highMark = 0 ∧
  Ring.zero.gapPending = false ∧ Ring.zero.drainSub = .empty ∧ Ring.zero.drainCursor = 0 ∧ Ring.zero.bytesRead = 0 ∧
  Ring.zero.underrunNoted = false ∧ Ring.zero.records = [] ∧ Ring.zero.recordIndex = 0 ∧ Ring.zero.lap = 0 ∧
  Ring.zero.fillTimer = none ∧ Ring.zero.drainTimer = none ∧
  (∀ c : Counter, Ring.zero.counters.value c = 0) ∧ Ring.zero.attention = 0 ∧ Ring.zero.mask = 0

/-- RESET_N rises: the detectors take the lines' levels and give no edge, the management port opens no frame before CS_N
falls (before it has risen, if it is low), and the event ends, so that a waiting request is accepted. While RESET_N is
high there is no rise (log 8). -/
def Obligations.ResetNRiseSamplesLevels : Prop :=
  ∀ (levels : BitVec 8) (s : State),
    (s.resetLow = true → exec (.resetNRise levels) s = .next (State.finish { s with
      sent := []
      resetLow := false
      levels := levels
      port := ⟨s.port.csLow, if s.port.csLow then .blocked else .none⟩ })) ∧
    (s.resetLow = false → exec (.resetNRise levels) s = .next { s with sent := [] })

/-- The machine right after reset is the state that RESET_N and its rise leave, with the lines low and CS_N high (log
11), and every invariant stated below holds in it. -/
def Obligations.ResetStateIsSound : Prop :=
  (∀ s : State, s.port.csLow = false → s.waiting = [] → s.pending = [] → s.choices = 0 →
    ∃ t, exec .resetN s = .next t ∧ exec (.resetNRise 0) t = .next State.reset) ∧
  State.reset.holdBounded ∧ State.reset.holdOrdered ∧ State.reset.refusalSound ∧ State.reset.quiet = true ∧
  State.reset.everyRing Ring.timersSound ∧ State.reset.everyRing Ring.commitSound ∧
  State.reset.everyRing Ring.placesSound

/-! ### Requests at the upstream port -/

/-- A request whose initiator already has a held entry joins the hold queue's tail with reason ORDER and is not decoded
(09 R149, R150). -/
def Obligations.HeldInitiatorHoldsOrder : Prop :=
  ∀ (q : Request) (s : State), q.wellFormed = true → s.upstreamReady = true → s.quiet = true → s.waiting = [] →
    s.hold.any (fun h => h.request.initiator == q.initiator) = true →
    exec (.upstreamRequest q) s = .next { s with
      sent := []
      hold := s.hold ++ [⟨s.nextOrder, q, .order⟩]
      nextOrder := s.nextOrder + 1 }

/-- While the port cannot accept (16 entries held, or RESET_N low) a presented request waits outside and nothing else
changes (09 R147, R158; log 6). -/
def Obligations.BusyPortLeavesRequestWaiting : Prop :=
  ∀ (q : Request) (s : State), q.wellFormed = true → s.upstreamReady = false → s.quiet = true →
    exec (.upstreamRequest q) s = .next { s with sent := [], waiting := s.waiting ++ [q] }

/-- How a request matches the apertures of the rings that are not IDLE: it is outside when it shares a byte with none; it
lies in an aperture only if every byte does; it straddles when it shares a byte with some and lies wholly in none, and
then the ring named is the lowest it touches (08 R134, R135). -/
def Obligations.ApertureMatching : Prop :=
  ∀ (q : Request) (s : State),
    (s.matchRequest q = .outside ↔ ∀ i side, s.touchesAperture q i side = false) ∧
    (∀ i side, s.matchRequest q = .lies i side →
      s.touchesAperture q i side = true ∧ (requestRange q).inside ((s.ring i).active.aperture side) = true) ∧
    (∀ i, s.matchRequest q = .straddles i →
      (∃ side, s.touchesAperture q i side = true) ∧
      (∀ j side, s.touchesAperture q j side = true →
        i ≤ j ∧ (requestRange q).inside ((s.ring j).active.aperture side) = false))

/-- A pass-through request is issued unchanged, under its own INITIATOR and TAG and the lowest free entry's downstream
TAG, which becomes a PASS entry; nothing else changes (08 R141, 09 R149). -/
def Obligations.PassThroughIsIssuedUnchanged : Prop :=
  ∀ (q : Request) (t : DownTag) (s : State), s.decodesNow q = true → s.matchRequest q = .outside →
    s.guardRing? q = none → s.entryFor t = true →
    exec (.upstreamRequest q) s = .next { s with
      sent := [.downstream ⟨t, q.initiator, q.tag, q.addr, q.payload⟩]
      table := s.table.set t (some (.pass q.initiator q.tag (requestKind q))) }

/-- GUARD names the requests it catches; a ring that is not IDLE catches one that shares a byte with a slot at its latched
BASE or with the record region; the lowest-numbered such ring answers GUARD and counts it (08 R139, R140). -/
def Obligations.GuardRefusesBackingAccess : Prop :=
  ∀ (q : Request) (s : State),
    (∀ (d : Descriptor) (k : Kind), d.guardCatches k = true ↔ d.guard = 2 ∨ (d.guard = 1 ∧ k = .write)) ∧
    (∀ r : Ring, r.guardHits q = true ↔
      r.runState ≠ .idle ∧ r.active.guardCatches (requestKind q) = true ∧
      ((∃ k : SlotId, k.val < r.active.slotCount.toNat ∧
          (requestRange q).overlaps (byteRange (r.slot k).base r.active.slotSize.toNat) = true) ∨
        (r.active.recordEnable = true ∧
          (requestRange q).overlaps (byteRange r.active.recordBase (16 * r.active.recordCount.toNat)) = true))) ∧
    (∀ i, s.guardRing? q = some i ↔
      (s.ring i).guardHits q = true ∧ ∀ j < i, (s.ring j).guardHits q = false) ∧
    (∀ i, s.decodesNow q = true → s.matchRequest q = .outside → s.guardRing? q = some i →
      exec (.upstreamRequest q) s = .next (State.refuse q .guard i { s with
        sent := []
        rings := s.rings.set i { s.ring i with
          counters := { (s.ring i).counters with
            guardRefusals := satInc (s.ring i).counters.guardRefusals } } }))

/-- A refusal: one upstream ERROR with the request's INITIATOR and TAG, LENGTH bytes of 00h for a READ and no DATA for a
WRITE, nothing downstream; the refusal record is filled and REFUSAL set if it was empty, else LATER_COUNT counts it up to
65535. Words 0008h to 000Ah show the record and LATER_COUNT, and read 0 while it is empty (08 R131, R143, R144, 12 R175). -/
def Obligations.RefusalIsAnsweredAndRecorded : Prop :=
  ∀ (q : Request) (cause : RefusalCause) (i : RingId) (s : State),
    let answer : PortEvent := .upstream ⟨q.initiator, q.tag, .error,
      match q.payload with
      | .read n => some (List.replicate n 0)
      | .write _ => none⟩
    (s.refusal = none → s.refuse q cause i = { s with
      sent := s.sent ++ [answer]
      refusal := some ⟨cause, q.initiator, q.tag, q.addr, requestKind q, i⟩
      globalAttn := true }) ∧
    (s.refusal ≠ none → s.refuse q cause i = { s with
      sent := s.sent ++ [answer]
      laterCount := min (s.laterCount + 1) 65535 }) ∧
    (s.refusal = none → s.readWord 0x0008#16 = 0 ∧ s.readWord 0x0009#16 = 0 ∧ s.readWord 0x000A#16 = 0) ∧
    (∀ x, s.refusal = some x →
      wordHolds (s.readWord 0x0008#16) [(31, 1, 1), (24, 4, match x.cause with
        | .straddle => 1
        | .ringFault => 2
        | .aborted => 3
        | .wrongDirection => 4
        | .fillClosed => 5
        | .guard => 6
        | .outsideSlot => 7
        | .ringEnding => 8),
        (23, 1, match x.kind with | .read => 0 | .write => 1), (20, 2, x.ring.val), (16, 4, x.initiator.val),
        (0, 16, s.laterCount)] ∧
      s.readWord 0x0009#16 = x.addr.extractLsb' 0 32 ∧
      wordHolds (s.readWord 0x000A#16) [(8, 8, x.tag.toNat), (0, 8, (x.addr.extractLsb' 32 8).toNat)])

/-- The decoder's refusals, each with its cause and ring and nothing else changed: a straddling request, one that lies in
an aperture of a ring in FAULT or in ABORTING, one of the wrong direction, and a write to a ring in ENDING (08 R135 to
R138). -/
def Obligations.DecoderRefusals : Prop :=
  ∀ (q : Request) (i : RingId) (side : Side) (s : State), s.decodesNow q = true →
    (s.matchRequest q = .straddles i →
      exec (.upstreamRequest q) s = .next (State.refuse q .straddle i { s with sent := [] })) ∧
    (s.matchRequest q = .lies i side →
      ((s.ring i).runState = .fault →
        exec (.upstreamRequest q) s = .next (State.refuse q .ringFault i { s with sent := [] })) ∧
      ((s.ring i).runState = .aborting →
        exec (.upstreamRequest q) s = .next (State.refuse q .aborted i { s with sent := [] })) ∧
      ((s.ring i).runState ≠ .fault → (s.ring i).runState ≠ .aborting →
        (side = .fill ∧ requestKind q = .read) ∨ (side = .drain ∧ requestKind q = .write) →
        exec (.upstreamRequest q) s = .next (State.refuse q .wrongDirection i { s with sent := [] })) ∧
      ((s.ring i).runState = .ending → side = .fill → requestKind q = .write →
        exec (.upstreamRequest q) s = .next (State.refuse q .fillClosed i { s with sent := [] })))

/-- The sides' refusals with nothing else changed: OUTSIDE_SLOT for a MAPPED access past SLOT_SIZE and for a STREAMED read
past the end of the drain slot, RING_ENDING for a read of a drained ring in ENDING (02 R24, 03 R52, R53, R60). -/
def Obligations.SideRefusals : Prop :=
  ∀ (q : Request) (i : RingId) (s : State), s.decodesNow q = true →
    let r := s.ring i
    let n := q.payload.length
    (s.fillDecides q i → r.active.fillStreamed = false →
      r.active.slotSize.toNat < (q.addr.toNat - r.active.fillBase.toNat) + n →
      exec (.upstreamRequest q) s = .next (State.refuse q .outsideSlot i { s with sent := [] })) ∧
    (s.drainDecides q i → r.active.drainStreamed = false →
      r.active.slotSize.toNat < (q.addr.toNat - r.active.drainBase.toNat) + n →
      exec (.upstreamRequest q) s = .next (State.refuse q .outsideSlot i { s with sent := [] })) ∧
    (s.drainDecides q i → r.active.drainStreamed = true → r.hasDrainSlot = true →
      r.active.slotSize.toNat < r.drainCursor + n →
      exec (.upstreamRequest q) s = .next (State.refuse q .outsideSlot i { s with sent := [] })) ∧
    (s.drainDecides q i → r.hasDrainSlot = false → r.runState = .ending → r.ready = [] →
      (r.active.drainStreamed = false → (q.addr.toNat - r.active.drainBase.toNat) + n ≤ r.active.slotSize.toNat) →
      exec (.upstreamRequest q) s = .next (State.refuse q .ringEnding i { s with sent := [] }))

/-- A pass-through request, a write that fits the fill slot and a read that the drain slot serves are held with reason
TABLE while the issue unit gives no entry: a record is offered, an entry is held TABLE, or none is free (09 R149). Word 0011h
shows how many entries are held and how many table entries are in use (09 R148, R154, 12 R175). -/
def Obligations.NoEntryHoldsTable : Prop :=
  (∀ s : State, wordHolds (s.readWord 0x0011#16) [(0, 5, s.hold.length),
    (16, 6, ((List.finRange 32).filter fun t : DownTag => s.table[t] ≠ none).length)]) ∧
  ∀ (q : Request) (i : RingId) (s : State), s.decodesNow q = true → s.entryNone →
    let r := s.ring i
    let n := q.payload.length
    ((s.matchRequest q = .outside ∧ s.guardRing? q = none) ∨
      (s.fillDecides q i ∧ r.fillSub = .filling ∧
        (r.active.fillStreamed = true → r.fillCursor + n ≤ r.active.slotSize.toNat) ∧
        (r.active.fillStreamed = false →
          (q.addr.toNat - r.active.fillBase.toNat) + n ≤ r.active.slotSize.toNat ∧
          r.fillBytes + n ≤ r.active.slotSize.toNat)) ∨
      (s.drainDecides q i ∧ r.hasDrainSlot = true ∧
        (r.active.drainStreamed = true → r.drainCursor + n ≤ r.active.slotSize.toNat) ∧
        (r.active.drainStreamed = false →
          (q.addr.toNat - r.active.drainBase.toNat) + n ≤ r.active.slotSize.toNat))) →
    exec (.upstreamRequest q) s = .next { s with
      sent := []
      hold := s.hold ++ [⟨s.nextOrder, q, .table⟩]
      nextOrder := s.nextOrder + 1 }

/-- A write that fits the FILLING slot k is issued at BASE + offset under its own INITIATOR and TAG, becomes a FILL entry
and counts in OUTSTANDING, BYTES_ACCEPTED and HIGH_MARK, in STREAMED mode in CURSOR with FILL_GAP (02 R24, R26, 01 R5). If
it reaches CLOSE_LIMIT, or else in STREAMED mode SLOT_SIZE, the close procedure follows with cause LIMIT or FULL (02 R28). -/
def Obligations.FillWriteIsAccepted : Prop :=
  ∀ (q : Request) (i : RingId) (k : SlotId) (t : DownTag) (s : State), s.decodesNow q = true → s.entryFor t = true →
    s.fillDecides q i → (s.ring i).fillSub = .filling → (s.ring i).fillSlot = some k →
    let r := s.ring i
    let n := q.payload.length
    let streamed := r.active.fillStreamed
    let offset := if streamed then r.fillCursor else q.addr.toNat - r.active.fillBase.toNat
    let cursor := if streamed then r.fillCursor + n + r.active.fillGap.toNat else r.fillCursor
    offset + n ≤ r.active.slotSize.toNat →
    (streamed = false → r.fillBytes + n ≤ r.active.slotSize.toNat) →
    let accepted : State := { s with
      sent := [.downstream ⟨t, q.initiator, q.tag, BitVec.ofNat 40 ((r.slot k).base.toNat + offset), q.payload⟩]
      table := s.table.set t (some (.fill i k q.initiator q.tag))
      rings := s.rings.set i { r with
        slots := r.slots.set k { r.slot k with outstanding := (r.slot k).outstanding + 1 }
        fillBytes := r.fillBytes + n
        fillCursor := cursor
        highMark := if streamed then r.fillCursor + n else max r.highMark (offset + n) } }
    let atLimit := r.active.closeOnLimit = true ∧ r.active.closeLimit.toNat ≤ r.fillBytes + n
    let atEnd := streamed = true ∧ r.active.slotSize.toNat ≤ cursor
    (¬ atLimit → ¬ atEnd → exec (.upstreamRequest q) s = .next accepted) ∧
    (atLimit → exec (.upstreamRequest q) s = .next (accepted.closeFrame i .limit none).finish) ∧
    (¬ atLimit → atEnd → exec (.upstreamRequest q) s = .next (accepted.closeFrame i .full none).finish)

/-- The close procedure on a FILLING ring in RUNNING, whatever its cause. Slot k takes SEQ, FILL_LENGTH, BYTES_ACCEPTED,
CAUSE and AFTER_GAP from the fill side, NEXT_SEQ and CLOSES advance, the working state is cleared, and slot k's entry stands
at the ready queue's tail, unless the drain side has taken it settled (02 R32). BUDGET_REMAINING falls by one under a BUDGET.
At 0 the fill ends: the fill side CLOSED, the ring ENDING, its held writes refused FILL_CLOSED, a pending commit left pending
(02 R33). Else a pending commit is applied or lost (02 R34, 05 R95, R96), and the fill side takes the free-list head, or has
NO_SLOT (02 R35). Attention causes set before stay. -/
def Obligations.CloseProcedure : Prop :=
  ∀ (i : RingId) (k : SlotId) (cause : CloseCause) (also : Option Nat) (s : State),
    (s.ring i).runState = .running → (s.ring i).fillSub = .filling → (s.ring i).fillSlot = some k →
    (s.ring i).placesSound →
    let r := s.ring i
    let t := s.closeFrame i cause also
    let v := t.ring i
    let left := if r.active.budget = 0 then 0 else r.budgetRemaining - 1
    let spent := r.active.budget ≠ 0 ∧ left = 0
    let answered (h : Held) : Bool := h.reason == .fillWait i || some h.order == also
    r.closedAs k cause v ∧ v.fillSlot ≠ some k ∧ v.fillSub ≠ .waiting ∧ v.shadow = r.shadow ∧ v.mask = r.mask ∧
    s.sent <+: t.sent ∧ (∀ b, r.attention.getLsbD b = true → v.attention.getLsbD b = true) ∧
    v.fillCursor = 0 ∧ v.fillBytes = 0 ∧ v.highMark = 0 ∧ v.gapPending = false ∧ v.fillTimer = none ∧
    ((∃ front, v.ready = front ++ [⟨k, false⟩] ∧ front <:+ r.ready) ∨ (v.ready = [] ∧ v.drainSlot = some k)) ∧
    (spent →
      v.fillSub = .closed ∧ v.fillSlot = none ∧ v.runState = .ending ∧ v.budgetRemaining = 0 ∧ v.active = r.active ∧
      v.commitPending = r.commitPending ∧ v.lostCause = r.lostCause ∧ v.freeList = r.freeList ∧
      t.hold = s.hold.filter (fun h => !answered h) ∧
      let refused := (s.hold.filter answered).foldl (fun u h => u.refuse h.request .fillClosed i) s
      t.refusal = refused.refusal ∧ t.laterCount = refused.laterCount ∧ t.globalAttn = refused.globalAttn) ∧
    (¬ spent →
      v.runState = .running ∧ v.commitPending = false ∧ t.hold = s.hold ∧ t.refusal = s.refusal ∧
      t.laterCount = s.laterCount ∧
      (r.freeList = [] → v.fillSub = .noSlot ∧ v.fillSlot = none ∧ v.freeList = []) ∧
      (∀ j rest, r.freeList = j :: rest →
        v.fillSub = .filling ∧ v.fillSlot = some j ∧ v.freeList = rest ∧
        v.slot j = { r.slot j with
          state := .filling
          base := v.active.slotBase[j]
          seq := 0
          fillLength := 0
          bytesAccepted := 0
          cause := none
          tainted := false
          afterGap := false }) ∧
      (r.commitPending = false →
        v.active = r.active ∧ v.budgetRemaining = left ∧ v.lostCause = r.lostCause) ∧
      (r.commitPending = true → r.shadow.sameStructure r.active = false →
        v.active = r.active ∧ v.budgetRemaining = left ∧ v.lostCause = .structuralChange ∧
        v.attention.getLsbD 5 = true) ∧
      (∀ n, r.commitPending = true → r.shadow.sameStructure r.active = true → s.liveFailure i = some n →
        v.active = r.active ∧ v.budgetRemaining = left ∧ v.lostCause = .invalid n ∧ v.attention.getLsbD 5 = true) ∧
      (r.commitPending = true → r.shadow.sameStructure r.active = true → s.liveFailure i = none →
        v.active = r.shadow ∧ v.budgetRemaining = r.shadow.budget.toNat ∧ v.lostCause = r.lostCause ∧
        v.attention.getLsbD 4 = true))

/-- A write that the FILLING slot cannot take closes the frame with cause FULL and is then decided under the substate the
close left: refused FILL_CLOSED when the budget ended the fill, placed in the next slot, or an overrun under each of the
three policies (02 R23, R25, R27, R37 to R39). -/
def Obligations.OverflowingWriteClosesFull : Prop :=
  ∀ (q : Request) (i : RingId) (s : State), s.decodesNow q = true → s.fillDecides q i →
    (s.ring i).fillSub = .filling →
    let r := s.ring i
    let n := q.payload.length
    (r.active.fillStreamed = true → r.active.slotSize.toNat < r.fillCursor + n) →
    (r.active.fillStreamed = false →
      (q.addr.toNat - r.active.fillBase.toNat) + n ≤ r.active.slotSize.toNat ∧
      r.active.slotSize.toNat < r.fillBytes + n) →
    let v := State.closeFrame i .full none { s with sent := [] }
    let w := v.reclaimHead i
    ∃ u : State, exec (.upstreamRequest q) s = .next u.finish ∧
      ((v.ring i).fillSub = .closed → u = v.refuse q .fillClosed i) ∧
      (∀ k t, (v.ring i).fillSub = .filling → (v.ring i).fillSlot = some k → v.entryFor t = true →
        u = v.acceptFill none i k t q) ∧
      ((v.ring i).fillSub = .filling → v.entryNone → u = v.join q .table) ∧
      ((v.ring i).fillSub = .noSlot → (v.ring i).active.overrun = 0 →
        u = (v.modRing i Ring.fillStall).join q (.fillWait i)) ∧
      ((v.ring i).fillSub = .noSlot → (v.ring i).active.overrun = 1 →
        u = (v.modRing i Ring.dropWrite).respond q.initiator q.tag .okay none) ∧
      ((v.ring i).fillSub = .noSlot → (v.ring i).active.overrun = 2 → (v.ring i).headSettled = false →
        u = (v.modRing i Ring.fillStall).join q (.fillWait i)) ∧
      (∀ k t, (v.ring i).fillSub = .noSlot → (v.ring i).active.overrun = 2 → (v.ring i).headSettled = true →
        (w.ring i).fillSlot = some k → w.entryFor t = true → u = w.acceptFill none i k t q) ∧
      ((v.ring i).fillSub = .noSlot → (v.ring i).active.overrun = 2 → (v.ring i).headSettled = true →
        w.entryNone → u = w.join q .table)

/-- A write without a slot (NO_SLOT or WAITING): DROP answers it OKAY without a request, sets GAP_PENDING, counts and
raises OVERRUN; STALL, and RECLAIM without a settled head, hold it FILL_WAIT, and the change from NO_SLOT to WAITING
raises OVERRUN and starts the stall timer if STALL_TIMEOUT is not 0 (02 R37 to R39, 07 R125). -/
def Obligations.OverrunDropsOrHolds : Prop :=
  ∀ (q : Request) (i : RingId) (s : State), s.decodesNow q = true → s.fillDecides q i →
    let r := s.ring i
    r.fillSub = .noSlot ∨ r.fillSub = .waiting →
    (r.active.fillStreamed = false →
      (q.addr.toNat - r.active.fillBase.toNat) + q.payload.length ≤ r.active.slotSize.toNat) →
    (r.active.overrun = 1 →
      exec (.upstreamRequest q) s = .next { s with
        sent := [.upstream ⟨q.initiator, q.tag, .okay, none⟩]
        rings := s.rings.set i { r with
          gapPending := true
          counters := { r.counters with droppedWrites := satInc r.counters.droppedWrites }
          attention := addCause .overrun r.attention } }) ∧
    (r.active.overrun = 0 ∨ (r.active.overrun = 2 ∧ r.headSettled = false) →
      exec (.upstreamRequest q) s = .next { s with
        sent := []
        hold := s.hold ++ [⟨s.nextOrder, q, .fillWait i⟩]
        nextOrder := s.nextOrder + 1
        rings := s.rings.set i (if r.fillSub = .noSlot then { r with
            fillSub := .waiting
            fillTimer := if r.active.stallTimeout = 0 then none else some r.active.stallTimeout.toNat
            attention := addCause .overrun r.attention }
          else r) })

/-- RECLAIM with a settled head: its RECLAIM record is built first if RECORD_ENABLE is set, then the head slot becomes the
fill slot with its close fields cleared and BASE latched, GAP_PENDING is set, RECLAIMS counts, OVERRUN is raised, the wait
and its timer end; the entries behind it are tested again, an offered record is granted, and the write is placed in the
reclaimed slot or held TABLE (02 R39, 01 R8, R11, 04 R73, 09 R155). -/
def Obligations.OverrunReclaimsSettledHead : Prop :=
  ∀ (i : RingId) (e : ReadyEntry) (rest : List ReadyEntry) (s : State),
    let r := s.ring i
    r.ready = e :: rest →
    let x := r.slot e.slot
    let reclaimed : Ring := { r with
      records := if r.active.recordEnable then
          r.records ++ [⟨.reclaim, e.slot, x.seq, none, x.tainted, x.afterGap, x.fillLength, x.bytesAccepted⟩]
        else r.records
      slots := r.slots.set e.slot { x with
        state := .filling
        base := r.active.slotBase[e.slot]
        seq := 0
        fillLength := 0
        bytesAccepted := 0
        cause := none
        tainted := false
        afterGap := false }
      ready := rest
      fillSlot := some e.slot
      fillSub := .filling
      fillCursor := 0
      fillBytes := 0
      highMark := 0
      gapPending := true
      fillTimer := none
      counters := { r.counters with reclaims := satInc r.counters.reclaims }
      attention := addCause .overrun r.attention }
    s.reclaimHead i =
      (State.settleRing i { s with rings := s.rings.set i reclaimed }).grantRecords.noteChange ∧
    ∀ q : Request, s.decodesNow q = true → s.fillDecides q i → r.fillSub = .noSlot ∨ r.fillSub = .waiting →
    (r.active.fillStreamed = false →
      (q.addr.toNat - r.active.fillBase.toNat) + q.payload.length ≤ r.active.slotSize.toNat) →
    r.active.overrun = 2 → (r.slot e.slot).state = .settled →
    let v := (State.settleRing i { s with sent := [], rings := s.rings.set i reclaimed }).grantRecords.noteChange
    ∃ u : State, exec (.upstreamRequest q) s = .next u.finish ∧
      (∀ t, v.entryFor t = true → u = v.acceptFill none i e.slot t q) ∧ (v.entryNone → u = v.join q .table)

/-- A read that the drain slot d serves is issued at BASE + offset, becomes a DRAIN entry and counts in OUTSTANDING and
BYTES_READ (up to FFFFFFFFh), in STREAMED mode in CURSOR with DRAIN_GAP; under RELEASE_ON_LIMIT, when the drain position
reaches the slot's FILL_LENGTH, the release trigger follows (03 R51 to R53, R55, 01 R5). -/
def Obligations.DrainReadIsAccepted : Prop :=
  ∀ (q : Request) (i : RingId) (d : SlotId) (t : DownTag) (s : State), s.decodesNow q = true → s.entryFor t = true →
    s.drainDecides q i → (s.ring i).hasDrainSlot = true → (s.ring i).drainSlot = some d →
    let r := s.ring i
    let n := q.payload.length
    let streamed := r.active.drainStreamed
    let offset := if streamed then r.drainCursor else q.addr.toNat - r.active.drainBase.toNat
    let cursor := if streamed then r.drainCursor + n + r.active.drainGap.toNat else r.drainCursor
    let bytes := min (r.bytesRead + n) 0xFFFFFFFF
    offset + n ≤ r.active.slotSize.toNat →
    let accepted : State := { s with
      sent := [.downstream ⟨t, q.initiator, q.tag, BitVec.ofNat 40 ((r.slot d).base.toNat + offset), q.payload⟩]
      table := s.table.set t (some (.drain i d q.initiator q.tag))
      rings := s.rings.set i { r with
        slots := r.slots.set d { r.slot d with outstanding := (r.slot d).outstanding + 1 }
        bytesRead := bytes
        drainCursor := cursor } }
    let atLimit := r.active.releaseOnLimit = true ∧ (r.slot d).fillLength ≤ (if streamed then cursor else bytes)
    (¬ atLimit → exec (.upstreamRequest q) s = .next accepted) ∧
    (atLimit → exec (.upstreamRequest q) s = .next (accepted.trigger i).finish)

/-- A read without a drain slot: PATTERN and REPEAT answer it OKAY with the PATTERN byte (address mod 4) at each address,
count it, and raise UNDERRUN at the first since the last take; STALL holds it DRAIN_WAIT, and the change from EMPTY to
WAITING raises UNDERRUN and starts the stall timer if STALL_TIMEOUT is not 0 (03 R61, R62, R63, 07 R125). -/
def Obligations.UnderrunAnswersOrHolds : Prop :=
  ∀ (q : Request) (i : RingId) (s : State), s.decodesNow q = true → s.drainDecides q i →
    let r := s.ring i
    r.hasDrainSlot = false → ¬ (r.runState = .ending ∧ r.ready = []) →
    (r.active.drainStreamed = false →
      (q.addr.toNat - r.active.drainBase.toNat) + q.payload.length ≤ r.active.slotSize.toNat) →
    (r.active.underrun = 1 ∨ r.active.underrun = 2 →
      exec (.upstreamRequest q) s = .next { s with
        sent := [.upstream ⟨q.initiator, q.tag, .okay, some ((List.range q.payload.length).map fun j =>
          r.active.pattern.extractLsb' (8 * ((q.addr.toNat + j) % 4)) 8)⟩]
        rings := s.rings.set i { r with
          counters := { r.counters with patternReads := satInc r.counters.patternReads }
          underrunNoted := true
          attention := if r.underrunNoted then r.attention else addCause .underrun r.attention } }) ∧
    (r.active.underrun = 0 →
      exec (.upstreamRequest q) s = .next { s with
        sent := []
        hold := s.hold ++ [⟨s.nextOrder, q, .drainWait i⟩]
        nextOrder := s.nextOrder + 1
        rings := s.rings.set i (if r.drainSub = .empty then { r with
            drainSub := .waiting
            drainTimer := if r.active.stallTimeout = 0 then none else some r.active.stallTimeout.toNat
            attention := addCause .underrun r.attention }
          else r) })

/-! ### Responses at the downstream port -/

/-- A response whose TAG names a free entry changes STRAY_RESPONSES alone, which goes up by one and stops at FFFFFFFFh; one
whose TAG names an entry in use, granted again or not, leaves the count; RESET_N sets it to 0 and it is read at 0010h (09
R157). -/
def Obligations.StrayResponseIsCounted : Prop :=
  (∀ (t : DownTag) (status : Status) (bytes : List Byte) (s : State), bytes.length ≤ 256 → s.resetLow = false →
    (s.table[t] = none → exec (.downstreamResponse t status bytes) s = .next { s with
      sent := []
      stray := if s.stray = 0xFFFFFFFF#32 then 0xFFFFFFFF#32 else s.stray + 1 }) ∧
    (s.table[t] ≠ none → ∃ u, exec (.downstreamResponse t status bytes) s = .next u ∧ u.stray = s.stray)) ∧
  (∀ s : State, ∃ t, exec .resetN s = .next t ∧ t.stray = 0) ∧
  ∀ s : State, s.readWord 0x0010#16 = s.stray

/-- A response to a PASS entry frees it, goes upstream with its STATUS and, for a READ, its DATA, and ends with the
re-examination; while RESET_N is low no response is taken in (08 R141, 09 R156, R159). -/
def Obligations.PassResponseIsReturned : Prop :=
  ∀ (t : DownTag) (status : Status) (bytes : List Byte) (who : Initiator) (tag : UpTag) (kind : Kind) (s : State),
    bytes.length ≤ 256 →
    (s.resetLow = true → exec (.downstreamResponse t status bytes) s = .next { s with sent := [] }) ∧
    (s.resetLow = false → s.table[t] = some (.pass who tag kind) →
      exec (.downstreamResponse t status bytes) s = .next (State.finish { s with
        sent := [.upstream ⟨who, tag, status, if kind = .read then some bytes else none⟩]
        table := s.table.set t none
        reexamAsked := true }))

/-- A response to a FILL or DRAIN entry frees it, counts the slot's OUTSTANDING down and goes upstream with its STATUS (a
read's DATA with it). An ERROR first marks a written slot TAINTED, counts, and raises ERROR; under HALT_ON_ERROR it takes
a RUNNING or ENDING ring into FAULT. At 0, in RUNNING or ENDING, a CLOSING slot is tested for its advance and a RELEASING
slot returns to the free list. The completion tests and the re-examination follow (02 R44, R45, 03 R68, R69, 09 R156). -/
def Obligations.SlotResponseIsHandled : Prop :=
  ∀ (t : DownTag) (status : Status) (bytes : List Byte) (i : RingId) (k : SlotId) (who : Initiator) (tag : UpTag)
    (s : State), bytes.length ≤ 256 → s.resetLow = false →
    let r := s.ring i
    ∀ (e : Entry) (noted : Ring) (cause : FaultCause) (data : Option (List Byte)),
    (e = .fill i k who tag ∧ cause = .writeError ∧ data = none ∧
      noted = match status with
        | .okay => r
        | .error => { r with
            slots := r.slots.set k { r.slot k with tainted := true }
            counters := { r.counters with writeErrors := satInc r.counters.writeErrors }
            attention := addCause .error r.attention }) ∨
    (e = .drain i k who tag ∧ cause = .readError ∧ data = some bytes ∧
      noted = match status with
        | .okay => r
        | .error => { r with
            counters := { r.counters with readErrors := satInc r.counters.readErrors }
            attention := addCause .error r.attention }) →
    s.table[t] = some e →
    let left := (r.slot k).outstanding - 1
    let counted : Ring := { noted with slots := noted.slots.set k { noted.slot k with outstanding := left } }
    let halts := status = .error ∧ r.active.haltOnError = true ∧ r.moves = true
    let done (u : State) : State := (((u.respond who tag status data).testEnding i).testAborting i).askReexam.finish
    let at_ (x : Ring) : State := { s with sent := [], table := s.table.set t none, rings := s.rings.set i x }
    (¬ halts → left ≠ 0 ∨ r.moves = false ∨ ((r.slot k).state ≠ .closing ∧ (r.slot k).state ≠ .releasing) →
      exec (.downstreamResponse t status bytes) s = .next (done (at_ counted))) ∧
    (¬ halts → left = 0 → r.moves = true → (r.slot k).state = .closing →
      exec (.downstreamResponse t status bytes) s = .next (done ((at_ counted).settleRing i))) ∧
    (¬ halts → left = 0 → r.moves = true → (r.slot k).state = .releasing →
      exec (.downstreamResponse t status bytes) s = .next (done ((at_ counted).freeReleased i k))) ∧
    (halts → exec (.downstreamResponse t status bytes) s =
      .next (done (((at_ noted).enterFault i cause).modRing i (Ring.countDown k))))

/-- A response to a RECORD entry frees it and sends nothing upstream. An ERROR counts and raises RECORD_ERROR. For a CLOSE
record the answered mark is set on the slot's entry and the ready queue is tested; a RECLAIM record changes nothing more.
The completion tests and the re-examination follow (04 R78 to R80, 09 R156). -/
def Obligations.RecordResponseIsHandled : Prop :=
  ∀ (t : DownTag) (status : Status) (bytes : List Byte) (i : RingId) (k : SlotId) (kind : RecordKind) (s : State),
    bytes.length ≤ 256 → s.resetLow = false → s.table[t] = some (.record i k kind) →
    let r := s.ring i
    let noted : Ring := match status with
      | .okay => r
      | .error => { r with
          counters := { r.counters with recordErrors := satInc r.counters.recordErrors }
          attention := addCause .recordError r.attention }
    let at_ (x : Ring) : State := { s with sent := [], table := s.table.set t none, rings := s.rings.set i x }
    let done (u : State) : State := ((u.testEnding i).testAborting i).askReexam.finish
    (kind = .reclaim → exec (.downstreamResponse t status bytes) s = .next (done (at_ noted))) ∧
    (kind = .close → exec (.downstreamResponse t status bytes) s = .next (done ((at_ { noted with
      ready := noted.ready.map fun e => if e.slot = k then { e with answered := true } else e }).settleRing i)))

/-! ### Event lines and timers -/

/-- A transition that a detector sees: its line's level follows and no other, and word 0002h shows the levels. If EDGE does
not select it, nothing else happens; if EDGE selects it, every ring whose CLOSE_EVENT or RELEASE_EVENT names the line receives
its event once, one after another in some order, and the event ends (07 R120 to R123; the order is the free value of log 10). That
EVENT_EDGE and LINE_TRANSITION both look at EDGE is the model's reading (DEDUCED, log 23). RESET_N low: the detectors see
none. -/
def Obligations.TransitionIsSeenAndDelivered : Prop :=
  (∀ (n m : LineId) (up : Bool) (levels : BitVec 8),
    (levelSet n up levels).getLsbD m.val = if m = n then up else levels.getLsbD m.val) ∧
  (∀ s : State, s.readWord 0x0002#16 = s.levels.setWidth 32) ∧
  (∀ (n : LineId) (s : State), (s.receivers n).Nodup) ∧
  (∀ (n : LineId) (i : RingId) (s : State),
    ((i, Side.fill) ∈ s.receivers n ↔ (s.ring i).active.closeEvent.toNat = 8 + n.val) ∧
    ((i, Side.drain) ∈ s.receivers n ↔ (s.ring i).active.releaseEvent.toNat = 8 + n.val)) ∧
  ∀ (c : Instr) (n : LineId) (up : Bool) (s : State), c = .eventEdge n up ∨ c = .lineTransition n up →
    (s.resetLow = true → exec c s = .next { s with sent := [] }) ∧
    (s.resetLow = false →
      s.edges[n] = .none ∨ (s.edges[n] = .rising ∧ up = false) ∨ (s.edges[n] = .falling ∧ up = true) →
      exec c s = .next { s with sent := [], levels := levelSet n up s.levels }) ∧
    (s.resetLow = false →
      s.edges[n] = .both ∨ (s.edges[n] = .rising ∧ up = true) ∨ (s.edges[n] = .falling ∧ up = false) →
      ∃ (order : List (RingId × Side)) (count : Nat), order.Perm (s.receivers n) ∧
        exec c s = .next (State.finish (order.foldl (fun t x => t.takeEvent x)
          { s with sent := [], levels := levelSet n up s.levels, choices := count })))

/-- A received close event closes the frame of a RUNNING ring that is FILLING with BYTES_ACCEPTED above 0, cause EVENT; a
received release event is a trigger on the drain slot of a RUNNING or ENDING ring; otherwise the event leaves no trace (02
R29, 03 R56, 06 R118). -/
def Obligations.ReceivedEventActsOrIsIgnored : Prop :=
  ∀ (i : RingId) (s : State),
    let r := s.ring i
    (r.runState = .running → r.fillSub = .filling → 0 < r.fillBytes →
      s.takeEvent (i, .fill) = s.closeFrame i .event none) ∧
    (r.runState ≠ .running ∨ r.fillSub ≠ .filling ∨ r.fillBytes = 0 → s.takeEvent (i, .fill) = s) ∧
    (r.runState = .running ∨ r.runState = .ending → r.drainSub = .draining ∨ r.drainSub = .retained →
      s.takeEvent (i, .drain) = s.trigger i) ∧
    ((r.runState ≠ .running ∧ r.runState ≠ .ending) ∨ (r.drainSub ≠ .draining ∧ r.drainSub ≠ .retained) →
      s.takeEvent (i, .drain) = s)

/-- A step of the timebase takes one from the remaining time of every running stall timer; stopped timers are as they were.
If none reaches 0, nothing else changes. Each timer that reaches 0 in a RUNNING or ENDING ring expires within the step, unless
an expiry before it has stopped it: FAULT entry of its ring, and the end of that event, one after another in an order that is
a free value (07 R124, R127; the model's choices of logs 7 and 10). -/
def Obligations.TimebaseCountsTimersDown : Prop :=
  ∀ s : State,
    let ticked (i : RingId) : Ring := { s.ring i with
      fillTimer := (s.ring i).fillTimer.map (fun n => n - 1)
      drainTimer := (s.ring i).drainTimer.map (fun n => n - 1) }
    let runOut (x : RingId × Side) (t : State) : Prop :=
      (match x.2 with | .fill => (t.ring x.1).fillTimer | .drain => (t.ring x.1).drainTimer) = some 0
    ((∀ i, (ticked i).fillTimer ≠ some 0 ∧ (ticked i).drainTimer ≠ some 0) →
      ∃ t, exec .timebaseStep s = .next t ∧ t = { s with sent := [], rings := t.rings } ∧ ∀ i, t.ring i = ticked i) ∧
    ∃ (order : List (RingId × Side)) (count : Nat),
      order.Nodup ∧ (∀ x, x ∈ order ↔ runOut x { s with rings := Vector.ofFn ticked }) ∧
      exec .timebaseStep s = .next (order.foldl (fun t x =>
        if runOut x t ∧ ((t.ring x.1).runState = .running ∨ (t.ring x.1).runState = .ending) then
          (t.enterFault x.1 (match x.2 with | .fill => .fillStall | .drain => .drainStall)).finish
        else t) { s with sent := [], rings := Vector.ofFn ticked, choices := count })

/-- FAULT entry of ring i: run state and cause, every held wait of the ring, both sides, refused with cause RING_FAULT oldest
first (each answered ERROR and entered in the refusal record), a WAITING side left without its wait, both timers stopped, a
pending commit lost with cause FAULTED, attention FAULT, and a re-examination asked for; nothing else. STALL_TIMER_EXPIRY of a
timer whose last microsecond ends, in RUNNING or ENDING, is FAULT entry with the side's cause, and the event ends (06 R112,
R113, 07 R127, 05 R98; that the row takes the timer's last step with it is the model's choice, log 7). With no such timer
nothing happens (log 8). -/
def Obligations.ExpiryEntersFault : Prop :=
  ∀ (i : RingId) (side : Side) (s : State),
    let waits (h : Held) : Bool := h.reason = .fillWait i || h.reason = .drainWait i
    let picked := s.hold.filter waits
    let faulted (r : Ring) (cause : FaultCause) : Ring := { r with
      runState := .fault
      faultCause := cause
      fillSub := if r.fillSub = .waiting then .noSlot else r.fillSub
      drainSub := if r.drainSub = .waiting then .empty else r.drainSub
      fillTimer := none
      drainTimer := none
      commitPending := false
      lostCause := if r.commitPending then .faulted else r.lostCause
      attention := addCause .fault (if r.commitPending then addCause .commitLost r.attention else r.attention) }
    let u (cause : FaultCause) (sent : List PortEvent) : State :=
      { picked.foldl (fun t h => t.refuse h.request .ringFault i) { s with
          sent := sent
          rings := s.rings.set i (faulted (s.ring i) cause)
          hold := s.hold.filter (fun h => !waits h)
          walkChanged := s.walkChanged || !picked.isEmpty } with reexamAsked := true }
    let last := (∃ n, n ≤ 1 ∧ (match side with | .fill => (s.ring i).fillTimer | .drain => (s.ring i).drainTimer) = some n) ∧
      (s.ring i).moves = true
    (∀ cause, s.enterFault i cause = u cause s.sent) ∧
    (∀ cause sent, (∀ j, j ≠ i → (u cause sent).ring j = s.ring j) ∧ (u cause sent).table = s.table ∧
      (u cause sent).sent = sent ++ picked.map (fun h =>
        .upstream ⟨h.request.initiator, h.request.tag, .error, refusedData h.request⟩)) ∧
    (last → exec (.stallTimerExpiry i side) s =
      .next (u (match side with | .fill => .fillStall | .drain => .drainStall) []).finish) ∧
    (¬ last → exec (.stallTimerExpiry i side) s = .next { s with sent := [] })

/-! ### Words at the management port -/

/-- The port takes a word when RESET_N is high and either no frame is open with CS_N high, or a write frame stands at that
address with bits the word begins with (the model's reading of a whole word, log 1); the frame then moves to the next
address, wrapping (10 R161). A word it does not take changes nothing. -/
def Obligations.PortTakesWholeWords : Prop :=
  (∀ (a : WordAddr) (w : Word) (s : State), s.takesWord a w = true ↔
    s.resetLow = false ∧ ((s.port.frame = .none ∧ s.port.csLow = false) ∨
      ∃ moving, s.port.frame = .write a moving ∧ (wordBits w).take moving.length = moving)) ∧
  (∀ (a : WordAddr) (moving : List Bool), (Frame.write a moving).afterWord = .write (a + 1) [] ∧
    Frame.none.afterWord = .none) ∧
  ∀ (s : State) (i : RingId) (k : Fin 32) (a : WordAddr) (w : Word) (n : RingField) (causes : BitVec 10),
    (s.takesWord (shadowAddr i k) w = false → exec (.shadowWrite i k w) s = .next { s with sent := [] }) ∧
    (s.takesWord 0x0001#16 w = false → exec (.eventLineConfiguration w) s = .next { s with sent := [] }) ∧
    (s.takesWord (maskAddr i) w = false → exec (.attentionMaskWrite i w) s = .next { s with sent := [] }) ∧
    (s.takesWord 0x0021#16 w = false → exec (.globalAttentionMaskWrite w) s = .next { s with sent := [] }) ∧
    (s.takesWord a w = false → exec (.registerWrite a w) s = .next { s with sent := [] }) ∧
    (s.takesCommand .commit n false 0 = false → exec (.commit n) s = .next { s with sent := [] }) ∧
    (s.takesCommand .start n false 0 = false → exec (.start n) s = .next { s with sent := [] }) ∧
    (s.takesCommand .stop n false 0 = false → exec (.stop n) s = .next { s with sent := [] }) ∧
    (s.takesCommand .abort n false 0 = false → exec (.abort n) s = .next { s with sent := [] }) ∧
    (s.takesCommand .close n false 0 = false → exec (.close n) s = .next { s with sent := [] }) ∧
    (s.takesCommand .release n false 0 = false → exec (.release n) s = .next { s with sent := [] }) ∧
    (s.takesCommand .ack n false causes = false → exec (.ack n causes) s = .next { s with sent := [] }) ∧
    (s.takesCommand .ack n true causes = false → exec (.ackGlobal n causes) s = .next { s with sent := [] })

/-- A shadow word written: the fields of that word in that ring's shadow take the written bits, at once and whatever the
run state, and nothing else of the block changes but the frame's position (05 R84, 10 R161). -/
def Obligations.ShadowWriteChangesShadowAlone : Prop :=
  ∀ (i : RingId) (k : Fin 32) (w : Word) (s : State), s.takesWord (shadowAddr i k) w = true →
    exec (.shadowWrite i k w) s = .next { s with
      sent := []
      port := { s.port with frame := s.port.frame.afterWord }
      rings := s.rings.set i { s.ring i with shadow := (s.ring i).shadow.writeWord k w } }

/-- A written descriptor word reads back its assigned bits as written and its other bits 0; the other 31 words read as
before; each field stands at the bits of Table 12-3 (12 R174, R176, R177). The ring's block shows the shadow, the active
descriptor with ACTIVE_VALID, the ring status words of Table 12-5, the slot records of Table 12-6, the ready-queue snapshot,
the counters and the attention set (12 R178, R179). That bits 23:20 of word +082h read 0 under another cause than INVALID is
the model's choice (DESIGN CHOICE, log 31). -/
def Obligations.DescriptorWordsReadBack : Prop :=
  (∀ (k : Fin 32) (w : Word) (d : Descriptor), (d.writeWord k w).readWord k = w &&& assignedBits k) ∧
  (∀ (j k : Fin 32) (w : Word) (d : Descriptor), j ≠ k → (d.writeWord k w).readWord j = d.readWord j) ∧
  (∀ d : Descriptor,
    (d.readWord 0 = d.fillBase.extractLsb' 0 32 ∧ wordHolds (d.readWord 1) [(0, 8, (d.fillBase.extractLsb' 32 8).toNat)]) ∧
    (d.readWord 2 = d.drainBase.extractLsb' 0 32 ∧ wordHolds (d.readWord 3) [(0, 8, (d.drainBase.extractLsb' 32 8).toNat)]) ∧
    d.readWord 4 = d.aperSize ∧ d.readWord 5 = d.slotSize ∧
    wordHolds (d.readWord 6) [(0, 4, d.slotCount.toNat), (8, 2, d.fillMode.toNat), (10, 2, d.drainMode.toNat),
      (16, 1, d.recordEnable.toNat)] ∧
    wordHolds (d.readWord 7) [(0, 9, d.recordCount.toNat)] ∧
    (d.readWord 8 = d.recordBase.extractLsb' 0 32 ∧
      wordHolds (d.readWord 9) [(0, 8, (d.recordBase.extractLsb' 32 8).toNat)]) ∧
    (∀ k : SlotId, d.readWord (Fin.ofNat 32 (10 + 2 * k.val)) = d.slotBase[k].extractLsb' 0 32 ∧
      wordHolds (d.readWord (Fin.ofNat 32 (11 + 2 * k.val))) [(0, 8, (d.slotBase[k].extractLsb' 32 8).toNat)]) ∧
    wordHolds (d.readWord 26) [(31, 1, d.closeOnLimit.toNat), (0, 27, d.closeLimit.toNat)] ∧
    wordHolds (d.readWord 27) [(0, 4, d.closeEvent.toNat), (4, 4, d.releaseEvent.toNat), (8, 1, d.releaseOnLimit.toNat),
      (9, 1, d.haltOnError.toNat), (16, 2, d.overrun.toNat), (18, 2, d.underrun.toNat), (20, 2, d.guard.toNat)] ∧
    wordHolds (d.readWord 28) [(0, 8, d.fillGap.toNat), (8, 8, d.drainGap.toNat), (16, 16, d.stallTimeout.toNat)] ∧
    wordHolds (d.readWord 29) [(0, 16, d.budget.toNat)] ∧ d.readWord 30 = d.pattern ∧ d.readWord 31 = 0) ∧
  ([RunState.idle, .running, .ending, .fault, .aborting].map runCode = [0, 1, 2, 3, 4] ∧
    [FillSub.closed, .filling, .noSlot, .waiting].map fillCode = [0, 1, 2, 3] ∧
    [DrainSub.empty, .waiting, .draining, .retained].map drainCode = [0, 1, 2, 3] ∧
    [FaultCause.none, .fillStall, .drainStall, .writeError, .readError].map faultCode = [0, 1, 2, 3, 4] ∧
    [SlotState.free, .filling, .closing, .recording, .settled, .draining, .retained, .releasing].map slotStateCode =
      [0, 1, 2, 3, 4, 5, 6, 7] ∧
    [none, some CloseCause.limit, some .full, some .event, some .command, some .stop].map causeCode = [0, 1, 2, 3, 4, 5]) ∧
  ∀ (i : RingId) (s : State),
    let r := s.ring i
    let word (off : Nat) : Word := s.ringWord i off
    let holder (x : Option SlotId) : Nat := match x with | none => 15 | some k => k.val
    let timer (w : Word) (x : Option Nat) : Prop :=
      (x = none → w = 0) ∧ ∀ n, x = some n → wordHolds w [(31, 1, 1), (0, 16, n)]
    (∀ k : Fin 32, s.readWord (shadowAddr i k) = r.shadow.readWord k ∧
      s.readWord (shadowAddr i k + 0x0040#16) = r.active.readWord k) ∧
    wordHolds (word 0x060) [(0, 1, r.activeValid.toNat)] ∧
    wordHolds (word 0x080) [(0, 3, runCode r.runState), (4, 2, fillCode r.fillSub), (6, 2, drainCode r.drainSub),
      (8, 4, holder r.fillSlot), (12, 4, holder r.drainSlot), (16, 1, r.commitPending.toNat), (17, 3, faultCode r.faultCause),
      (20, 5, r.records.length), (25, 1, r.gapPending.toNat), (26, 1, r.underrunNoted.toNat)] ∧
    wordHolds (word 0x081) [(0, 16, r.nextSeq.toNat), (16, 16, r.budgetRemaining)] ∧
    wordHolds (word 0x082) [(0, 8, r.recordIndex), (8, 8, r.lap.toNat),
      (16, 4, match r.lostCause with
        | .none => 0
        | .structuralChange => 1
        | .invalid _ => 2
        | .faulted => 3
        | .aborted => 4),
      (20, 4, match r.lostCause with
        | .invalid n => n
        | _ => 0)] ∧
    (r.freeList.length ≤ 8 → wordHolds (word 0x083)
      ((0, 4, r.freeList.length) :: r.freeList.zipIdx.map fun e => (4 + 3 * e.2, 3, e.1.val))) ∧
    (∀ b, (word 0x084).getLsbD b = true ↔ ∃ k ∈ r.releasing, k.val = b) ∧
    word 0x085 = BitVec.ofNat 32 r.fillCursor ∧ word 0x086 = BitVec.ofNat 32 r.fillBytes ∧
    word 0x087 = BitVec.ofNat 32 r.highMark ∧ word 0x088 = BitVec.ofNat 32 r.drainCursor ∧
    word 0x089 = BitVec.ofNat 32 r.bytesRead ∧ timer (word 0x08A) r.fillTimer ∧ timer (word 0x08B) r.drainTimer ∧
    (∀ k : SlotId,
      wordHolds (word (0x0C0 + 4 * k.val)) [(0, 3, slotStateCode (r.slot k).state), (3, 6, (r.slot k).outstanding),
        (9, 3, causeCode (r.slot k).cause), (12, 1, (r.slot k).tainted.toNat), (13, 1, (r.slot k).afterGap.toNat),
        (16, 16, (r.slot k).seq.toNat)] ∧
      word (0x0C1 + 4 * k.val) = (r.slot k).base.extractLsb' 8 32 ∧
      word (0x0C2 + 4 * k.val) = BitVec.ofNat 32 (r.slot k).fillLength ∧
      word (0x0C3 + 4 * k.val) = BitVec.ofNat 32 (r.slot k).bytesAccepted) ∧
    wordHolds (word 0x100) [(0, 4, r.ready.length)] ∧
    (∀ n : Fin 8,
      (∀ e, r.ready[n.val]? = some e → wordHolds (word (0x101 + n.val)) [(0, 3, e.slot.val),
        (4, 2, match (r.slot e.slot).state with
          | .closing => 1
          | .recording => 2
          | .settled => 3
          | _ => 0),
        (6, 1, e.answered.toNat), (16, 16, (r.slot e.slot).seq.toNat)]) ∧
      (r.ready[n.val]? = none → word (0x101 + n.val) = 0)) ∧
    (word 0x140 = r.counters.closes ∧ word 0x141 = r.counters.releases ∧ word 0x142 = r.counters.retains ∧
      word 0x143 = r.counters.droppedWrites ∧ word 0x144 = r.counters.reclaims ∧ word 0x145 = r.counters.patternReads ∧
      word 0x146 = r.counters.writeErrors ∧ word 0x147 = r.counters.readErrors ∧ word 0x148 = r.counters.recordErrors ∧
      word 0x149 = r.counters.guardRefusals) ∧
    wordHolds (word 0x180) [(0, 10, r.attention.toNat)]

/-- The event line configuration word sets EDGE of the eight lines from bit pairs and changes no detector level; the two
attention mask words replace the ring's or the global mask. Each changes nothing else but the frame's position and reads
back its assigned bits (07 R120, 10 R170, 12 R175, R179). EDGE is 0 NONE, 1 RISING, 2 FALLING, 3 BOTH. The identification word
reads 5A480148h, word 0020h shows REFUSAL, and the command register and every unassigned address, of the global block, of the
four ring blocks and outside the blocks, read 0 (12 R174). -/
def Obligations.ConfigurationAndMaskWrites : Prop :=
  (∀ s : State, s.readWord 0x0000#16 = 0x5A480148#32 ∧ s.readWord 0x0004#16 = 0 ∧
    wordHolds (s.readWord 0x0020#16) [(0, 1, s.globalAttn.toNat)] ∧
    ∀ a : WordAddr, (a.toNat < 0x1000 ∨ 0x2000 ≤ a.toNat) →
      a.toNat ∉ [0x00, 0x01, 0x02, 0x05, 0x08, 0x09, 0x0A, 0x10, 0x11, 0x20, 0x21, 0x22] → s.readWord a = 0) ∧
  (∀ (i : RingId) (off : Nat) (s : State), (0x020 ≤ off ∧ off < 0x040) ∨ (0x061 ≤ off ∧ off < 0x080) ∨
    (0x08C ≤ off ∧ off < 0x0C0) ∨ (0x0E0 ≤ off ∧ off < 0x100) ∨ (0x109 ≤ off ∧ off < 0x140) ∨
    (0x14A ≤ off ∧ off < 0x180) ∨ (0x182 ≤ off ∧ off < 0x400) → s.ringWord i off = 0) ∧
  ∀ (w : Word) (i : RingId) (s : State),
    (s.takesWord 0x0001#16 w = true → ∃ t, exec (.eventLineConfiguration w) s = .next t ∧
      t = { s with sent := [], port := { s.port with frame := s.port.frame.afterWord }, edges := t.edges } ∧
      (∀ n : LineId, t.edges[n] = match (w.extractLsb' (2 * n.val) 2).toNat with
        | 0 => .none
        | 1 => .rising
        | 2 => .falling
        | _ => .both) ∧
      t.readWord 0x0001#16 = w &&& 0x0000FFFF#32) ∧
    (s.takesWord (maskAddr i) w = true → ∃ t, exec (.attentionMaskWrite i w) s = .next t ∧
      t = { s with
        sent := []
        port := { s.port with frame := s.port.frame.afterWord }
        rings := s.rings.set i { s.ring i with mask := w.extractLsb' 0 10 } } ∧
      t.readWord (maskAddr i) = w &&& 0x000003FF#32) ∧
    (s.takesWord 0x0021#16 w = true → ∃ t, exec (.globalAttentionMaskWrite w) s = .next t ∧
      t = { s with
        sent := []
        port := { s.port with frame := s.port.frame.afterWord }
        globalMask := w.getLsbD 0 } ∧
      t.readWord 0x0021#16 = w &&& 0x00000001#32)

/-- A word written anywhere in the window: at a writable address it is the command of that address (the model's reading,
DEDUCED, log 21), and a word whose bits 3:0 are no command code, or one at any other address, changes nothing but the frame's
position. At the command register the ring number is bits 6:4, GLOBAL bit 7 and the cause set bits 25:16 for ACK; the other
bits are disregarded, and bits 7 and 25:16 under any code but ACK (10 R164, R166, 12 R174, R180). -/
def Obligations.RegisterWriteDispatches : Prop :=
  ∀ (w : Word) (i : RingId) (k : Fin 32) (n : RingField) (causes : BitVec 10) (a : WordAddr) (s : State),
    exec (.registerWrite (shadowAddr i k) w) s = exec (.shadowWrite i k w) s ∧
    exec (.registerWrite 0x0001#16 w) s = exec (.eventLineConfiguration w) s ∧
    exec (.registerWrite (maskAddr i) w) s = exec (.attentionMaskWrite i w) s ∧
    exec (.registerWrite 0x0021#16 w) s = exec (.globalAttentionMaskWrite w) s ∧
    exec (.registerWrite 0x0004#16 (commandWord .commit n false 0)) s = exec (.commit n) s ∧
    exec (.registerWrite 0x0004#16 (commandWord .start n false 0)) s = exec (.start n) s ∧
    exec (.registerWrite 0x0004#16 (commandWord .stop n false 0)) s = exec (.stop n) s ∧
    exec (.registerWrite 0x0004#16 (commandWord .abort n false 0)) s = exec (.abort n) s ∧
    exec (.registerWrite 0x0004#16 (commandWord .close n false 0)) s = exec (.close n) s ∧
    exec (.registerWrite 0x0004#16 (commandWord .release n false 0)) s = exec (.release n) s ∧
    exec (.registerWrite 0x0004#16 (commandWord .ack n false causes)) s = exec (.ack n causes) s ∧
    exec (.registerWrite 0x0004#16 (commandWord .ack n true causes)) s = exec (.ackGlobal n causes) s ∧
    (s.takesWord 0x0004#16 w = true →
      let at_ : State := { s with port := { s.port with frame := s.port.frame.wordStart } }
      let code := (w.extractLsb' 0 4).toNat
      let target : RingField := Fin.ofNat 8 (w.extractLsb' 4 3).toNat
      (code = 1 → exec (.registerWrite 0x0004#16 w) s = exec (.commit target) at_) ∧
      (code = 2 → exec (.registerWrite 0x0004#16 w) s = exec (.start target) at_) ∧
      (code = 3 → exec (.registerWrite 0x0004#16 w) s = exec (.stop target) at_) ∧
      (code = 4 → exec (.registerWrite 0x0004#16 w) s = exec (.abort target) at_) ∧
      (code = 5 → exec (.registerWrite 0x0004#16 w) s = exec (.close target) at_) ∧
      (code = 6 → exec (.registerWrite 0x0004#16 w) s = exec (.release target) at_) ∧
      (code = 7 → w.getLsbD 7 = false →
        exec (.registerWrite 0x0004#16 w) s = exec (.ack target (w.extractLsb' 16 10)) at_) ∧
      (code = 7 → w.getLsbD 7 = true →
        exec (.registerWrite 0x0004#16 w) s = exec (.ackGlobal target (w.extractLsb' 16 10)) at_)) ∧
    (s.takesWord (shadowAddr i k) w = true → exec (.registerWrite (shadowAddr i k) w) s = .next { s with
      sent := []
      port := { s.port with frame := s.port.frame.afterWord }
      rings := s.rings.set i { s.ring i with shadow := (s.ring i).shadow.writeWord k w } }) ∧
    (s.takesWord a w = true →
      (a = 0x0004#16 ∧ ((w.extractLsb' 0 4).toNat = 0 ∨ 8 ≤ (w.extractLsb' 0 4).toNat)) ∨ ¬ writableWord a →
      exec (.registerWrite a w) s = .next { s with
        sent := []
        port := { s.port with frame := s.port.frame.afterWord } })

/-- CS_N falls: the first byte is the frame code, the next two the word address, high byte first; 02h opens a write frame,
0Bh a read frame with its turnaround byte, another code is ignored to the end, and fewer bits leave the frame in its header;
while RESET_N is low no frame begins. The bits are taken one by one: the last bit of a write word is the REGISTER_WRITE of
that word at the current word address, the last bit of the turnaround byte or of a read word samples the next word, and the
address moves on, wrapping. MISO is released while CS_N is high or RESET_N low; it is high in bytes 0 to 2, in a write frame,
an ignored frame and the turnaround byte, and carries the sampled word, most significant bit first, after that. CS_N rises:
the frame ends (10 R160 to R163). That FRAME_BEGIN carries the bits, any number of them, and that with CS_N low already it
carries further bits of the open frame, are the model's choices (DESIGN CHOICE, logs 2 and 8). -/
def Obligations.FramesBeginAndEnd : Prop :=
  (∀ s : State, exec .frameEnd s = .next { s with sent := [], port := ⟨false, .none⟩ }) ∧
  (∀ (mosi : List Bool) (s : State),
    let code := bitsToNat (mosi.take 8)
    let addr := BitVec.ofNat 16 (bitsToNat ((mosi.drop 8).take 16))
    let opens (f : Frame) : Prop := exec (.frameBegin mosi) s = .next { s with sent := [], port := ⟨true, f⟩ }
    (s.port.csLow = true → exec (.frameBegin mosi) s = .next (mosi.foldl State.takeBit { s with sent := [] })) ∧
    (s.port.csLow = false → s.resetLow = true → opens .none) ∧
    (s.port.csLow = false → s.resetLow = false →
      exec (.frameBegin mosi) s = .next (mosi.foldl State.takeBit { s with sent := [], port := ⟨true, .header []⟩ }) ∧
      (mosi.length < 8 → opens (.header mosi)) ∧
      (8 ≤ mosi.length → mosi.length < 24 → code = 0x02 ∨ code = 0x0B → opens (.header mosi)) ∧
      (24 ≤ mosi.length → mosi.length < 56 → code = 0x02 → opens (.write addr (mosi.drop 24))) ∧
      (24 ≤ mosi.length → mosi.length < 32 → code = 0x0B → opens (.turnaround addr (mosi.length - 24))) ∧
      (8 ≤ mosi.length → code ≠ 0x02 → code ≠ 0x0B → opens .ignored))) ∧
  (∀ (b : Bool) (s : State),
    let becomes (f : Frame) : Prop := s.takeBit b = { s with port := { s.port with frame := f } }
    let samples (a : WordAddr) : Prop := s.takeBit b = { s with
      port := { s.port with frame := .read (a + 1) (wordBits (s.readWord a)) }
      sent := s.sent ++ [.miso (s.readWord a)] }
    (s.port.frame = .none ∨ s.port.frame = .ignored → s.takeBit b = s) ∧
    (s.port.frame = .blocked → ∃ n, s.takeBit b = { s with choices := n }) ∧
    (∀ taken, s.port.frame = .header taken →
      let bits := taken ++ [b]
      let code := bitsToNat (bits.take 8)
      let addr := BitVec.ofNat 16 (bitsToNat ((bits.drop 8).take 16))
      (bits.length < 8 → becomes (.header bits)) ∧
      (8 ≤ bits.length → bits.length < 24 → code = 0x02 ∨ code = 0x0B → becomes (.header bits)) ∧
      (8 ≤ bits.length → code ≠ 0x02 → code ≠ 0x0B → becomes .ignored) ∧
      (24 ≤ bits.length → code = 0x02 → becomes (.write addr [])) ∧
      (24 ≤ bits.length → code = 0x0B → becomes (.turnaround addr 0))) ∧
    (∀ a moving, s.port.frame = .write a moving →
      (moving.length < 31 → becomes (.write a (moving ++ [b]))) ∧
      (∀ w : Word, moving ++ [b] = wordBits w → s.port.csLow = true → s.resetLow = false →
        exec (.frameBegin [b]) s = exec (.registerWrite a w) s)) ∧
    (∀ a n, s.port.frame = .turnaround a n → (n < 7 → becomes (.turnaround a (n + 1))) ∧ (n = 7 → samples a)) ∧
    (∀ a x y rest, s.port.frame = .read a (x :: y :: rest) → becomes (.read a (y :: rest))) ∧
    (∀ a x, s.port.frame = .read a [x] → samples a)) ∧
  (∀ (w : Word) (j : Nat), (wordBits w).length = 32 ∧ (j < 32 → (wordBits w)[j]? = some (w.getLsbD (31 - j)))) ∧
  ∀ s : State,
    (s.misoLevel = none ↔ s.port.csLow = false ∨ s.resetLow = true) ∧
    (s.port.csLow = true → s.resetLow = false →
      (s.port.frame = .ignored ∨ (∃ taken, s.port.frame = .header taken) ∨
        (∃ a moving, s.port.frame = .write a moving) ∨ (∃ a n, s.port.frame = .turnaround a n) →
        s.misoLevel = some true) ∧
      ∀ a x rest, s.port.frame = .read a (x :: rest) → s.misoLevel = some x)

/-! ### Commands -/

/-- The command register's word taken and its command refused, or accepted without an effect: the result is overwritten,
COUNT goes up by one modulo 256, and nothing else changes but the frame's position. Word 0005h shows the result (10 R167, 12
R180). -/
def Obligations.RefusedCommandChangesResultAlone : Prop :=
  (∀ s : State, wordHolds (s.readWord 0x0005#16) [
    (0, 4, match s.result.command with
      | none => 0
      | some .commit => 1
      | some .start => 2
      | some .stop => 3
      | some .abort => 4
      | some .close => 5
      | some .release => 6
      | some .ack => 7),
    (4, 3, s.result.target.val), (7, 1, s.result.isGlobal.toNat), (8, 1, s.result.refused.toNat),
    (9, 3, match s.result.cause with
      | .none => 0
      | .wrongState => 1
      | .noDescriptor => 2
      | .invalid => 3
      | .structuralChange => 4
      | .nothingToClose => 5
      | .nothingToRelease => 6
      | .badRing => 7),
    (12, 4, s.result.check), (16, 8, s.result.count.toNat)]) ∧
  ∀ (n : RingField) (i : RingId) (causes : BitVec 10) (s : State),
    let r := s.ring i
    let answers (c : Instr) (kind : CommandKind) (target : RingField) (refused : Bool) (cause : CommandCause)
        (check : Nat) : Prop :=
      exec c s = .next { s with
        sent := []
        port := { s.port with frame := s.port.frame.afterWord }
        result := ⟨some kind, target, false, refused, cause, check, s.result.count + 1⟩ }
    (4 ≤ n.val →
      (s.takesCommand .commit n false 0 = true → answers (.commit n) .commit n true .badRing 0) ∧
      (s.takesCommand .start n false 0 = true → answers (.start n) .start n true .badRing 0) ∧
      (s.takesCommand .stop n false 0 = true → answers (.stop n) .stop n true .badRing 0) ∧
      (s.takesCommand .abort n false 0 = true → answers (.abort n) .abort n true .badRing 0) ∧
      (s.takesCommand .close n false 0 = true → answers (.close n) .close n true .badRing 0) ∧
      (s.takesCommand .release n false 0 = true → answers (.release n) .release n true .badRing 0) ∧
      (s.takesCommand .ack n false causes = true → answers (.ack n causes) .ack n true .badRing 0)) ∧
    (n = ringField i →
      (s.takesCommand .commit n false 0 = true →
        (r.runState = .fault ∨ r.runState = .aborting → answers (.commit n) .commit n true .wrongState 0) ∧
        (r.moves = true → r.shadow.sameStructure r.active = false →
          answers (.commit n) .commit n true .structuralChange 0)) ∧
      (s.takesCommand .start n false 0 = true →
        (r.runState ≠ .idle → answers (.start n) .start n true .wrongState 0) ∧
        (r.runState = .idle → r.activeValid = false → answers (.start n) .start n true .noDescriptor 0) ∧
        (∀ check, r.runState = .idle → r.activeValid = true → s.startFailure i = some check →
          answers (.start n) .start n true .invalid check)) ∧
      (s.takesCommand .stop n false 0 = true → r.runState ≠ .running →
        answers (.stop n) .stop n true .wrongState 0) ∧
      (s.takesCommand .abort n false 0 = true → r.runState = .idle ∨ r.runState = .aborting →
        answers (.abort n) .abort n false .none 0) ∧
      (s.takesCommand .close n false 0 = true →
        (r.runState ≠ .running → answers (.close n) .close n true .wrongState 0) ∧
        (r.runState = .running → r.fillSub ≠ .filling ∨ r.fillBytes = 0 →
          answers (.close n) .close n true .nothingToClose 0)) ∧
      (s.takesCommand .release n false 0 = true →
        (r.runState ≠ .running → r.runState ≠ .ending → answers (.release n) .release n true .wrongState 0) ∧
        (r.runState = .running ∨ r.runState = .ending → r.drainSub = .empty ∨ r.drainSub = .waiting →
          answers (.release n) .release n true .nothingToRelease 0)))

/-- The validity checks of START: the twelve of Table 5-3, on ranges that overlap when they share a byte, in the order of
their numbers; none fails, or the number answered is that of the first that fails (05 R88, R89, Table 5-3). -/
def Obligations.ValidityChecksAtStart : Prop :=
  (∀ a b : ByteRange, a.overlaps b = true ↔ ∃ x, (a.lo ≤ x ∧ x < a.hi) ∧ (b.lo ≤ x ∧ x < b.hi)) ∧
  ∀ (i : RingId) (s : State),
    firstFailing [1, 2, 3, 4, 5, 6, 7, 8, 9, 10, 11, 12] (fun n => s.checkHolds i (s.ring i).active n) (s.startFailure i)

/-- START of an IDLE ring with a valid active descriptor: BASE latched below SLOT_COUNT, every slot FREE but slot 0, which
is the fill slot, the free list 1 to SLOT_COUNT − 1, sequence number, budget, records, log position, timers and counters at
their starting values, RUNNING, FILLING and EMPTY; shadow, mask, attention and the other rings as they were (06 R106). -/
def Obligations.StartInitialisesRing : Prop :=
  ∀ (i : RingId) (s : State), s.takesCommand .start (ringField i) false 0 = true → (s.ring i).runState = .idle →
    (s.ring i).activeValid = true → s.startFailure i = none →
    let r := s.ring i
    let started : Ring := { r with
      slots := Vector.ofFn fun k : SlotId =>
        { state := if k = 0 then .filling else .free
          base := if k.val < r.active.slotCount.toNat then r.active.slotBase[k] else (r.slot k).base
          seq := 0
          fillLength := 0
          bytesAccepted := 0
          cause := none
          tainted := false
          afterGap := false
          outstanding := 0 }
      freeList := (List.finRange 8).filter fun k => 1 ≤ k.val && k.val < r.active.slotCount.toNat
      ready := []
      releasing := []
      records := []
      fillSlot := some 0
      drainSlot := none
      nextSeq := 0
      budgetRemaining := r.active.budget.toNat
      recordIndex := 0
      lap := 0
      counters := Counters.zero
      started := true
      runState := .running
      fillSub := .filling
      fillCursor := 0
      fillBytes := 0
      highMark := 0
      gapPending := false
      fillTimer := none
      drainSub := .empty
      drainCursor := 0
      bytesRead := 0
      underrunNoted := false
      drainTimer := none }
    exec (.start (ringField i)) s = .next { State.finish { s with
        sent := []
        port := { s.port with frame := s.port.frame.afterWord }
        rings := s.rings.set i started
        reexamAsked := true } with
      result := ⟨some .start, ringField i, false, false, .none, 0, s.result.count + 1⟩ }

/-- STOP of a RUNNING ring: a frame with BYTES_ACCEPTED above 0 is closed with cause STOP, counting against the budget, an
empty fill slot goes back to the free-list tail; the fill side is CLOSED with its timer stopped and the ring ENDING; its held
writes are refused with cause FILL_CLOSED, oldest first (each answered ERROR and entered in the refusal record); a RETAINED
drain slot is released if the ready queue is empty; then the re-examination and the completion test (02 R32, R33, R41, 03 R65,
06 R107; that the re-examination stands before the test is the model's reading, log 14). -/
def Obligations.StopEndsTheFill : Prop :=
  ∀ (i : RingId) (s : State), s.takesCommand .stop (ringField i) false 0 = true → (s.ring i).runState = .running →
    let r := s.ring i
    let picked := s.hold.filter (fun h => h.reason == .fillWait i)
    let taken : State := { s with sent := [], port := { s.port with frame := s.port.frame.afterWord } }
    ∃ one f e : State, exec (.stop (ringField i)) s = .next { State.finish (e.reexamine.testEnding i) with
        result := ⟨some .stop, ringField i, false, false, .none, 0, s.result.count + 1⟩ } ∧
      (r.fillSub ≠ .filling → one = taken) ∧
      (∀ k, r.fillSub = .filling → r.fillBytes = 0 → r.fillSlot = some k →
        one = { taken with rings := s.rings.set i { r with
          slots := r.slots.set k { r.slot k with state := .free }
          freeList := r.freeList ++ [k]
          fillSlot := none
          fillCursor := 0
          fillBytes := 0
          highMark := 0 } }) ∧
      (∀ k, r.fillSub = .filling → 0 < r.fillBytes → r.fillSlot = some k →
        one = State.modRing i (fun x => { x with
            budgetRemaining := if x.active.budget = 0 then 0 else x.budgetRemaining - 1 })
          (State.settleRing i { taken with rings := s.rings.set i { r with
            slots := r.slots.set k { r.slot k with
              state := .closing
              seq := r.nextSeq
              fillLength := r.highMark
              bytesAccepted := r.fillBytes
              cause := some .stop
              afterGap := (r.slot k).afterGap || r.gapPending }
            nextSeq := r.nextSeq + 1
            fillCursor := 0
            fillBytes := 0
            highMark := 0
            gapPending := false
            fillSlot := none
            ready := r.ready ++ [⟨k, false⟩]
            counters := { r.counters with closes := satInc r.counters.closes } } }).grantRecords.noteChange) ∧
      f = picked.foldl (fun t h => t.refuse h.request .fillClosed i) { one with
        rings := one.rings.set i { one.ring i with fillSub := .closed, fillTimer := none, runState := .ending }
        hold := s.hold.filter (fun h => !(h.reason == .fillWait i))
        walkChanged := one.walkChanged || !picked.isEmpty } ∧
      (¬ ((f.ring i).drainSub = .retained ∧ (f.ring i).ready = []) → e = { f with reexamAsked := true }) ∧
      (∀ d, (f.ring i).drainSub = .retained → (f.ring i).ready = [] → (f.ring i).drainSlot = some d →
        let x := f.ring i
        let idle : Ring := { x with
          counters := { x.counters with releases := satInc x.counters.releases }
          attention := addCause .released x.attention
          drainSlot := none
          drainCursor := 0
          bytesRead := 0
          drainSub := .empty
          drainTimer := none }
        ((x.slot d).outstanding ≠ 0 → e = { f with reexamAsked := true, rings := f.rings.set i { idle with
          slots := x.slots.set d { x.slot d with state := .releasing }
          releasing := x.releasing ++ [d] } }) ∧
        ((x.slot d).outstanding = 0 → d ∉ x.releasing →
          e = { f with reexamAsked := true, rings := f.rings.set i { idle with
            slots := x.slots.set d { x.slot d with state := .free }
            freeList := x.freeList ++ [d] } })) ∧
      (e.ring i).runState = .ending ∧ (e.ring i).fillSub = .closed ∧ (e.ring i).fillTimer = none ∧
      e.hold = s.hold.filter (fun h => !(h.reason == .fillWait i)) ∧
      picked.map (fun h =>
        PortEvent.upstream ⟨h.request.initiator, h.request.tag, .error, refusedData h.request⟩) <:+ e.sent ∧
      (∀ k, r.fillSub = .filling → 0 < r.fillBytes → r.fillSlot = some k → r.closedAs k .stop (e.ring i)) ∧
      (∀ k, r.fillSub = .filling → r.fillBytes = 0 → r.fillSlot = some k → r.drainSub ≠ .retained →
        (e.ring i).freeList = r.freeList ++ [k] ∧ ((e.ring i).slot k).state = .free ∧ (e.ring i).fillSlot = none ∧
        (e.ring i).nextSeq = r.nextSeq)

/-- ABORT of a RUNNING, ENDING or FAULT ring: ABORTING, the fill side CLOSED, a WAITING drain side EMPTY, both timers
stopped, the record queue discarded, a pending commit lost with cause ABORTED, every held wait of the ring refused with cause
ABORTED oldest first (each answered ERROR and entered in the refusal record), and nothing else; then the re-examination and
the completion test (06 R115, 02 R43, 03 R67, 04 R83; the order of the answers and of the re-examination: logs 13 and 14). -/
def Obligations.AbortEntersAborting : Prop :=
  ∀ (i : RingId) (s : State), s.takesCommand .abort (ringField i) false 0 = true →
    (s.ring i).runState ≠ .idle → (s.ring i).runState ≠ .aborting →
    let r := s.ring i
    let waits (h : Held) : Bool := h.reason = .fillWait i || h.reason = .drainWait i
    let picked := s.hold.filter waits
    let answer (t : State) (h : Held) : State := t.refuse h.request .aborted i
    let start : State := { s with
      sent := []
      port := { s.port with frame := s.port.frame.afterWord }
      rings := s.rings.set i { r with
        runState := .aborting
        fillSub := .closed
        drainSub := if r.drainSub = .waiting then .empty else r.drainSub
        fillTimer := none
        drainTimer := none
        records := []
        commitPending := false
        lostCause := if r.commitPending then .aborted else r.lostCause
        attention := if r.commitPending then addCause .commitLost r.attention else r.attention }
      hold := s.hold.filter (fun h => !waits h)
      walkChanged := s.walkChanged || !picked.isEmpty }
    let e : State := { picked.foldl answer start with reexamAsked := true }
    exec (.abort (ringField i)) s = .next { State.finish (e.reexamine.testAborting i) with
      result := ⟨some .abort, ringField i, false, false, .none, 0, s.result.count + 1⟩ } ∧
    (∀ j, j ≠ i → e.ring j = s.ring j) ∧
    e.sent = picked.map (fun h =>
      .upstream ⟨h.request.initiator, h.request.tag, .error, refusedData h.request⟩) ∧
    e.table = s.table

/-- COMMIT: in IDLE the whole shadow is copied at once, with ACTIVE_VALID, BUDGET_REMAINING, COMMIT_APPLIED and, under a
new SLOT_COUNT in a ring that has been started, the free list 0 to SLOT_COUNT − 1; in RUNNING and ENDING with the
structural fields equal it sets COMMIT_PENDING and no more (05 R87, R91, R92). COMMIT in IDLE checks nothing: under a
SLOT_COUNT of 9 to 15 the free list holds 0 to 7, the model's choice (DEDUCED, log 12). -/
def Obligations.CommitCopiesOrPends : Prop :=
  (∀ d e : Descriptor, d.sameStructure e = true ↔
    d.fillBase = e.fillBase ∧ d.drainBase = e.drainBase ∧ d.aperSize = e.aperSize ∧ d.slotCount = e.slotCount ∧
    d.slotSize = e.slotSize ∧ d.fillMode = e.fillMode ∧ d.drainMode = e.drainMode ∧ d.recordEnable = e.recordEnable ∧
    d.recordBase = e.recordBase ∧ d.recordCount = e.recordCount) ∧
  ∀ (i : RingId) (s : State), s.takesCommand .commit (ringField i) false 0 = true →
    let r := s.ring i
    let n := s.result.count + 1
    let past : MgmtPort := { s.port with frame := s.port.frame.afterWord }
    (r.runState = .idle → exec (.commit (ringField i)) s = .next { State.finish { s with
        sent := []
        port := past
        reexamAsked := true
        rings := s.rings.set i { r with
          active := r.shadow
          activeValid := true
          commitPending := false
          budgetRemaining := r.shadow.budget.toNat
          attention := addCause .commitApplied r.attention
          freeList := if r.shadow.slotCount ≠ r.active.slotCount ∧ r.started = true then
              (List.finRange 8).filter fun k => k.val < r.shadow.slotCount.toNat
            else r.freeList } } with
      result := ⟨some .commit, ringField i, false, false, .none, 0, n⟩ }) ∧
    (r.moves = true → r.shadow.sameStructure r.active = true → exec (.commit (ringField i)) s = .next { s with
      sent := []
      port := past
      rings := s.rings.set i { r with commitPending := true }
      result := ⟨some .commit, ringField i, false, false, .none, 0, n⟩ })

/-- CLOSE of a RUNNING ring that is FILLING with BYTES_ACCEPTED above 0 runs the close procedure with cause COMMAND;
RELEASE of a RUNNING or ENDING ring with a drain slot is a release trigger; both answer ACCEPTED (02 R30, 03 R57). -/
def Obligations.CloseAndReleaseAct : Prop :=
  ∀ (i : RingId) (s : State),
    let r := s.ring i
    let taken : State := { s with sent := [], port := { s.port with frame := s.port.frame.afterWord } }
    (s.takesCommand .close (ringField i) false 0 = true →
      r.runState = .running → r.fillSub = .filling → 0 < r.fillBytes →
      exec (.close (ringField i)) s = .next { (taken.closeFrame i .command none).finish with
        result := ⟨some .close, ringField i, false, false, .none, 0, s.result.count + 1⟩ }) ∧
    (s.takesCommand .release (ringField i) false 0 = true →
      r.runState = .running ∨ r.runState = .ending → r.drainSub = .draining ∨ r.drainSub = .retained →
      exec (.release (ringField i)) s = .next { (taken.trigger i).finish with
        result := ⟨some .release, ringField i, false, false, .none, 0, s.result.count + 1⟩ })

/-- A trigger on drain slot d retains it when the ring is not ENDING, UNDERRUN is REPEAT and the ready-queue head is not
SETTLED; otherwise it releases it into the releasing set, on to the free list at once with no read in flight, counts,
raises RELEASED, empties the drain side, takes a settled head, and asks for a re-examination and the completion test (03
R58, R59, 01 R14). -/
def Obligations.TriggerReleasesOrRetains : Prop :=
  ∀ (i : RingId) (d : SlotId) (s : State), (s.ring i).drainSlot = some d →
    let r := s.ring i
    let released : Ring := { r with
      slots := r.slots.set d { r.slot d with state := .releasing }
      counters := { r.counters with releases := satInc r.counters.releases }
      attention := addCause .released r.attention
      releasing := r.releasing ++ [d]
      drainSlot := none
      drainCursor := 0
      bytesRead := 0
      drainSub := .empty
      drainTimer := none }
    let entered : State := { s with rings := s.rings.set i released }
    (r.runState ≠ .ending → r.active.underrun = 2 → r.headSettled = false →
      s.trigger i = { s with rings := s.rings.set i { r with
        slots := r.slots.set d { r.slot d with state := .retained }
        counters := { r.counters with retains := satInc r.counters.retains }
        drainSub := .retained
        drainCursor := 0
        bytesRead := 0
        drainTimer := none } }) ∧
    (r.runState = .ending ∨ r.active.underrun ≠ 2 ∨ r.headSettled = true →
      ((r.slot d).outstanding ≠ 0 → s.trigger i = (entered.takeSettled i).askReexam.testEnding i) ∧
      ((r.slot d).outstanding = 0 → s.trigger i = ((entered.freeReleased i d).takeSettled i).askReexam.testEnding i))

/-- ACK of a ring removes each carried cause from its attention set; ACK of the global target that carries REFUSAL empties
the global set and the refusal record and sets LATER_COUNT to 0, and one that does not leaves them. Both answer ACCEPTED
and change nothing else but the frame's position (08 R145, 10 R167, R168). That the result of a global ACK keeps the ring
number as written beside GLOBAL is the model's reading (DEDUCED, log 25). -/
def Obligations.AckClearsAttention : Prop :=
  ∀ (i : RingId) (n : RingField) (causes : BitVec 10) (s : State),
    let past : MgmtPort := { s.port with frame := s.port.frame.afterWord }
    (s.takesCommand .ack (ringField i) false causes = true →
      exec (.ack (ringField i) causes) s = .next { s with
        sent := []
        port := past
        rings := s.rings.set i { s.ring i with attention := (s.ring i).attention &&& ~~~causes }
        result := ⟨some .ack, ringField i, false, false, .none, 0, s.result.count + 1⟩ }) ∧
    (s.takesCommand .ack n true causes = true →
      (causes.getLsbD 0 = true → exec (.ackGlobal n causes) s = .next { s with
        sent := []
        port := past
        globalAttn := false
        refusal := none
        laterCount := 0
        result := ⟨some .ack, n, true, false, .none, 0, s.result.count + 1⟩ }) ∧
      (causes.getLsbD 0 = false → exec (.ackGlobal n causes) s = .next { s with
        sent := []
        port := past
        result := ⟨some .ack, n, true, false, .none, 0, s.result.count + 1⟩ }))

/-! ### Steps of the block itself -/

/-- The record tier: the first ring after the one served last that offers a record is granted the lowest free entry. Its
head record leaves the queue, takes position RECORD_INDEX and the current LAP, which then advance, becomes a RECORD entry
and goes out as a 16-byte write with INITIATOR 0 and TAG 0. With no free entry or no offer nothing happens (04 R74, R77, 09
R155). -/
def Obligations.RecordIssueSendsHeadRecord : Prop :=
  ∀ (s : State),
    (∀ (t : DownTag) (step : Fin 4) (x : LogRecord) (rest : List LogRecord),
      let i : RingId := s.rrLast + 1 + step
      (∀ u, u < t → s.table[u] ≠ none) → s.table[t] = none →
      (∀ k : Fin 4, k < step → (s.ring (s.rrLast + 1 + k)).moves = false ∨ (s.ring (s.rrLast + 1 + k)).records = []) →
      (s.ring i).moves = true → (s.ring i).records = x :: rest →
      let r := s.ring i
      let wraps := r.recordIndex + 1 = r.active.recordCount.toNat
      exec .recordIssue s = .next (State.finish (State.testEnding i { s with
        sent := [.downstream ⟨t, 0, 0, BitVec.ofNat 40 (r.active.recordBase.toNat + 16 * r.recordIndex),
          .write (recordBytes x r.lap)⟩]
        table := s.table.set t (some (.record i x.slot x.kind))
        rrLast := i
        rings := s.rings.set i { r with
          records := rest
          recordIndex := if wraps then 0 else r.recordIndex + 1
          lap := if wraps then r.lap + 1 else r.lap } }))) ∧
    ((∀ t : DownTag, s.table[t] ≠ none) ∨ (∀ i, (s.ring i).moves = false ∨ (s.ring i).records = []) →
      exec .recordIssue s = .next { s with sent := [] })

/-- A re-examination is made of walks. A visit to an entry with an older held entry of its initiator gives it reason ORDER;
another entry is decoded afresh: a pass-through, a write that fits the FILLING slot or a read that the drain slot serves is
issued and leaves the queue, or takes reason TABLE, and a write or read that its side holds takes that reason; a write meets
DROP or a reclaim, a read the pattern or RING_ENDING, under the policy in force. When the last held wait of a WAITING side is
answered so, the side leaves WAITING and its timer stops (02 R19, 03 R46, R64, R65, 07 R126; that DROP leaves a WAITING fill
side NO_SLOT is the model's reading of a case that no run reaches, DEDUCED, log 33). The decode's outcome stands for every
other entry. A walk visits the entries from the head to the tail, an offered record granted after
each; walks follow one another until one changes nothing (09 R151, R155; at most 1024 walks: log 15). None is made while
RESET_N is low (09 R159). -/
def Obligations.ReExaminationIssuesHeldRequest : Prop :=
  (∀ s : State,
    (s.resetLow = true → exec .reExamination s = .next { s with sent := [] }) ∧
    (s.resetLow = false → exec .reExamination s = .next (State.finish { s with sent := [], reexamAsked := true })) ∧
    (s.resetLow = false → s.quiet = true → s.waiting = [] → s.hold = [] →
      exec .reExamination s = .next { s with sent := [] }) ∧
    (∀ (h : Held) (t : DownTag), s.resetLow = false → s.quiet = true → s.waiting = [] → s.hold = [h] →
      h.reason = .table → s.matchRequest h.request = .outside → s.guardRing? h.request = none →
      s.anyOffer = false → s.freeTag? = some t →
      exec .reExamination s = .next { s with
        sent := [.downstream ⟨t, h.request.initiator, h.request.tag, h.request.addr, h.request.payload⟩]
        table := s.table.set t (some (.pass h.request.initiator h.request.tag (requestKind h.request)))
        hold := [] })) ∧
  (∀ (s : State) (n : Nat) (seq : Nat → State), s.resetLow = false → s.quiet = true → s.waiting = [] → n < 1024 →
    seq 0 = State.walk { s with sent := [] } →
    (∀ m < n, ((seq m).reexamAsked = true ∨ (seq m).walkChanged = true) ∧
      seq (m + 1) = State.walk { seq m with reexamAsked := false, walkChanged := false }) →
    (seq n).reexamAsked = false → (seq n).walkChanged = false →
    exec .reExamination s = .next (seq n)) ∧
  (∀ s : State, s.walk = (s.hold.map Held.order).foldl (fun t k => (t.visit k).grantRecords) s) ∧
  (∀ (k : Nat) (s : State), (∀ h ∈ s.hold, h.order ≠ k) → s.visit k = s) ∧
  ∀ (front back : List Held) (h : Held) (s : State), s.hold = front ++ h :: back → (∀ g ∈ front, g.order ≠ h.order) →
    (∀ g ∈ back, g.order ≠ h.order) →
    let q := h.request
    let n := q.payload.length
    let keeps (u : State) (reason : Reason) : Prop := s.visit h.order = (if h.reason = reason then u else { u with
      hold := front ++ { h with reason := reason } :: back
      walkChanged := true })
    let left : State := { s with hold := front ++ back, walkChanged := true }
    let older := ∃ g ∈ s.hold, g.order < h.order ∧ g.request.initiator = q.initiator
    let last (reason : Reason) : Prop := ∀ g ∈ front ++ back, g.reason ≠ reason
    (older → keeps s .order) ∧
    (¬ older →
      (∀ u, s.decode (some h.order) q = (u, .done) → s.visit h.order = u) ∧
      (∀ u reason, s.decode (some h.order) q = (u, .hold reason) → s.visit h.order = u.setReason h.order reason) ∧
      (∀ t, s.matchRequest q = .outside → s.guardRing? q = none → s.anyOffer = false → s.freeTag? = some t →
        h.reason = .table ∨ h.reason = .order → s.visit h.order = { left with
          sent := s.sent ++ [.downstream ⟨t, q.initiator, q.tag, q.addr, q.payload⟩]
          table := s.table.set t (some (.pass q.initiator q.tag (requestKind q))) }) ∧
      (s.matchRequest q = .outside → s.guardRing? q = none → s.anyOffer = true ∨ s.freeTag? = none → keeps s .table) ∧
      ∀ i, let r := s.ring i
      (∀ (k : SlotId), s.fillDecides q i → r.fillSub = .filling → r.fillSlot = some k →
        let streamed := r.active.fillStreamed
        let offset := if streamed then r.fillCursor else q.addr.toNat - r.active.fillBase.toNat
        let cursor := if streamed then r.fillCursor + n + r.active.fillGap.toNat else r.fillCursor
        offset + n ≤ r.active.slotSize.toNat → (streamed = false → r.fillBytes + n ≤ r.active.slotSize.toNat) →
        let accepted (t : DownTag) : State := { left with
          sent := s.sent ++
            [.downstream ⟨t, q.initiator, q.tag, BitVec.ofNat 40 ((r.slot k).base.toNat + offset), q.payload⟩]
          table := s.table.set t (some (.fill i k q.initiator q.tag))
          rings := s.rings.set i { r with
            slots := r.slots.set k { r.slot k with outstanding := (r.slot k).outstanding + 1 }
            fillBytes := r.fillBytes + n
            fillCursor := cursor
            highMark := if streamed then r.fillCursor + n else max r.highMark (offset + n) } }
        let atLimit := r.active.closeOnLimit = true ∧ r.active.closeLimit.toNat ≤ r.fillBytes + n
        let atEnd := streamed = true ∧ r.active.slotSize.toNat ≤ cursor
        (s.anyOffer = true ∨ s.freeTag? = none → keeps s .table) ∧
        ∀ t, s.anyOffer = false → s.freeTag? = some t → h.reason = .table ∨ h.reason = .order ∨ h.reason = .fillWait i →
          (¬ atLimit → ¬ atEnd → s.visit h.order = accepted t) ∧
          (atLimit → s.visit h.order = (accepted t).closeFrame i .limit none) ∧
          (¬ atLimit → atEnd → s.visit h.order = (accepted t).closeFrame i .full none)) ∧
      (∀ (d : SlotId), s.drainDecides q i → r.hasDrainSlot = true → r.drainSlot = some d →
        let streamed := r.active.drainStreamed
        let offset := if streamed then r.drainCursor else q.addr.toNat - r.active.drainBase.toNat
        let cursor := if streamed then r.drainCursor + n + r.active.drainGap.toNat else r.drainCursor
        let bytes := min (r.bytesRead + n) 0xFFFFFFFF
        offset + n ≤ r.active.slotSize.toNat →
        let accepted (t : DownTag) : State := { left with
          sent := s.sent ++
            [.downstream ⟨t, q.initiator, q.tag, BitVec.ofNat 40 ((r.slot d).base.toNat + offset), q.payload⟩]
          table := s.table.set t (some (.drain i d q.initiator q.tag))
          rings := s.rings.set i { r with
            slots := r.slots.set d { r.slot d with outstanding := (r.slot d).outstanding + 1 }
            bytesRead := bytes
            drainCursor := cursor } }
        let atLimit := r.active.releaseOnLimit = true ∧ (r.slot d).fillLength ≤ (if streamed then cursor else bytes)
        (s.anyOffer = true ∨ s.freeTag? = none → keeps s .table) ∧
        ∀ t, s.anyOffer = false → s.freeTag? = some t → h.reason = .table ∨ h.reason = .order ∨ h.reason = .drainWait i →
          (¬ atLimit → s.visit h.order = accepted t) ∧
          (atLimit → s.visit h.order = (accepted t).trigger i)) ∧
      (s.fillDecides q i → r.fillSub = .noSlot ∨ r.fillSub = .waiting →
        (r.active.fillStreamed = false →
          (q.addr.toNat - r.active.fillBase.toNat) + n ≤ r.active.slotSize.toNat) →
        (r.active.overrun = 1 → h.reason = .table ∨ h.reason = .order ∨ h.reason = .fillWait i →
          let dropped : Ring := { r with
            gapPending := true
            counters := { r.counters with droppedWrites := satInc r.counters.droppedWrites }
            attention := addCause .overrun r.attention }
          s.visit h.order = { left with
            sent := s.sent ++ [.upstream ⟨q.initiator, q.tag, .okay, none⟩]
            rings := s.rings.set i (if h.reason = .fillWait i ∧ r.fillSub = .waiting ∧ last (.fillWait i) then
                { dropped with fillSub := .noSlot, fillTimer := none }
              else dropped) }) ∧
        (r.active.overrun = 2 → r.headSettled = true →
          let v := s.reclaimHead i
          (∀ k t, (v.ring i).fillSlot = some k → v.anyOffer = false → v.freeTag? = some t →
            s.visit h.order = v.acceptFill (some h.order) i k t q) ∧
          (v.anyOffer = true ∨ v.freeTag? = none → s.visit h.order = v.setReason h.order .table))) ∧
      (s.drainDecides q i → r.hasDrainSlot = false →
        (r.active.drainStreamed = false →
          (q.addr.toNat - r.active.drainBase.toNat) + n ≤ r.active.slotSize.toNat) →
        h.reason = .table ∨ h.reason = .order ∨ h.reason = .drainWait i →
        let ends (x : Ring) : Ring := if h.reason = .drainWait i ∧ r.drainSub = .waiting ∧ last (.drainWait i) then
            { x with drainSub := .empty, drainTimer := none }
          else x
        (¬ (r.runState = .ending ∧ r.ready = []) → r.active.underrun = 1 ∨ r.active.underrun = 2 →
          s.visit h.order = { left with
            sent := s.sent ++ [.upstream ⟨q.initiator, q.tag, .okay, some ((List.range n).map fun j =>
              r.active.pattern.extractLsb' (8 * ((q.addr.toNat + j) % 4)) 8)⟩]
            rings := s.rings.set i (ends { r with
              counters := { r.counters with patternReads := satInc r.counters.patternReads }
              underrunNoted := true
              attention := if r.underrunNoted then r.attention else addCause .underrun r.attention }) }) ∧
        (r.runState = .ending → r.ready = [] →
          let answered : State := { s.refuse q .ringEnding i with
            hold := front ++ back
            walkChanged := true
            rings := s.rings.set i (ends r) }
          s.visit h.order = if h.reason = .drainWait i then answered.testEnding i else answered)) ∧
      (s.fillDecides q i → r.fillSub = .waiting → r.active.overrun = 0 →
        (r.active.fillStreamed = false →
          (q.addr.toNat - r.active.fillBase.toNat) + n ≤ r.active.slotSize.toNat) → keeps s (.fillWait i)) ∧
      (s.drainDecides q i → r.drainSub = .waiting → r.active.underrun = 0 → ¬ (r.runState = .ending ∧ r.ready = []) →
        (r.active.drainStreamed = false →
          (q.addr.toNat - r.active.drainBase.toNat) + n ≤ r.active.slotSize.toNat) → keeps s (.drainWait i)))

/-- A RELEASING slot of a RUNNING or ENDING ring with no read in flight leaves the releasing set, is FREE, and joins the
free-list tail; the fill side's take and the completion test follow. Otherwise nothing happens (01 R6, R14, 06 R110). The
fill side's take: NO_SLOT or WAITING in RUNNING, it takes the list's head, which is refilled at the active SLOT_BASE with its
close fields cleared; the working state is 0, the timer stops, and from WAITING a re-examination is asked for. Otherwise it
takes nothing (01 R2, R3, R6, 02 R20, R21, 07 R126). -/
def Obligations.ReleaseCompletionFreesSlot : Prop :=
  ∀ (i : RingId) (k : SlotId) (s : State),
    let r := s.ring i
    let done := r.moves = true ∧ k ∈ r.releasing ∧ (r.slot k).state = .releasing ∧ (r.slot k).outstanding = 0
    let freed : Ring := { r with
      slots := r.slots.set k { r.slot k with state := .free }
      freeList := r.freeList ++ [k]
      releasing := r.releasing.filter (· != k) }
    (done → exec (.releaseCompletion i k) s = .next (State.finish (State.testEnding i
      (State.takeFree i { s with sent := [], rings := s.rings.set i freed })))) ∧
    (¬ done → exec (.releaseCompletion i k) s = .next { s with sent := [] }) ∧
    s.freeReleased i k = State.takeFree i { s with rings := s.rings.set i freed } ∧
    (∀ j rest, r.runState = .running → r.fillSub = .noSlot ∨ r.fillSub = .waiting → r.freeList = j :: rest →
      s.takeFree i = { s with
        walkChanged := true
        reexamAsked := if r.fillSub = .waiting then true else s.reexamAsked
        rings := s.rings.set i { r with
          slots := r.slots.set j { r.slot j with
            state := .filling
            base := r.active.slotBase[j]
            seq := 0
            fillLength := 0
            bytesAccepted := 0
            cause := none
            tainted := false
            afterGap := false }
          freeList := rest
          fillSlot := some j
          fillSub := .filling
          fillCursor := 0
          fillBytes := 0
          highMark := 0
          fillTimer := none } }) ∧
    (r.runState ≠ .running ∨ (r.fillSub ≠ .noSlot ∧ r.fillSub ≠ .waiting) ∨ r.freeList = [] → s.takeFree i = s)

/-- An entry of a ready queue in RUNNING or ENDING. CLOSING with no write in flight, it advances exactly when its predecessor
lets it: with records, to RECORDING with its CLOSE record queued, when it is the head or its predecessor is RECORDING or
SETTLED; without, to SETTLED, when it is the head or its predecessor is SETTLED. RECORDING and answered, it settles when it is
the head or its predecessor is SETTLED. A settle raises SETTLED and asks for a re-examination. The entries behind it are
tested in their order, each against its predecessor's new stage; an EMPTY or WAITING drain side in RUNNING or ENDING takes a
SETTLED head, an offered record is granted, the completion test follows. Where one of these conditions fails, the entry stays
and nothing happens (01 R7 to R10, 04 R72). The drain take: the head's slot is DRAINING and the drain slot, CURSOR, BYTES_READ
and UNDERRUN_NOTED start afresh, the timer stops, the entries behind are tested again, and a re-examination is asked for (01
R11, 03 R47, R49, 07 R126). The test of a whole queue goes from its head, and hands a settle on in the same way. -/
def Obligations.ReadyEntriesAdvance : Prop :=
  (∀ (e : ReadyEntry) (pred : Option SlotState) (r : Ring),
    let k := e.slot
    let x := r.slot k
    let before (allowed : List SlotState) : Prop := ∀ p, pred = some p → p ∈ allowed
    let staged (st : SlotState) : Ring := { r with slots := r.slots.set k { x with state := st } }
    let advances := r.moves = true ∧ x.state = .closing ∧ x.outstanding = 0 ∧
      (r.active.recordEnable = true → before [.recording, .settled]) ∧ (r.active.recordEnable = false → before [.settled])
    let settles := r.moves = true ∧ x.state = .recording ∧ e.answered = true ∧ before [.settled]
    (advances → r.active.recordEnable = true → r.advanceOne e pred = { staged .recording with
      records := r.records ++ [⟨.close, k, x.seq, x.cause, x.tainted, x.afterGap, x.fillLength, x.bytesAccepted⟩] }) ∧
    (advances → r.active.recordEnable = false →
      r.advanceOne e pred = { staged .settled with attention := addCause .settled r.attention }) ∧
    (settles → r.advanceOne e pred = { staged .settled with attention := addCause .settled r.attention }) ∧
    (¬ advances → ¬ settles → r.advanceOne e pred = r)) ∧
  (∀ (e : ReadyEntry) (back : List ReadyEntry) (pred : Option SlotState) (r : Ring),
    Ring.advanceFrom [] pred r = r ∧
    Ring.advanceFrom (e :: back) pred r =
      Ring.advanceFrom back (some (((r.advanceOne e pred).slot e.slot).state)) (r.advanceOne e pred)) ∧
  (∀ (i : RingId) (k : SlotId) (e : ReadyEntry) (front back : List ReadyEntry) (s : State),
    let r := s.ring i
    let x := r.slot k
    let before (allowed : List SlotState) : Prop := ∀ p, front.getLast? = some p → (r.slot p.slot).state ∈ allowed
    let staged (st : SlotState) : Ring := { r with slots := r.slots.set k { x with state := st } }
    let ends (t : Ring) : State :=
      let asked := r.ready.any fun p => (r.slot p.slot).state != .settled && (t.slot p.slot).state == .settled
      State.finish (State.testEnding i (State.grantRecords (State.takeSettled i
        { s with sent := [], rings := s.rings.set i t, reexamAsked := asked || s.reexamAsked })))
    r.ready = front ++ e :: back → e.slot = k → (∀ p ∈ front, p.slot ≠ k) →
    (r.moves = true → x.state = .closing → x.outstanding = 0 → r.active.recordEnable = true →
      before [.recording, .settled] →
      exec (.closingAdvance i k) s = .next (ends (Ring.advanceFrom back (some .recording) { staged .recording with
        records := r.records ++
          [⟨.close, k, x.seq, x.cause, x.tainted, x.afterGap, x.fillLength, x.bytesAccepted⟩] }))) ∧
    (r.moves = true → x.state = .closing → x.outstanding = 0 → r.active.recordEnable = false → before [.settled] →
      exec (.closingAdvance i k) s = .next (ends (Ring.advanceFrom back (some .settled) { staged .settled with
        attention := addCause .settled r.attention }))) ∧
    (r.moves = true → x.state = .recording → e.answered = true → before [.settled] →
      exec (.settle i k) s = .next (ends (Ring.advanceFrom back (some .settled) { staged .settled with
        attention := addCause .settled r.attention }))) ∧
    (r.moves = false ∨ x.state ≠ .closing ∨ x.outstanding ≠ 0 ∨
        (r.active.recordEnable = true ∧ ¬ before [.recording, .settled]) ∨
        (r.active.recordEnable = false ∧ ¬ before [.settled]) →
      exec (.closingAdvance i k) s = .next { s with sent := [] }) ∧
    (r.moves = false ∨ x.state ≠ .recording ∨ e.answered = false ∨ ¬ before [.settled] →
      exec (.settle i k) s = .next { s with sent := [] })) ∧
  (∀ (i : RingId) (k : SlotId) (s : State), (∀ p ∈ (s.ring i).ready, p.slot ≠ k) →
    exec (.closingAdvance i k) s = .next { s with sent := [] } ∧ exec (.settle i k) s = .next { s with sent := [] }) ∧
  ∀ (i : RingId) (s : State),
    let r := s.ring i
    let tested := Ring.advanceFrom r.ready none r
    let asked := r.ready.any fun p => (r.slot p.slot).state != .settled && (tested.slot p.slot).state == .settled
    let mayTake := (r.runState = .running ∨ r.runState = .ending) ∧ (r.drainSub = .empty ∨ r.drainSub = .waiting)
    s.settleRing i =
      State.takeSettled i { s with rings := s.rings.set i tested, reexamAsked := asked || s.reexamAsked } ∧
    (∀ e rest, mayTake → r.ready = e :: rest → (r.slot e.slot).state = .settled →
      s.takeSettled i = { s with
        reexamAsked := true
        walkChanged := true
        rings := s.rings.set i (Ring.advanceFrom rest none { r with
          slots := r.slots.set e.slot { r.slot e.slot with state := .draining }
          ready := rest
          drainSlot := some e.slot
          drainSub := .draining
          drainCursor := 0
          bytesRead := 0
          underrunNoted := false
          drainTimer := none }) }) ∧
    (¬ mayTake ∨ r.ready = [] ∨ (∃ e rest, r.ready = e :: rest ∧ (r.slot e.slot).state ≠ .settled) →
      s.takeSettled i = s)

/-- The application of a pending commit within a close of a RUNNING ring, after the closed slot has left the fill side and
before the next take: lost with STRUCTURAL_CHANGE when the structural fields differ, lost with INVALID and the number of the
first failing live check, else the live fields and the budget are taken and COMMIT_APPLIED raised; COMMIT_PENDING is clear in
every case, and the close goes on: the fill side takes the free-list head at its SLOT_BASE in force, or has NO_SLOT, and a
re-examination is asked for (02 R22, R34, R35, 05 R90, R95, R96). Elsewhere the row has no effect. That the row taken alone
stands for the rest of the close is the model's choice (DEDUCED, log 28). -/
def Obligations.PendingCommitIsAppliedOrLost : Prop :=
  ∀ (i : RingId) (s : State),
    let r := s.ring i
    let within := r.commitPending = true ∧ r.runState = .running ∧ r.fillSub = .filling ∧ r.fillSlot = none
    let lost (cause : LostCause) : Ring := { r with
      commitPending := false
      lostCause := cause
      attention := addCause .commitLost r.attention }
    let goesOn (x : Ring) : State := State.finish { s with
      sent := []
      reexamAsked := true
      walkChanged := true
      rings := s.rings.set i (match r.freeList with
        | [] => { x with fillSub := .noSlot, fillTimer := none }
        | j :: rest => { x with
          slots := r.slots.set j { r.slot j with
            state := .filling
            base := x.active.slotBase[j]
            seq := 0
            fillLength := 0
            bytesAccepted := 0
            cause := none
            tainted := false
            afterGap := false }
          freeList := rest
          fillSlot := some j
          fillSub := .filling
          fillCursor := 0
          fillBytes := 0
          highMark := 0
          fillTimer := none }) }
    firstFailing [7, 8, 9, 10, 11] (fun n => s.liveHolds i n) (s.liveFailure i) ∧
    (within →
      (r.shadow.sameStructure r.active = false →
        exec (.pendingCommitApplication i) s = .next (goesOn (lost .structuralChange))) ∧
      (∀ n, r.shadow.sameStructure r.active = true → s.liveFailure i = some n →
        exec (.pendingCommitApplication i) s = .next (goesOn (lost (.invalid n)))) ∧
      (r.shadow.sameStructure r.active = true → s.liveFailure i = none →
        exec (.pendingCommitApplication i) s = .next (goesOn { r with
          active := r.shadow.withLiveFields r.active
          budgetRemaining := r.shadow.budget.toNat
          commitPending := false
          attention := addCause .commitApplied r.attention }))) ∧
    (¬ within → exec (.pendingCommitApplication i) s = .next { s with sent := [] }) ∧
    (r.shadow.sameStructure r.active = true → r.shadow.withLiveFields r.active = r.shadow)

/-- The return from ENDING to IDLE, exactly when the seven conditions hold: IDLE, both working states cleared, a pending
commit applied as a whole, ENDED raised, a re-examination asked for; slots, collections, NEXT_SEQ, log position and
counters stay (06 R110, R111, 05 R97). The test that ends a response, a release, a record issue or a departure is the same
return under the same conditions, and changes nothing otherwise. Where the applied SLOT_COUNT is new, the free list is rebuilt; under a count of 9 to 15
it holds 0 to 7, the model's choice (DEDUCED, log 12). -/
def Obligations.EndingCompletesToIdle : Prop :=
  ∀ (i : RingId) (s : State),
    let r := s.ring i
    let done := r.runState = .ending ∧ r.fillSub = .closed ∧ r.ready = [] ∧ r.drainSub = .empty ∧ r.releasing = [] ∧
      r.records = [] ∧ (∀ h ∈ s.hold, h.reason ≠ .fillWait i ∧ h.reason ≠ .drainWait i) ∧
      (∀ (t : DownTag) (e : Entry), s.table[t] = some e → entryRing e ≠ some i)
    let idle : Ring := { r with
      runState := .idle
      fillCursor := 0
      fillBytes := 0
      highMark := 0
      gapPending := false
      drainCursor := 0
      bytesRead := 0
      underrunNoted := false }
    let applied : Ring := { idle with
      active := r.shadow
      activeValid := true
      commitPending := false
      budgetRemaining := r.shadow.budget.toNat
      freeList := if r.shadow.slotCount ≠ r.active.slotCount ∧ r.started = true then
          (List.finRange 8).filter fun k => k.val < r.shadow.slotCount.toNat
        else r.freeList
      attention := addCause .ended (addCause .commitApplied r.attention) }
    let at_ (x : Ring) : State := { s with rings := s.rings.set i x, reexamAsked := true }
    (done → r.commitPending = false →
      s.testEnding i = at_ { idle with attention := addCause .ended r.attention } ∧
      exec (.endingCompletion i) s =
        .next (State.finish { at_ { idle with attention := addCause .ended r.attention } with sent := [] })) ∧
    (done → r.commitPending = true →
      s.testEnding i = at_ applied ∧
      exec (.endingCompletion i) s = .next (State.finish { at_ applied with sent := [] })) ∧
    (¬ done → s.testEnding i = s ∧ exec (.endingCompletion i) s = .next { s with sent := [] })

/-- The completion of an ABORT, exactly when no table entry belongs to the ABORTING ring: every slot below SLOT_COUNT FREE
and on the free list in ascending order, the queues and holders empty, both working states cleared, IDLE, ENDED raised, a
re-examination asked for; descriptors, NEXT_SEQ, log position, counters and fault cause stay (06 R117, 01 R18). The test that ends a response or an
ABORT is the same return under the same condition, and changes nothing otherwise. -/
def Obligations.AbortCompletesToIdle : Prop :=
  ∀ (i : RingId) (s : State),
    let r := s.ring i
    let done := r.runState = .aborting ∧ ∀ (t : DownTag) (e : Entry), s.table[t] = some e → entryRing e ≠ some i
    let idle : State := { s with
      reexamAsked := true
      rings := s.rings.set i { r with
        slots := Vector.ofFn fun k : SlotId =>
          if k.val < r.active.slotCount.toNat then { r.slot k with state := .free } else r.slot k
        freeList := (List.finRange 8).filter fun k => k.val < r.active.slotCount.toNat
        ready := []
        releasing := []
        fillSlot := none
        drainSlot := none
        fillSub := .closed
        fillCursor := 0
        fillBytes := 0
        highMark := 0
        gapPending := false
        drainSub := .empty
        drainCursor := 0
        bytesRead := 0
        underrunNoted := false
        runState := .idle
        attention := addCause .ended r.attention } }
    (done → s.testAborting i = idle ∧ exec (.abortCompletion i) s = .next (State.finish { idle with sent := [] })) ∧
    (¬ done → s.testAborting i = s ∧ exec (.abortCompletion i) s = .next { s with sent := [] })

/-! ### What every step keeps -/

/-- The hold queue keeps at most 16 entries, in arrival order, with every entry that is not held ORDER the oldest of its
initiator (09 R147, R148, R150). -/
def Obligations.HoldQueueStaysSound : Prop :=
  ∀ s t : State, s.holdBounded → s.holdOrdered → step s = .next t → t.holdBounded ∧ t.holdOrdered

/-- The refusal record stays full exactly while REFUSAL is set, with LATER_COUNT 0 beside an empty record and never above
65535 (08 R144, R145). -/
def Obligations.RefusalRecordStaysSound : Prop :=
  ∀ s t : State, s.refusalSound → step s = .next t → t.refusalSound

/-- Every event ends with nothing left to do: no re-examination outstanding, no free entry beside an offered record, no
request waiting at a port that could accept it (09 R147, R151, R155, R158). -/
def Obligations.EventsEndQuiet : Prop :=
  ∀ s t : State, s.quiet = true → step s = .next t → t.quiet = true

/-- In every ring: a running stall timer holds 1 to 65535 µs, and runs only while its side is WAITING in a state in which it
can expire; COMMIT_PENDING is set only in RUNNING and ENDING; and outside IDLE each slot stands in exactly the place that its
STATE names (07 R124, R126, R127, 05 R94, 01 R4, R15). -/
def Obligations.RingsStaySound : Prop :=
  ∀ s t : State, s.everyRing Ring.timersSound → s.everyRing Ring.commitSound → s.everyRing Ring.placesSound →
    step s = .next t →
    t.everyRing Ring.timersSound ∧ t.everyRing Ring.commitSound ∧ t.everyRing Ring.placesSound

/-- What only software, RESET_N or the pins change: shadows, masks, EDGE, the command result and STRAY_RESPONSES change by
no other command than their own; attention causes and REFUSAL leave their sets by no other command than RESET_N, ACK and
the words that spell them; the queue's rest is as it was (05 R84, 07 R120, 10 R167 to R170, 09 R157). A word at any address,
written by REGISTER_WRITE or completed by the bits of a FRAME_BEGIN, is the command of its address (statements
RegisterWriteDispatches and FramesBeginAndEnd) and stands outside this one. -/
def Obligations.OnlyOwnCommandsChangeRegisters : Prop :=
  ∀ (c : Instr) (s t : State), exec c s = .next t → c ≠ .resetN → (∀ a w, c ≠ .registerWrite a w) →
    (∀ mosi, c = .frameBegin mosi → s.completesNoWord mosi = true) → t.pending = s.pending ∧
    ((∀ i k w, c ≠ .shadowWrite i k w) → ∀ i, (t.ring i).shadow = (s.ring i).shadow) ∧
    ((∀ i w, c ≠ .attentionMaskWrite i w) → ∀ i, (t.ring i).mask = (s.ring i).mask) ∧
    ((∀ w, c ≠ .globalAttentionMaskWrite w) → t.globalMask = s.globalMask) ∧
    ((∀ w, c ≠ .eventLineConfiguration w) → t.edges = s.edges) ∧
    ((∀ n, c ≠ .commit n ∧ c ≠ .start n ∧ c ≠ .stop n ∧ c ≠ .abort n ∧ c ≠ .close n ∧ c ≠ .release n) →
      (∀ n x, c ≠ .ack n x ∧ c ≠ .ackGlobal n x) → t.result = s.result) ∧
    ((∀ u x b, c ≠ .downstreamResponse u x b) → t.stray = s.stray) ∧
    ((∀ n x, c ≠ .ack n x) → ∀ i b, (s.ring i).attention.getLsbD b = true → (t.ring i).attention.getLsbD b = true) ∧
    ((∀ n x, c ≠ .ackGlobal n x) → s.globalAttn = true → t.globalAttn = true) ∧
    ((∀ n x, c ≠ .ackGlobal n x) → ∀ x, s.refusal = some x → t.refusal = some x)

/-! ### Formats and outputs -/

/-- The 16 bytes of a record: SEQ, SLOT, KIND (1 CLOSE, 2 RECLAIM), CAUSE as coded in the slot record (0 for none), FLAGS
(bit 0 TAINTED, bit 1 AFTER_GAP), LAP, 00h, FILL_LENGTH, BYTES_ACCEPTED, multi-byte fields little-endian. -/
def Obligations.RecordLayout : Prop :=
  ∀ (x : LogRecord) (lap : BitVec 8),
    recordBytes x lap = [
      x.seq.extractLsb' 0 8, x.seq.extractLsb' 8 8,
      BitVec.ofNat 8 x.slot.val,
      if x.kind = .close then 1 else 2,
      match x.cause with
        | none => 0
        | some .limit => 1
        | some .full => 2
        | some .event => 3
        | some .command => 4
        | some .stop => 5,
      (if x.tainted then 1 else 0) + (if x.afterGap then 2 else 0),
      lap, 0,
      BitVec.ofNat 8 x.fillLength, BitVec.ofNat 8 (x.fillLength / 2 ^ 8), BitVec.ofNat 8 (x.fillLength / 2 ^ 16),
      BitVec.ofNat 8 (x.fillLength / 2 ^ 24),
      BitVec.ofNat 8 x.bytesAccepted, BitVec.ofNat 8 (x.bytesAccepted / 2 ^ 8),
      BitVec.ofNat 8 (x.bytesAccepted / 2 ^ 16), BitVec.ofNat 8 (x.bytesAccepted / 2 ^ 24)]

/-- The attention summary word at 0022h: bit 2i is PRESENT of ring i (its set is not empty), bit 2i + 1 its PENDING (set
and mask share a cause), bits 8 and 9 the same of the global set, the rest 0; ATTN_N is asserted exactly while some PENDING
is true; a write to the word changes nothing but the frame's position (10 R170, R171, 12 R175). -/
def Obligations.AttentionSummaryAndLine : Prop :=
  ∀ s : State,
    let pending (i : RingId) : Prop := ∃ n, (s.ring i).attention.getLsbD n = true ∧ (s.ring i).mask.getLsbD n = true
    (∀ i : RingId,
      ((s.readWord 0x0022#16).getLsbD (2 * i.val) = true ↔ (s.ring i).attention ≠ 0) ∧
      ((s.readWord 0x0022#16).getLsbD (2 * i.val + 1) = true ↔ pending i)) ∧
    (s.readWord 0x0022#16).getLsbD 8 = s.globalAttn ∧
    (s.readWord 0x0022#16).getLsbD 9 = (s.globalAttn && s.globalMask) ∧
    (∀ n, 10 ≤ n → (s.readWord 0x0022#16).getLsbD n = false) ∧
    (s.attnAsserted = true ↔ (∃ i, pending i) ∨ (s.globalAttn = true ∧ s.globalMask = true)) ∧
    ∀ w : Word, s.takesWord 0x0022#16 w = true → exec (.registerWrite 0x0022#16 w) s = .next { s with
      sent := []
      port := { s.port with frame := s.port.frame.afterWord } }
end

