-- ==== Sys2Proof/Laws/State.lean ====
section
/-! SUPPORT. One lemma per field per update of the state and of a ring, so that no proof unfolds a record update. -/

namespace Sys2Proof.Machine

variable (s : State) (r : Ring)

/-! #### State.setRing -/
@[simp] theorem State.resetLow_setRing (i : RingId) (r : Ring) : (s.setRing i r).resetLow = s.resetLow := rfl
@[simp] theorem State.rings_setRing (i : RingId) (r : Ring) : (s.setRing i r).rings = s.rings.set i r := rfl
@[simp] theorem State.hold_setRing (i : RingId) (r : Ring) : (s.setRing i r).hold = s.hold := rfl
@[simp] theorem State.nextOrder_setRing (i : RingId) (r : Ring) : (s.setRing i r).nextOrder = s.nextOrder := rfl
@[simp] theorem State.waiting_setRing (i : RingId) (r : Ring) : (s.setRing i r).waiting = s.waiting := rfl
@[simp] theorem State.table_setRing (i : RingId) (r : Ring) : (s.setRing i r).table = s.table := rfl
@[simp] theorem State.rrLast_setRing (i : RingId) (r : Ring) : (s.setRing i r).rrLast = s.rrLast := rfl
@[simp] theorem State.stray_setRing (i : RingId) (r : Ring) : (s.setRing i r).stray = s.stray := rfl
@[simp] theorem State.reexamAsked_setRing (i : RingId) (r : Ring) : (s.setRing i r).reexamAsked = s.reexamAsked := rfl
@[simp] theorem State.walkChanged_setRing (i : RingId) (r : Ring) : (s.setRing i r).walkChanged = s.walkChanged := rfl
@[simp] theorem State.refusal_setRing (i : RingId) (r : Ring) : (s.setRing i r).refusal = s.refusal := rfl
@[simp] theorem State.laterCount_setRing (i : RingId) (r : Ring) : (s.setRing i r).laterCount = s.laterCount := rfl
@[simp] theorem State.edges_setRing (i : RingId) (r : Ring) : (s.setRing i r).edges = s.edges := rfl
@[simp] theorem State.levels_setRing (i : RingId) (r : Ring) : (s.setRing i r).levels = s.levels := rfl
@[simp] theorem State.globalAttn_setRing (i : RingId) (r : Ring) : (s.setRing i r).globalAttn = s.globalAttn := rfl
@[simp] theorem State.globalMask_setRing (i : RingId) (r : Ring) : (s.setRing i r).globalMask = s.globalMask := rfl
@[simp] theorem State.result_setRing (i : RingId) (r : Ring) : (s.setRing i r).result = s.result := rfl
@[simp] theorem State.port_setRing (i : RingId) (r : Ring) : (s.setRing i r).port = s.port := rfl
@[simp] theorem State.sent_setRing (i : RingId) (r : Ring) : (s.setRing i r).sent = s.sent := rfl
@[simp] theorem State.choices_setRing (i : RingId) (r : Ring) : (s.setRing i r).choices = s.choices := rfl
@[simp] theorem State.pending_setRing (i : RingId) (r : Ring) : (s.setRing i r).pending = s.pending := rfl

/-! #### State.modRing -/
@[simp] theorem State.resetLow_modRing (i : RingId) (f : Ring → Ring) : (s.modRing i f).resetLow = s.resetLow := rfl
@[simp] theorem State.rings_modRing (i : RingId) (f : Ring → Ring) : (s.modRing i f).rings = s.rings.set i (f (s.ring i)) := rfl
@[simp] theorem State.hold_modRing (i : RingId) (f : Ring → Ring) : (s.modRing i f).hold = s.hold := rfl
@[simp] theorem State.nextOrder_modRing (i : RingId) (f : Ring → Ring) : (s.modRing i f).nextOrder = s.nextOrder := rfl
@[simp] theorem State.waiting_modRing (i : RingId) (f : Ring → Ring) : (s.modRing i f).waiting = s.waiting := rfl
@[simp] theorem State.table_modRing (i : RingId) (f : Ring → Ring) : (s.modRing i f).table = s.table := rfl
@[simp] theorem State.rrLast_modRing (i : RingId) (f : Ring → Ring) : (s.modRing i f).rrLast = s.rrLast := rfl
@[simp] theorem State.stray_modRing (i : RingId) (f : Ring → Ring) : (s.modRing i f).stray = s.stray := rfl
@[simp] theorem State.reexamAsked_modRing (i : RingId) (f : Ring → Ring) : (s.modRing i f).reexamAsked = s.reexamAsked := rfl
@[simp] theorem State.walkChanged_modRing (i : RingId) (f : Ring → Ring) : (s.modRing i f).walkChanged = s.walkChanged := rfl
@[simp] theorem State.refusal_modRing (i : RingId) (f : Ring → Ring) : (s.modRing i f).refusal = s.refusal := rfl
@[simp] theorem State.laterCount_modRing (i : RingId) (f : Ring → Ring) : (s.modRing i f).laterCount = s.laterCount := rfl
@[simp] theorem State.edges_modRing (i : RingId) (f : Ring → Ring) : (s.modRing i f).edges = s.edges := rfl
@[simp] theorem State.levels_modRing (i : RingId) (f : Ring → Ring) : (s.modRing i f).levels = s.levels := rfl
@[simp] theorem State.globalAttn_modRing (i : RingId) (f : Ring → Ring) : (s.modRing i f).globalAttn = s.globalAttn := rfl
@[simp] theorem State.globalMask_modRing (i : RingId) (f : Ring → Ring) : (s.modRing i f).globalMask = s.globalMask := rfl
@[simp] theorem State.result_modRing (i : RingId) (f : Ring → Ring) : (s.modRing i f).result = s.result := rfl
@[simp] theorem State.port_modRing (i : RingId) (f : Ring → Ring) : (s.modRing i f).port = s.port := rfl
@[simp] theorem State.sent_modRing (i : RingId) (f : Ring → Ring) : (s.modRing i f).sent = s.sent := rfl
@[simp] theorem State.choices_modRing (i : RingId) (f : Ring → Ring) : (s.modRing i f).choices = s.choices := rfl
@[simp] theorem State.pending_modRing (i : RingId) (f : Ring → Ring) : (s.modRing i f).pending = s.pending := rfl

/-! #### State.fresh -/
@[simp] theorem State.resetLow_fresh : s.fresh.resetLow = s.resetLow := rfl
@[simp] theorem State.rings_fresh : s.fresh.rings = s.rings := rfl
@[simp] theorem State.hold_fresh : s.fresh.hold = s.hold := rfl
@[simp] theorem State.nextOrder_fresh : s.fresh.nextOrder = s.nextOrder := rfl
@[simp] theorem State.waiting_fresh : s.fresh.waiting = s.waiting := rfl
@[simp] theorem State.table_fresh : s.fresh.table = s.table := rfl
@[simp] theorem State.rrLast_fresh : s.fresh.rrLast = s.rrLast := rfl
@[simp] theorem State.stray_fresh : s.fresh.stray = s.stray := rfl
@[simp] theorem State.reexamAsked_fresh : s.fresh.reexamAsked = s.reexamAsked := rfl
@[simp] theorem State.walkChanged_fresh : s.fresh.walkChanged = s.walkChanged := rfl
@[simp] theorem State.refusal_fresh : s.fresh.refusal = s.refusal := rfl
@[simp] theorem State.laterCount_fresh : s.fresh.laterCount = s.laterCount := rfl
@[simp] theorem State.edges_fresh : s.fresh.edges = s.edges := rfl
@[simp] theorem State.levels_fresh : s.fresh.levels = s.levels := rfl
@[simp] theorem State.globalAttn_fresh : s.fresh.globalAttn = s.globalAttn := rfl
@[simp] theorem State.globalMask_fresh : s.fresh.globalMask = s.globalMask := rfl
@[simp] theorem State.result_fresh : s.fresh.result = s.result := rfl
@[simp] theorem State.port_fresh : s.fresh.port = s.port := rfl
@[simp] theorem State.sent_fresh : s.fresh.sent = [] := rfl
@[simp] theorem State.choices_fresh : s.fresh.choices = s.choices := rfl
@[simp] theorem State.pending_fresh : s.fresh.pending = s.pending := rfl

/-! #### State.askReexam -/
@[simp] theorem State.resetLow_askReexam : s.askReexam.resetLow = s.resetLow := rfl
@[simp] theorem State.rings_askReexam : s.askReexam.rings = s.rings := rfl
@[simp] theorem State.hold_askReexam : s.askReexam.hold = s.hold := rfl
@[simp] theorem State.nextOrder_askReexam : s.askReexam.nextOrder = s.nextOrder := rfl
@[simp] theorem State.waiting_askReexam : s.askReexam.waiting = s.waiting := rfl
@[simp] theorem State.table_askReexam : s.askReexam.table = s.table := rfl
@[simp] theorem State.rrLast_askReexam : s.askReexam.rrLast = s.rrLast := rfl
@[simp] theorem State.stray_askReexam : s.askReexam.stray = s.stray := rfl
@[simp] theorem State.reexamAsked_askReexam : s.askReexam.reexamAsked = true := rfl
@[simp] theorem State.walkChanged_askReexam : s.askReexam.walkChanged = s.walkChanged := rfl
@[simp] theorem State.refusal_askReexam : s.askReexam.refusal = s.refusal := rfl
@[simp] theorem State.laterCount_askReexam : s.askReexam.laterCount = s.laterCount := rfl
@[simp] theorem State.edges_askReexam : s.askReexam.edges = s.edges := rfl
@[simp] theorem State.levels_askReexam : s.askReexam.levels = s.levels := rfl
@[simp] theorem State.globalAttn_askReexam : s.askReexam.globalAttn = s.globalAttn := rfl
@[simp] theorem State.globalMask_askReexam : s.askReexam.globalMask = s.globalMask := rfl
@[simp] theorem State.result_askReexam : s.askReexam.result = s.result := rfl
@[simp] theorem State.port_askReexam : s.askReexam.port = s.port := rfl
@[simp] theorem State.sent_askReexam : s.askReexam.sent = s.sent := rfl
@[simp] theorem State.choices_askReexam : s.askReexam.choices = s.choices := rfl
@[simp] theorem State.pending_askReexam : s.askReexam.pending = s.pending := rfl

/-! #### State.noteChange -/
@[simp] theorem State.resetLow_noteChange : s.noteChange.resetLow = s.resetLow := rfl
@[simp] theorem State.rings_noteChange : s.noteChange.rings = s.rings := rfl
@[simp] theorem State.hold_noteChange : s.noteChange.hold = s.hold := rfl
@[simp] theorem State.nextOrder_noteChange : s.noteChange.nextOrder = s.nextOrder := rfl
@[simp] theorem State.waiting_noteChange : s.noteChange.waiting = s.waiting := rfl
@[simp] theorem State.table_noteChange : s.noteChange.table = s.table := rfl
@[simp] theorem State.rrLast_noteChange : s.noteChange.rrLast = s.rrLast := rfl
@[simp] theorem State.stray_noteChange : s.noteChange.stray = s.stray := rfl
@[simp] theorem State.reexamAsked_noteChange : s.noteChange.reexamAsked = s.reexamAsked := rfl
@[simp] theorem State.walkChanged_noteChange : s.noteChange.walkChanged = true := rfl
@[simp] theorem State.refusal_noteChange : s.noteChange.refusal = s.refusal := rfl
@[simp] theorem State.laterCount_noteChange : s.noteChange.laterCount = s.laterCount := rfl
@[simp] theorem State.edges_noteChange : s.noteChange.edges = s.edges := rfl
@[simp] theorem State.levels_noteChange : s.noteChange.levels = s.levels := rfl
@[simp] theorem State.globalAttn_noteChange : s.noteChange.globalAttn = s.globalAttn := rfl
@[simp] theorem State.globalMask_noteChange : s.noteChange.globalMask = s.globalMask := rfl
@[simp] theorem State.result_noteChange : s.noteChange.result = s.result := rfl
@[simp] theorem State.port_noteChange : s.noteChange.port = s.port := rfl
@[simp] theorem State.sent_noteChange : s.noteChange.sent = s.sent := rfl
@[simp] theorem State.choices_noteChange : s.noteChange.choices = s.choices := rfl
@[simp] theorem State.pending_noteChange : s.noteChange.pending = s.pending := rfl

/-! #### State.calm -/
@[simp] theorem State.resetLow_calm : s.calm.resetLow = s.resetLow := rfl
@[simp] theorem State.rings_calm : s.calm.rings = s.rings := rfl
@[simp] theorem State.hold_calm : s.calm.hold = s.hold := rfl
@[simp] theorem State.nextOrder_calm : s.calm.nextOrder = s.nextOrder := rfl
@[simp] theorem State.waiting_calm : s.calm.waiting = s.waiting := rfl
@[simp] theorem State.table_calm : s.calm.table = s.table := rfl
@[simp] theorem State.rrLast_calm : s.calm.rrLast = s.rrLast := rfl
@[simp] theorem State.stray_calm : s.calm.stray = s.stray := rfl
@[simp] theorem State.reexamAsked_calm : s.calm.reexamAsked = false := rfl
@[simp] theorem State.walkChanged_calm : s.calm.walkChanged = false := rfl
@[simp] theorem State.refusal_calm : s.calm.refusal = s.refusal := rfl
@[simp] theorem State.laterCount_calm : s.calm.laterCount = s.laterCount := rfl
@[simp] theorem State.edges_calm : s.calm.edges = s.edges := rfl
@[simp] theorem State.levels_calm : s.calm.levels = s.levels := rfl
@[simp] theorem State.globalAttn_calm : s.calm.globalAttn = s.globalAttn := rfl
@[simp] theorem State.globalMask_calm : s.calm.globalMask = s.globalMask := rfl
@[simp] theorem State.result_calm : s.calm.result = s.result := rfl
@[simp] theorem State.port_calm : s.calm.port = s.port := rfl
@[simp] theorem State.sent_calm : s.calm.sent = s.sent := rfl
@[simp] theorem State.choices_calm : s.calm.choices = s.choices := rfl
@[simp] theorem State.pending_calm : s.calm.pending = s.pending := rfl

/-! #### State.respond -/
@[simp] theorem State.resetLow_respond (a : Initiator) (t : UpTag) (x : Status) (d : Option (List Byte)) : (s.respond a t x d).resetLow = s.resetLow := rfl
@[simp] theorem State.rings_respond (a : Initiator) (t : UpTag) (x : Status) (d : Option (List Byte)) : (s.respond a t x d).rings = s.rings := rfl
@[simp] theorem State.hold_respond (a : Initiator) (t : UpTag) (x : Status) (d : Option (List Byte)) : (s.respond a t x d).hold = s.hold := rfl
@[simp] theorem State.nextOrder_respond (a : Initiator) (t : UpTag) (x : Status) (d : Option (List Byte)) : (s.respond a t x d).nextOrder = s.nextOrder := rfl
@[simp] theorem State.waiting_respond (a : Initiator) (t : UpTag) (x : Status) (d : Option (List Byte)) : (s.respond a t x d).waiting = s.waiting := rfl
@[simp] theorem State.table_respond (a : Initiator) (t : UpTag) (x : Status) (d : Option (List Byte)) : (s.respond a t x d).table = s.table := rfl
@[simp] theorem State.rrLast_respond (a : Initiator) (t : UpTag) (x : Status) (d : Option (List Byte)) : (s.respond a t x d).rrLast = s.rrLast := rfl
@[simp] theorem State.stray_respond (a : Initiator) (t : UpTag) (x : Status) (d : Option (List Byte)) : (s.respond a t x d).stray = s.stray := rfl
@[simp] theorem State.reexamAsked_respond (a : Initiator) (t : UpTag) (x : Status) (d : Option (List Byte)) : (s.respond a t x d).reexamAsked = s.reexamAsked := rfl
@[simp] theorem State.walkChanged_respond (a : Initiator) (t : UpTag) (x : Status) (d : Option (List Byte)) : (s.respond a t x d).walkChanged = s.walkChanged := rfl
@[simp] theorem State.refusal_respond (a : Initiator) (t : UpTag) (x : Status) (d : Option (List Byte)) : (s.respond a t x d).refusal = s.refusal := rfl
@[simp] theorem State.laterCount_respond (a : Initiator) (t : UpTag) (x : Status) (d : Option (List Byte)) : (s.respond a t x d).laterCount = s.laterCount := rfl
@[simp] theorem State.edges_respond (a : Initiator) (t : UpTag) (x : Status) (d : Option (List Byte)) : (s.respond a t x d).edges = s.edges := rfl
@[simp] theorem State.levels_respond (a : Initiator) (t : UpTag) (x : Status) (d : Option (List Byte)) : (s.respond a t x d).levels = s.levels := rfl
@[simp] theorem State.globalAttn_respond (a : Initiator) (t : UpTag) (x : Status) (d : Option (List Byte)) : (s.respond a t x d).globalAttn = s.globalAttn := rfl
@[simp] theorem State.globalMask_respond (a : Initiator) (t : UpTag) (x : Status) (d : Option (List Byte)) : (s.respond a t x d).globalMask = s.globalMask := rfl
@[simp] theorem State.result_respond (a : Initiator) (t : UpTag) (x : Status) (d : Option (List Byte)) : (s.respond a t x d).result = s.result := rfl
@[simp] theorem State.port_respond (a : Initiator) (t : UpTag) (x : Status) (d : Option (List Byte)) : (s.respond a t x d).port = s.port := rfl
@[simp] theorem State.sent_respond (a : Initiator) (t : UpTag) (x : Status) (d : Option (List Byte)) : (s.respond a t x d).sent = s.sent ++ [.upstream ⟨a, t, x, d⟩] := rfl
@[simp] theorem State.choices_respond (a : Initiator) (t : UpTag) (x : Status) (d : Option (List Byte)) : (s.respond a t x d).choices = s.choices := rfl
@[simp] theorem State.pending_respond (a : Initiator) (t : UpTag) (x : Status) (d : Option (List Byte)) : (s.respond a t x d).pending = s.pending := rfl

/-! #### State.sendDown -/
@[simp] theorem State.resetLow_sendDown (q : DownRequest) : (s.sendDown q).resetLow = s.resetLow := rfl
@[simp] theorem State.rings_sendDown (q : DownRequest) : (s.sendDown q).rings = s.rings := rfl
@[simp] theorem State.hold_sendDown (q : DownRequest) : (s.sendDown q).hold = s.hold := rfl
@[simp] theorem State.nextOrder_sendDown (q : DownRequest) : (s.sendDown q).nextOrder = s.nextOrder := rfl
@[simp] theorem State.waiting_sendDown (q : DownRequest) : (s.sendDown q).waiting = s.waiting := rfl
@[simp] theorem State.table_sendDown (q : DownRequest) : (s.sendDown q).table = s.table := rfl
@[simp] theorem State.rrLast_sendDown (q : DownRequest) : (s.sendDown q).rrLast = s.rrLast := rfl
@[simp] theorem State.stray_sendDown (q : DownRequest) : (s.sendDown q).stray = s.stray := rfl
@[simp] theorem State.reexamAsked_sendDown (q : DownRequest) : (s.sendDown q).reexamAsked = s.reexamAsked := rfl
@[simp] theorem State.walkChanged_sendDown (q : DownRequest) : (s.sendDown q).walkChanged = s.walkChanged := rfl
@[simp] theorem State.refusal_sendDown (q : DownRequest) : (s.sendDown q).refusal = s.refusal := rfl
@[simp] theorem State.laterCount_sendDown (q : DownRequest) : (s.sendDown q).laterCount = s.laterCount := rfl
@[simp] theorem State.edges_sendDown (q : DownRequest) : (s.sendDown q).edges = s.edges := rfl
@[simp] theorem State.levels_sendDown (q : DownRequest) : (s.sendDown q).levels = s.levels := rfl
@[simp] theorem State.globalAttn_sendDown (q : DownRequest) : (s.sendDown q).globalAttn = s.globalAttn := rfl
@[simp] theorem State.globalMask_sendDown (q : DownRequest) : (s.sendDown q).globalMask = s.globalMask := rfl
@[simp] theorem State.result_sendDown (q : DownRequest) : (s.sendDown q).result = s.result := rfl
@[simp] theorem State.port_sendDown (q : DownRequest) : (s.sendDown q).port = s.port := rfl
@[simp] theorem State.sent_sendDown (q : DownRequest) : (s.sendDown q).sent = s.sent ++ [.downstream q] := rfl
@[simp] theorem State.choices_sendDown (q : DownRequest) : (s.sendDown q).choices = s.choices := rfl
@[simp] theorem State.pending_sendDown (q : DownRequest) : (s.sendDown q).pending = s.pending := rfl

/-! #### State.grant -/
@[simp] theorem State.resetLow_grant (t : DownTag) (e : Entry) : (s.grant t e).resetLow = s.resetLow := rfl
@[simp] theorem State.rings_grant (t : DownTag) (e : Entry) : (s.grant t e).rings = s.rings := rfl
@[simp] theorem State.hold_grant (t : DownTag) (e : Entry) : (s.grant t e).hold = s.hold := rfl
@[simp] theorem State.nextOrder_grant (t : DownTag) (e : Entry) : (s.grant t e).nextOrder = s.nextOrder := rfl
@[simp] theorem State.waiting_grant (t : DownTag) (e : Entry) : (s.grant t e).waiting = s.waiting := rfl
@[simp] theorem State.table_grant (t : DownTag) (e : Entry) : (s.grant t e).table = s.table.set t (some e) := rfl
@[simp] theorem State.rrLast_grant (t : DownTag) (e : Entry) : (s.grant t e).rrLast = s.rrLast := rfl
@[simp] theorem State.stray_grant (t : DownTag) (e : Entry) : (s.grant t e).stray = s.stray := rfl
@[simp] theorem State.reexamAsked_grant (t : DownTag) (e : Entry) : (s.grant t e).reexamAsked = s.reexamAsked := rfl
@[simp] theorem State.walkChanged_grant (t : DownTag) (e : Entry) : (s.grant t e).walkChanged = s.walkChanged := rfl
@[simp] theorem State.refusal_grant (t : DownTag) (e : Entry) : (s.grant t e).refusal = s.refusal := rfl
@[simp] theorem State.laterCount_grant (t : DownTag) (e : Entry) : (s.grant t e).laterCount = s.laterCount := rfl
@[simp] theorem State.edges_grant (t : DownTag) (e : Entry) : (s.grant t e).edges = s.edges := rfl
@[simp] theorem State.levels_grant (t : DownTag) (e : Entry) : (s.grant t e).levels = s.levels := rfl
@[simp] theorem State.globalAttn_grant (t : DownTag) (e : Entry) : (s.grant t e).globalAttn = s.globalAttn := rfl
@[simp] theorem State.globalMask_grant (t : DownTag) (e : Entry) : (s.grant t e).globalMask = s.globalMask := rfl
@[simp] theorem State.result_grant (t : DownTag) (e : Entry) : (s.grant t e).result = s.result := rfl
@[simp] theorem State.port_grant (t : DownTag) (e : Entry) : (s.grant t e).port = s.port := rfl
@[simp] theorem State.sent_grant (t : DownTag) (e : Entry) : (s.grant t e).sent = s.sent := rfl
@[simp] theorem State.choices_grant (t : DownTag) (e : Entry) : (s.grant t e).choices = s.choices := rfl
@[simp] theorem State.pending_grant (t : DownTag) (e : Entry) : (s.grant t e).pending = s.pending := rfl

/-! #### State.freeEntry -/
@[simp] theorem State.resetLow_freeEntry (t : DownTag) : (s.freeEntry t).resetLow = s.resetLow := rfl
@[simp] theorem State.rings_freeEntry (t : DownTag) : (s.freeEntry t).rings = s.rings := rfl
@[simp] theorem State.hold_freeEntry (t : DownTag) : (s.freeEntry t).hold = s.hold := rfl
@[simp] theorem State.nextOrder_freeEntry (t : DownTag) : (s.freeEntry t).nextOrder = s.nextOrder := rfl
@[simp] theorem State.waiting_freeEntry (t : DownTag) : (s.freeEntry t).waiting = s.waiting := rfl
@[simp] theorem State.table_freeEntry (t : DownTag) : (s.freeEntry t).table = s.table.set t none := rfl
@[simp] theorem State.rrLast_freeEntry (t : DownTag) : (s.freeEntry t).rrLast = s.rrLast := rfl
@[simp] theorem State.stray_freeEntry (t : DownTag) : (s.freeEntry t).stray = s.stray := rfl
@[simp] theorem State.reexamAsked_freeEntry (t : DownTag) : (s.freeEntry t).reexamAsked = s.reexamAsked := rfl
@[simp] theorem State.walkChanged_freeEntry (t : DownTag) : (s.freeEntry t).walkChanged = s.walkChanged := rfl
@[simp] theorem State.refusal_freeEntry (t : DownTag) : (s.freeEntry t).refusal = s.refusal := rfl
@[simp] theorem State.laterCount_freeEntry (t : DownTag) : (s.freeEntry t).laterCount = s.laterCount := rfl
@[simp] theorem State.edges_freeEntry (t : DownTag) : (s.freeEntry t).edges = s.edges := rfl
@[simp] theorem State.levels_freeEntry (t : DownTag) : (s.freeEntry t).levels = s.levels := rfl
@[simp] theorem State.globalAttn_freeEntry (t : DownTag) : (s.freeEntry t).globalAttn = s.globalAttn := rfl
@[simp] theorem State.globalMask_freeEntry (t : DownTag) : (s.freeEntry t).globalMask = s.globalMask := rfl
@[simp] theorem State.result_freeEntry (t : DownTag) : (s.freeEntry t).result = s.result := rfl
@[simp] theorem State.port_freeEntry (t : DownTag) : (s.freeEntry t).port = s.port := rfl
@[simp] theorem State.sent_freeEntry (t : DownTag) : (s.freeEntry t).sent = s.sent := rfl
@[simp] theorem State.choices_freeEntry (t : DownTag) : (s.freeEntry t).choices = s.choices := rfl
@[simp] theorem State.pending_freeEntry (t : DownTag) : (s.freeEntry t).pending = s.pending := rfl

/-! #### State.join -/
@[simp] theorem State.resetLow_join (q : Request) (r : Reason) : (s.join q r).resetLow = s.resetLow := rfl
@[simp] theorem State.rings_join (q : Request) (r : Reason) : (s.join q r).rings = s.rings := rfl
@[simp] theorem State.hold_join (q : Request) (r : Reason) : (s.join q r).hold = s.hold ++ [⟨s.nextOrder, q, r⟩] := rfl
@[simp] theorem State.nextOrder_join (q : Request) (r : Reason) : (s.join q r).nextOrder = s.nextOrder + 1 := rfl
@[simp] theorem State.waiting_join (q : Request) (r : Reason) : (s.join q r).waiting = s.waiting := rfl
@[simp] theorem State.table_join (q : Request) (r : Reason) : (s.join q r).table = s.table := rfl
@[simp] theorem State.rrLast_join (q : Request) (r : Reason) : (s.join q r).rrLast = s.rrLast := rfl
@[simp] theorem State.stray_join (q : Request) (r : Reason) : (s.join q r).stray = s.stray := rfl
@[simp] theorem State.reexamAsked_join (q : Request) (r : Reason) : (s.join q r).reexamAsked = s.reexamAsked := rfl
@[simp] theorem State.walkChanged_join (q : Request) (r : Reason) : (s.join q r).walkChanged = s.walkChanged := rfl
@[simp] theorem State.refusal_join (q : Request) (r : Reason) : (s.join q r).refusal = s.refusal := rfl
@[simp] theorem State.laterCount_join (q : Request) (r : Reason) : (s.join q r).laterCount = s.laterCount := rfl
@[simp] theorem State.edges_join (q : Request) (r : Reason) : (s.join q r).edges = s.edges := rfl
@[simp] theorem State.levels_join (q : Request) (r : Reason) : (s.join q r).levels = s.levels := rfl
@[simp] theorem State.globalAttn_join (q : Request) (r : Reason) : (s.join q r).globalAttn = s.globalAttn := rfl
@[simp] theorem State.globalMask_join (q : Request) (r : Reason) : (s.join q r).globalMask = s.globalMask := rfl
@[simp] theorem State.result_join (q : Request) (r : Reason) : (s.join q r).result = s.result := rfl
@[simp] theorem State.port_join (q : Request) (r : Reason) : (s.join q r).port = s.port := rfl
@[simp] theorem State.sent_join (q : Request) (r : Reason) : (s.join q r).sent = s.sent := rfl
@[simp] theorem State.choices_join (q : Request) (r : Reason) : (s.join q r).choices = s.choices := rfl
@[simp] theorem State.pending_join (q : Request) (r : Reason) : (s.join q r).pending = s.pending := rfl

/-! #### State.removeHeld -/
@[simp] theorem State.resetLow_removeHeld (k : Nat) : (s.removeHeld k).resetLow = s.resetLow := rfl
@[simp] theorem State.rings_removeHeld (k : Nat) : (s.removeHeld k).rings = s.rings := rfl
@[simp] theorem State.hold_removeHeld (k : Nat) : (s.removeHeld k).hold = s.hold.filter (fun h => h.order != k) := rfl
@[simp] theorem State.nextOrder_removeHeld (k : Nat) : (s.removeHeld k).nextOrder = s.nextOrder := rfl
@[simp] theorem State.waiting_removeHeld (k : Nat) : (s.removeHeld k).waiting = s.waiting := rfl
@[simp] theorem State.table_removeHeld (k : Nat) : (s.removeHeld k).table = s.table := rfl
@[simp] theorem State.rrLast_removeHeld (k : Nat) : (s.removeHeld k).rrLast = s.rrLast := rfl
@[simp] theorem State.stray_removeHeld (k : Nat) : (s.removeHeld k).stray = s.stray := rfl
@[simp] theorem State.reexamAsked_removeHeld (k : Nat) : (s.removeHeld k).reexamAsked = s.reexamAsked := rfl
@[simp] theorem State.walkChanged_removeHeld (k : Nat) : (s.removeHeld k).walkChanged = true := rfl
@[simp] theorem State.refusal_removeHeld (k : Nat) : (s.removeHeld k).refusal = s.refusal := rfl
@[simp] theorem State.laterCount_removeHeld (k : Nat) : (s.removeHeld k).laterCount = s.laterCount := rfl
@[simp] theorem State.edges_removeHeld (k : Nat) : (s.removeHeld k).edges = s.edges := rfl
@[simp] theorem State.levels_removeHeld (k : Nat) : (s.removeHeld k).levels = s.levels := rfl
@[simp] theorem State.globalAttn_removeHeld (k : Nat) : (s.removeHeld k).globalAttn = s.globalAttn := rfl
@[simp] theorem State.globalMask_removeHeld (k : Nat) : (s.removeHeld k).globalMask = s.globalMask := rfl
@[simp] theorem State.result_removeHeld (k : Nat) : (s.removeHeld k).result = s.result := rfl
@[simp] theorem State.port_removeHeld (k : Nat) : (s.removeHeld k).port = s.port := rfl
@[simp] theorem State.sent_removeHeld (k : Nat) : (s.removeHeld k).sent = s.sent := rfl
@[simp] theorem State.choices_removeHeld (k : Nat) : (s.removeHeld k).choices = s.choices := rfl
@[simp] theorem State.pending_removeHeld (k : Nat) : (s.removeHeld k).pending = s.pending := rfl

/-! #### State.countStray -/
@[simp] theorem State.resetLow_countStray : s.countStray.resetLow = s.resetLow := rfl
@[simp] theorem State.rings_countStray : s.countStray.rings = s.rings := rfl
@[simp] theorem State.hold_countStray : s.countStray.hold = s.hold := rfl
@[simp] theorem State.nextOrder_countStray : s.countStray.nextOrder = s.nextOrder := rfl
@[simp] theorem State.waiting_countStray : s.countStray.waiting = s.waiting := rfl
@[simp] theorem State.table_countStray : s.countStray.table = s.table := rfl
@[simp] theorem State.rrLast_countStray : s.countStray.rrLast = s.rrLast := rfl
@[simp] theorem State.stray_countStray : s.countStray.stray = satInc s.stray := rfl
@[simp] theorem State.reexamAsked_countStray : s.countStray.reexamAsked = s.reexamAsked := rfl
@[simp] theorem State.walkChanged_countStray : s.countStray.walkChanged = s.walkChanged := rfl
@[simp] theorem State.refusal_countStray : s.countStray.refusal = s.refusal := rfl
@[simp] theorem State.laterCount_countStray : s.countStray.laterCount = s.laterCount := rfl
@[simp] theorem State.edges_countStray : s.countStray.edges = s.edges := rfl
@[simp] theorem State.levels_countStray : s.countStray.levels = s.levels := rfl
@[simp] theorem State.globalAttn_countStray : s.countStray.globalAttn = s.globalAttn := rfl
@[simp] theorem State.globalMask_countStray : s.countStray.globalMask = s.globalMask := rfl
@[simp] theorem State.result_countStray : s.countStray.result = s.result := rfl
@[simp] theorem State.port_countStray : s.countStray.port = s.port := rfl
@[simp] theorem State.sent_countStray : s.countStray.sent = s.sent := rfl
@[simp] theorem State.choices_countStray : s.countStray.choices = s.choices := rfl
@[simp] theorem State.pending_countStray : s.countStray.pending = s.pending := rfl

/-! #### State.movePast -/
@[simp] theorem State.resetLow_movePast : s.movePast.resetLow = s.resetLow := rfl
@[simp] theorem State.rings_movePast : s.movePast.rings = s.rings := rfl
@[simp] theorem State.hold_movePast : s.movePast.hold = s.hold := rfl
@[simp] theorem State.nextOrder_movePast : s.movePast.nextOrder = s.nextOrder := rfl
@[simp] theorem State.waiting_movePast : s.movePast.waiting = s.waiting := rfl
@[simp] theorem State.table_movePast : s.movePast.table = s.table := rfl
@[simp] theorem State.rrLast_movePast : s.movePast.rrLast = s.rrLast := rfl
@[simp] theorem State.stray_movePast : s.movePast.stray = s.stray := rfl
@[simp] theorem State.reexamAsked_movePast : s.movePast.reexamAsked = s.reexamAsked := rfl
@[simp] theorem State.walkChanged_movePast : s.movePast.walkChanged = s.walkChanged := rfl
@[simp] theorem State.refusal_movePast : s.movePast.refusal = s.refusal := rfl
@[simp] theorem State.laterCount_movePast : s.movePast.laterCount = s.laterCount := rfl
@[simp] theorem State.edges_movePast : s.movePast.edges = s.edges := rfl
@[simp] theorem State.levels_movePast : s.movePast.levels = s.levels := rfl
@[simp] theorem State.globalAttn_movePast : s.movePast.globalAttn = s.globalAttn := rfl
@[simp] theorem State.globalMask_movePast : s.movePast.globalMask = s.globalMask := rfl
@[simp] theorem State.result_movePast : s.movePast.result = s.result := rfl
@[simp] theorem State.port_movePast : s.movePast.port = ⟨s.port.csLow, s.port.frame.afterWord⟩ := rfl
@[simp] theorem State.sent_movePast : s.movePast.sent = s.sent := rfl
@[simp] theorem State.choices_movePast : s.movePast.choices = s.choices := rfl
@[simp] theorem State.pending_movePast : s.movePast.pending = s.pending := rfl

/-! #### State.writeEdges -/
@[simp] theorem State.resetLow_writeEdges (w : Word) : (s.writeEdges w).resetLow = s.resetLow := rfl
@[simp] theorem State.rings_writeEdges (w : Word) : (s.writeEdges w).rings = s.rings := rfl
@[simp] theorem State.hold_writeEdges (w : Word) : (s.writeEdges w).hold = s.hold := rfl
@[simp] theorem State.nextOrder_writeEdges (w : Word) : (s.writeEdges w).nextOrder = s.nextOrder := rfl
@[simp] theorem State.waiting_writeEdges (w : Word) : (s.writeEdges w).waiting = s.waiting := rfl
@[simp] theorem State.table_writeEdges (w : Word) : (s.writeEdges w).table = s.table := rfl
@[simp] theorem State.rrLast_writeEdges (w : Word) : (s.writeEdges w).rrLast = s.rrLast := rfl
@[simp] theorem State.stray_writeEdges (w : Word) : (s.writeEdges w).stray = s.stray := rfl
@[simp] theorem State.reexamAsked_writeEdges (w : Word) : (s.writeEdges w).reexamAsked = s.reexamAsked := rfl
@[simp] theorem State.walkChanged_writeEdges (w : Word) : (s.writeEdges w).walkChanged = s.walkChanged := rfl
@[simp] theorem State.refusal_writeEdges (w : Word) : (s.writeEdges w).refusal = s.refusal := rfl
@[simp] theorem State.laterCount_writeEdges (w : Word) : (s.writeEdges w).laterCount = s.laterCount := rfl
@[simp] theorem State.edges_writeEdges (w : Word) : (s.writeEdges w).edges = Vector.ofFn fun n : LineId => edgeOf (w.extractLsb' (2 * n.val) 2) := rfl
@[simp] theorem State.levels_writeEdges (w : Word) : (s.writeEdges w).levels = s.levels := rfl
@[simp] theorem State.globalAttn_writeEdges (w : Word) : (s.writeEdges w).globalAttn = s.globalAttn := rfl
@[simp] theorem State.globalMask_writeEdges (w : Word) : (s.writeEdges w).globalMask = s.globalMask := rfl
@[simp] theorem State.result_writeEdges (w : Word) : (s.writeEdges w).result = s.result := rfl
@[simp] theorem State.port_writeEdges (w : Word) : (s.writeEdges w).port = s.port := rfl
@[simp] theorem State.sent_writeEdges (w : Word) : (s.writeEdges w).sent = s.sent := rfl
@[simp] theorem State.choices_writeEdges (w : Word) : (s.writeEdges w).choices = s.choices := rfl
@[simp] theorem State.pending_writeEdges (w : Word) : (s.writeEdges w).pending = s.pending := rfl

/-! #### State.writeGlobalMask -/
@[simp] theorem State.resetLow_writeGlobalMask (w : Word) : (s.writeGlobalMask w).resetLow = s.resetLow := rfl
@[simp] theorem State.rings_writeGlobalMask (w : Word) : (s.writeGlobalMask w).rings = s.rings := rfl
@[simp] theorem State.hold_writeGlobalMask (w : Word) : (s.writeGlobalMask w).hold = s.hold := rfl
@[simp] theorem State.nextOrder_writeGlobalMask (w : Word) : (s.writeGlobalMask w).nextOrder = s.nextOrder := rfl
@[simp] theorem State.waiting_writeGlobalMask (w : Word) : (s.writeGlobalMask w).waiting = s.waiting := rfl
@[simp] theorem State.table_writeGlobalMask (w : Word) : (s.writeGlobalMask w).table = s.table := rfl
@[simp] theorem State.rrLast_writeGlobalMask (w : Word) : (s.writeGlobalMask w).rrLast = s.rrLast := rfl
@[simp] theorem State.stray_writeGlobalMask (w : Word) : (s.writeGlobalMask w).stray = s.stray := rfl
@[simp] theorem State.reexamAsked_writeGlobalMask (w : Word) : (s.writeGlobalMask w).reexamAsked = s.reexamAsked := rfl
@[simp] theorem State.walkChanged_writeGlobalMask (w : Word) : (s.writeGlobalMask w).walkChanged = s.walkChanged := rfl
@[simp] theorem State.refusal_writeGlobalMask (w : Word) : (s.writeGlobalMask w).refusal = s.refusal := rfl
@[simp] theorem State.laterCount_writeGlobalMask (w : Word) : (s.writeGlobalMask w).laterCount = s.laterCount := rfl
@[simp] theorem State.edges_writeGlobalMask (w : Word) : (s.writeGlobalMask w).edges = s.edges := rfl
@[simp] theorem State.levels_writeGlobalMask (w : Word) : (s.writeGlobalMask w).levels = s.levels := rfl
@[simp] theorem State.globalAttn_writeGlobalMask (w : Word) : (s.writeGlobalMask w).globalAttn = s.globalAttn := rfl
@[simp] theorem State.globalMask_writeGlobalMask (w : Word) : (s.writeGlobalMask w).globalMask = w.getLsbD 0 := rfl
@[simp] theorem State.result_writeGlobalMask (w : Word) : (s.writeGlobalMask w).result = s.result := rfl
@[simp] theorem State.port_writeGlobalMask (w : Word) : (s.writeGlobalMask w).port = s.port := rfl
@[simp] theorem State.sent_writeGlobalMask (w : Word) : (s.writeGlobalMask w).sent = s.sent := rfl
@[simp] theorem State.choices_writeGlobalMask (w : Word) : (s.writeGlobalMask w).choices = s.choices := rfl
@[simp] theorem State.pending_writeGlobalMask (w : Word) : (s.writeGlobalMask w).pending = s.pending := rfl

/-! #### State.withQueue -/
@[simp] theorem State.resetLow_withQueue (q : List Instr) : (s.withQueue q).resetLow = s.resetLow := rfl
@[simp] theorem State.rings_withQueue (q : List Instr) : (s.withQueue q).rings = s.rings := rfl
@[simp] theorem State.hold_withQueue (q : List Instr) : (s.withQueue q).hold = s.hold := rfl
@[simp] theorem State.nextOrder_withQueue (q : List Instr) : (s.withQueue q).nextOrder = s.nextOrder := rfl
@[simp] theorem State.waiting_withQueue (q : List Instr) : (s.withQueue q).waiting = s.waiting := rfl
@[simp] theorem State.table_withQueue (q : List Instr) : (s.withQueue q).table = s.table := rfl
@[simp] theorem State.rrLast_withQueue (q : List Instr) : (s.withQueue q).rrLast = s.rrLast := rfl
@[simp] theorem State.stray_withQueue (q : List Instr) : (s.withQueue q).stray = s.stray := rfl
@[simp] theorem State.reexamAsked_withQueue (q : List Instr) : (s.withQueue q).reexamAsked = s.reexamAsked := rfl
@[simp] theorem State.walkChanged_withQueue (q : List Instr) : (s.withQueue q).walkChanged = s.walkChanged := rfl
@[simp] theorem State.refusal_withQueue (q : List Instr) : (s.withQueue q).refusal = s.refusal := rfl
@[simp] theorem State.laterCount_withQueue (q : List Instr) : (s.withQueue q).laterCount = s.laterCount := rfl
@[simp] theorem State.edges_withQueue (q : List Instr) : (s.withQueue q).edges = s.edges := rfl
@[simp] theorem State.levels_withQueue (q : List Instr) : (s.withQueue q).levels = s.levels := rfl
@[simp] theorem State.globalAttn_withQueue (q : List Instr) : (s.withQueue q).globalAttn = s.globalAttn := rfl
@[simp] theorem State.globalMask_withQueue (q : List Instr) : (s.withQueue q).globalMask = s.globalMask := rfl
@[simp] theorem State.result_withQueue (q : List Instr) : (s.withQueue q).result = s.result := rfl
@[simp] theorem State.port_withQueue (q : List Instr) : (s.withQueue q).port = s.port := rfl
@[simp] theorem State.sent_withQueue (q : List Instr) : (s.withQueue q).sent = s.sent := rfl
@[simp] theorem State.choices_withQueue (q : List Instr) : (s.withQueue q).choices = s.choices := rfl
@[simp] theorem State.pending_withQueue (q : List Instr) : (s.withQueue q).pending = q := rfl

/-! #### Ring.attend -/
@[simp] theorem Ring.shadow_attend (c : RingCause) : (Ring.attend c r).shadow = r.shadow := rfl
@[simp] theorem Ring.active_attend (c : RingCause) : (Ring.attend c r).active = r.active := rfl
@[simp] theorem Ring.activeValid_attend (c : RingCause) : (Ring.attend c r).activeValid = r.activeValid := rfl
@[simp] theorem Ring.commitPending_attend (c : RingCause) : (Ring.attend c r).commitPending = r.commitPending := rfl
@[simp] theorem Ring.lostCause_attend (c : RingCause) : (Ring.attend c r).lostCause = r.lostCause := rfl
@[simp] theorem Ring.started_attend (c : RingCause) : (Ring.attend c r).started = r.started := rfl
@[simp] theorem Ring.runState_attend (c : RingCause) : (Ring.attend c r).runState = r.runState := rfl
@[simp] theorem Ring.faultCause_attend (c : RingCause) : (Ring.attend c r).faultCause = r.faultCause := rfl
@[simp] theorem Ring.budgetRemaining_attend (c : RingCause) : (Ring.attend c r).budgetRemaining = r.budgetRemaining := rfl
@[simp] theorem Ring.slots_attend (c : RingCause) : (Ring.attend c r).slots = r.slots := rfl
@[simp] theorem Ring.freeList_attend (c : RingCause) : (Ring.attend c r).freeList = r.freeList := rfl
@[simp] theorem Ring.ready_attend (c : RingCause) : (Ring.attend c r).ready = r.ready := rfl
@[simp] theorem Ring.releasing_attend (c : RingCause) : (Ring.attend c r).releasing = r.releasing := rfl
@[simp] theorem Ring.fillSlot_attend (c : RingCause) : (Ring.attend c r).fillSlot = r.fillSlot := rfl
@[simp] theorem Ring.drainSlot_attend (c : RingCause) : (Ring.attend c r).drainSlot = r.drainSlot := rfl
@[simp] theorem Ring.nextSeq_attend (c : RingCause) : (Ring.attend c r).nextSeq = r.nextSeq := rfl
@[simp] theorem Ring.fillSub_attend (c : RingCause) : (Ring.attend c r).fillSub = r.fillSub := rfl
@[simp] theorem Ring.fillCursor_attend (c : RingCause) : (Ring.attend c r).fillCursor = r.fillCursor := rfl
@[simp] theorem Ring.fillBytes_attend (c : RingCause) : (Ring.attend c r).fillBytes = r.fillBytes := rfl
@[simp] theorem Ring.highMark_attend (c : RingCause) : (Ring.attend c r).highMark = r.highMark := rfl
@[simp] theorem Ring.gapPending_attend (c : RingCause) : (Ring.attend c r).gapPending = r.gapPending := rfl
@[simp] theorem Ring.drainSub_attend (c : RingCause) : (Ring.attend c r).drainSub = r.drainSub := rfl
@[simp] theorem Ring.drainCursor_attend (c : RingCause) : (Ring.attend c r).drainCursor = r.drainCursor := rfl
@[simp] theorem Ring.bytesRead_attend (c : RingCause) : (Ring.attend c r).bytesRead = r.bytesRead := rfl
@[simp] theorem Ring.underrunNoted_attend (c : RingCause) : (Ring.attend c r).underrunNoted = r.underrunNoted := rfl
@[simp] theorem Ring.records_attend (c : RingCause) : (Ring.attend c r).records = r.records := rfl
@[simp] theorem Ring.recordIndex_attend (c : RingCause) : (Ring.attend c r).recordIndex = r.recordIndex := rfl
@[simp] theorem Ring.lap_attend (c : RingCause) : (Ring.attend c r).lap = r.lap := rfl
@[simp] theorem Ring.fillTimer_attend (c : RingCause) : (Ring.attend c r).fillTimer = r.fillTimer := rfl
@[simp] theorem Ring.drainTimer_attend (c : RingCause) : (Ring.attend c r).drainTimer = r.drainTimer := rfl
@[simp] theorem Ring.counters_attend (c : RingCause) : (Ring.attend c r).counters = r.counters := rfl
@[simp] theorem Ring.attention_attend (c : RingCause) : (Ring.attend c r).attention = addCause c r.attention := rfl
@[simp] theorem Ring.mask_attend (c : RingCause) : (Ring.attend c r).mask = r.mask := rfl

/-! #### Ring.count -/
@[simp] theorem Ring.shadow_count (c : Counter) : (Ring.count c r).shadow = r.shadow := rfl
@[simp] theorem Ring.active_count (c : Counter) : (Ring.count c r).active = r.active := rfl
@[simp] theorem Ring.activeValid_count (c : Counter) : (Ring.count c r).activeValid = r.activeValid := rfl
@[simp] theorem Ring.commitPending_count (c : Counter) : (Ring.count c r).commitPending = r.commitPending := rfl
@[simp] theorem Ring.lostCause_count (c : Counter) : (Ring.count c r).lostCause = r.lostCause := rfl
@[simp] theorem Ring.started_count (c : Counter) : (Ring.count c r).started = r.started := rfl
@[simp] theorem Ring.runState_count (c : Counter) : (Ring.count c r).runState = r.runState := rfl
@[simp] theorem Ring.faultCause_count (c : Counter) : (Ring.count c r).faultCause = r.faultCause := rfl
@[simp] theorem Ring.budgetRemaining_count (c : Counter) : (Ring.count c r).budgetRemaining = r.budgetRemaining := rfl
@[simp] theorem Ring.slots_count (c : Counter) : (Ring.count c r).slots = r.slots := rfl
@[simp] theorem Ring.freeList_count (c : Counter) : (Ring.count c r).freeList = r.freeList := rfl
@[simp] theorem Ring.ready_count (c : Counter) : (Ring.count c r).ready = r.ready := rfl
@[simp] theorem Ring.releasing_count (c : Counter) : (Ring.count c r).releasing = r.releasing := rfl
@[simp] theorem Ring.fillSlot_count (c : Counter) : (Ring.count c r).fillSlot = r.fillSlot := rfl
@[simp] theorem Ring.drainSlot_count (c : Counter) : (Ring.count c r).drainSlot = r.drainSlot := rfl
@[simp] theorem Ring.nextSeq_count (c : Counter) : (Ring.count c r).nextSeq = r.nextSeq := rfl
@[simp] theorem Ring.fillSub_count (c : Counter) : (Ring.count c r).fillSub = r.fillSub := rfl
@[simp] theorem Ring.fillCursor_count (c : Counter) : (Ring.count c r).fillCursor = r.fillCursor := rfl
@[simp] theorem Ring.fillBytes_count (c : Counter) : (Ring.count c r).fillBytes = r.fillBytes := rfl
@[simp] theorem Ring.highMark_count (c : Counter) : (Ring.count c r).highMark = r.highMark := rfl
@[simp] theorem Ring.gapPending_count (c : Counter) : (Ring.count c r).gapPending = r.gapPending := rfl
@[simp] theorem Ring.drainSub_count (c : Counter) : (Ring.count c r).drainSub = r.drainSub := rfl
@[simp] theorem Ring.drainCursor_count (c : Counter) : (Ring.count c r).drainCursor = r.drainCursor := rfl
@[simp] theorem Ring.bytesRead_count (c : Counter) : (Ring.count c r).bytesRead = r.bytesRead := rfl
@[simp] theorem Ring.underrunNoted_count (c : Counter) : (Ring.count c r).underrunNoted = r.underrunNoted := rfl
@[simp] theorem Ring.records_count (c : Counter) : (Ring.count c r).records = r.records := rfl
@[simp] theorem Ring.recordIndex_count (c : Counter) : (Ring.count c r).recordIndex = r.recordIndex := rfl
@[simp] theorem Ring.lap_count (c : Counter) : (Ring.count c r).lap = r.lap := rfl
@[simp] theorem Ring.fillTimer_count (c : Counter) : (Ring.count c r).fillTimer = r.fillTimer := rfl
@[simp] theorem Ring.drainTimer_count (c : Counter) : (Ring.count c r).drainTimer = r.drainTimer := rfl
@[simp] theorem Ring.counters_count (c : Counter) : (Ring.count c r).counters = r.counters.bump c := rfl
@[simp] theorem Ring.attention_count (c : Counter) : (Ring.count c r).attention = r.attention := rfl
@[simp] theorem Ring.mask_count (c : Counter) : (Ring.count c r).mask = r.mask := rfl

/-! #### Ring.modSlot -/
@[simp] theorem Ring.shadow_modSlot (k : SlotId) (f : Slot → Slot) : (Ring.modSlot k f r).shadow = r.shadow := rfl
@[simp] theorem Ring.active_modSlot (k : SlotId) (f : Slot → Slot) : (Ring.modSlot k f r).active = r.active := rfl
@[simp] theorem Ring.activeValid_modSlot (k : SlotId) (f : Slot → Slot) : (Ring.modSlot k f r).activeValid = r.activeValid := rfl
@[simp] theorem Ring.commitPending_modSlot (k : SlotId) (f : Slot → Slot) : (Ring.modSlot k f r).commitPending = r.commitPending := rfl
@[simp] theorem Ring.lostCause_modSlot (k : SlotId) (f : Slot → Slot) : (Ring.modSlot k f r).lostCause = r.lostCause := rfl
@[simp] theorem Ring.started_modSlot (k : SlotId) (f : Slot → Slot) : (Ring.modSlot k f r).started = r.started := rfl
@[simp] theorem Ring.runState_modSlot (k : SlotId) (f : Slot → Slot) : (Ring.modSlot k f r).runState = r.runState := rfl
@[simp] theorem Ring.faultCause_modSlot (k : SlotId) (f : Slot → Slot) : (Ring.modSlot k f r).faultCause = r.faultCause := rfl
@[simp] theorem Ring.budgetRemaining_modSlot (k : SlotId) (f : Slot → Slot) : (Ring.modSlot k f r).budgetRemaining = r.budgetRemaining := rfl
@[simp] theorem Ring.slots_modSlot (k : SlotId) (f : Slot → Slot) : (Ring.modSlot k f r).slots = r.slots.set k (f (r.slot k)) := rfl
@[simp] theorem Ring.freeList_modSlot (k : SlotId) (f : Slot → Slot) : (Ring.modSlot k f r).freeList = r.freeList := rfl
@[simp] theorem Ring.ready_modSlot (k : SlotId) (f : Slot → Slot) : (Ring.modSlot k f r).ready = r.ready := rfl
@[simp] theorem Ring.releasing_modSlot (k : SlotId) (f : Slot → Slot) : (Ring.modSlot k f r).releasing = r.releasing := rfl
@[simp] theorem Ring.fillSlot_modSlot (k : SlotId) (f : Slot → Slot) : (Ring.modSlot k f r).fillSlot = r.fillSlot := rfl
@[simp] theorem Ring.drainSlot_modSlot (k : SlotId) (f : Slot → Slot) : (Ring.modSlot k f r).drainSlot = r.drainSlot := rfl
@[simp] theorem Ring.nextSeq_modSlot (k : SlotId) (f : Slot → Slot) : (Ring.modSlot k f r).nextSeq = r.nextSeq := rfl
@[simp] theorem Ring.fillSub_modSlot (k : SlotId) (f : Slot → Slot) : (Ring.modSlot k f r).fillSub = r.fillSub := rfl
@[simp] theorem Ring.fillCursor_modSlot (k : SlotId) (f : Slot → Slot) : (Ring.modSlot k f r).fillCursor = r.fillCursor := rfl
@[simp] theorem Ring.fillBytes_modSlot (k : SlotId) (f : Slot → Slot) : (Ring.modSlot k f r).fillBytes = r.fillBytes := rfl
@[simp] theorem Ring.highMark_modSlot (k : SlotId) (f : Slot → Slot) : (Ring.modSlot k f r).highMark = r.highMark := rfl
@[simp] theorem Ring.gapPending_modSlot (k : SlotId) (f : Slot → Slot) : (Ring.modSlot k f r).gapPending = r.gapPending := rfl
@[simp] theorem Ring.drainSub_modSlot (k : SlotId) (f : Slot → Slot) : (Ring.modSlot k f r).drainSub = r.drainSub := rfl
@[simp] theorem Ring.drainCursor_modSlot (k : SlotId) (f : Slot → Slot) : (Ring.modSlot k f r).drainCursor = r.drainCursor := rfl
@[simp] theorem Ring.bytesRead_modSlot (k : SlotId) (f : Slot → Slot) : (Ring.modSlot k f r).bytesRead = r.bytesRead := rfl
@[simp] theorem Ring.underrunNoted_modSlot (k : SlotId) (f : Slot → Slot) : (Ring.modSlot k f r).underrunNoted = r.underrunNoted := rfl
@[simp] theorem Ring.records_modSlot (k : SlotId) (f : Slot → Slot) : (Ring.modSlot k f r).records = r.records := rfl
@[simp] theorem Ring.recordIndex_modSlot (k : SlotId) (f : Slot → Slot) : (Ring.modSlot k f r).recordIndex = r.recordIndex := rfl
@[simp] theorem Ring.lap_modSlot (k : SlotId) (f : Slot → Slot) : (Ring.modSlot k f r).lap = r.lap := rfl
@[simp] theorem Ring.fillTimer_modSlot (k : SlotId) (f : Slot → Slot) : (Ring.modSlot k f r).fillTimer = r.fillTimer := rfl
@[simp] theorem Ring.drainTimer_modSlot (k : SlotId) (f : Slot → Slot) : (Ring.modSlot k f r).drainTimer = r.drainTimer := rfl
@[simp] theorem Ring.counters_modSlot (k : SlotId) (f : Slot → Slot) : (Ring.modSlot k f r).counters = r.counters := rfl
@[simp] theorem Ring.attention_modSlot (k : SlotId) (f : Slot → Slot) : (Ring.modSlot k f r).attention = r.attention := rfl
@[simp] theorem Ring.mask_modSlot (k : SlotId) (f : Slot → Slot) : (Ring.modSlot k f r).mask = r.mask := rfl

/-! #### Ring.acknowledge -/
@[simp] theorem Ring.shadow_acknowledge (a : BitVec 10) : (Ring.acknowledge a r).shadow = r.shadow := rfl
@[simp] theorem Ring.active_acknowledge (a : BitVec 10) : (Ring.acknowledge a r).active = r.active := rfl
@[simp] theorem Ring.activeValid_acknowledge (a : BitVec 10) : (Ring.acknowledge a r).activeValid = r.activeValid := rfl
@[simp] theorem Ring.commitPending_acknowledge (a : BitVec 10) : (Ring.acknowledge a r).commitPending = r.commitPending := rfl
@[simp] theorem Ring.lostCause_acknowledge (a : BitVec 10) : (Ring.acknowledge a r).lostCause = r.lostCause := rfl
@[simp] theorem Ring.started_acknowledge (a : BitVec 10) : (Ring.acknowledge a r).started = r.started := rfl
@[simp] theorem Ring.runState_acknowledge (a : BitVec 10) : (Ring.acknowledge a r).runState = r.runState := rfl
@[simp] theorem Ring.faultCause_acknowledge (a : BitVec 10) : (Ring.acknowledge a r).faultCause = r.faultCause := rfl
@[simp] theorem Ring.budgetRemaining_acknowledge (a : BitVec 10) : (Ring.acknowledge a r).budgetRemaining = r.budgetRemaining := rfl
@[simp] theorem Ring.slots_acknowledge (a : BitVec 10) : (Ring.acknowledge a r).slots = r.slots := rfl
@[simp] theorem Ring.freeList_acknowledge (a : BitVec 10) : (Ring.acknowledge a r).freeList = r.freeList := rfl
@[simp] theorem Ring.ready_acknowledge (a : BitVec 10) : (Ring.acknowledge a r).ready = r.ready := rfl
@[simp] theorem Ring.releasing_acknowledge (a : BitVec 10) : (Ring.acknowledge a r).releasing = r.releasing := rfl
@[simp] theorem Ring.fillSlot_acknowledge (a : BitVec 10) : (Ring.acknowledge a r).fillSlot = r.fillSlot := rfl
@[simp] theorem Ring.drainSlot_acknowledge (a : BitVec 10) : (Ring.acknowledge a r).drainSlot = r.drainSlot := rfl
@[simp] theorem Ring.nextSeq_acknowledge (a : BitVec 10) : (Ring.acknowledge a r).nextSeq = r.nextSeq := rfl
@[simp] theorem Ring.fillSub_acknowledge (a : BitVec 10) : (Ring.acknowledge a r).fillSub = r.fillSub := rfl
@[simp] theorem Ring.fillCursor_acknowledge (a : BitVec 10) : (Ring.acknowledge a r).fillCursor = r.fillCursor := rfl
@[simp] theorem Ring.fillBytes_acknowledge (a : BitVec 10) : (Ring.acknowledge a r).fillBytes = r.fillBytes := rfl
@[simp] theorem Ring.highMark_acknowledge (a : BitVec 10) : (Ring.acknowledge a r).highMark = r.highMark := rfl
@[simp] theorem Ring.gapPending_acknowledge (a : BitVec 10) : (Ring.acknowledge a r).gapPending = r.gapPending := rfl
@[simp] theorem Ring.drainSub_acknowledge (a : BitVec 10) : (Ring.acknowledge a r).drainSub = r.drainSub := rfl
@[simp] theorem Ring.drainCursor_acknowledge (a : BitVec 10) : (Ring.acknowledge a r).drainCursor = r.drainCursor := rfl
@[simp] theorem Ring.bytesRead_acknowledge (a : BitVec 10) : (Ring.acknowledge a r).bytesRead = r.bytesRead := rfl
@[simp] theorem Ring.underrunNoted_acknowledge (a : BitVec 10) : (Ring.acknowledge a r).underrunNoted = r.underrunNoted := rfl
@[simp] theorem Ring.records_acknowledge (a : BitVec 10) : (Ring.acknowledge a r).records = r.records := rfl
@[simp] theorem Ring.recordIndex_acknowledge (a : BitVec 10) : (Ring.acknowledge a r).recordIndex = r.recordIndex := rfl
@[simp] theorem Ring.lap_acknowledge (a : BitVec 10) : (Ring.acknowledge a r).lap = r.lap := rfl
@[simp] theorem Ring.fillTimer_acknowledge (a : BitVec 10) : (Ring.acknowledge a r).fillTimer = r.fillTimer := rfl
@[simp] theorem Ring.drainTimer_acknowledge (a : BitVec 10) : (Ring.acknowledge a r).drainTimer = r.drainTimer := rfl
@[simp] theorem Ring.counters_acknowledge (a : BitVec 10) : (Ring.acknowledge a r).counters = r.counters := rfl
@[simp] theorem Ring.attention_acknowledge (a : BitVec 10) : (Ring.acknowledge a r).attention = r.attention &&& ~~~a := rfl
@[simp] theorem Ring.mask_acknowledge (a : BitVec 10) : (Ring.acknowledge a r).mask = r.mask := rfl

/-! #### One ring, one slot -/

@[simp] theorem State.ring_setRing_self (i : RingId) (r : Ring) : (s.setRing i r).ring i = r := by
  simp [State.ring, State.setRing]

theorem State.ring_setRing_ne (i j : RingId) (r : Ring) (h : j ≠ i) : (s.setRing i r).ring j = s.ring j := by
  have hv : i.val ≠ j.val := fun e => h (Fin.ext e.symm)
  simp [State.ring, State.setRing, hv]

@[simp] theorem State.ring_modRing_self (i : RingId) (f : Ring → Ring) : (s.modRing i f).ring i = f (s.ring i) := by
  simp [State.modRing]

theorem State.ring_modRing_ne (i j : RingId) (f : Ring → Ring) (h : j ≠ i) : (s.modRing i f).ring j = s.ring j := by
  simp [State.modRing, State.ring_setRing_ne _ _ _ _ h]

@[simp] theorem Ring.slot_modSlot_self (k : SlotId) (f : Slot → Slot) : (Ring.modSlot k f r).slot k = f (r.slot k) := by
  simp [Ring.slot, Ring.modSlot]

theorem Ring.slot_modSlot_ne (k j : SlotId) (f : Slot → Slot) (h : j ≠ k) : (Ring.modSlot k f r).slot j = r.slot j := by
  have hv : k.val ≠ j.val := fun e => h (Fin.ext e.symm)
  simp [Ring.slot, Ring.modSlot, hv]

/-! #### The updates that leave every ring as it is -/

@[simp] theorem State.ring_fresh (i : RingId) : s.fresh.ring i = s.ring i := rfl
@[simp] theorem State.ring_askReexam (i : RingId) : s.askReexam.ring i = s.ring i := rfl
@[simp] theorem State.ring_noteChange (i : RingId) : s.noteChange.ring i = s.ring i := rfl
@[simp] theorem State.ring_calm (i : RingId) : s.calm.ring i = s.ring i := rfl
@[simp] theorem State.ring_respond (i : RingId) (a : Initiator) (t : UpTag) (x : Status) (d : Option (List Byte)) : (s.respond a t x d).ring i = s.ring i := rfl
@[simp] theorem State.ring_sendDown (i : RingId) (q : DownRequest) : (s.sendDown q).ring i = s.ring i := rfl
@[simp] theorem State.ring_grant (i : RingId) (t : DownTag) (e : Entry) : (s.grant t e).ring i = s.ring i := rfl
@[simp] theorem State.ring_freeEntry (i : RingId) (t : DownTag) : (s.freeEntry t).ring i = s.ring i := rfl
@[simp] theorem State.ring_join (i : RingId) (q : Request) (r : Reason) : (s.join q r).ring i = s.ring i := rfl
@[simp] theorem State.ring_removeHeld (i : RingId) (k : Nat) : (s.removeHeld k).ring i = s.ring i := rfl
@[simp] theorem State.ring_countStray (i : RingId) : s.countStray.ring i = s.ring i := rfl
@[simp] theorem State.ring_movePast (i : RingId) : s.movePast.ring i = s.ring i := rfl
@[simp] theorem State.ring_writeEdges (i : RingId) (w : Word) : (s.writeEdges w).ring i = s.ring i := rfl
@[simp] theorem State.ring_writeGlobalMask (i : RingId) (w : Word) : (s.writeGlobalMask w).ring i = s.ring i := rfl
@[simp] theorem State.ring_withQueue (i : RingId) (q : List Instr) : (s.withQueue q).ring i = s.ring i := rfl

end Sys2Proof.Machine
end

