-- ==== Sys2Proof/Laws/Ring.lean ====
section
/-! SUPPORT. What the ring operations within an event can do: `Ring.Kin r t` says it once, one lemma per operation. -/

namespace Sys2Proof.Machine

/-! ### The places of the slots, as a predicate of the parts it reads -/

/-- `Ring.placesSound` over the five places, the STATE of each slot and SLOT_COUNT. -/
structure Places (n : Nat) (free : List SlotId) (fill : Option SlotId) (ready : List SlotId) (drain : Option SlotId)
    (rel : List SlotId) (st : SlotId → SlotState) : Prop where
  free : ∀ k, free.count k = if st k = .free ∧ k.val < n then 1 else 0
  fill : ∀ k, fill = some k ↔ st k = .filling
  ready : ∀ k, ready.count k = if st k ∈ [SlotState.closing, .recording, .settled] then 1 else 0
  drain : ∀ k, drain = some k ↔ st k ∈ [SlotState.draining, .retained]
  rel : ∀ k, rel.count k = if st k = .releasing then 1 else 0
  unused : ∀ k : SlotId, n ≤ k.val → st k = .free

/-- The places of a ring. -/
def Ring.Places (r : Ring) : Prop :=
  Sys2Proof.Machine.Places r.active.slotCount.toNat r.freeList r.fillSlot (r.ready.map ReadyEntry.slot) r.drainSlot
    r.releasing (fun k => (r.slot k).state)

theorem Ring.placesSound_iff (r : Ring) :
    r.placesSound ↔ (r.runState ≠ .idle → r.Places ∧ (r.fillSub = .noSlot ∨ r.fillSub = .waiting → r.fillSlot = none) ∧
      (r.drainSub = .empty ∨ r.drainSub = .waiting → r.drainSlot = none)) := by
  constructor
  · intro h hi
    obtain ⟨h1, h2, h3, h4, h5, h6, h7, h8⟩ := h hi
    exact ⟨⟨h1, h2, h3, h4, h5, h6⟩, h7, h8⟩
  · intro h hi
    obtain ⟨⟨h1, h2, h3, h4, h5, h6⟩, h7, h8⟩ := h hi
    exact ⟨h1, h2, h3, h4, h5, h6, h7, h8⟩

variable {n : Nat} {free ready rel : List SlotId} {fill drain : Option SlotId} {st : SlotId → SlotState}

/-- STATE of one slot replaced. -/
abbrev stateAt (st : SlotId → SlotState) (k : SlotId) (x : SlotState) : SlotId → SlotState :=
  fun j => if j = k then x else st j

theorem Places.used (p : Places n free fill ready drain rel st) {k : SlotId} (h : st k ≠ .free) : k.val < n := by
  by_contra x
  exact h (p.unused k (by omega))

/-- Head of the free list to the fill slot (01 R6). -/
theorem Places.take (k : SlotId) (p : Places n (k :: free) none ready drain rel st) :
    Places n free (some k) ready drain rel (stateAt st k .filling) := by
  have hk : st k = .free ∧ k.val < n := by
    have := p.free k
    simp only [List.count_cons_self] at this
    split at this <;> simp_all
  refine ⟨fun j => ?_, fun j => ?_, fun j => ?_, fun j => ?_, fun j => ?_, fun j hj => ?_⟩ <;> by_cases h : j = k
  · subst h; have := p.free j; simp_all [stateAt]
  · have := p.free j; simp_all [stateAt, eq_comm]
  · subst h; simp [stateAt]
  · have := p.fill j; simp_all [stateAt, eq_comm]
  · subst h; have := p.ready j; simp_all [stateAt]
  · have := p.ready j; simp_all [stateAt]
  · subst h; have := p.drain j; simp_all [stateAt]
  · have := p.drain j; simp_all [stateAt]
  · subst h; have := p.rel j; simp_all [stateAt]
  · have := p.rel j; simp_all [stateAt]
  · subst h; omega
  · have := p.unused j hj; simp_all [stateAt]

/-- The fill slot to the ready-queue tail (01 R7). -/
theorem Places.close (k : SlotId) (p : Places n free (some k) ready drain rel st) :
    Places n free none (ready ++ [k]) drain rel (stateAt st k .closing) := by
  have hk : st k = .filling := (p.fill k).mp rfl
  have hn := p.used (k := k) (by simp [hk])
  refine ⟨fun j => ?_, fun j => ?_, fun j => ?_, fun j => ?_, fun j => ?_, fun j hj => ?_⟩ <;> by_cases h : j = k
  · subst h; have := p.free j; simp_all [stateAt]
  · have := p.free j; simp_all [stateAt]
  · subst h; simp [stateAt]
  · have := p.fill j; simp_all [stateAt, eq_comm]
  · subst h; have := p.ready j; simp_all [stateAt]
  · have := p.ready j; simp_all [stateAt, eq_comm]
  · subst h; have := p.drain j; simp_all [stateAt]
  · have := p.drain j; simp_all [stateAt]
  · subst h; have := p.rel j; simp_all [stateAt]
  · have := p.rel j; simp_all [stateAt]
  · subst h; omega
  · have := p.unused j hj; simp_all [stateAt]

/-- The fill slot back to the free-list tail (01 R15). -/
theorem Places.giveBack (k : SlotId) (p : Places n free (some k) ready drain rel st) :
    Places n (free ++ [k]) none ready drain rel (stateAt st k .free) := by
  have hk : st k = .filling := (p.fill k).mp rfl
  have hn := p.used (k := k) (by simp [hk])
  refine ⟨fun j => ?_, fun j => ?_, fun j => ?_, fun j => ?_, fun j => ?_, fun j hj => ?_⟩ <;> by_cases h : j = k
  · subst h; have := p.free j; simp_all [stateAt]
  · have := p.free j; simp_all [stateAt, eq_comm]
  · subst h; simp [stateAt]
  · have := p.fill j; simp_all [stateAt, eq_comm]
  · subst h; have := p.ready j; simp_all [stateAt]
  · have := p.ready j; simp_all [stateAt]
  · subst h; have := p.drain j; simp_all [stateAt]
  · have := p.drain j; simp_all [stateAt]
  · subst h; have := p.rel j; simp_all [stateAt]
  · have := p.rel j; simp_all [stateAt]
  · simp [stateAt, h]
  · have := p.unused j hj; simp_all [stateAt]

/-- A slot of the ready queue to another stage (01 R8, R9). -/
theorem Places.stage (k : SlotId) (x : SlotState) (hk : st k ∈ [SlotState.closing, .recording, .settled])
    (hx : x ∈ [SlotState.closing, .recording, .settled]) (p : Places n free fill ready drain rel st) :
    Places n free fill ready drain rel (stateAt st k x) := by
  have hn := p.used (k := k) (by intro e; simp [e] at hk)
  refine ⟨fun j => ?_, fun j => ?_, fun j => ?_, fun j => ?_, fun j => ?_, fun j hj => ?_⟩ <;> by_cases h : j = k
  · subst h; have := p.free j; simp only [stateAt, if_true]; simp at hk hx; aesop
  · have := p.free j; simp_all [stateAt]
  · subst h; have := p.fill j; simp only [stateAt, if_true]; simp at hk hx; aesop
  · have := p.fill j; simp_all [stateAt]
  · subst h; have := p.ready j; simp_all [stateAt]
  · have := p.ready j; simp_all [stateAt]
  · subst h; have := p.drain j; simp only [stateAt, if_true]; simp at hk hx; aesop
  · have := p.drain j; simp_all [stateAt]
  · subst h; have := p.rel j; simp only [stateAt, if_true]; simp at hk hx; aesop
  · have := p.rel j; simp_all [stateAt]
  · subst h; omega
  · have := p.unused j hj; simp_all [stateAt]

/-- The ready-queue head to the drain slot (01 R11). -/
theorem Places.drainTake (k : SlotId) (p : Places n free fill (k :: ready) none rel st) :
    Places n free fill ready (some k) rel (stateAt st k .draining) := by
  have hr := p.ready k
  have hk : st k ∈ [SlotState.closing, .recording, .settled] := by
    simp only [List.count_cons_self] at hr
    by_contra x
    simp [x] at hr
  have hn := p.used (k := k) (by intro e; simp [e] at hk)
  refine ⟨fun j => ?_, fun j => ?_, fun j => ?_, fun j => ?_, fun j => ?_, fun j hj => ?_⟩ <;> by_cases h : j = k
  · subst h; have := p.free j; simp at hk; simp only [stateAt, if_true]; aesop
  · have := p.free j; simp_all [stateAt]
  · subst h; have := p.fill j; simp at hk; simp only [stateAt, if_true]; aesop
  · have := p.fill j; simp_all [stateAt]
  · subst h; simp_all [stateAt]
  · have := p.ready j; simp_all [stateAt, eq_comm]
  · subst h; simp [stateAt]
  · have := p.drain j; simp_all [stateAt, eq_comm]
  · subst h; have := p.rel j; simp at hk; simp only [stateAt, if_true]; aesop
  · have := p.rel j; simp_all [stateAt]
  · subst h; omega
  · have := p.unused j hj; simp_all [stateAt]

/-- The ready-queue head to the fill slot (01 R11). -/
theorem Places.reclaim (k : SlotId) (p : Places n free none (k :: ready) drain rel st) :
    Places n free (some k) ready drain rel (stateAt st k .filling) := by
  have hr := p.ready k
  have hk : st k ∈ [SlotState.closing, .recording, .settled] := by
    simp only [List.count_cons_self] at hr
    by_contra x
    simp [x] at hr
  have hn := p.used (k := k) (by intro e; simp [e] at hk)
  refine ⟨fun j => ?_, fun j => ?_, fun j => ?_, fun j => ?_, fun j => ?_, fun j hj => ?_⟩ <;> by_cases h : j = k
  · subst h; have := p.free j; simp at hk; simp only [stateAt, if_true]; aesop
  · have := p.free j; simp_all [stateAt]
  · subst h; simp [stateAt]
  · have := p.fill j; simp_all [stateAt, eq_comm]
  · subst h; simp_all [stateAt]
  · have := p.ready j; simp_all [stateAt, eq_comm]
  · subst h; have := p.drain j; simp at hk; simp only [stateAt, if_true]; aesop
  · have := p.drain j; simp_all [stateAt]
  · subst h; have := p.rel j; simp at hk; simp only [stateAt, if_true]; aesop
  · have := p.rel j; simp_all [stateAt]
  · subst h; omega
  · have := p.unused j hj; simp_all [stateAt]

/-- The drain slot, retained (03 R59). -/
theorem Places.retain (k : SlotId) (p : Places n free fill ready (some k) rel st) :
    Places n free fill ready (some k) rel (stateAt st k .retained) := by
  have hk : st k ∈ [SlotState.draining, .retained] := (p.drain k).mp rfl
  have hn := p.used (k := k) (by intro e; simp [e] at hk)
  refine ⟨fun j => ?_, fun j => ?_, fun j => ?_, fun j => ?_, fun j => ?_, fun j hj => ?_⟩ <;> by_cases h : j = k
  · subst h; have := p.free j; simp at hk; simp only [stateAt, if_true]; aesop
  · have := p.free j; simp_all [stateAt]
  · subst h; have := p.fill j; simp at hk; simp only [stateAt, if_true]; aesop
  · have := p.fill j; simp_all [stateAt]
  · subst h; have := p.ready j; simp at hk; simp only [stateAt, if_true]; aesop
  · have := p.ready j; simp_all [stateAt]
  · subst h; simp [stateAt]
  · have := p.drain j; simp_all [stateAt]
  · subst h; have := p.rel j; simp at hk; simp only [stateAt, if_true]; aesop
  · have := p.rel j; simp_all [stateAt]
  · subst h; omega
  · have := p.unused j hj; simp_all [stateAt]

/-- The drain slot to the releasing set (01 R14). -/
theorem Places.release (k : SlotId) (p : Places n free fill ready (some k) rel st) :
    Places n free fill ready none (rel ++ [k]) (stateAt st k .releasing) := by
  have hk : st k ∈ [SlotState.draining, .retained] := (p.drain k).mp rfl
  have hn := p.used (k := k) (by intro e; simp [e] at hk)
  refine ⟨fun j => ?_, fun j => ?_, fun j => ?_, fun j => ?_, fun j => ?_, fun j hj => ?_⟩ <;> by_cases h : j = k
  · subst h; have := p.free j; simp at hk; simp only [stateAt, if_true]; aesop
  · have := p.free j; simp_all [stateAt]
  · subst h; have := p.fill j; simp at hk; simp only [stateAt, if_true]; aesop
  · have := p.fill j; simp_all [stateAt]
  · subst h; have := p.ready j; simp at hk; simp only [stateAt, if_true]; aesop
  · have := p.ready j; simp_all [stateAt]
  · subst h; simp [stateAt]
  · have := p.drain j; simp_all [stateAt, eq_comm]
  · subst h; have := p.rel j; simp at hk; simp only [stateAt, if_true]; aesop
  · have := p.rel j; simp_all [stateAt, eq_comm]
  · subst h; omega
  · have := p.unused j hj; simp_all [stateAt]

/-- A slot of the releasing set to the free-list tail (01 R14). -/
theorem Places.free_of_releasing (k : SlotId) (hk : st k = .releasing) (p : Places n free fill ready drain rel st) :
    Places n (free ++ [k]) fill ready drain (rel.filter (· != k)) (stateAt st k .free) := by
  have hn := p.used (k := k) (by simp [hk])
  refine ⟨fun j => ?_, fun j => ?_, fun j => ?_, fun j => ?_, fun j => ?_, fun j hj => ?_⟩ <;> by_cases h : j = k
  · subst h; have := p.free j; simp_all [stateAt]
  · have := p.free j; simp_all [stateAt, eq_comm]
  · subst h; have := p.fill j; simp_all [stateAt]
  · have := p.fill j; simp_all [stateAt]
  · subst h; have := p.ready j; simp_all [stateAt]
  · have := p.ready j; simp_all [stateAt]
  · subst h; have := p.drain j; simp_all [stateAt]
  · have := p.drain j; simp_all [stateAt]
  · subst h; simp only [stateAt, if_true]; rw [if_neg (by decide)]; exact List.count_eq_zero.mpr (by simp)
  · have := p.rel j; rw [List.count_filter (by simpa using h)]; simp_all [stateAt]
  · simp [stateAt, h]
  · have := p.unused j hj; simp_all [stateAt]

/-! ### The timers, within an event -/

/-- `Ring.timersSound`, but for timers of the sides in `due`, which may have reached 0 in a step of the timebase. -/
def Ring.Timers (due : Side → Prop) (r : Ring) : Prop :=
  (∀ n, r.fillTimer = some n → (r.fillSub = .waiting ∧ r.runState = .running) ∧ n ≤ 65535 ∧ (n = 0 → due .fill)) ∧
  (∀ n, r.drainTimer = some n → (r.drainSub = .waiting ∧ r.moves = true) ∧ n ≤ 65535 ∧ (n = 0 → due .drain))

theorem Ring.timersSound_iff (r : Ring) : r.timersSound ↔ r.Timers (fun _ => False) := by
  constructor
  · exact fun h => ⟨fun n e => ⟨(h.1 n e).2.2, (h.1 n e).2.1, fun z => by have := (h.1 n e).1; omega⟩,
      fun n e => ⟨(h.2 n e).2.2, (h.2 n e).2.1, fun z => by have := (h.2 n e).1; omega⟩⟩
  · exact fun h => ⟨fun n e => ⟨Nat.pos_of_ne_zero (h.1 n e).2.2, (h.1 n e).2.1, (h.1 n e).1⟩,
      fun n e => ⟨Nat.pos_of_ne_zero (h.2 n e).2.2, (h.2 n e).2.1, (h.2 n e).1⟩⟩

/-- Both timers stopped. -/
theorem Ring.Timers.stopped {due : Side → Prop} {r : Ring} (h : r.fillTimer = none) (g : r.drainTimer = none) :
    r.Timers due := ⟨fun n e => by simp [h] at e, fun n e => by simp [g] at e⟩

/-- The value a timer starts with (07 R125). -/
theorem startTime {x : BitVec 16} {n : Nat} (h : (if x = 0 then none else some x.toNat) = some n) : n ≤ 65535 ∧ n ≠ 0 := by
  split at h
  · cases h
  · rename_i z
    cases h
    have : x.toNat ≠ 0 := fun e => z (BitVec.eq_of_toNat_eq e)
    omega

/-! ### What every ring operation within an event keeps -/

/-- Software's own registers as they are, attention causes only added, a CLOSED fill side closed, and the three soundness
properties of a ring. -/
structure Ring.Kin (r t : Ring) : Prop where
  shadow : t.shadow = r.shadow
  mask : t.mask = r.mask
  attention : ∀ n, r.attention.getLsbD n = true → t.attention.getLsbD n = true
  closed : r.fillSub = .closed → t.fillSub = .closed
  timers : ∀ due, r.Timers due → t.Timers due
  commit : r.commitSound → t.commitSound
  places : r.placesSound → t.placesSound

/-- What a close wrote into a slot record, apart from the STATE (01 R2). -/
def Slot.closed (x : Slot) : BitVec 16 × Nat × Nat × Option CloseCause × Bool :=
  (x.seq, x.fillLength, x.bytesAccepted, x.cause, x.afterGap)

/-- The frames closed so far: every slot's close fields, NEXT_SEQ and CLOSES. -/
structure Ring.Frames (r t : Ring) : Prop where
  nextSeq : t.nextSeq = r.nextSeq
  closes : t.counters.closes = r.counters.closes
  closed : ∀ k, (t.slot k).closed = (r.slot k).closed

/-- The same, with the run state, the fill side's slot and substate, the free list and the closed frames as they are. -/
structure Ring.Inner (r t : Ring) : Prop extends Ring.Kin r t where
  runState : t.runState = r.runState
  fillSub : t.fillSub = r.fillSub
  fillSlot : t.fillSlot = r.fillSlot
  freeList : t.freeList = r.freeList
  frames : Ring.Frames r t

theorem Ring.Kin.refl (r : Ring) : r.Kin r :=
  ⟨rfl, rfl, fun _ h => h, id, fun _ => id, id, id⟩

theorem Ring.Kin.trans {a b c : Ring} (h : a.Kin b) (g : b.Kin c) : a.Kin c :=
  ⟨g.shadow.trans h.shadow, g.mask.trans h.mask, fun n x => g.attention n (h.attention n x), g.closed ∘ h.closed,
    fun d => g.timers d ∘ h.timers d, g.commit ∘ h.commit, g.places ∘ h.places⟩

theorem Ring.Frames.refl (r : Ring) : r.Frames r := ⟨rfl, rfl, fun _ => rfl⟩

theorem Ring.Frames.trans {a b c : Ring} (h : a.Frames b) (g : b.Frames c) : a.Frames c :=
  ⟨g.nextSeq.trans h.nextSeq, g.closes.trans h.closes, fun k => (g.closed k).trans (h.closed k)⟩

/-- One slot record changed, its close fields as they were. -/
theorem Ring.Frames.ofSlot {r t : Ring} (k : SlotId) (f : Slot → Slot) (hs : t.slots = (Ring.modSlot k f r).slots)
    (hf : (f (r.slot k)).closed = (r.slot k).closed) (h1 : t.nextSeq = r.nextSeq)
    (h2 : t.counters.closes = r.counters.closes) : r.Frames t := by
  refine ⟨h1, h2, fun j => ?_⟩
  have e : t.slot j = (Ring.modSlot k f r).slot j := by unfold Ring.slot; rw [hs]
  rw [e]
  by_cases h : j = k
  · subst h; rw [Ring.slot_modSlot_self]; exact hf
  · rw [Ring.slot_modSlot_ne r k j f h]

theorem Ring.Inner.refl (r : Ring) : r.Inner r := ⟨Ring.Kin.refl r, rfl, rfl, rfl, rfl, Ring.Frames.refl r⟩

theorem Ring.Inner.trans {a b c : Ring} (h : a.Inner b) (g : b.Inner c) : a.Inner c :=
  ⟨h.toKin.trans g.toKin, g.runState.trans h.runState, g.fillSub.trans h.fillSub, g.fillSlot.trans h.fillSlot,
    g.freeList.trans h.freeList, h.frames.trans g.frames⟩

theorem addCause_grows (c : RingCause) (a : BitVec 10) (n : Nat) (h : a.getLsbD n = true) :
    (addCause c a).getLsbD n = true := by
  simp [addCause, h]

theorem Ring.inner_attend (c : RingCause) (r : Ring) : r.Inner (r.attend c) :=
  ⟨⟨rfl, rfl, fun n h => addCause_grows c _ n h, id, fun _ => id, id, id⟩, rfl, rfl, rfl, rfl, ⟨rfl, rfl, fun _ => rfl⟩⟩

theorem Counters.closes_bump (c : Counter) (k : Counters) (h : c ≠ .closes) : (k.bump c).closes = k.closes := by
  cases c <;> first | rfl | exact absurd rfl h

theorem Ring.inner_count (c : Counter) (r : Ring) (h : c ≠ .closes) : r.Inner (r.count c) :=
  ⟨⟨rfl, rfl, fun _ h => h, id, fun _ => id, id, id⟩, rfl, rfl, rfl, rfl, rfl, Counters.closes_bump c _ h, fun _ => rfl⟩

theorem Ring.inner_queueRecord (x : LogRecord) (r : Ring) : r.Inner (r.queueRecord x) :=
  ⟨⟨rfl, rfl, fun _ h => h, id, fun _ => id, id, id⟩, rfl, rfl, rfl, rfl, ⟨rfl, rfl, fun _ => rfl⟩⟩

/-! ### Slot records -/

theorem Ring.slot_modSlot (k j : SlotId) (f : Slot → Slot) (r : Ring) :
    (Ring.modSlot k f r).slot j = if j = k then f (r.slot k) else r.slot j := by
  by_cases h : j = k
  · subst h; simp
  · simp [h, Ring.slot_modSlot_ne r k j f h]

theorem Ring.states_modSlot (k : SlotId) (f : Slot → Slot) (r : Ring) (x : SlotState) (h : (f (r.slot k)).state = x) :
    (fun j => ((Ring.modSlot k f r).slot j).state) = stateAt (fun j => (r.slot j).state) k x := by
  funext j
  simp only [Ring.slot_modSlot, stateAt]
  split <;> simp_all

theorem stateAt_same (st : SlotId → SlotState) (k : SlotId) : stateAt st k (st k) = st := by
  funext j
  simp only [stateAt]
  split <;> simp_all

/-- A slot record changed in fields other than its STATE. -/
theorem Ring.inner_modSlot (k : SlotId) (f : Slot → Slot) (r : Ring) (h : (f (r.slot k)).state = (r.slot k).state)
    (hc : (f (r.slot k)).closed = (r.slot k).closed) : r.Inner (Ring.modSlot k f r) := by
  refine ⟨⟨rfl, rfl, fun _ h => h, id, fun _ => id, id, fun p => ?_⟩, rfl, rfl, rfl, rfl, Ring.Frames.ofSlot k f rfl hc rfl rfl⟩
  rw [Ring.placesSound_iff] at p ⊢
  intro hi
  obtain ⟨P, d⟩ := p hi
  refine ⟨?_, d⟩
  have e := Ring.states_modSlot k f r _ h
  rw [stateAt_same (fun j => (r.slot j).state) k] at e
  show Sys2Proof.Machine.Places _ _ _ _ _ _ _
  rw [e]
  exact P

/-- A ready-queue slot that changes its stage. -/
theorem Ring.inner_stage (k : SlotId) (x : SlotState) (r : Ring)
    (hk : (r.slot k).state ∈ [SlotState.closing, .recording, .settled])
    (hx : x ∈ [SlotState.closing, .recording, .settled]) : r.Inner (r.setSlotState k x) := by
  refine ⟨⟨rfl, rfl, fun _ h => h, id, fun _ => id, id, fun p => ?_⟩, rfl, rfl, rfl, rfl, Ring.Frames.ofSlot k _ rfl rfl rfl rfl⟩
  rw [Ring.placesSound_iff] at p ⊢
  intro hi
  obtain ⟨P, d⟩ := p hi
  refine ⟨?_, d⟩
  show Sys2Proof.Machine.Places _ _ _ _ _ _ _
  rw [show (fun j => ((r.setSlotState k x).slot j).state) = _ from Ring.states_modSlot k _ r x rfl]
  exact P.stage k x hk hx

/-! ### The pool's operations -/

theorem Ring.inner_advanceOne (e : ReadyEntry) (pred : Option SlotState) (r : Ring) : r.Inner (r.advanceOne e pred) := by
  unfold Ring.advanceOne
  split
  · rename_i h
    have hk : (r.slot e.slot).state ∈ [SlotState.closing, .recording, .settled] := by
      simp [Ring.closingAdvances] at h; simp [h]
    split
    · exact (Ring.inner_stage _ _ _ hk (by decide)).trans (Ring.inner_queueRecord _ _)
    · exact (Ring.inner_stage _ _ _ hk (by decide)).trans (Ring.inner_attend _ _)
  · split
    · rename_i h
      have hk : (r.slot e.slot).state ∈ [SlotState.closing, .recording, .settled] := by
        simp [Ring.recordingSettles] at h; simp [h]
      exact (Ring.inner_stage _ _ _ hk (by decide)).trans (Ring.inner_attend _ _)
    · exact Ring.Inner.refl r

theorem Ring.inner_advanceFrom (es : List ReadyEntry) (pred : Option SlotState) (r : Ring) :
    r.Inner (Ring.advanceFrom es pred r) := by
  induction es generalizing pred r with
  | nil => exact Ring.Inner.refl r
  | cons e es ih => exact (Ring.inner_advanceOne e pred r).trans (ih _ _)

theorem Ring.inner_advance (r : Ring) : r.Inner r.advance := Ring.inner_advanceFrom _ _ _

theorem Ring.inner_drainTake (r : Ring) (h : r.drainMayTake = true) : r.Inner r.drainTake := by
  unfold Ring.drainTake
  split
  · exact Ring.Inner.refl r
  · rename_i e rest hr
    have hsub : r.drainSub = .empty ∨ r.drainSub = .waiting := by simp [Ring.drainMayTake] at h; tauto
    refine ⟨⟨rfl, rfl, fun _ h => h, id, fun _ t => ⟨t.1, fun _ x => by simp at x⟩, id, fun p => ?_⟩, rfl, rfl, rfl, rfl,
      Ring.Frames.ofSlot e.slot (fun y => { y with state := .draining }) rfl rfl rfl rfl⟩
    rw [Ring.placesSound_iff] at p ⊢
    intro hi
    obtain ⟨P, f, d⟩ := p hi
    refine ⟨?_, f, by simp⟩
    show Sys2Proof.Machine.Places _ _ _ _ _ _ (fun j => ((r.setSlotState e.slot .draining).slot j).state)
    rw [show (fun j => ((r.setSlotState e.slot .draining).slot j).state) = _ from Ring.states_modSlot _ _ r _ rfl]
    have P' : Sys2Proof.Machine.Places _ _ _ _ _ _ _ := P
    rw [hr, d hsub] at P'
    exact P'.drainTake e.slot

theorem Ring.kin_fillTake (r : Ring) (h : r.fillMayTake = true) : r.Kin r.fillTake := by
  unfold Ring.fillTake
  split
  · exact Ring.Kin.refl r
  · rename_i k rest hr
    have hsub : r.fillSub = .noSlot ∨ r.fillSub = .waiting := by simp [Ring.fillMayTake] at h; tauto
    refine ⟨rfl, rfl, fun _ h => h, fun x => ?_, fun _ t => ⟨fun _ x => by simp at x, t.2⟩, id, fun p => ?_⟩
    · rcases hsub with y | y <;> simp [y] at x
    rw [Ring.placesSound_iff] at p ⊢
    intro hi
    obtain ⟨P, f, d⟩ := p hi
    refine ⟨?_, by simp, d⟩
    show Sys2Proof.Machine.Places _ _ _ _ _ _ (fun j => ((Ring.modSlot k (Slot.refill r.active.slotBase[k]) r).slot j).state)
    rw [Ring.states_modSlot k _ r .filling rfl]
    have P' : Sys2Proof.Machine.Places _ _ _ _ _ _ _ := P
    rw [hr, f hsub] at P'
    exact P'.take k

theorem Ring.kin_freeReleased (k : SlotId) (r : Ring) (h : (r.slot k).state = .releasing) :
    r.Kin (r.freeReleased k) := by
  refine ⟨rfl, rfl, fun _ h => h, id, fun _ => id, id, fun p => ?_⟩
  rw [Ring.placesSound_iff] at p ⊢
  intro hi
  obtain ⟨P, d⟩ := p hi
  refine ⟨?_, d⟩
  show Sys2Proof.Machine.Places _ _ _ _ _ _ (fun j => ((r.setSlotState k .free).slot j).state)
  rw [show (fun j => ((r.setSlotState k .free).slot j).state) = _ from Ring.states_modSlot _ _ r _ rfl]
  exact P.free_of_releasing k h

theorem Ring.frames_freeReleased (k : SlotId) (r : Ring) : r.Frames (r.freeReleased k) :=
  Ring.Frames.ofSlot k (fun y => { y with state := .free }) rfl rfl rfl rfl

theorem Ring.inner_countDown (k : SlotId) (r : Ring) : r.Inner (r.countDown k) :=
  Ring.inner_modSlot k _ r rfl rfl

theorem Ring.inner_release (d : SlotId) (r : Ring) (h : r.drainSlot = some d) :
    r.Inner (r.release d) := by
  refine ⟨⟨rfl, rfl, fun n x => addCause_grows _ _ n x, id, fun _ t => ⟨t.1, fun _ x => by simp [Ring.release] at x⟩, id,
    fun p => ?_⟩, rfl, rfl, rfl, rfl, Ring.Frames.ofSlot d (fun y => { y with state := .releasing }) rfl rfl rfl rfl⟩
  rw [Ring.placesSound_iff] at p ⊢
  intro hi
  obtain ⟨P, f, _⟩ := p hi
  refine ⟨?_, f, fun _ => rfl⟩
  show Sys2Proof.Machine.Places _ _ _ _ _ _ (fun j => ((r.setSlotState d .releasing).slot j).state)
  rw [show (fun j => ((r.setSlotState d .releasing).slot j).state) = _ from Ring.states_modSlot _ _ r _ rfl]
  have P' : Sys2Proof.Machine.Places _ _ _ _ _ _ _ := P
  rw [h] at P'
  exact P'.release d

theorem Ring.inner_retain (r : Ring) : r.Inner r.retain := by
  unfold Ring.retain
  split
  · exact Ring.Inner.refl r
  · rename_i d h
    refine ⟨⟨rfl, rfl, fun _ h => h, id, fun _ t => ⟨t.1, fun _ x => by simp at x⟩, id, fun p => ?_⟩, rfl, rfl, rfl, rfl,
      Ring.Frames.ofSlot d (fun y => { y with state := .retained }) rfl rfl rfl rfl⟩
    rw [Ring.placesSound_iff] at p ⊢
    intro hi
    obtain ⟨P, f, _⟩ := p hi
    refine ⟨?_, f, by simp⟩
    have P' : Sys2Proof.Machine.Places _ _ _ _ _ _ _ := P
    rw [h] at P'
    show Sys2Proof.Machine.Places _ _ _ _ r.drainSlot _ (fun j => ((r.setSlotState d .retained).slot j).state)
    rw [show (fun j => ((r.setSlotState d .retained).slot j).state) = _ from Ring.states_modSlot _ _ r _ rfl, h]
    exact P'.retain d

/-! ### Changes that move no slot -/

/-- The places of a ring whose slots, collections and holders are those of another. -/
theorem Ring.placesSound_of {r t : Ring} (hr : r.runState = .idle → t.runState = .idle) (hp : r.Places → t.Places)
    (hf : t.fillSub = .noSlot ∨ t.fillSub = .waiting → (r.fillSub = .noSlot ∨ r.fillSub = .waiting → r.fillSlot = none) →
      t.fillSlot = none)
    (hd : t.drainSub = .empty ∨ t.drainSub = .waiting → (r.drainSub = .empty ∨ r.drainSub = .waiting → r.drainSlot = none) →
      t.drainSlot = none) (p : r.placesSound) : t.placesSound := by
  rw [Ring.placesSound_iff] at p ⊢
  intro hi
  obtain ⟨P, f, d⟩ := p (fun h => hi (hr h))
  exact ⟨hp P, fun x => hf x f, fun x => hd x d⟩

theorem Ring.inner_takeRecord (rest : List LogRecord) (r : Ring) : r.Inner (r.takeRecord rest) := by
  unfold Ring.takeRecord Ring.advanceLog
  split <;> exact ⟨⟨rfl, rfl, fun _ h => h, id, fun _ => id, id, id⟩, rfl, rfl, rfl, rfl, ⟨rfl, rfl, fun _ => rfl⟩⟩

theorem Ring.inner_spendBudget (r : Ring) : r.Inner r.spendBudget := by
  unfold Ring.spendBudget
  split <;> exact ⟨⟨rfl, rfl, fun _ h => h, id, fun _ => id, id, id⟩, rfl, rfl, rfl, rfl, ⟨rfl, rfl, fun _ => rfl⟩⟩

theorem Ring.inner_loseCommit (c : LostCause) (r : Ring) : r.Inner (r.loseCommit c) :=
  ⟨⟨rfl, rfl, fun n h => addCause_grows _ _ n h, id, fun _ => id, fun _ _ => rfl, id⟩, rfl, rfl, rfl, rfl, ⟨rfl, rfl, fun _ => rfl⟩⟩

theorem Ring.inner_losePending (c : LostCause) (r : Ring) : r.Inner (r.losePending c) := by
  unfold Ring.losePending
  split
  · exact Ring.inner_loseCommit c r
  · exact Ring.Inner.refl r

theorem Ring.inner_applyCommit (r : Ring) : r.Inner r.applyCommit :=
  ⟨⟨rfl, rfl, fun n h => addCause_grows _ _ n h, id, fun _ => id, fun _ _ => rfl, id⟩, rfl, rfl, rfl, rfl, ⟨rfl, rfl, fun _ => rfl⟩⟩

theorem Ring.inner_noteWriteError (k : SlotId) (r : Ring) : r.Inner (r.noteWriteError k) :=
  ((Ring.inner_modSlot k _ r rfl rfl).trans (Ring.inner_count _ _ (by decide))).trans (Ring.inner_attend _ _)

theorem Ring.inner_noteReadError (r : Ring) : r.Inner r.noteReadError :=
  (Ring.inner_count _ _ (by decide)).trans (Ring.inner_attend _ _)

theorem Ring.inner_noteRecordError (r : Ring) : r.Inner r.noteRecordError :=
  (Ring.inner_count _ _ (by decide)).trans (Ring.inner_attend _ _)

theorem Ring.ready_markAnswered (k : SlotId) (r : Ring) :
    (r.markAnswered k).ready.map ReadyEntry.slot = r.ready.map ReadyEntry.slot := by
  simp only [Ring.markAnswered, List.map_map]
  apply List.map_congr_left
  intro e _
  simp only [Function.comp]
  split <;> rfl

theorem Ring.inner_markAnswered (k : SlotId) (r : Ring) : r.Inner (r.markAnswered k) := by
  refine ⟨⟨rfl, rfl, fun _ h => h, id, fun _ => id, id, fun p => ?_⟩, rfl, rfl, rfl, rfl, ⟨rfl, rfl, fun _ => rfl⟩⟩
  refine Ring.placesSound_of (r := r) (t := r.markAnswered k) id (fun P => ?_) (fun x f => f x) (fun x d => d x) p
  show Sys2Proof.Machine.Places _ _ _ ((r.markAnswered k).ready.map ReadyEntry.slot) _ _ _
  rw [Ring.ready_markAnswered]
  exact P

theorem Ring.inner_acceptWrite (q : Request) (k : SlotId) (r : Ring) : r.Inner (r.acceptWrite q k) := by
  have h : r.Inner (Ring.modSlot k (fun x => { x with outstanding := x.outstanding + 1 }) r) :=
    Ring.inner_modSlot k _ r rfl rfl
  unfold Ring.acceptWrite
  dsimp only
  split <;> exact ⟨⟨rfl, rfl, fun _ h => h, id, fun _ => id, id, h.places⟩, rfl, rfl, rfl, rfl,
    Ring.Frames.ofSlot k (fun y => { y with outstanding := y.outstanding + 1 }) rfl rfl rfl rfl⟩

theorem Ring.inner_acceptRead (q : Request) (k : SlotId) (r : Ring) : r.Inner (r.acceptRead q k) := by
  have h : r.Inner (Ring.modSlot k (fun x => { x with outstanding := x.outstanding + 1 }) r) :=
    Ring.inner_modSlot k _ r rfl rfl
  unfold Ring.acceptRead
  dsimp only
  split <;> exact ⟨⟨rfl, rfl, fun _ h => h, id, fun _ => id, id, h.places⟩, rfl, rfl, rfl, rfl,
    Ring.Frames.ofSlot k (fun y => { y with outstanding := y.outstanding + 1 }) rfl rfl rfl rfl⟩

theorem Ring.inner_dropWrite (r : Ring) : r.Inner r.dropWrite :=
  ⟨⟨rfl, rfl, fun n h => addCause_grows _ _ n h, id, fun _ => id, id, id⟩, rfl, rfl, rfl, rfl, ⟨rfl, rfl, fun _ => rfl⟩⟩

theorem Ring.inner_patternAnswer (r : Ring) : r.Inner r.patternAnswer := by
  unfold Ring.patternAnswer
  dsimp only
  split
  · exact Ring.inner_count _ _ (by decide)
  · exact ⟨⟨rfl, rfl, fun n h => addCause_grows _ _ n h, id, fun _ => id, id, id⟩, rfl, rfl, rfl, rfl, ⟨rfl, rfl, fun _ => rfl⟩⟩

/-! ### The sides -/

theorem Ring.kin_emptyFill (r : Ring) (h : r.fillSub = .waiting ∨ (r.fillSub ≠ .closed ∧ r.fillSlot = none)) :
    r.Kin r.emptyFill := by
  refine ⟨rfl, rfl, fun _ h => h, fun x => ?_, fun _ t => ⟨fun _ x => by simp [Ring.emptyFill] at x, t.2⟩, id, fun p => ?_⟩
  · rcases h with h | h
    · simp [h] at x
    · exact absurd x h.1
  · refine Ring.placesSound_of (r := r) (t := r.emptyFill) id id (fun _ f => ?_) (fun x d => d x) p
    rcases h with h | h
    · exact f (Or.inr h)
    · exact h.2

theorem Ring.inner_endDrainWait (r : Ring) (h : r.drainSub = .waiting) : r.Inner r.endDrainWait := by
  refine ⟨⟨rfl, rfl, fun _ h => h, id, fun _ t => ⟨t.1, fun _ x => by simp [Ring.endDrainWait] at x⟩, id, fun p => ?_⟩, rfl,
    rfl, rfl, rfl, ⟨rfl, rfl, fun _ => rfl⟩⟩
  exact Ring.placesSound_of (r := r) (t := r.endDrainWait) id id (fun x f => f x) (fun _ d => d (Or.inr h)) p

theorem Ring.kin_fillStall (r : Ring) (h : r.runState = .running) : r.Kin r.fillStall := by
  unfold Ring.fillStall
  split
  · rename_i hs
    have hs : r.fillSub = .noSlot := by simpa using hs
    refine ⟨rfl, rfl, fun n h => addCause_grows _ _ n h, fun x => by simp [hs] at x, fun _ t => ⟨fun _ x => ⟨⟨rfl, h⟩, (startTime x).1, fun z => absurd z (startTime x).2⟩, t.2⟩, id,
      fun p => ?_⟩
    exact Ring.placesSound_of (r := r) id id (fun _ f => f (Or.inl hs)) (fun x d => d x) p
  · exact Ring.Kin.refl r

theorem Ring.inner_drainStall (r : Ring) (h : r.moves = true) : r.Inner r.drainStall := by
  unfold Ring.drainStall
  split
  · rename_i hs
    have hs : r.drainSub = .empty := by simpa using hs
    refine ⟨⟨rfl, rfl, fun n h => addCause_grows _ _ n h, id, fun _ t => ⟨t.1, fun _ x => ⟨⟨rfl, h⟩, (startTime x).1, fun z => absurd z (startTime x).2⟩⟩, id, fun p => ?_⟩, rfl,
      rfl, rfl, rfl, ⟨rfl, rfl, fun _ => rfl⟩⟩
    exact Ring.placesSound_of (r := r) id id (fun x f => f x) (fun _ d => d (Or.inl hs)) p
  · exact Ring.Inner.refl r

theorem Ring.kin_closeInto (c : CloseCause) (k : SlotId) (r : Ring) (h : r.fillSlot = some k) : r.Kin (r.closeInto c k) := by
  refine ⟨rfl, rfl, fun _ h => h, id, fun _ => id, id, fun p => ?_⟩
  refine Ring.placesSound_of (r := r) (t := r.closeInto c k) id (fun P => ?_) (fun _ _ => rfl) (fun x d => d x) p
  have P' : Sys2Proof.Machine.Places _ _ _ _ _ _ _ := P
  rw [h] at P'
  show Sys2Proof.Machine.Places _ _ _ ((r.ready ++ [ReadyEntry.mk k false]).map ReadyEntry.slot) _ _
    (fun j => ((Ring.modSlot k (r.closeFields c) r).slot j).state)
  rw [Ring.states_modSlot k (r.closeFields c) r .closing rfl, List.map_append]
  exact P'.close k

theorem Ring.kin_endFill (r : Ring) (h : r.runState ≠ .idle) : r.Kin r.endFill := by
  refine ⟨rfl, rfl, fun _ h => h, fun _ => rfl, fun _ t => ⟨fun _ x => by simp [Ring.endFill] at x, fun n x => ⟨⟨(t.2 n x).1.1, rfl⟩, (t.2 n x).2⟩⟩,
    fun _ x => by simp [Ring.moves, Ring.endFill] at x, fun p => ?_⟩
  exact Ring.placesSound_of (r := r) (t := r.endFill) (fun x => absurd x h) id (fun x => by simp [Ring.endFill] at x)
    (fun x d => d x) p

theorem Ring.kin_returnFillSlot (r : Ring) : r.Kin r.returnFillSlot := by
  unfold Ring.returnFillSlot
  split
  · exact Ring.Kin.refl r
  · rename_i k h
    refine ⟨rfl, rfl, fun _ h => h, id, fun _ => id, id, fun p => ?_⟩
    refine Ring.placesSound_of (r := r) id (fun P => ?_) (fun _ _ => rfl) (fun x d => d x) p
    have P' : Sys2Proof.Machine.Places _ _ _ _ _ _ _ := P
    rw [h] at P'
    show Sys2Proof.Machine.Places _ _ _ _ _ _ (fun j => ((r.setSlotState k .free).slot j).state)
    rw [show (fun j => ((r.setSlotState k .free).slot j).state) = _ from Ring.states_modSlot _ _ r _ rfl]
    exact P'.giveBack k

theorem Ring.kin_reclaim (r : Ring) (h : r.fillSub = .noSlot ∨ r.fillSub = .waiting) : r.Kin r.reclaim := by
  unfold Ring.reclaim
  split
  · exact Ring.Kin.refl r
  · rename_i e rest hr
    have hq : r.Kin (if r.active.recordEnable then r.queueRecord (reclaimRecord e.slot (r.slot e.slot)) else r) := by
      split
      · exact (Ring.inner_queueRecord _ _).toKin
      · exact Ring.Kin.refl r
    dsimp only
    refine ⟨?_, ?_, ?_, ?_, ?_, ?_, ?_⟩
    · split <;> rfl
    · split <;> rfl
    · intro n x; apply addCause_grows; split <;> exact x
    · intro x; rcases h with y | y <;> simp [y] at x
    · intro _ t; exact ⟨fun _ x => by simp [Ring.attend, Ring.count] at x, by split <;> exact t.2⟩
    · intro t; split <;> exact t
    · intro p
      have key : ∀ x : Ring, x.placesSound → x.ready = e :: rest → (x.fillSub = .noSlot ∨ x.fillSub = .waiting) →
          ∀ b, Ring.placesSound (Ring.attend .overrun (Ring.count .reclaims
            { Ring.modSlot e.slot (Slot.refill b) x with
              ready := rest, fillSlot := some e.slot, fillSub := .filling, fillCursor := 0, fillBytes := 0, highMark := 0,
              gapPending := true, fillTimer := none })) := by
        intro x px hx hs b
        rw [Ring.placesSound_iff] at px ⊢
        intro hi
        obtain ⟨P, f, d⟩ := px hi
        refine ⟨?_, by simp, d⟩
        have P' : Sys2Proof.Machine.Places _ _ _ _ _ _ _ := P
        rw [hx, f hs] at P'
        show Sys2Proof.Machine.Places _ _ _ _ _ _ (fun j => ((Ring.modSlot e.slot (Slot.refill b) x).slot j).state)
        rw [Ring.states_modSlot e.slot (Slot.refill b) x .filling rfl]
        exact P'.reclaim e.slot
      exact key _ (hq.places p) (by split <;> exact hr) (by split <;> exact h) _

theorem Ring.kin_enterFault (c : FaultCause) (r : Ring) (h : r.runState ≠ .idle) : r.Kin (r.enterFault c) := by
  have key : ∀ x : Ring, x.runState ≠ .idle → x.Kin { x with
      runState := .fault, faultCause := c, fillSub := if x.fillSub == .waiting then .noSlot else x.fillSub,
      drainSub := if x.drainSub == .waiting then .empty else x.drainSub, fillTimer := none, drainTimer := none,
      commitPending := false } := by
    intro x hx
    refine ⟨rfl, rfl, fun _ h => h, fun y => by simp [y], fun _ _ => Ring.Timers.stopped rfl rfl,
      fun _ _ => rfl, fun p => ?_⟩
    refine Ring.placesSound_of (r := x) (fun y => absurd y hx) id (fun y f => ?_) (fun y d => ?_) p
    · apply f
      by_cases z : x.fillSub = .waiting
      · exact Or.inr z
      · simp [z] at y; exact Or.inl y
    · apply d
      by_cases z : x.drainSub = .waiting
      · exact Or.inr z
      · simp [z] at y; exact Or.inl y
  have k := key r h
  unfold Ring.enterFault Ring.losePending
  dsimp only
  split
  · exact ⟨rfl, rfl, fun n x => addCause_grows _ _ n (addCause_grows _ _ n x), k.closed, k.timers, k.commit, k.places⟩
  · rename_i hc
    refine ⟨rfl, rfl, fun n x => addCause_grows _ _ n x, k.closed, k.timers, fun _ _ => ?_, k.places⟩
    simpa using hc

theorem Ring.kin_enterAbort (r : Ring) (h : r.runState ≠ .idle) : r.Kin r.enterAbort := by
  have p0 : r.placesSound → Ring.placesSound { r with
      runState := .aborting, fillSub := .closed, drainSub := if r.drainSub == .waiting then .empty else r.drainSub,
      fillTimer := none, drainTimer := none, records := [] } := by
    intro p
    refine Ring.placesSound_of (r := r) (fun y => absurd y h) id (fun y => by simp at y) (fun y d => ?_) p
    apply d
    by_cases z : r.drainSub = .waiting
    · exact Or.inr z
    · simp [z] at y; exact Or.inl y
  unfold Ring.enterAbort Ring.losePending
  dsimp only
  split
  · exact ⟨rfl, rfl, fun n x => addCause_grows _ _ n x, fun _ => rfl, fun _ _ => Ring.Timers.stopped rfl rfl, fun _ _ => rfl, p0⟩
  · rename_i hc
    exact ⟨rfl, rfl, fun _ x => x, fun _ => rfl, fun _ _ => Ring.Timers.stopped rfl rfl,
      fun _ _ => by simpa using hc, p0⟩

/-! ### The returns to IDLE -/

theorem Ring.placesSound_idle {r : Ring} (h : r.runState = .idle) : r.placesSound := fun x => absurd h x

theorem Ring.kin_returnToIdle (r : Ring) (hf : r.fillSub = .closed) (hd : r.drainSub = .empty) : r.Kin r.returnToIdle := by
  unfold Ring.returnToIdle Ring.copyShadow Ring.clearWork
  dsimp only
  have tm : ∀ due, r.Timers due → r.fillTimer = none ∧ r.drainTimer = none := by
    intro due t
    refine ⟨Option.eq_none_iff_forall_ne_some.mpr fun n x => ?_, Option.eq_none_iff_forall_ne_some.mpr fun n x => ?_⟩
    · have := (t.1 n x).1.1
      simp [hf] at this
    · have := (t.2 n x).1.1
      simp [hd] at this
  split
  · split
    · exact ⟨rfl, rfl, fun n x => addCause_grows _ _ n (addCause_grows _ _ n x), fun _ => hf,
        fun _ t => Ring.Timers.stopped (tm _ t).1 (tm _ t).2, fun _ _ => rfl, fun _ => Ring.placesSound_idle rfl⟩
    · exact ⟨rfl, rfl, fun n x => addCause_grows _ _ n (addCause_grows _ _ n x), fun _ => hf,
        fun _ t => Ring.Timers.stopped (tm _ t).1 (tm _ t).2, fun _ _ => rfl, fun _ => Ring.placesSound_idle rfl⟩
  · rename_i hc
    exact ⟨rfl, rfl, fun n x => addCause_grows _ _ n x, fun _ => hf,
        fun _ t => Ring.Timers.stopped (tm _ t).1 (tm _ t).2, fun _ _ => by simpa using hc,
        fun _ => Ring.placesSound_idle rfl⟩

theorem Ring.kin_completeAbort (r : Ring) (h : r.runState = .aborting) : r.Kin r.completeAbort := by
  have fold : ∀ (ks : List SlotId) (x : Ring),
      (ks.foldl (fun y k => y.setSlotState k .free) x).shadow = x.shadow ∧
      (ks.foldl (fun y k => y.setSlotState k .free) x).mask = x.mask ∧
      (ks.foldl (fun y k => y.setSlotState k .free) x).attention = x.attention ∧
      (ks.foldl (fun y k => y.setSlotState k .free) x).commitPending = x.commitPending ∧
      (ks.foldl (fun y k => y.setSlotState k .free) x).fillTimer = x.fillTimer ∧
      (ks.foldl (fun y k => y.setSlotState k .free) x).drainTimer = x.drainTimer := by
    intro ks
    induction ks with
    | nil => intro x; exact ⟨rfl, rfl, rfl, rfl, rfl, rfl⟩
    | cons k ks ih => intro x; exact ih _
  obtain ⟨f1, f2, f3, f4, f5, f6⟩ := fold r.active.usedSlots r
  unfold Ring.completeAbort Ring.clearWork
  dsimp only
  refine ⟨f1, f2, fun n x => addCause_grows _ _ n (by show BitVec.getLsbD _ n = true; rw [f3]; exact x), fun _ => rfl,
    fun _ t => ⟨fun n z => ?_, fun n z => ?_⟩, fun c _ => ?_, fun _ => Ring.placesSound_idle rfl⟩
  · have := (t.1 n (by rw [← f5]; exact z)).1.2
    simp [h] at this
  · have := (t.2 n (by rw [← f6]; exact z)).1.2
    simp [Ring.moves, h] at this
  · show Ring.commitPending _ = false
    rw [show _ = r.commitPending from f4]
    exact c (by simp [Ring.moves, h])

end Sys2Proof.Machine
end

