-- ==== Sys2Proof/Laws/Work.lean ====
section
/-! SUPPORT. What the operations within an event can do to the state: `Works s t` says it once, one lemma per operation.
`Steady` is the same where the run states and the fill sides' slots stay as they are. -/

namespace Sys2Proof.Machine

/-- What work within an event keeps, with `K` for what it keeps of each ring. -/
structure Work (K : Ring → Ring → Prop) (s t : State) : Prop where
  resetLow : t.resetLow = s.resetLow
  nextOrder : t.nextOrder = s.nextOrder
  waiting : t.waiting = s.waiting
  stray : t.stray = s.stray
  edges : t.edges = s.edges
  levels : t.levels = s.levels
  globalMask : t.globalMask = s.globalMask
  result : t.result = s.result
  port : t.port = s.port
  choices : t.choices = s.choices
  pending : t.pending = s.pending
  hold : t.hold.Sublist s.hold
  refusal : s.refusalSound → t.refusalSound
  record : ∀ x, s.refusal = some x → t.refusal = some x
  globalAttn : s.globalAttn = true → t.globalAttn = true
  sent : s.sent <+: t.sent
  rings : ∀ i, K (s.ring i) (t.ring i)

/-- Work that keeps `Ring.Kin` of each ring. -/
abbrev Works (s t : State) : Prop := Work Ring.Kin s t

/-- Work that keeps `Ring.Inner` of each ring. -/
abbrev Steady (s t : State) : Prop := Work Ring.Inner s t

theorem Work.trans {K : Ring → Ring → Prop} (hK : ∀ a b c, K a b → K b c → K a c) {s t u : State} (h : Work K s t)
    (g : Work K t u) : Work K s u :=
  ⟨g.resetLow.trans h.resetLow, g.nextOrder.trans h.nextOrder, g.waiting.trans h.waiting, g.stray.trans h.stray,
    g.edges.trans h.edges, g.levels.trans h.levels, g.globalMask.trans h.globalMask, g.result.trans h.result,
    g.port.trans h.port, g.choices.trans h.choices, g.pending.trans h.pending, g.hold.trans h.hold, g.refusal ∘ h.refusal,
    fun x hx => g.record x (h.record x hx), g.globalAttn ∘ h.globalAttn, h.sent.trans g.sent,
    fun i => hK _ _ _ (h.rings i) (g.rings i)⟩

theorem Steady.trans {s t u : State} (h : Steady s t) (g : Steady t u) : Steady s u :=
  Work.trans (K := Ring.Inner) (fun _ _ _ a b => a.trans b) h g

theorem Works.trans {s t u : State} (h : Works s t) (g : Works t u) : Works s u :=
  Work.trans (K := Ring.Kin) (fun _ _ _ a b => a.trans b) h g

theorem Steady.works {s t : State} (h : Steady s t) : Works s t :=
  ⟨h.resetLow, h.nextOrder, h.waiting, h.stray, h.edges, h.levels, h.globalMask, h.result, h.port, h.choices, h.pending,
    h.hold, h.refusal, h.record, h.globalAttn, h.sent, fun i => (h.rings i).toKin⟩

theorem Steady.refl (s : State) : Steady s s :=
  ⟨rfl, rfl, rfl, rfl, rfl, rfl, rfl, rfl, rfl, rfl, rfl, List.Sublist.refl _, id, fun _ h => h, id, List.prefix_refl _,
    fun _ => Ring.Inner.refl _⟩

theorem Works.refl (s : State) : Works s s := (Steady.refl s).works

/-! ### Updates -/

theorem State.work_modRing {K : Ring → Ring → Prop} (hK : ∀ r, K r r) (i : RingId) (f : Ring → Ring) (s : State)
    (h : K (s.ring i) (f (s.ring i))) : Work K s (s.modRing i f) := by
  refine ⟨rfl, rfl, rfl, rfl, rfl, rfl, rfl, rfl, rfl, rfl, rfl, List.Sublist.refl _, id, fun _ h => h, id,
    List.prefix_refl _, fun j => ?_⟩
  by_cases e : j = i
  · subst e; rw [State.ring_modRing_self]; exact h
  · rw [State.ring_modRing_ne s i j f e]; exact hK _

theorem State.steady_modRing (i : RingId) (f : Ring → Ring) (s : State) (h : (s.ring i).Inner (f (s.ring i))) :
    Steady s (s.modRing i f) := State.work_modRing Ring.Inner.refl i f s h

theorem State.works_modRing (i : RingId) (f : Ring → Ring) (s : State) (h : (s.ring i).Kin (f (s.ring i))) :
    Works s (s.modRing i f) := State.work_modRing Ring.Kin.refl i f s h

theorem State.steady_setRing (i : RingId) (r : Ring) (s : State) (h : (s.ring i).Inner r) : Steady s (s.setRing i r) :=
  State.steady_modRing i (fun _ => r) s h

/-- Updates of the table, the arbiter's position and the two walk flags. -/
theorem State.steady_aside (s : State) (tb : Vector (Option Entry) 32) (rr : RingId) (ra wc : Bool) :
    Steady s { s with table := tb, rrLast := rr, reexamAsked := ra, walkChanged := wc } :=
  ⟨rfl, rfl, rfl, rfl, rfl, rfl, rfl, rfl, rfl, rfl, rfl, List.Sublist.refl _, id, fun _ h => h, id, List.prefix_refl _,
    fun _ => Ring.Inner.refl _⟩

theorem State.steady_askReexam (s : State) : Steady s s.askReexam := State.steady_aside s s.table s.rrLast true s.walkChanged
theorem State.steady_noteChange (s : State) : Steady s s.noteChange := State.steady_aside s s.table s.rrLast s.reexamAsked true
theorem State.steady_calm (s : State) : Steady s s.calm := State.steady_aside s s.table s.rrLast false false
theorem State.steady_grant (t : DownTag) (e : Entry) (s : State) : Steady s (s.grant t e) :=
  State.steady_aside s (s.table.set t (some e)) s.rrLast s.reexamAsked s.walkChanged
theorem State.steady_freeEntry (t : DownTag) (s : State) : Steady s (s.freeEntry t) :=
  State.steady_aside s (s.table.set t none) s.rrLast s.reexamAsked s.walkChanged

theorem State.steady_respond (a : Initiator) (t : UpTag) (x : Status) (d : Option (List Byte)) (s : State) :
    Steady s (s.respond a t x d) :=
  { Steady.refl s with sent := List.prefix_append _ _ }

theorem State.steady_sendDown (q : DownRequest) (s : State) : Steady s (s.sendDown q) :=
  { Steady.refl s with sent := List.prefix_append _ _ }

theorem State.steady_removeHeld (k : Nat) (s : State) : Steady s (s.removeHeld k) :=
  { Steady.refl s with hold := List.filter_sublist }

theorem State.steady_noteRefusal (q : Request) (c : RefusalCause) (i : RingId) (s : State) :
    Steady s (s.noteRefusal q c i) := by
  unfold State.noteRefusal
  split
  · rename_i h
    refine { Steady.refl s with refusal := fun p => ?_, record := fun x hx => ?_, globalAttn := fun _ => rfl }
    · refine ⟨rfl, fun x => by simp at x, ?_⟩
      have := p.2.1 h
      show s.laterCount ≤ _
      omega
    · rw [h] at hx; cases hx
  · rename_i x h
    refine { Steady.refl s with refusal := fun p => ⟨p.1, fun y => ?_, ?_⟩ }
    · have y' : s.refusal = none := y
      rw [h] at y'; cases y'
    · exact Nat.min_le_right _ _

theorem State.steady_refuse (q : Request) (c : RefusalCause) (i : RingId) (s : State) : Steady s (s.refuse q c i) :=
  (State.steady_respond _ _ _ _ s).trans (State.steady_noteRefusal _ _ _ _)

theorem State.steady_foldl {α : Type} (f : State → α → State) (hf : ∀ s x, Steady s (f s x)) (xs : List α) (s : State) :
    Steady s (xs.foldl f s) := by
  induction xs generalizing s with
  | nil => exact Steady.refl s
  | cons x xs ih => exact (hf s x).trans (ih _)

theorem State.steady_answerHeld (p : Held → Bool) (c : RefusalCause) (i : RingId) (s : State) :
    Steady s (s.answerHeld p c i) := by
  unfold State.answerHeld
  dsimp only
  refine Steady.trans (t := { s with hold := s.hold.filter (fun h => !p h), walkChanged := s.walkChanged || !(s.hold.filter p).isEmpty }) ?_ (State.steady_foldl _ (fun s x => State.steady_refuse _ _ _ _) _ _)
  exact { Steady.refl s with hold := List.filter_sublist }

/-! ### The record tier -/

theorem State.steady_issueRecord (i : RingId) (t : DownTag) (x : LogRecord) (rest : List LogRecord) (s : State) :
    Steady s (s.issueRecord i t x rest) := by
  have h := (State.steady_modRing i (Ring.takeRecord rest) s (Ring.inner_takeRecord _ _)).trans
    ((State.steady_grant t (.record i x.slot x.kind) _).trans (State.steady_sendDown
      ⟨t, 0, 0, logAddress (s.ring i).active (s.ring i).recordIndex, .write (recordBytes x (s.ring i).lap)⟩ _))
  exact h.trans (State.steady_aside _ _ i _ _)

theorem State.steady_grantRecord? {s t : State} {i : RingId} (h : s.grantRecord? = some (i, t)) : Steady s t := by
  unfold State.grantRecord? at h
  split at h
  · split at h
    · simp only [Option.some.injEq, Prod.mk.injEq] at h
      obtain ⟨_, rfl⟩ := h
      exact State.steady_issueRecord _ _ _ _ _
    · cases h
  · cases h

theorem State.steady_grantRecordsUpTo (n : Nat) (s : State) : Steady s (State.grantRecordsUpTo n s) := by
  induction n generalizing s with
  | zero => exact Steady.refl s
  | succ n ih =>
    unfold State.grantRecordsUpTo
    split
    · exact Steady.refl s
    · rename_i h
      exact (State.steady_grantRecord? h).trans (ih _)

theorem State.steady_grantRecords (s : State) : Steady s s.grantRecords := State.steady_grantRecordsUpTo 32 s

/-! ### The slot pool -/

theorem State.steady_advanceRing (i : RingId) (s : State) : Steady s (s.advanceRing i) := by
  unfold State.advanceRing
  dsimp only
  split
  · exact (State.steady_setRing i _ s (Ring.inner_advance _)).trans (State.steady_askReexam _)
  · exact State.steady_setRing i _ s (Ring.inner_advance _)

theorem State.steady_takeSettled (i : RingId) (s : State) : Steady s (s.takeSettled i) := by
  unfold State.takeSettled
  split
  · rename_i h
    exact (State.steady_modRing i _ s (Ring.inner_drainTake _ h)).trans
      ((State.steady_advanceRing i _).trans ((State.steady_askReexam _).trans (State.steady_noteChange _)))
  · exact Steady.refl s

theorem State.steady_settleRing (i : RingId) (s : State) : Steady s (s.settleRing i) :=
  (State.steady_advanceRing i s).trans (State.steady_takeSettled i _)

theorem State.works_takeFree (i : RingId) (s : State) : Works s (s.takeFree i) := by
  unfold State.takeFree
  split
  · rename_i h
    have k := State.works_modRing i _ s (Ring.kin_fillTake _ h)
    dsimp only
    have k2 := k.trans (State.steady_noteChange _).works
    split
    · exact k2.trans (State.steady_askReexam _).works
    · exact k2
  · exact Works.refl s

theorem State.works_freeReleased (i : RingId) (k : SlotId) (s : State) (h : ((s.ring i).slot k).state = .releasing) :
    Works s (s.freeReleased i k) :=
  (State.works_modRing i _ s (Ring.kin_freeReleased k _ h)).trans (State.works_takeFree i _)

theorem State.works_countResponse (i : RingId) (k : SlotId) (s : State) : Works s (s.countResponse i k) := by
  have h := (State.steady_modRing i (Ring.countDown k) s (Ring.inner_countDown _ _)).works
  unfold State.countResponse
  dsimp only
  split
  · split
    · exact h.trans (State.steady_settleRing i _).works
    · rename_i e
      exact h.trans (State.works_freeReleased i k _ e)
    · exact h
  · exact h

theorem State.works_testEnding (i : RingId) (s : State) : Works s (s.testEnding i) := by
  unfold State.testEnding
  split
  · rename_i h
    simp only [State.endingDone, Bool.and_eq_true, beq_iff_eq] at h
    exact (State.works_modRing i _ s (Ring.kin_returnToIdle _ (by tauto) (by tauto))).trans (State.steady_askReexam _).works
  · exact Works.refl s

theorem State.works_releaseSlot (i : RingId) (s : State) : Works s (s.releaseSlot i) := by
  unfold State.releaseSlot
  split
  · exact Works.refl s
  · rename_i d h
    have k1 := (State.steady_modRing i _ s (Ring.inner_release d _ h)).works
    dsimp only
    have k2 : Works s (if (((s.ring i).slot d).outstanding == 0) = true then (s.modRing i (Ring.release d)).freeReleased i d
        else s.modRing i (Ring.release d)) := by
      split
      · refine k1.trans (State.works_freeReleased i d _ ?_)
        rw [State.ring_modRing_self]
        show ((Ring.modSlot d (fun x => { x with state := .releasing }) (s.ring i)).slot d).state = .releasing
        rw [Ring.slot_modSlot_self]
      · exact k1
    exact k2.trans ((State.steady_takeSettled i _).works.trans (State.steady_askReexam _).works)

theorem State.works_trigger (i : RingId) (s : State) : Works s (s.trigger i) := by
  unfold State.trigger
  split
  · exact (State.works_releaseSlot i s).trans (State.works_testEnding i _)
  · exact (State.steady_modRing i _ s (Ring.inner_retain _)).works

theorem State.works_afterDeparture (r : Reason) (s : State) : Works s (s.afterDeparture r) := by
  unfold State.afterDeparture
  split
  · rename_i i
    split
    · rename_i h
      simp only [Bool.and_eq_true, beq_iff_eq] at h
      exact State.works_modRing i _ s (Ring.kin_emptyFill _ (Or.inl h.2))
    · exact Works.refl s
  · rename_i i
    refine Works.trans (t := if (!s.anyDrainWait i && (s.ring i).drainSub == .waiting) = true then s.modRing i Ring.endDrainWait else s) ?_ (State.works_testEnding i _)
    split
    · rename_i h
      simp only [Bool.and_eq_true, beq_iff_eq] at h
      exact (State.steady_modRing i _ s (Ring.inner_endDrainWait _ h.2)).works
    · exact Works.refl s
  · exact Works.refl s
  · exact Works.refl s

theorem State.works_leave (who : Option Nat) (s : State) : Works s (s.leave who) := by
  unfold State.leave
  split
  · exact Works.refl s
  · split
    · exact Works.refl s
    · exact (State.steady_removeHeld _ s).works.trans (State.works_afterDeparture _ _)

/-! ### Commits at a close -/

theorem State.steady_applyPending (i : RingId) (s : State) : Steady s (s.applyPending i) := by
  unfold State.applyPending
  dsimp only
  split
  · exact State.steady_modRing i _ s (Ring.inner_loseCommit _ _)
  · split
    · exact State.steady_modRing i _ s (Ring.inner_loseCommit _ _)
    · exact (State.steady_modRing i _ s (Ring.inner_applyCommit _)).trans
        ((State.steady_askReexam _).trans (State.steady_noteChange _))

theorem State.steady_applyIfPending (i : RingId) (s : State) : Steady s (s.applyIfPending i) := by
  unfold State.applyIfPending
  split
  · exact State.steady_applyPending i s
  · exact Steady.refl s

end Sys2Proof.Machine
end

