-- ==== Sys2Proof/Laws/Decide.lean ====
section
/-! SUPPORT. The close procedure, the decisions of the two sides and the decode, as work within an event (`Works`). -/

namespace Sys2Proof.Machine

/-! ### Closing -/

theorem State.works_closeSlot (i : RingId) (c : CloseCause) (s : State) :
    Works s (s.closeSlot i c) ∧ ((s.closeSlot i c).ring i).runState = (s.ring i).runState ∧
      ((s.closeSlot i c).ring i).fillSub = (s.ring i).fillSub ∧ ((s.closeSlot i c).ring i).fillSlot = none := by
  unfold State.closeSlot
  split
  · rename_i h
    exact ⟨Works.refl s, rfl, rfl, h⟩
  · rename_i k h
    have w := State.works_modRing i _ s (Ring.kin_closeInto c k _ h)
    have g : Steady (s.modRing i (Ring.closeInto c k))
        ((((s.modRing i (Ring.closeInto c k)).settleRing i).grantRecords).noteChange) :=
      (State.steady_settleRing i _).trans ((State.steady_grantRecords _).trans (State.steady_noteChange _))
    have r := g.rings i
    rw [State.ring_modRing_self] at r
    exact ⟨w.trans g.works, r.runState, r.fillSub, r.fillSlot⟩

theorem State.works_endFill (i : RingId) (also : Option Nat) (s : State) (h : (s.ring i).runState ≠ .idle) :
    Works s (s.endFill i also) ∧ ((s.endFill i also).ring i).fillSub = .closed := by
  have w := State.works_modRing i _ s (Ring.kin_endFill _ h)
  have g : Works (s.modRing i Ring.endFill) (s.endFill i also) := by
    unfold State.endFill
    dsimp only
    refine Works.trans (State.steady_answerHeld (fun x => x.reason == .fillWait i || some x.order == also) .fillClosed i _).works ?_
    split
    · exact (State.works_releaseSlot i _).trans (State.steady_askReexam _).works
    · exact (State.steady_askReexam _).works
  refine ⟨w.trans g, (g.rings i).closed ?_⟩
  rw [State.ring_modRing_self]
  rfl

theorem State.ring_takeFree (i : RingId) (s : State) : ((s.takeFree i).ring i).runState = (s.ring i).runState := by
  have h : ∀ r : Ring, r.fillTake.runState = r.runState := by
    intro r; unfold Ring.fillTake; split <;> rfl
  unfold State.takeFree
  split
  · dsimp only
    split <;> simp [h]
  · rfl

theorem Ring.runState_emptyFill (r : Ring) : r.emptyFill.runState = r.runState := rfl

/-- Steps 4 and 5 of a close, where a slot has left the fill side and none has been taken (02 R34, R35). -/
theorem State.works_finishClose (i : RingId) (s : State) (hf : (s.ring i).fillSub = .filling)
    (hs : (s.ring i).fillSlot = none) :
    Works s (s.finishClose i) ∧ ((s.finishClose i).ring i).runState = (s.ring i).runState := by
  have d := State.steady_applyIfPending i s
  have di := d.rings i
  have ef := State.works_modRing i Ring.emptyFill (s.applyIfPending i)
    (Ring.kin_emptyFill _ (Or.inr ⟨by rw [di.fillSub, hf]; decide, by rw [di.fillSlot, hs]⟩))
  have tf := State.works_takeFree i ((s.applyIfPending i).modRing i Ring.emptyFill)
  refine ⟨d.works.trans ((ef.trans tf).trans ((State.steady_askReexam _).trans (State.steady_noteChange _)).works), ?_⟩
  unfold State.finishClose
  rw [State.ring_noteChange, State.ring_askReexam]
  unfold State.nextFillSlot
  rw [State.ring_takeFree, State.ring_modRing_self]
  exact (Ring.runState_emptyFill _).trans di.runState

/-- The close procedure on a fill side that is FILLING in RUNNING: it ends with the ring RUNNING or the fill side CLOSED. -/
theorem State.works_closeFrame (i : RingId) (c : CloseCause) (also : Option Nat) (s : State)
    (hr : (s.ring i).runState = .running) (hf : (s.ring i).fillSub = .filling) :
    Works s (s.closeFrame i c also) ∧
      (((s.closeFrame i c also).ring i).runState = .running ∨ ((s.closeFrame i c also).ring i).fillSub = .closed) := by
  obtain ⟨w, a1, a2, a3⟩ := State.works_closeSlot i c s
  have b := State.steady_modRing i Ring.spendBudget (s.closeSlot i c) (Ring.inner_spendBudget _)
  have bi := b.rings i
  unfold State.closeFrame
  dsimp only
  split
  · obtain ⟨e1, e2⟩ := State.works_endFill i also ((s.closeSlot i c).modRing i Ring.spendBudget)
      (by rw [bi.runState, a1, hr]; decide)
    have e3 := State.works_testEnding i (((s.closeSlot i c).modRing i Ring.spendBudget).endFill i also)
    exact ⟨(w.trans b.works).trans (e1.trans e3), Or.inr ((e3.rings i).closed e2)⟩
  · obtain ⟨f, fr⟩ := State.works_finishClose i ((s.closeSlot i c).modRing i Ring.spendBudget)
      (bi.fillSub.trans (a2.trans hf)) (bi.fillSlot.trans a3)
    exact ⟨(w.trans b.works).trans f, Or.inl (fr.trans (bi.runState.trans (a1.trans hr)))⟩

/-! ### Departures -/

theorem State.ring_testEnding (i j : RingId) (s : State) (h : (s.ring j).runState = .running) :
    (s.testEnding i).ring j = s.ring j := by
  unfold State.testEnding
  split
  · rename_i e
    simp only [State.endingDone, Bool.and_eq_true, beq_iff_eq] at e
    have : j ≠ i := fun x => by subst x; simp [h] at e
    rw [State.ring_askReexam, State.ring_modRing_ne _ _ _ _ this]
  · rfl

theorem State.ring_afterDeparture (r : Reason) (i : RingId) (s : State) (hr : (s.ring i).runState = .running)
    (hf : (s.ring i).fillSub = .filling) :
    ((s.afterDeparture r).ring i).runState = .running ∧ ((s.afterDeparture r).ring i).fillSub = .filling := by
  have other : ∀ (j : RingId) (f : Ring → Ring), i ≠ j →
      ((s.modRing j f).ring i).runState = .running ∧ ((s.modRing j f).ring i).fillSub = .filling := by
    intro j f e
    rw [State.ring_modRing_ne _ _ _ _ e]
    exact ⟨hr, hf⟩
  have key : ∀ (j : RingId) (t : State), (t.ring i).runState = .running ∧ (t.ring i).fillSub = .filling →
      ((t.testEnding j).ring i).runState = .running ∧ ((t.testEnding j).ring i).fillSub = .filling := by
    intro j t a
    rw [State.ring_testEnding j i t a.1]
    exact a
  cases r with
  | order => exact ⟨hr, hf⟩
  | table => exact ⟨hr, hf⟩
  | fillWait j =>
    simp only [State.afterDeparture]
    split
    · rename_i h
      simp only [Bool.and_eq_true, beq_iff_eq] at h
      refine other j _ (fun e => ?_)
      rw [← e, hf] at h
      exact absurd h.2 (by decide)
    · exact ⟨hr, hf⟩
  | drainWait j =>
    simp only [State.afterDeparture]
    refine key j _ ?_
    split
    · by_cases e : i = j
      · rw [← e, State.ring_modRing_self]
        exact ⟨hr, hf⟩
      · exact other j _ e
    · exact ⟨hr, hf⟩

/-- A departure leaves a FILLING side of a RUNNING ring FILLING and RUNNING. -/
theorem State.ring_leave (who : Option Nat) (i : RingId) (s : State) (hr : (s.ring i).runState = .running)
    (hf : (s.ring i).fillSub = .filling) :
    ((s.leave who).ring i).runState = .running ∧ ((s.leave who).ring i).fillSub = .filling := by
  unfold State.leave
  split
  · exact ⟨hr, hf⟩
  · split
    · exact ⟨hr, hf⟩
    · rename_i k _ h _
      have hr' : ((s.removeHeld k).ring i).runState = .running := hr
      have hf' : ((s.removeHeld k).ring i).fillSub = .filling := hf
      generalize s.removeHeld k = u at hr' hf'
      exact State.ring_afterDeparture _ i u hr' hf'

/-! ### The write decision -/

theorem State.works_limitClose (i : RingId) (s : State) (hr : (s.ring i).runState = .running)
    (hf : (s.ring i).fillSub = .filling) : Works s (s.limitClose i) := by
  unfold State.limitClose
  dsimp only
  split
  · exact (State.works_closeFrame i _ _ s hr hf).1
  · split
    · exact (State.works_closeFrame i _ _ s hr hf).1
    · exact Works.refl s

theorem State.works_acceptFill (who : Option Nat) (i : RingId) (k : SlotId) (t : DownTag) (q : Request) (s : State)
    (hr : (s.ring i).runState = .running) (hf : (s.ring i).fillSub = .filling) : Works s (s.acceptFill who i k t q) := by
  unfold State.acceptFill
  dsimp only
  have a := (State.steady_grant t (.fill i k q.initiator q.tag) s).trans
    (State.steady_sendDown ⟨t, q.initiator, q.tag, translate ((s.ring i).slot k).base ((s.ring i).fillOffset q), q.payload⟩ _)
  have b := a.trans (State.steady_modRing i _ _ (Ring.inner_acceptWrite q k _))
  have bi := b.rings i
  obtain ⟨c1, c2⟩ := State.ring_leave who i _ (bi.runState.trans hr) (bi.fillSub.trans hf)
  exact b.works.trans ((State.works_leave who _).trans (State.works_limitClose i _ c1 c2))

theorem State.works_placeWrite (who : Option Nat) (i : RingId) (q : Request) (s : State)
    (hr : (s.ring i).runState = .running) (hf : (s.ring i).fillSub = .filling) : Works s (s.placeWrite who i q).1 := by
  unfold State.placeWrite
  split
  · exact State.works_acceptFill who i _ _ q s hr hf
  · exact Works.refl s

theorem State.works_refuseAnswer (who : Option Nat) (q : Request) (c : RefusalCause) (i : RingId) (s : State) :
    Works s (s.refuseAnswer who q c i).1 :=
  (State.steady_refuse q c i s).works.trans (State.works_leave who _)

theorem State.works_reclaimHead (i : RingId) (s : State) (h : (s.ring i).fillSub = .noSlot ∨ (s.ring i).fillSub = .waiting) :
    Works s (s.reclaimHead i) :=
  (State.works_modRing i _ s (Ring.kin_reclaim _ h)).trans
    ((State.steady_settleRing i _).trans ((State.steady_grantRecords _).trans (State.steady_noteChange _))).works

theorem Ring.reclaim_facts (r : Ring) (h : r.headSettled = true) :
    r.reclaim.runState = r.runState ∧ r.reclaim.fillSub = .filling := by
  unfold Ring.reclaim
  split
  · rename_i e
    simp [Ring.headSettled, e] at h
  · dsimp only
    split <;> exact ⟨rfl, rfl⟩

theorem State.works_overrun (who : Option Nat) (i : RingId) (q : Request) (s : State)
    (hr : (s.ring i).runState = .running) (h : (s.ring i).fillSub = .noSlot ∨ (s.ring i).fillSub = .waiting) :
    Works s (s.overrun who i q).1 := by
  unfold State.overrun
  dsimp only
  split
  · exact ((State.steady_modRing i _ s (Ring.inner_dropWrite _)).trans (State.steady_respond _ _ _ _ _)).works.trans
      (State.works_leave who _)
  · split
    · rename_i hs
      simp only [Bool.and_eq_true] at hs
      obtain ⟨f1, f2⟩ := Ring.reclaim_facts _ hs.2
      have g := ((State.steady_settleRing i (s.modRing i Ring.reclaim)).trans
        ((State.steady_grantRecords _).trans (State.steady_noteChange _))).rings i
      rw [State.ring_modRing_self] at g
      exact (State.works_reclaimHead i s h).trans
        (State.works_placeWrite who i q _ (g.runState.trans (f1.trans hr)) (g.fillSub.trans f2))
    · exact State.works_modRing i _ s (Ring.kin_fillStall _ hr)

theorem State.works_decideAfterOverflow (who : Option Nat) (i : RingId) (q : Request) (s : State)
    (h : (s.ring i).runState = .running ∨ (s.ring i).fillSub = .closed) : Works s (s.decideAfterOverflow who i q).1 := by
  unfold State.decideAfterOverflow
  split
  · rename_i e
    exact State.works_placeWrite who i q s (by rcases h with h | h; exact h; rw [e] at h; cases h) e
  · rename_i e
    exact State.works_overrun who i q s (by rcases h with h | h; exact h; rw [e] at h; cases h) (Or.inl e)
  · rename_i e
    exact State.works_overrun who i q s (by rcases h with h | h; exact h; rw [e] at h; cases h) (Or.inr e)
  · split
    · exact Works.refl s
    · exact State.works_refuseAnswer who q _ i s

theorem State.works_decideWrite (who : Option Nat) (i : RingId) (q : Request) (s : State)
    (hr : (s.ring i).runState = .running) : Works s (s.decideWrite who i q).1 := by
  unfold State.decideWrite
  split
  · exact State.works_refuseAnswer who q _ i s
  · split
    · rename_i h
      simp only [Ring.writeOverflows, Bool.and_eq_true, beq_iff_eq] at h
      obtain ⟨w, f⟩ := State.works_closeFrame i .full who s hr h.1
      exact w.trans (State.works_decideAfterOverflow who i q _ f)
    · exact State.works_decideAfterOverflow who i q s (Or.inl hr)

/-! ### The read decision -/

theorem State.works_acceptDrain (who : Option Nat) (i : RingId) (d : SlotId) (t : DownTag) (q : Request) (s : State) :
    Works s (s.acceptDrain who i d t q) := by
  unfold State.acceptDrain
  dsimp only
  have a := (State.steady_grant t (.drain i d q.initiator q.tag) s).trans
    (State.steady_sendDown ⟨t, q.initiator, q.tag, translate ((s.ring i).slot d).base ((s.ring i).drainOffset q), q.payload⟩ _)
  have b := a.trans (State.steady_modRing i _ _ (Ring.inner_acceptRead q d _))
  refine b.works.trans ((State.works_leave who _).trans ?_)
  unfold State.limitRelease
  dsimp only
  split
  · exact State.works_trigger i _
  · exact Works.refl _

theorem State.works_decideRead (who : Option Nat) (i : RingId) (q : Request) (s : State) (h : (s.ring i).moves = true) :
    Works s (s.decideRead who i q).1 := by
  unfold State.decideRead
  dsimp only
  split
  · exact State.works_refuseAnswer who q _ i s
  · split
    · unfold State.placeRead
      split
      · exact State.works_refuseAnswer who q _ i s
      · split
        · exact State.works_acceptDrain who i _ _ q s
        · exact Works.refl s
    · split
      · exact State.works_refuseAnswer who q _ i s
      · unfold State.underrun
        dsimp only
        split
        · exact ((State.steady_modRing i _ s (Ring.inner_patternAnswer _)).trans
            (State.steady_respond _ _ _ _ _)).works.trans (State.works_leave who _)
        · exact (State.steady_modRing i _ s (Ring.inner_drainStall _ h)).works

/-! ### The decode -/

theorem State.matchRequest_notIdle {q : Request} {s : State} {i : RingId} {side : Side}
    (h : s.matchRequest q = .lies i side) : (s.ring i).runState ≠ .idle := by
  have hm : ∀ a ∈ s.decodedApertures, (s.ring a.1).runState ≠ .idle := by
    intro a ha
    simp only [State.decodedApertures, List.mem_flatMap, List.mem_filter] at ha
    obtain ⟨j, ⟨_, hj⟩, ha⟩ := ha
    simp only [Ring.notIdle, bne_iff_ne, ne_eq] at hj
    simp only [List.mem_cons, List.not_mem_nil, or_false] at ha
    rcases ha with rfl | rfl <;> exact hj
  unfold State.matchRequest at h
  dsimp only at h
  split at h
  · rename_i a ha
    cases h
    have := List.mem_of_find?_eq_some ha
    exact hm a (List.mem_filter.mp this).1
  · split at h <;> cases h

theorem State.works_decode (who : Option Nat) (q : Request) (s : State) : Works s (s.decode who q).1 := by
  unfold State.decode
  split
  · exact State.works_refuseAnswer who q _ _ s
  · rename_i i side hm
    have hi := State.matchRequest_notIdle hm
    unfold State.decodeInside
    split <;> first
      | exact State.works_refuseAnswer who q _ _ s
      | (rename_i e1 e2 e3 e4
         refine State.works_decideWrite who _ q s ?_
         cases hrs : (s.ring i).runState <;> simp_all)
      | (refine State.works_decideRead who _ q s ?_
         cases hrs : (s.ring i).runState <;> simp_all [Ring.moves])
  · unfold State.decodeOutside
    split
    · exact (State.steady_modRing _ _ s (Ring.inner_count _ _ (by decide))).works.trans (State.works_refuseAnswer who q _ _ _)
    · unfold State.passThrough
      split
      · exact Works.refl s
      · exact ((State.steady_grant _ _ s).trans (State.steady_sendDown _ _)).works.trans (State.works_leave who _)

end Sys2Proof.Machine
end

