-- ==== Sys2Proof/Laws/Walk.lean ====
section
/-! SUPPORT. Re-examination, arrival and the end of an event: `Flow s t` says once what they keep, and `State.quiet_finish`
what holds when an event has ended. -/

namespace Sys2Proof.Machine

/-- What an event keeps from any point in it to its end: `Work` without the hold queue's content and the requests that
wait, with the two properties of the hold queue in their place. -/
structure Flow (s t : State) : Prop where
  resetLow : t.resetLow = s.resetLow
  stray : t.stray = s.stray
  edges : t.edges = s.edges
  levels : t.levels = s.levels
  globalMask : t.globalMask = s.globalMask
  result : t.result = s.result
  port : t.port = s.port
  choices : t.choices = s.choices
  pending : t.pending = s.pending
  bounded : s.holdBounded → t.holdBounded
  ordered : s.holdOrdered → t.holdOrdered
  refusal : s.refusalSound → t.refusalSound
  record : ∀ x, s.refusal = some x → t.refusal = some x
  globalAttn : s.globalAttn = true → t.globalAttn = true
  sent : s.sent <+: t.sent
  rings : ∀ i, (s.ring i).Kin (t.ring i)

theorem Flow.refl (s : State) : Flow s s :=
  ⟨rfl, rfl, rfl, rfl, rfl, rfl, rfl, rfl, rfl, id, id, id, fun _ h => h, id, List.prefix_refl _, fun _ => Ring.Kin.refl _⟩

theorem Flow.trans {s t u : State} (h : Flow s t) (g : Flow t u) : Flow s u :=
  ⟨g.resetLow.trans h.resetLow, g.stray.trans h.stray, g.edges.trans h.edges, g.levels.trans h.levels,
    g.globalMask.trans h.globalMask, g.result.trans h.result, g.port.trans h.port, g.choices.trans h.choices,
    g.pending.trans h.pending, g.bounded ∘ h.bounded, g.ordered ∘ h.ordered, g.refusal ∘ h.refusal,
    fun x y => g.record x (h.record x y), g.globalAttn ∘ h.globalAttn, h.sent.trans g.sent,
    fun i => (h.rings i).trans (g.rings i)⟩

/-- A hold queue that lost entries keeps its order. -/
theorem State.holdOrdered_sublist {s t : State} (h : t.hold.Sublist s.hold) (n : s.nextOrder ≤ t.nextOrder)
    (p : s.holdOrdered) : t.holdOrdered := by
  obtain ⟨a, b, c⟩ := p
  refine ⟨a.sublist h, fun x hx => lt_of_lt_of_le (b x (h.subset hx)) n, fun x hx r g hg => ?_⟩
  exact c x (h.subset hx) r g (h.subset hg)

theorem Works.flow {s t : State} (h : Works s t) : Flow s t :=
  ⟨h.resetLow, h.stray, h.edges, h.levels, h.globalMask, h.result, h.port, h.choices, h.pending,
    fun p => le_trans h.hold.length_le p, State.holdOrdered_sublist h.hold (le_of_eq h.nextOrder.symm), h.refusal, h.record,
    h.globalAttn, h.sent, h.rings⟩

theorem Steady.flow {s t : State} (h : Steady s t) : Flow s t := h.works.flow

/-! ### Joining the queue and changing a reason -/

/-- The queue with an entry of a given reason at its tail. -/
theorem State.holdOrdered_join (q : Request) (r : Reason) (s : State)
    (h : r ≠ .order → s.hold.any (fun g => g.request.initiator == q.initiator) = false) (p : s.holdOrdered) :
    (s.join q r).holdOrdered := by
  obtain ⟨a, b, c⟩ := p
  refine ⟨?_, ?_, ?_⟩
  · show (s.hold ++ [Held.mk s.nextOrder q r]).Pairwise _
    rw [List.pairwise_append]
    exact ⟨a, List.pairwise_singleton _ _, fun x hx y hy => by simp at hy; subst hy; exact b x hx⟩
  · intro x hx
    show x.order < s.nextOrder + 1
    have hx : x ∈ s.hold ++ [Held.mk s.nextOrder q r] := hx
    simp only [List.mem_append, List.mem_singleton] at hx
    rcases hx with hx | rfl
    · exact Nat.lt_succ_of_lt (b x hx)
    · exact Nat.lt_succ_self _
  · intro x hx rx g hg o
    have hx : x ∈ s.hold ++ [Held.mk s.nextOrder q r] := hx
    have hg : g ∈ s.hold ++ [Held.mk s.nextOrder q r] := hg
    simp only [List.mem_append, List.mem_singleton] at hx hg
    rcases hx with hx | rfl
    · rcases hg with hg | rfl
      · exact c x hx rx g hg o
      · have := b x hx
        simp only at o
        omega
    · rcases hg with hg | rfl
      · have := h rx
        rw [List.any_eq_false] at this
        simpa using this g hg
      · simp at o

/-- A reason changed in one entry; every other entry keeps its order and its request. -/
theorem Flow.setReason {s0 s : State} (f : Flow s0 s) (k : Nat) (r : Reason)
    (h : r ≠ .order → s0.holdOrdered → ∀ x ∈ s.hold, x.order = k → ∀ g ∈ s.hold, g.order < x.order →
      g.request.initiator ≠ x.request.initiator) : Flow s0 (s.setReason k r) := by
  unfold State.setReason
  split
  · exact f
  · split
    · exact f
    · refine { f with bounded := fun p => ?_, ordered := fun p => ?_ }
      · show (s.hold.map _).length ≤ _
        rw [List.length_map]
        exact f.bounded p
      · have p' := p
        replace p := f.ordered p
        obtain ⟨a, b, c⟩ := p
        refine ⟨?_, ?_, ?_⟩
        · show (s.hold.map _).Pairwise _
          rw [List.pairwise_map]
          refine a.imp ?_
          intro x y hxy
          split <;> split <;> exact hxy
        · intro x hx
          obtain ⟨y, hy, rfl⟩ := List.mem_map.mp hx
          have := b y hy
          split <;> exact this
        · intro x hx rx g hg o
          obtain ⟨y, hy, rfl⟩ := List.mem_map.mp hx
          obtain ⟨z, hz, rfl⟩ := List.mem_map.mp hg
          have e1 : (if y.order == k then { y with reason := r } else y).order = y.order := by split <;> rfl
          have e2 : (if z.order == k then { z with reason := r } else z).order = z.order := by split <;> rfl
          have f1 : (if y.order == k then { y with reason := r } else y).request = y.request := by split <;> rfl
          have f2 : (if z.order == k then { z with reason := r } else z).request = z.request := by split <;> rfl
          rw [e1, e2] at o
          rw [f1, f2]
          by_cases hk : y.order = k
          · rw [if_pos (by simpa using hk)] at rx
            exact h rx p' y hy hk z hz o
          · rw [if_neg (by simpa using hk)] at rx
            exact c y hy rx z hz o

/-! ### A visit, a walk, a re-examination -/

theorem State.flow_visit (k : Nat) (s : State) : Flow s (s.visit k) := by
  unfold State.visit
  split
  · exact Flow.refl s
  · rename_i h hk
    split
    · exact (Flow.refl s).setReason k .order (fun x => absurd rfl x)
    · rename_i nb
      have w := State.works_decode (some k) h.request s
      split
      · rename_i t e
        rw [e] at w
        exact w.flow
      · rename_i t r e
        rw [e] at w
        refine w.flow.setReason k r (fun _ p x hx ox g hg o => ?_)
        have hs : h ∈ s.hold := List.mem_of_find?_eq_some hk
        have ho : h.order = k := by
          have := List.find?_some hk
          simpa using this
        have same : x = h := List.Pairwise.forall_of_forall_of_flip (R := fun a b : Held => a.order = b.order → a = b)
          (l := s.hold) (fun _ _ _ => rfl) (p.1.imp (fun {a b} l e => by omega))
          (p.1.imp (fun {a b} l e => by simp only at *; omega)) (w.hold.subset hx) hs (ox.trans ho.symm)
        subst same
        intro i
        apply nb
        simp only [State.blocked, List.any_eq_true, Bool.and_eq_true, decide_eq_true_eq, beq_iff_eq]
        exact ⟨g, w.hold.subset hg, o, i⟩

theorem State.flow_walk (s : State) : Flow s s.walk := by
  have go : ∀ (ks : List Nat) (t : State), Flow t (ks.foldl (fun t k => (t.visit k).grantRecords) t) := by
    intro ks
    induction ks with
    | nil => intro t; exact Flow.refl t
    | cons k ks ih => intro t; exact ((State.flow_visit k t).trans (State.steady_grantRecords _).flow).trans (ih _)
  exact go _ s

theorem State.flow_walks (n : Nat) (s : State) : Flow s (State.walks n s) := by
  induction n generalizing s with
  | zero => exact (State.steady_calm s).flow
  | succ n ih =>
    unfold State.walks
    dsimp only
    have w := (State.steady_calm s).flow.trans (State.flow_walk s.calm)
    split
    · exact w.trans (ih _)
    · exact w

theorem State.flow_reexamine (s : State) : Flow s s.reexamine := by
  unfold State.reexamine
  split
  · exact State.flow_walks _ s
  · exact (State.steady_calm s).flow

/-! ### Arrival, acceptance and the end of an event -/

/-- An arrival at a port with a free hold entry. -/
theorem State.flow_arrive (q : Request) (s : State) (room : s.upstreamReady = true) : Flow s (s.arrive q) := by
  have hr : s.hold.length < Config.holdCapacity := by
    simp only [State.upstreamReady, Bool.and_eq_true, decide_eq_true_eq] at room
    exact room.2
  have joins : ∀ (t : State) (r : Reason), Works s t →
      (r ≠ .order → s.hold.any (fun g => g.request.initiator == q.initiator) = false) → Flow s (t.join q r) := by
    intro t r w h
    refine { w.flow with bounded := fun _ => ?_, ordered := fun p => ?_ }
    · show (t.hold ++ [_]).length ≤ _
      rw [List.length_append, List.length_singleton]
      have := w.hold.length_le
      omega
    · refine State.holdOrdered_join q r t (fun x => ?_) (w.flow.ordered p)
      have := h x
      rw [List.any_eq_false] at this ⊢
      exact fun g hg => this g (w.hold.subset hg)
  have handled : Flow s (if s.hold.any (fun h => h.request.initiator == q.initiator) then s.join q .order
      else match s.decode none q with
        | (t, .done) => t
        | (t, .hold r) => t.join q r) := by
    split
    · exact joins s .order (Works.refl s) (fun x => absurd rfl x)
    · rename_i nh
      have w := State.works_decode none q s
      split
      · rename_i t e
        rw [e] at w
        exact w.flow
      · rename_i t r e
        rw [e] at w
        exact joins t r w (fun _ => by simpa using nh)
  exact handled.trans ((State.steady_grantRecords _).flow.trans (State.flow_reexamine _))

theorem State.flow_acceptFrom (qs : List Request) (s : State) : Flow s (State.acceptFrom qs s) := by
  induction qs generalizing s with
  | nil => exact { Flow.refl s with }
  | cons q qs ih =>
    unfold State.acceptFrom
    split
    · rename_i h
      have w : Flow s { s with waiting := qs } := { Flow.refl s with }
      exact (w.trans (State.flow_arrive q { s with waiting := qs } h)).trans (ih _)
    · exact { Flow.refl s with }

theorem State.flow_finish (s : State) : Flow s s.finish :=
  ((State.steady_grantRecords s).flow.trans (State.flow_reexamine _)).trans (State.flow_acceptFrom _ _)

/-! ### What holds when an event has ended -/

/-- No free entry stands beside an offered record (09 R155). -/
def State.granted (s : State) : Bool := s.freeTag?.isNone || !s.anyOffer

/-- The free entries of the table. -/
def State.freeEntries (s : State) : Nat := (allTags.filter (fun t => s.table[t].isNone)).length

theorem State.freeTag?_none {s : State} (h : s.freeEntries = 0) : s.freeTag? = none := by
  unfold State.freeEntries at h
  unfold State.freeTag?
  rw [List.find?_eq_none]
  intro t ht hn
  have : t ∈ allTags.filter (fun t => s.table[t].isNone) := List.mem_filter.mpr ⟨ht, hn⟩
  rw [List.length_eq_zero_iff.mp h] at this
  simp at this

theorem State.freeTag?_mem {s : State} {t : DownTag} (h : s.freeTag? = some t) : s.table[t] = none := by
  have := List.find?_some h
  simpa using this

theorem allTags_complete : ∀ t : DownTag, t ∈ allTags := by decide

theorem State.freeEntries_grant (t : DownTag) (e : Entry) (s : State) (h : s.table[t] = none) :
    (s.grant t e).freeEntries < s.freeEntries := by
  unfold State.freeEntries
  have e1 : allTags.filter (fun u => (s.grant t e).table[u].isNone) =
      (allTags.filter (fun u => s.table[u].isNone)).filter (fun u => u != t) := by
    rw [List.filter_filter]
    apply List.filter_congr
    intro u _
    simp only [State.grant, Fin.getElem_fin, Vector.getElem_set]
    by_cases ut : u = t
    · subst ut; simp
    · have : ¬ t.val = u.val := fun x => ut (Fin.ext x.symm)
      simp [this, ut]
  rw [e1]
  apply List.length_filter_lt_length_iff_exists.mpr
  exact ⟨t, List.mem_filter.mpr ⟨allTags_complete t, by simp [h]⟩, by simp⟩

theorem State.grantRecord?_none {s : State} (h : s.grantRecord? = none) : s.granted = true := by
  unfold State.grantRecord? at h
  unfold State.granted
  cases ht : s.freeTag? with
  | none => rfl
  | some t =>
    simp only [ht] at h
    cases hi : s.offeringRing? with
    | none =>
      simp only [State.offeringRing?, State.recordOrder, List.find?_eq_none] at hi
      have all : ∀ i : RingId, (s.ring i).offers = false := by
        intro i
        have : i ∈ [s.rrLast + 1, s.rrLast + 2, s.rrLast + 3, s.rrLast] := by
          generalize s.rrLast = j
          revert i j
          decide
        simpa using hi i this
      have : s.anyOffer = false := by
        unfold State.anyOffer
        rw [List.any_eq_false]
        intro r hr
        obtain ⟨k, hk, rfl⟩ := List.mem_iff_getElem.mp hr
        have hk' : k < 4 := by simpa using hk
        have := all ⟨k, hk'⟩
        simpa [State.ring] using this
      simp [this]
    | some i =>
      simp only [hi] at h
      cases hx : (s.ring i).records with
      | cons x rest => simp [hx] at h
      | nil =>
        have := List.find?_some hi
        simp [Ring.offers, hx] at this

theorem State.granted_grantRecordsUpTo (n : Nat) (s : State) (h : s.freeEntries ≤ n) :
    (State.grantRecordsUpTo n s).granted = true := by
  induction n generalizing s with
  | zero =>
    have := State.freeTag?_none (Nat.le_zero.mp h)
    simp [State.grantRecordsUpTo, State.granted, this]
  | succ n ih =>
    unfold State.grantRecordsUpTo
    split
    · rename_i e
      exact State.grantRecord?_none e
    · rename_i i t e
      apply ih
      unfold State.grantRecord? at e
      split at e
      · rename_i u j hu _
        split at e
        · rename_i x rest _
          simp only [Option.some.injEq, Prod.mk.injEq] at e
          obtain ⟨_, rfl⟩ := e
          have lt := State.freeEntries_grant u (.record j x.slot x.kind) s (State.freeTag?_mem hu)
          exact Nat.le_of_lt_succ (lt_of_lt_of_le lt h)
        · cases e
      · cases e

theorem State.granted_grantRecords (s : State) : s.grantRecords.granted = true := by
  apply State.granted_grantRecordsUpTo
  unfold State.freeEntries
  exact le_trans (List.length_filter_le _ _) (by decide)

theorem State.granted_walk (s : State) (h : s.granted = true) : s.walk.granted = true := by
  unfold State.walk
  induction s.hold.map Held.order using List.reverseRecOn with
  | nil => exact h
  | append_singleton ks k _ =>
    rw [List.foldl_append]
    exact State.granted_grantRecords _

/-- Nothing is left for a walk or the record tier to do. -/
def State.rested (s : State) : Bool := !s.reexamAsked && !s.walkChanged && s.granted

theorem State.rested_calm (s : State) (h : s.granted = true) : s.calm.rested = true := by
  simp only [State.rested, State.reexamAsked_calm, State.walkChanged_calm, Bool.not_false, Bool.true_and]
  exact h

theorem State.rested_walks (n : Nat) (s : State) (h : s.granted = true) : (State.walks n s).rested = true := by
  induction n generalizing s with
  | zero => exact State.rested_calm s h
  | succ n ih =>
    have g : s.calm.walk.granted = true := State.granted_walk s.calm h
    unfold State.walks
    dsimp only
    split
    · exact ih _ g
    · rename_i e
      simp only [Bool.or_eq_true, not_or, Bool.not_eq_true] at e
      simp [State.rested, e.1, e.2, g]

theorem State.rested_reexamine (s : State) (h : s.granted = true) : s.reexamine.rested = true := by
  unfold State.reexamine
  split
  · exact State.rested_walks _ s h
  · exact State.rested_calm s h

theorem State.rested_arrive (q : Request) (s : State) : (s.arrive q).rested = true :=
  State.rested_reexamine _ (State.granted_grantRecords _)

theorem State.quiet_acceptFrom (qs : List Request) (s : State) (h : s.rested = true) :
    (State.acceptFrom qs s).quiet = true := by
  induction qs generalizing s with
  | nil =>
    simp only [State.rested, Bool.and_eq_true, Bool.not_eq_true', State.granted] at h
    simp only [State.quiet, Bool.and_eq_true, Bool.not_eq_true']
    exact ⟨⟨⟨h.1.1, h.1.2⟩, h.2⟩, rfl⟩
  | cons q qs ih =>
    unfold State.acceptFrom
    split
    · exact ih _ (State.rested_arrive q _)
    · rename_i nr
      simp only [State.rested, Bool.and_eq_true, Bool.not_eq_true', State.granted] at h
      simp only [State.quiet, Bool.and_eq_true, Bool.not_eq_true']
      exact ⟨⟨⟨h.1.1, h.1.2⟩, h.2⟩, by
        simp only [Bool.not_eq_true] at nr
        show ((q :: qs).isEmpty || !s.upstreamReady) = true
        simp [nr]⟩

/-- An event leaves nothing to do (09 R147, R151, R155). -/
theorem State.quiet_finish (s : State) : s.finish.quiet = true :=
  State.quiet_acceptFrom _ _ (State.rested_reexamine _ (State.granted_grantRecords _))

/-! ### An event that leaves nothing to do -/

theorem State.grantRecords_of_granted (s : State) (h : s.granted = true) : s.grantRecords = s := by
  have n : s.grantRecord? = none := by
    unfold State.grantRecord?
    unfold State.granted at h
    split
    · rename_i t i ht hi
      have o : (s.ring i).offers = true := List.find?_some (p := fun i => (s.ring i).offers) hi
      have a : s.anyOffer = true := by
        unfold State.anyOffer
        rw [List.any_eq_true]
        exact ⟨s.ring i, by simp [State.ring], o⟩
      simp [ht, a] at h
    · rfl
  unfold State.grantRecords State.grantRecordsUpTo
  rw [n]

/-- The end of an event with nothing left to do changes nothing. -/
theorem State.finish_of_quiet (s : State) (h : s.quiet = true) : s.finish = s := by
  simp only [State.quiet, Bool.and_eq_true, Bool.not_eq_true'] at h
  obtain ⟨⟨⟨h1, h2⟩, h3⟩, h4⟩ := h
  unfold State.finish
  rw [State.grantRecords_of_granted s h3]
  have c : s.calm = s := by
    cases s
    simp only [State.calm, State.mk.injEq, true_and, and_true]
    exact ⟨h1.symm, h2.symm⟩
  have r : s.reexamine = s := by
    unfold State.reexamine
    rw [h1, if_neg (by decide), c]
  rw [r]
  show State.acceptFrom s.waiting s = s
  cases hw : s.waiting with
  | nil =>
    show { s with waiting := [] } = s
    rw [← hw]
  | cons q qs =>
    rw [hw] at h4
    rw [State.acceptFrom, if_neg (by simpa using h4), ← hw]

end Sys2Proof.Machine
end

