-- ==== Sys2Proof/Laws/Events.lean ====
section
/-! SUPPORT. What responses, edges, expiries, the commands that a ring takes and the block's own steps keep: `Works` up to the
end of the event, or `Flow` where a re-examination stands inside. -/

namespace Sys2Proof.Machine

/-! ### FAULT, and the completions -/

theorem State.works_enterFault (i : RingId) (c : FaultCause) (s : State) (h : (s.ring i).runState ≠ .idle) :
    Works s (s.enterFault i c) :=
  (State.works_modRing i _ s (Ring.kin_enterFault c _ h)).trans
    ((State.steady_answerHeld _ _ _ _).trans (State.steady_askReexam _)).works

theorem Ring.notIdle_of_moves {r : Ring} (h : r.moves = true) : r.runState ≠ .idle := by
  intro e
  simp [Ring.moves, e] at h

theorem State.works_haltOnError (i : RingId) (c : FaultCause) (s : State) : Works s (s.haltOnError i c) := by
  unfold State.haltOnError
  split
  · rename_i h
    simp only [Bool.and_eq_true] at h
    exact State.works_enterFault i c s (Ring.notIdle_of_moves h.2)
  · exact Works.refl s

theorem State.works_testAborting (i : RingId) (s : State) : Works s (s.testAborting i) := by
  unfold State.testAborting
  split
  · rename_i h
    simp only [Bool.and_eq_true, beq_iff_eq] at h
    exact (State.works_modRing i _ s (Ring.kin_completeAbort _ h.1)).trans (State.steady_askReexam _).works
  · exact Works.refl s

/-! ### Responses -/

theorem State.works_fillResponse (i : RingId) (k : SlotId) (a : Initiator) (t : UpTag) (x : Status) (s : State) :
    Works s (s.fillResponse i k a t x) := by
  unfold State.fillResponse
  split
  · exact (State.works_countResponse i k s).trans (State.steady_respond _ _ _ _ _).works
  · exact (((State.steady_modRing i _ s (Ring.inner_noteWriteError k _)).works.trans (State.works_haltOnError i _ _)).trans
      (State.works_countResponse i k _)).trans (State.steady_respond _ _ _ _ _).works

theorem State.works_drainResponse (i : RingId) (k : SlotId) (a : Initiator) (t : UpTag) (x : Status) (b : List Byte)
    (s : State) : Works s (s.drainResponse i k a t x b) := by
  unfold State.drainResponse
  split
  · exact (State.works_countResponse i k s).trans (State.steady_respond _ _ _ _ _).works
  · exact (((State.steady_modRing i _ s (Ring.inner_noteReadError _)).works.trans (State.works_haltOnError i _ _)).trans
      (State.works_countResponse i k _)).trans (State.steady_respond _ _ _ _ _).works

theorem State.steady_recordResponse (i : RingId) (k : SlotId) (d : RecordKind) (x : Status) (s : State) :
    Steady s (s.recordResponse i k d x) := by
  have c : Steady s (match x with | .okay => s | .error => s.modRing i Ring.noteRecordError) := by
    cases x
    · exact Steady.refl s
    · exact State.steady_modRing i _ s (Ring.inner_noteRecordError _)
  cases d
  · exact (c.trans (State.steady_modRing i _ _ (Ring.inner_markAnswered k _))).trans (State.steady_settleRing i _)
  · exact c

theorem State.works_answerOwner (e : Entry) (x : Status) (b : List Byte) (s : State) : Works s (s.answerOwner e x b) := by
  cases e with
  | pass a t k => exact (State.steady_respond _ _ _ _ _).works
  | fill i k a t => exact State.works_fillResponse i k a t x s
  | drain i k a t => exact State.works_drainResponse i k a t x b s
  | record i k d => exact (State.steady_recordResponse i k d x s).works

theorem State.works_testCompletion (e : Entry) (s : State) : Works s (s.testCompletion e) := by
  unfold State.testCompletion
  split
  · exact Works.refl s
  · exact (State.works_testEnding _ s).trans (State.works_testAborting _ _)

/-- A response to an entry in use, up to the end of the event. -/
theorem State.works_response (e : Entry) (t : DownTag) (x : Status) (b : List Byte) (s : State) :
    Works s ((((s.freeEntry t).answerOwner e x b).testCompletion e).askReexam) :=
  (((State.steady_freeEntry t s).works.trans (State.works_answerOwner e x b _)).trans (State.works_testCompletion e _)).trans
    (State.steady_askReexam _).works

/-! ### Edges -/

theorem State.works_takeEvent (x : RingId × Side) (s : State) : Works s (s.takeEvent x) := by
  unfold State.takeEvent
  split
  · split
    · rename_i h
      simp only [Ring.canClose, Bool.and_eq_true, beq_iff_eq] at h
      exact (State.works_closeFrame x.1 _ _ s h.1.1 h.1.2).1
    · exact Works.refl s
  · split
    · exact State.works_trigger x.1 s
    · exact Works.refl s

/-- The order of the events of one edge is an arrangement of them. -/
theorem takeOrder_perm (n c : Nat) (todo : List (RingId × Side)) : (takeOrder n c todo).Perm todo := by
  induction n generalizing c todo with
  | zero => exact List.Perm.refl _
  | succ n ih =>
    unfold takeOrder
    split
    · rename_i x y rest
      dsimp only
      have hk : Config.freePick c % (rest.length + 2) < (x :: y :: rest).length := by
        simp only [List.length_cons]
        exact Nat.mod_lt _ (by omega)
      rw [List.getD_eq_getElem _ _ hk]
      exact (List.Perm.cons _ (ih _ _)).trans (List.getElem_cons_eraseIdx_perm hk)
    · exact List.Perm.refl _
    · exact List.Perm.refl _

theorem State.works_foldl {α : Type} (f : State → α → State) (hf : ∀ s x, Works s (f s x)) (xs : List α) (s : State) :
    Works s (xs.foldl f s) := by
  induction xs generalizing s with
  | nil => exact Works.refl s
  | cons x xs ih => exact (hf s x).trans (ih _)

/-- The events of one edge, whatever their order: the free value's counter is the only other thing that moves. -/
theorem State.works_deliver (n : LineId) (s : State) :
    Works { s with choices := s.choices + ((s.receivers n).length - 1) } (s.deliver n) :=
  State.works_foldl _ (fun s x => State.works_takeEvent x s) _ _

/-! ### START -/

theorem Ring.slot_startSlots (r : Ring) (x : Ring) (h : x.slots = Vector.ofFn r.startSlot) (k : SlotId) :
    x.slot k = r.startSlot k := by
  unfold Ring.slot
  rw [h]
  simp

theorem allSlots_count : ∀ k : SlotId, allSlots.count k = 1 := by decide

/-- The places of a ring that START has just initialised. -/
theorem Ring.places_begin (r : Ring) : r.begin.placesSound := by
  have base : ∀ x : Ring, x.slots = Vector.ofFn r.startSlot → x.active = r.active → x.freeList = r.active.usedSlots →
      x.ready = [] → x.releasing = [] → x.fillSlot = none → x.drainSlot = none → x.placesSound := by
    intro x hs ha hf hr hl h1 h2
    rw [Ring.placesSound_iff]
    intro _
    have st : ∀ k, (x.slot k).state = .free := fun k => by rw [Ring.slot_startSlots r x hs k]; rfl
    refine ⟨⟨fun k => ?_, fun k => ?_, fun k => ?_, fun k => ?_, fun k => ?_, fun k _ => st k⟩, fun _ => h1, fun _ => h2⟩
    · rw [hf, ha]
      simp only [st, true_and]
      by_cases hk : k.val < r.active.slotCount.toNat
      · rw [if_pos hk, Descriptor.usedSlots, List.count_filter (by simpa using hk)]
        exact allSlots_count k
      · rw [if_neg hk, List.count_eq_zero, Descriptor.usedSlots, List.mem_filter]
        simp [hk]
    · simp [h1, st]
    · simp [hr, st]
    · simp [h2, st]
    · simp [hl, st]
  unfold Ring.begin
  dsimp only
  refine (Ring.placesSound_iff _).mpr ?_
  generalize hx : ({ r.clearWork with
    slots := Vector.ofFn r.startSlot, freeList := r.active.usedSlots, ready := [], releasing := [], records := [],
    fillSlot := none, drainSlot := none, nextSeq := 0, budgetRemaining := r.active.budget.toNat, recordIndex := 0, lap := 0,
    counters := Counters.zero, started := true, runState := .running, fillSub := .noSlot, fillTimer := none,
    drainSub := .empty, drainTimer := none } : Ring) = x
  have px : x.placesSound := base x (by rw [← hx]) (by rw [← hx]; rfl) (by rw [← hx]) (by rw [← hx]) (by rw [← hx])
    (by rw [← hx]) (by rw [← hx])
  refine (Ring.placesSound_iff _).mp ?_
  by_cases he : x.freeList = []
  · have : x.fillTake = x := by unfold Ring.fillTake; rw [he]
    rw [this]
    exact px
  · refine (Ring.kin_fillTake x ?_).places px
    have h1 : x.fillSub = .noSlot := by rw [← hx]
    have h2 : x.runState = .running := by rw [← hx]
    simp [Ring.fillMayTake, h1, h2, he]

theorem Ring.fillTake_parts (x : Ring) : x.fillTake.shadow = x.shadow ∧ x.fillTake.mask = x.mask ∧
    x.fillTake.attention = x.attention ∧ x.fillTake.runState = x.runState ∧ x.fillTake.drainTimer = x.drainTimer ∧
    x.fillTake.commitPending = x.commitPending ∧ (x.fillTimer = none → x.fillTake.fillTimer = none) := by
  unfold Ring.fillTake
  split
  · exact ⟨rfl, rfl, rfl, rfl, rfl, rfl, id⟩
  · exact ⟨rfl, rfl, rfl, rfl, rfl, rfl, fun _ => rfl⟩

theorem Ring.runState_begin (r : Ring) : r.begin.runState = .running := (Ring.fillTake_parts _).2.2.2.1

theorem Ring.timers_begin (due : Side → Prop) (r : Ring) : r.begin.Timers due := by
  have f := Ring.fillTake_parts ({ r.clearWork with
    slots := Vector.ofFn r.startSlot, freeList := r.active.usedSlots, ready := [], releasing := [], records := [],
    fillSlot := none, drainSlot := none, nextSeq := 0, budgetRemaining := r.active.budget.toNat, recordIndex := 0, lap := 0,
    counters := Counters.zero, started := true, runState := .running, fillSub := .noSlot, fillTimer := none,
    drainSub := .empty, drainTimer := none } : Ring)
  obtain ⟨_, _, _, _, f5, _, f7⟩ := f
  exact Ring.Timers.stopped (f7 rfl) f5

/-! ### The commands that a ring takes, up to the end of the event -/

theorem State.works_stopFillSlot (i : RingId) (s : State) : Works s (s.stopFillSlot i) := by
  unfold State.stopFillSlot
  dsimp only
  split
  · split
    · exact (State.works_closeSlot i .stop s).1.trans (State.steady_modRing i _ _ (Ring.inner_spendBudget _)).works
    · exact State.works_modRing i _ s (Ring.kin_returnFillSlot _)
  · exact Works.refl s

theorem State.runState_stopFillSlot (i : RingId) (s : State) : ((s.stopFillSlot i).ring i).runState = (s.ring i).runState := by
  unfold State.stopFillSlot
  dsimp only
  split
  · split
    · have b := (State.steady_modRing i _ (s.closeSlot i .stop) (Ring.inner_spendBudget _)).rings i
      exact b.runState.trans (State.works_closeSlot i .stop s).2.1
    · rw [State.ring_modRing_self]
      unfold Ring.returnFillSlot
      split <;> rfl
  · rfl

/-- STOP of a RUNNING ring. -/
theorem State.flow_stop (i : RingId) (s : State) (h : (s.ring i).runState = .running) :
    Flow s ((((s.stopFillSlot i).endFill i none).reexamine).testEnding i) := by
  have e := (State.works_endFill i none (s.stopFillSlot i) (by rw [State.runState_stopFillSlot, h]; decide)).1
  exact (((State.works_stopFillSlot i s).trans e).flow.trans (State.flow_reexamine _)).trans (State.works_testEnding i _).flow

/-- An ABORT that has an effect. -/
theorem State.flow_abort (i : RingId) (s : State) (h : (s.ring i).runState ≠ .idle) :
    Flow s ((((s.modRing i Ring.enterAbort).answerHeld (isWaitOf i) .aborted i).askReexam).reexamine.testAborting i) :=
  (((State.works_modRing i _ s (Ring.kin_enterAbort _ h)).trans
    ((State.steady_answerHeld _ _ _ _).trans (State.steady_askReexam _)).works).flow.trans (State.flow_reexamine _)).trans
    (State.works_testAborting i _).flow

theorem Ring.kin_copyShadow (r : Ring) (h : r.runState = .idle) : r.Kin r.copyShadow := by
  unfold Ring.copyShadow
  dsimp only
  split
  · exact ⟨rfl, rfl, fun n x => addCause_grows _ _ n x, id, fun _ => id, fun _ _ => rfl, fun _ => Ring.placesSound_idle h⟩
  · exact ⟨rfl, rfl, fun n x => addCause_grows _ _ n x, id, fun _ => id, fun _ _ => rfl, fun _ => Ring.placesSound_idle h⟩

theorem Ring.kin_pendCommit (r : Ring) (h : r.moves = true) : r.Kin r.pendCommit :=
  ⟨rfl, rfl, fun _ x => x, id, fun _ => id, fun _ x => absurd (h.symm.trans x) (by decide), id⟩

/-! ### The block's own steps -/

theorem State.steady_advanceAt (i : RingId) (k : SlotId) (s : State) : Steady s (s.advanceAt i k) := by
  unfold State.advanceAt
  dsimp only
  have a := State.steady_setRing i (Ring.advanceFrom ((s.ring i).fromEntry k) ((s.ring i).stageBefore k) (s.ring i)) s
    (Ring.inner_advanceFrom _ _ _)
  split
  · exact (a.trans (State.steady_askReexam _)).trans (State.steady_takeSettled i _)
  · exact a.trans (State.steady_takeSettled i _)

/-- An event that may not take place: the state as it was, or its work and the end of the event. -/
theorem Flow.ite {s t : State} {c : Bool} (h : c = true → Flow s t) : Flow s (if c then t.finish else s) := by
  cases c
  · exact Flow.refl s
  · exact (h rfl).trans (State.flow_finish t)

theorem State.flow_issueOne (s : State) : Flow s s.issueOne := by
  unfold State.issueOne
  split
  · exact Flow.refl s
  · rename_i i t h
    exact ((State.steady_grantRecord? h).flow.trans (State.works_testEnding i t).flow).trans (State.flow_finish _)

theorem State.flow_completeRelease (i : RingId) (k : SlotId) (s : State) : Flow s (s.completeRelease i k) :=
  Flow.ite fun h => by
    simp only [Ring.releaseDone, Bool.and_eq_true, beq_iff_eq] at h
    exact ((State.works_freeReleased i k s h.1.2).trans (State.works_testEnding i _)).flow

theorem State.flow_advanceClosing (i : RingId) (k : SlotId) (s : State) : Flow s (s.advanceClosing i k) :=
  Flow.ite fun _ => (((State.steady_advanceAt i k s).trans (State.steady_grantRecords _)).works.trans
    (State.works_testEnding i _)).flow

theorem State.flow_settleRecording (i : RingId) (k : SlotId) (s : State) : Flow s (s.settleRecording i k) :=
  Flow.ite fun _ => (((State.steady_advanceAt i k s).trans (State.steady_grantRecords _)).works.trans
    (State.works_testEnding i _)).flow

theorem State.flow_applyAlone (i : RingId) (s : State) : Flow s (s.applyAlone i) :=
  Flow.ite fun h => by
    simp only [Ring.inClose, Bool.and_eq_true, beq_iff_eq, Option.isNone_iff_eq_none] at h
    exact (State.works_finishClose i s h.2.1.2 h.2.2).1.flow

theorem State.flow_completeEnding (i : RingId) (s : State) : Flow s (s.completeEnding i) :=
  Flow.ite fun _ => (State.works_testEnding i s).flow

theorem State.flow_completeAborting (i : RingId) (s : State) : Flow s (s.completeAborting i) :=
  Flow.ite fun _ => (State.works_testAborting i s).flow

theorem State.flow_reexamineNow (s : State) : Flow s s.reexamineNow := by
  unfold State.reexamineNow
  split
  · exact Flow.refl s
  · exact (State.steady_askReexam s).flow.trans (State.flow_finish _)

/-! ### Expiries and the timebase -/

theorem State.flow_faultFrom (x : RingId × Side) (s : State) (h : (s.ring x.1).moves = true) : Flow s (s.faultFrom x) :=
  (State.works_enterFault x.1 _ s (Ring.notIdle_of_moves h)).flow.trans (State.flow_finish _)

/-- Both timers of a ring that FAULT entry has stopped stay stopped to the end of the event. -/
theorem State.timers_faultFrom (x : RingId × Side) (s : State) : ((s.faultFrom x).ring x.1).timersSound := by
  rw [Ring.timersSound_iff]
  unfold State.faultFrom State.enterFault
  have a : Flow (s.modRing x.1 (Ring.enterFault (stallCause x.2))) _ :=
    (((State.steady_answerHeld (isWaitOf x.1) .ringFault x.1 _).trans (State.steady_askReexam _)).flow.trans
      (State.flow_finish _))
  refine (a.rings x.1).timers _ (Ring.Timers.stopped ?_ ?_) <;> rw [State.ring_modRing_self] <;>
    (unfold Ring.enterFault Ring.losePending; dsimp only; split <;> rfl)

theorem State.flow_expire (i : RingId) (x : Side) (s : State) : Flow s (s.expire i x) := by
  unfold State.expire
  split
  · rename_i h
    simp only [Ring.expires, Bool.and_eq_true] at h
    exact State.flow_faultFrom (i, x) s h.2
  · exact Flow.refl s

theorem State.flow_takeExpiry (s : State) (x : RingId × Side) : Flow s (s.takeExpiry x) := by
  unfold State.takeExpiry
  split
  · rename_i h
    simp only [Ring.timerRunOut, Bool.and_eq_true] at h
    exact State.flow_faultFrom x s h.2
  · exact Flow.refl s

theorem State.flow_takeExpiries (xs : List (RingId × Side)) (s : State) : Flow s (xs.foldl State.takeExpiry s) := by
  induction xs generalizing s with
  | nil => exact Flow.refl s
  | cons x xs ih => exact (State.flow_takeExpiry s x).trans (ih _)

theorem State.flow_timebaseStep (s : State) :
    Flow { s.tickAll with choices := s.choices + (s.tickAll.dueTimers.length - 1) } s.timebaseStep :=
  State.flow_takeExpiries _ _

/-- After its turn a due timer no longer stands at 0. -/
theorem State.timers_takeExpiry {s : State} {x : RingId × Side} {xs : List (RingId × Side)}
    (h : ∀ i, (s.ring i).Timers fun side => (i, side) ∈ x :: xs) :
    ∀ i, ((s.takeExpiry x).ring i).Timers fun side => (i, side) ∈ xs := by
  intro i
  have f := ((State.flow_takeExpiry s x).rings i).timers _ (h i)
  have weaken : ∀ side n, (n = 0 → (i, side) ∈ x :: xs) → ((i, side) = x → n ≠ 0) → n = 0 → (i, side) ∈ xs :=
    fun side n m g z => (List.mem_cons.mp (m z)).resolve_left fun e => g e z
  by_cases ei : i = x.1
  · subst ei
    unfold State.takeExpiry at f ⊢
    split
    · have a := (Ring.timersSound_iff _).mp (State.timers_faultFrom x s)
      exact ⟨fun n e => ⟨(a.1 n e).1, (a.1 n e).2.1, fun z => ((a.1 n e).2.2 z).elim⟩,
        fun n e => ⟨(a.2 n e).1, (a.2 n e).2.1, fun z => ((a.2 n e).2.2 z).elim⟩⟩
    · rename_i no
      refine ⟨fun n e => ⟨((h _).1 n e).1, ((h _).1 n e).2.1, weaken .fill n ((h _).1 n e).2.2 fun ex z => ?_⟩,
        fun n e => ⟨((h _).2 n e).1, ((h _).2 n e).2.1, weaken .drain n ((h _).2 n e).2.2 fun ex z => ?_⟩⟩
      · have ex2 : x.2 = .fill := (congrArg Prod.snd ex).symm
        have hm : (s.ring x.1).moves = true := by simp [Ring.moves, ((h _).1 n e).1.2]
        exact no (by simp [Ring.timerRunOut, ex2, Ring.timer, e, z, hm])
      · have ex2 : x.2 = .drain := (congrArg Prod.snd ex).symm
        exact no (by simp [Ring.timerRunOut, ex2, Ring.timer, e, z, ((h _).2 n e).1.2])
  · exact ⟨fun n e => ⟨(f.1 n e).1, (f.1 n e).2.1, weaken .fill n (f.1 n e).2.2 fun ex => absurd (congrArg Prod.fst ex) ei⟩,
      fun n e => ⟨(f.2 n e).1, (f.2 n e).2.1, weaken .drain n (f.2 n e).2.2 fun ex => absurd (congrArg Prod.fst ex) ei⟩⟩

theorem State.ring_tickAll (i : RingId) (s : State) : s.tickAll.ring i = (s.ring i).tick := by
  simp [State.tickAll, State.ring]

theorem allRings_complete : ∀ i : RingId, i ∈ allRings := by decide

theorem State.mem_dueTimers (i : RingId) (side : Side) (s : State) :
    (i, side) ∈ s.dueTimers ↔ (s.ring i).timer side = some 0 := by
  have one : ∀ j : RingId, (i, side) ∈ ((if (s.ring j).fillTimer == some 0 then [(j, Side.fill)] else []) ++
      (if (s.ring j).drainTimer == some 0 then [(j, Side.drain)] else [])) ↔ i = j ∧ (s.ring j).timer side = some 0 := by
    intro j
    rw [List.mem_append]
    cases side <;> (split <;> split <;> simp_all [Ring.timer])
  unfold State.dueTimers
  rw [List.mem_flatMap]
  constructor
  · rintro ⟨j, _, h⟩
    obtain ⟨rfl, h⟩ := (one j).mp h
    exact h
  · exact fun h => ⟨i, allRings_complete i, (one i).mpr ⟨rfl, h⟩⟩

/-- A step of the timebase leaves every running timer between 1 and 65535 (07 R124, R127). -/
theorem State.timers_timebaseStep (s : State) (h : s.everyRing Ring.timersSound) :
    s.timebaseStep.everyRing Ring.timersSound := by
  have go : ∀ (xs : List (RingId × Side)) (t : State), (∀ i, (t.ring i).Timers fun side => (i, side) ∈ xs) →
      ∀ i, ((xs.foldl State.takeExpiry t).ring i).Timers fun _ => False := by
    intro xs
    induction xs with
    | nil => intro t ht i; simpa using ht i
    | cons x xs ih => intro t ht; exact ih _ (State.timers_takeExpiry ht)
  intro i
  rw [Ring.timersSound_iff]
  refine go _ _ (fun j => ?_) i
  have hj := h j
  have tick : ∀ {o : Option Nat} {n : Nat}, tickTimer o = some n → ∃ m, o = some m ∧ n = m - 1 := by
    intro o n e
    cases o with
    | none => cases e
    | some m => exact ⟨m, rfl, (Option.some.inj e).symm⟩
  have due : ∀ side, (s.tickAll.ring j).timer side = some 0 → (j, side) ∈ takeOrder s.tickAll.dueTimers.length s.choices
      s.tickAll.dueTimers :=
    fun side e => (takeOrder_perm _ _ _).mem_iff.mpr ((State.mem_dueTimers j side _).mpr e)
  show (s.tickAll.ring j).Timers _
  rw [State.ring_tickAll] at due ⊢
  refine ⟨fun n e => ?_, fun n e => ?_⟩
  · obtain ⟨m, em, rfl⟩ := tick e
    obtain ⟨_, hi, hw⟩ := hj.1 m em
    exact ⟨hw, by omega, fun z => due .fill (by rw [z] at e; exact e)⟩
  · obtain ⟨m, em, rfl⟩ := tick e
    obtain ⟨_, hi, hw⟩ := hj.2 m em
    exact ⟨hw, by omega, fun z => due .drain (by rw [z] at e; exact e)⟩

/-- An edge reaches each side of each ring at most once (07 R122). -/
theorem State.nodup_receivers (n : LineId) (s : State) : (s.receivers n).Nodup := by
  unfold State.receivers
  rw [List.nodup_flatMap]
  refine ⟨fun i _ => ?_, ?_⟩
  · unfold Ring.receivers
    split <;> split <;> simp
  · refine (show allRings.Pairwise (· ≠ ·) by decide).imp ?_
    intro i j ne x h1 h2
    have f : ∀ k (r : Ring), x ∈ r.receivers n k → x.1 = k := by
      intro k r h
      unfold Ring.receivers at h
      rw [List.mem_append] at h
      rcases h with h | h <;> split at h <;> simp at h <;> rw [h]
    exact ne ((f i _ h1).symm.trans (f j _ h2))

end Sys2Proof.Machine
end

