-- ==== Sys2Proof/Laws/Close.lean ====
section
/-! SUPPORT. What the close procedure leaves: the closed frame's fields, NEXT_SEQ, CLOSES and the empty or next fill slot. -/

namespace Sys2Proof.Machine

/-- The closed frames and the fill slot as they were. -/
def Ring.Stays (r t : Ring) : Prop := r.Frames t ∧ t.fillSlot = r.fillSlot ∧ t.fillSub = r.fillSub

theorem Ring.Stays.refl (r : Ring) : r.Stays r := ⟨Ring.Frames.refl r, rfl, rfl⟩

theorem Ring.Stays.trans {a b c : Ring} (h : a.Stays b) (g : b.Stays c) : a.Stays c :=
  ⟨h.1.trans g.1, g.2.1.trans h.2.1, g.2.2.trans h.2.2⟩

theorem Ring.Inner.stays {r t : Ring} (h : r.Inner t) : r.Stays t := ⟨h.frames, h.fillSlot, h.fillSub⟩

theorem Ring.closedAs_of_frames {k : SlotId} {c : CloseCause} {r v w : Ring} (h : v.Frames w) (p : r.closedAs k c v) :
    r.closedAs k c w := by
  obtain ⟨h1, h2, h3⟩ := h
  obtain ⟨p1, p2, p3, p4, p5, p6, p7⟩ := p
  have e := h3 k
  simp only [Slot.closed, Prod.mk.injEq] at e
  obtain ⟨e1, e2, e3, e4, e5⟩ := e
  exact ⟨e1.trans p1, e2.trans p2, e3.trans p3, e4.trans p4, e5.trans p5, h1.trans p6, h2.trans p7⟩

theorem Ring.closedAs_of_slot {k : SlotId} {c : CloseCause} {r v w : Ring} (e : w.slot k = v.slot k)
    (h1 : w.nextSeq = v.nextSeq) (h2 : w.counters.closes = v.counters.closes) (p : r.closedAs k c v) : r.closedAs k c w := by
  obtain ⟨p1, p2, p3, p4, p5, p6, p7⟩ := p
  exact ⟨by rw [e]; exact p1, by rw [e]; exact p2, by rw [e]; exact p3, by rw [e]; exact p4, by rw [e]; exact p5,
    h1.trans p6, h2.trans p7⟩

theorem Ring.closedAs_closeInto (k : SlotId) (c : CloseCause) (r : Ring) : r.closedAs k c (r.closeInto c k) := by
  have e : (r.closeInto c k).slot k = r.closeFields c (r.slot k) := by
    show (Ring.modSlot k (r.closeFields c) r).slot k = _
    rw [Ring.slot_modSlot_self]
  refine ⟨?_, ?_, ?_, ?_, ?_, rfl, rfl⟩ <;> rw [e] <;> rfl

/-- Steps 1 and 2 of a close of slot k. -/
theorem State.closeSlot_facts (i : RingId) (k : SlotId) (c : CloseCause) (s : State) (h : (s.ring i).fillSlot = some k) :
    (s.ring i).closedAs k c ((s.closeSlot i c).ring i) ∧ ((s.closeSlot i c).ring i).freeList = (s.ring i).freeList ∧
      ((s.closeSlot i c).ring i).fillSlot = none := by
  have g : Steady (s.modRing i (Ring.closeInto c k))
      ((((s.modRing i (Ring.closeInto c k)).settleRing i).grantRecords).noteChange) :=
    (State.steady_settleRing i _).trans ((State.steady_grantRecords _).trans (State.steady_noteChange _))
  have e : s.closeSlot i c = (((s.modRing i (Ring.closeInto c k)).settleRing i).grantRecords).noteChange := by
    unfold State.closeSlot
    rw [h]
  rw [e]
  have r := g.rings i
  rw [State.ring_modRing_self] at r
  exact ⟨Ring.closedAs_of_frames r.frames (Ring.closedAs_closeInto k c _), r.freeList, r.fillSlot⟩

theorem State.takeFree_closed (i : RingId) (s : State) (h : (s.ring i).fillSub = .closed) : s.takeFree i = s := by
  unfold State.takeFree
  rw [if_neg]
  simp [Ring.fillMayTake, h]

/-- A release beside a CLOSED fill side keeps the closed frames. -/
theorem State.stays_releaseSlot (i : RingId) (s : State) (h : (s.ring i).fillSub = .closed) :
    (s.ring i).Stays ((s.releaseSlot i).ring i) := by
  unfold State.releaseSlot
  split
  · exact Ring.Stays.refl _
  · rename_i d hd
    dsimp only
    have k1 := (Ring.inner_release d _ hd).stays
    have k2 : (s.ring i).Stays ((if (((s.ring i).slot d).outstanding == 0) = true then
        (s.modRing i (Ring.release d)).freeReleased i d else s.modRing i (Ring.release d)).ring i) := by
      split
      · have c : (((s.modRing i (Ring.release d)).modRing i (Ring.freeReleased d)).ring i).fillSub = .closed := by
          rw [State.ring_modRing_self]
          show (((s.modRing i (Ring.release d)).ring i)).fillSub = .closed
          rw [State.ring_modRing_self]
          exact k1.2.2.trans h
        unfold State.freeReleased
        rw [State.takeFree_closed i _ c, State.ring_modRing_self, State.ring_modRing_self]
        exact k1.trans ⟨Ring.frames_freeReleased d _, rfl, rfl⟩
      · rw [State.ring_modRing_self]
        exact k1
    exact k2.trans (((State.steady_takeSettled i _).trans (State.steady_askReexam _)).rings i).stays

theorem Ring.stays_returnToIdle (r : Ring) : r.Stays r.returnToIdle := by
  unfold Ring.returnToIdle Ring.copyShadow Ring.clearWork
  dsimp only
  split
  · split <;> exact ⟨⟨rfl, rfl, fun _ => rfl⟩, rfl, rfl⟩
  · exact ⟨⟨rfl, rfl, fun _ => rfl⟩, rfl, rfl⟩

theorem State.stays_testEnding (i : RingId) (s : State) : (s.ring i).Stays ((s.testEnding i).ring i) := by
  unfold State.testEnding
  split
  · rw [State.ring_askReexam, State.ring_modRing_self]
    exact Ring.stays_returnToIdle _
  · exact Ring.Stays.refl _

theorem State.stays_endFill (i : RingId) (also : Option Nat) (s : State) :
    (s.ring i).Frames ((s.endFill i also).ring i) ∧ ((s.endFill i also).ring i).fillSlot = (s.ring i).fillSlot := by
  have a := (State.steady_answerHeld (fun x => x.reason == .fillWait i || some x.order == also) .fillClosed i
    (s.modRing i Ring.endFill)).rings i
  rw [State.ring_modRing_self] at a
  have e : (s.ring i).Frames (s.ring i).endFill := ⟨rfl, rfl, fun _ => rfl⟩
  unfold State.endFill
  dsimp only
  rw [State.ring_askReexam]
  split
  · have b := State.stays_releaseSlot i _ (a.fillSub.trans rfl)
    have c := a.stays.trans b
    exact ⟨e.trans c.1, c.2.1⟩
  · exact ⟨e.trans a.frames, a.fillSlot⟩

theorem State.takeFree_frames (i : RingId) (k : SlotId) (s : State) (hf : (s.ring i).fillSlot = none)
    (h : k ∉ (s.ring i).freeList) :
    ((s.takeFree i).ring i).slot k = (s.ring i).slot k ∧ ((s.takeFree i).ring i).nextSeq = (s.ring i).nextSeq ∧
      ((s.takeFree i).ring i).counters = (s.ring i).counters ∧ ((s.takeFree i).ring i).fillSlot ≠ some k := by
  have t : ∀ r : Ring, k ∉ r.freeList → r.fillSlot = none → r.fillTake.slot k = r.slot k ∧ r.fillTake.nextSeq = r.nextSeq ∧
      r.fillTake.counters = r.counters ∧ r.fillTake.fillSlot ≠ some k := by
    intro r h hf
    unfold Ring.fillTake
    split
    · exact ⟨rfl, rfl, rfl, by simp [hf]⟩
    · rename_i j rest e
      have ne : k ≠ j := fun x => h (by simp [e, x])
      refine ⟨Ring.slot_modSlot_ne r j k _ ne, rfl, rfl, ?_⟩
      simpa using fun x => ne x.symm
  unfold State.takeFree
  split
  · dsimp only
    split <;> simp only [State.ring_askReexam, State.ring_noteChange, State.ring_modRing_self] <;> exact t _ h hf
  · exact ⟨rfl, rfl, rfl, by simp [hf]⟩

/-- The close procedure closes the fill slot and gives the fill side another slot or none (02 R32 to R35). -/
theorem State.closeFrame_facts (i : RingId) (k : SlotId) (c : CloseCause) (also : Option Nat) (s : State)
    (h : (s.ring i).fillSlot = some k) (hk : k ∉ (s.ring i).freeList) :
    (s.ring i).closedAs k c ((s.closeFrame i c also).ring i) ∧ ((s.closeFrame i c also).ring i).fillSlot ≠ some k := by
  obtain ⟨a1, a2, a3⟩ := State.closeSlot_facts i k c s h
  have b := (State.steady_modRing i Ring.spendBudget (s.closeSlot i c) (Ring.inner_spendBudget _)).rings i
  unfold State.closeFrame
  dsimp only
  split
  · obtain ⟨e1, e2⟩ := State.stays_endFill i also ((s.closeSlot i c).modRing i Ring.spendBudget)
    obtain ⟨f1, f2, _⟩ := State.stays_testEnding i (((s.closeSlot i c).modRing i Ring.spendBudget).endFill i also)
    refine ⟨Ring.closedAs_of_frames ((b.frames.trans e1).trans f1) a1, ?_⟩
    rw [f2, e2, b.fillSlot, a3]
    simp
  · have d := (State.steady_applyIfPending i ((s.closeSlot i c).modRing i Ring.spendBudget)).rings i
    have bd := b.trans d
    unfold State.finishClose
    generalize hu : ((s.closeSlot i c).modRing i Ring.spendBudget).applyIfPending i = u at bd
    have n := State.takeFree_frames i k (u.modRing i Ring.emptyFill)
      (by rw [State.ring_modRing_self]; exact bd.fillSlot.trans a3)
      (by rw [State.ring_modRing_self]; show k ∉ (u.ring i).freeList; rw [bd.freeList, a2]; exact hk)
    obtain ⟨n1, n2, n3, n4⟩ := n
    simp only [State.ring_noteChange, State.ring_askReexam, State.nextFillSlot]
    rw [State.ring_modRing_self] at n1 n2 n3
    refine ⟨Ring.closedAs_of_slot (n1.trans rfl) (n2.trans rfl) (congrArg Counters.closes (n3.trans rfl))
      (Ring.closedAs_of_slot (v := u.ring i) rfl rfl rfl (Ring.closedAs_of_frames bd.frames a1)), n4⟩

end Sys2Proof.Machine
end

