-- ==== Sys2Proof/Laws/Commands.lean ====
section
/-! SUPPORT. How a command enters: a word the port takes, a request the port decodes at once; and what answering held entries
sends. -/

namespace Sys2Proof.Machine

/-! ### A word at the management port -/

theorem State.portWrite_taken {a : WordAddr} {w : Word} {s : State} (h : s.takesWord a w = true) (f : State → State) :
    s.portWrite a w f = f s.fresh.movePast := by
  unfold State.portWrite
  rw [if_pos h]

theorem State.portWrite_ignored {a : WordAddr} {w : Word} {s : State} (h : s.takesWord a w = false) (f : State → State) :
    s.portWrite a w f = s.fresh := by
  unfold State.portWrite
  rw [if_neg (by simp [h])]

theorem ringField_lt (i : RingId) : (ringField i).val < 4 := by
  revert i; decide

theorem ringField_ring (i : RingId) : (⟨(ringField i).val, ringField_lt i⟩ : RingId) = i := by
  revert i; decide

theorem State.takeCommand_ring (c : CommandKind) (i : RingId) (f : RingId → State → State × Reply) (s : State) :
    s.takeCommand c (ringField i) f = (f i s).1.setResult c (ringField i) false (f i s).2 := by
  unfold State.takeCommand
  rw [dif_pos (ringField_lt i)]
  simp only [ringField_ring]

theorem State.takeCommand_badRing (c : CommandKind) (n : RingField) (f : RingId → State → State × Reply) (s : State)
    (h : 4 ≤ n.val) : s.takeCommand c n f = s.setResult c n false (.refused .badRing 0) := by
  unfold State.takeCommand
  rw [dif_neg (by omega)]

/-! ### Held entries answered -/

theorem State.noteRefusal_frame (q : Request) (c : RefusalCause) (i : RingId) (s : State) :
    (s.noteRefusal q c i).hold = s.hold ∧ (s.noteRefusal q c i).rings = s.rings ∧ (s.noteRefusal q c i).sent = s.sent ∧
      (s.noteRefusal q c i).table = s.table ∧ (s.noteRefusal q c i).rrLast = s.rrLast ∧
      (s.noteRefusal q c i).reexamAsked = s.reexamAsked ∧ (s.noteRefusal q c i).walkChanged = s.walkChanged := by
  unfold State.noteRefusal
  split <;> exact ⟨rfl, rfl, rfl, rfl, rfl, rfl, rfl⟩

/-- The upstream ERROR of a refused request (08 R143). -/
def errorAnswer (q : Request) : PortEvent := .upstream ⟨q.initiator, q.tag, .error, refusedData q⟩

theorem State.refuse_frame (q : Request) (c : RefusalCause) (i : RingId) (s : State) :
    (s.refuse q c i).hold = s.hold ∧ (s.refuse q c i).rings = s.rings ∧ (s.refuse q c i).sent = s.sent ++ [errorAnswer q] ∧
      (s.refuse q c i).table = s.table ∧ (s.refuse q c i).rrLast = s.rrLast ∧
      (s.refuse q c i).reexamAsked = s.reexamAsked ∧ (s.refuse q c i).walkChanged = s.walkChanged :=
  State.noteRefusal_frame q c i _

/-- The picked entries leave the queue and are answered oldest first; no ring and no table entry changes. -/
theorem State.answerHeld_frame (p : Held → Bool) (c : RefusalCause) (i : RingId) (s : State) :
    (s.answerHeld p c i).hold = s.hold.filter (fun h => !p h) ∧ (s.answerHeld p c i).rings = s.rings ∧
      (s.answerHeld p c i).sent = s.sent ++ (s.hold.filter p).map (fun h => errorAnswer h.request) ∧
      (s.answerHeld p c i).table = s.table := by
  have go : ∀ (xs : List Held) (t : State), (xs.foldl (fun t h => t.refuse h.request c i) t).hold = t.hold ∧
      (xs.foldl (fun t h => t.refuse h.request c i) t).rings = t.rings ∧
      (xs.foldl (fun t h => t.refuse h.request c i) t).sent = t.sent ++ xs.map (fun h => errorAnswer h.request) ∧
      (xs.foldl (fun t h => t.refuse h.request c i) t).table = t.table := by
    intro xs
    induction xs with
    | nil => intro t; exact ⟨rfl, rfl, by simp, rfl⟩
    | cons x xs ih =>
      intro t
      obtain ⟨f1, f2, f3, f4, _, _, _⟩ := State.refuse_frame x.request c i t
      obtain ⟨g1, g2, g3, g4⟩ := ih (t.refuse x.request c i)
      exact ⟨g1.trans f1, g2.trans f2, by rw [List.foldl_cons, g3, f3]; simp, g4.trans f4⟩
  exact go _ _

/-! ### A request that is decoded at once -/

theorem State.waiting_setReason (k : Nat) (r : Reason) (s : State) : (s.setReason k r).waiting = s.waiting := by
  unfold State.setReason
  split
  · rfl
  · split <;> rfl

theorem State.waiting_visit (k : Nat) (s : State) : (s.visit k).waiting = s.waiting := by
  unfold State.visit
  split
  · rfl
  · split
    · exact State.waiting_setReason _ _ _
    · rename_i h _ _
      have w := (State.works_decode (some k) h.request s).waiting
      split
      · rename_i t e
        rw [e] at w
        exact w
      · rename_i t r e
        rw [e] at w
        exact (State.waiting_setReason _ _ _).trans w

theorem State.waiting_walk (s : State) : s.walk.waiting = s.waiting := by
  have go : ∀ (ks : List Nat) (t : State), (ks.foldl (fun t k => (t.visit k).grantRecords) t).waiting = t.waiting := by
    intro ks
    induction ks with
    | nil => intro t; rfl
    | cons k ks ih =>
      intro t
      exact (ih _).trans ((State.steady_grantRecords _).waiting.trans (State.waiting_visit k t))
  exact go _ s

theorem State.waiting_walks (n : Nat) (s : State) : (State.walks n s).waiting = s.waiting := by
  induction n generalizing s with
  | zero => rfl
  | succ n ih =>
    unfold State.walks
    dsimp only
    have w : s.calm.walk.waiting = s.waiting := State.waiting_walk s.calm
    split
    · exact (ih _).trans w
    · exact w

theorem State.waiting_reexamine (s : State) : s.reexamine.waiting = s.waiting := by
  unfold State.reexamine
  split
  · exact State.waiting_walks _ s
  · rfl

/-- What an arrival does before the end of its event: its decode, or the tail of the hold queue. -/
def State.decodeArrival (q : Request) (s : State) : State :=
  match s.decode none q with
  | (t, .done) => t
  | (t, .hold r) => t.join q r

theorem State.finish_of_noWaiting {s : State} (h : s.waiting = []) : s.finish = s.grantRecords.reexamine := by
  have w : s.grantRecords.reexamine.waiting = [] :=
    (State.waiting_reexamine _).trans ((State.steady_grantRecords s).waiting.trans h)
  show State.acceptFrom s.grantRecords.reexamine.waiting s.grantRecords.reexamine = _
  rw [w]
  show { s.grantRecords.reexamine with waiting := [] } = _
  rw [← w]

/-- A request that is accepted alone and decoded (`State.decodesNow`): its decode, then the end of the event. -/
theorem exec_upstreamRequest_decodes {q : Request} {s : State} (h : s.decodesNow q = true) :
    exec (.upstreamRequest q) s = .next (s.fresh.decodeArrival q).finish := by
  simp only [State.decodesNow, Bool.and_eq_true, Bool.not_eq_true', List.isEmpty_iff] at h
  obtain ⟨⟨⟨⟨h1, h2⟩, h3⟩, h4⟩, h5⟩ := h
  have lo : s.resetLow = false := by
    simp only [State.upstreamReady, Bool.and_eq_true, Bool.not_eq_true'] at h2
    exact h2.1
  have rest : State.quiet s = true := h3
  simp only [State.quiet, Bool.and_eq_true, Bool.not_eq_true'] at rest
  obtain ⟨⟨⟨r1, r2⟩, r3⟩, _⟩ := rest
  simp only [exec, execUpstreamRequest, h1, if_true, lo, h4, List.nil_append]
  congr 1
  have g : State.granted { s.fresh with waiting := [q] } = true := r3
  have e : State.finish { s.fresh with waiting := [q] } = State.acceptFrom [q] { s.fresh with waiting := [q] } := by
    have gr := State.grantRecords_of_granted { s.fresh with waiting := [q] } g
    have ree : State.reexamine { s.fresh with waiting := [q] } = { s.fresh with waiting := [q] } := by
      have ra : State.reexamAsked { s.fresh with waiting := [q] } = false := r1
      unfold State.reexamine
      rw [if_neg (by rw [ra]; decide)]
      show { s with sent := [], waiting := [q], reexamAsked := false, walkChanged := false } = _
      rw [← r1]
      nth_rewrite 2 [r1]
      rw [← r2]
      rfl
    unfold State.finish
    rw [gr, ree]
  have f : ({ s.fresh with waiting := [] } : State) = s.fresh := by
    show { s with sent := [], waiting := [] } = { s with sent := [] }
    rw [← h4]
  have up : State.upstreamReady { s.fresh with waiting := [q] } = true := h2
  have arr : s.fresh.arrive q = (s.fresh.decodeArrival q).grantRecords.reexamine := by
    have none : (s.fresh.hold.any fun h => h.request.initiator == q.initiator) = false := h5
    unfold State.arrive State.decodeArrival
    (rw [none, if_neg (by decide)]) <;> rfl
  have wd : (s.fresh.decodeArrival q).waiting = [] := by
    have w := (State.works_decode none q s.fresh).waiting
    unfold State.decodeArrival
    split
    · rename_i t x
      rw [x] at w
      exact w.trans h4
    · rename_i t r x
      rw [x] at w
      exact w.trans h4
  have wa : (s.fresh.decodeArrival q).grantRecords.reexamine.waiting = [] :=
    (State.waiting_reexamine _).trans ((State.steady_grantRecords _).waiting.trans wd)
  show State.finish { s.fresh with waiting := [q] } = _
  rw [e, State.finish_of_noWaiting wd, State.acceptFrom, if_pos up]
  show State.acceptFrom [] (State.arrive q { s.fresh with waiting := [] }) = _
  rw [f, arr]
  show { (s.fresh.decodeArrival q).grantRecords.reexamine with waiting := [] } = _
  rw [← wa]

end Sys2Proof.Machine
end

