-- ==== Sys2Proof/Laws/Arrival.lean ====
section
/-! SUPPORT. An arriving request that is decoded alone: what its decode comes to, and what remains of the event. -/

namespace Sys2Proof.Machine

theorem State.quiet_flags {s : State} (h : s.quiet = true) :
    s.reexamAsked = false ∧ s.walkChanged = false ∧ s.granted = true ∧ (s.waiting.isEmpty || !s.upstreamReady) = true :=
    by
  simp only [State.quiet, Bool.and_eq_true, Bool.not_eq_true'] at h
  exact ⟨h.1.1.1, h.1.1.2, h.1.2, h.2⟩

theorem State.quiet_of_flags {s : State} (h1 : s.reexamAsked = false) (h2 : s.walkChanged = false) (h3 : s.granted = true)
    (h4 : s.waiting = []) : s.quiet = true := by
  simp only [State.quiet, Bool.and_eq_true, Bool.not_eq_true']
  exact ⟨⟨⟨h1, h2⟩, h3⟩, by simp [h4]⟩

theorem State.reexamine_of_calm {s : State} (h1 : s.reexamAsked = false) (h2 : s.walkChanged = false) :
    s.reexamine = s := by
  unfold State.reexamine
  rw [if_neg (by rw [h1]; decide)]
  cases s; simp only [State.calm, State.mk.injEq, true_and, and_true]; exact ⟨h1.symm, h2.symm⟩

/-- The decoded apertures are the two of each ring that is not IDLE. -/
theorem State.mem_decodedApertures (s : State) (i : RingId) (side : Side) (b : ByteRange) :
    (i, side, b) ∈ s.decodedApertures ↔ (s.ring i).notIdle = true ∧ b = (s.ring i).active.aperture side := by
  have all : ∀ i : RingId, i ∈ allRings := by decide
  simp only [State.decodedApertures, List.mem_flatMap, List.mem_filter, List.mem_cons, List.not_mem_nil, or_false,
      Prod.mk.injEq]
  constructor
  · rintro ⟨j, ⟨_, hj⟩, ⟨rfl, rfl, rfl⟩ | ⟨rfl, rfl, rfl⟩⟩ <;> exact ⟨hj, rfl⟩
  · rintro ⟨h, rfl⟩
    refine ⟨i, ⟨all i, h⟩, ?_⟩
    cases side
    · left; exact ⟨rfl, rfl, rfl⟩
    · right; exact ⟨rfl, rfl, rfl⟩

theorem State.decodedApertures_sorted (s : State) : s.decodedApertures.Pairwise (fun a b => a.1 ≤ b.1) := by
  unfold State.decodedApertures
  rw [List.pairwise_flatMap]
  refine ⟨?_, ?_⟩
  · intro i _; simp
  · have : allRings.Pairwise (fun a b => a ≤ b) := by decide
    refine (this.sublist List.filter_sublist).imp ?_
    intro a b h x hx y hy
    simp at hx hy
    rcases hx with rfl | rfl <;> rcases hy with rfl | rfl <;> exact h

theorem State.entryFor_facts {t : DownTag} {s : State} (h : s.entryFor t = true) :
    s.anyOffer = false ∧ s.anyTable = false ∧ s.freeTag? = some t := by
  simp only [State.entryFor, Bool.and_eq_true, Bool.not_eq_true', beq_iff_eq] at h
  exact ⟨h.1.1, h.1.2, h.2⟩

theorem State.mayIssue_of_entryFor {t : DownTag} {s : State} (h : s.entryFor t = true) : s.mayIssue none = some t := by
  obtain ⟨a, b, c⟩ := State.entryFor_facts h
  simp [State.mayIssue, a, b, c]

theorem State.quiet_of_decodesNow {q} {s : State} (h : s.decodesNow q = true) : s.quiet = true ∧ s.waiting = [] := by
  simp only [State.decodesNow, Bool.and_eq_true, List.isEmpty_iff] at h
  exact ⟨h.1.1.2, h.1.2⟩

/-- Where the decode leaves nothing to do, it is the whole event. -/
theorem exec_upstreamRequest_of_decodeArrival {q} {s u : State} (h : s.decodesNow q = true)
    (e : s.fresh.decodeArrival q = u)
   (h1 : u.reexamAsked = s.reexamAsked) (h2 : u.walkChanged = s.walkChanged) (h3 : u.granted = true) (h4 : u.waiting = s.waiting) :
   exec (.upstreamRequest q) s = .next u := by
  rw [exec_upstreamRequest_decodes h, e]
  obtain ⟨a, b⟩ := State.quiet_of_decodesNow h
  obtain ⟨r1, r2, _, _⟩ := State.quiet_flags a
  rw [State.finish_of_quiet u (State.quiet_of_flags (h1.trans r1) (h2.trans r2) h3 (h4.trans b))]

theorem State.granted_of_noOffer {s : State} (h : s.anyOffer = false) : s.granted = true := by simp [State.granted, h]

theorem State.rings_getElem (s : State) (i : RingId) : s.rings[i] = s.ring i := rfl

theorem State.guardRing?_eq_some (q : Request) (s : State) (i : RingId) : s.guardRing? q = some i ↔
      (s.ring i).guardHits q = true ∧ ∀ j < i, (s.ring j).guardHits q = false := by
  unfold State.guardRing?
  have key : ∀ p : RingId → Bool, ∀ i : RingId, allRings.find? p = some i ↔ p i = true ∧ ∀ j < i, p j = false := by
    intro p i
    have h0 : allRings = [0, 1, 2, 3] := rfl
    rw [h0]
    simp only [List.find?]
    cases h0 : p 0 <;> cases h1 : p 1 <;> cases h2 : p 2 <;> cases h3 : p 3 <;> revert h0 h1 h2 h3 <;>
      fin_cases i <;> simp (config := { contextual := true }) [Fin.forall_fin_succ, Fin.lt_def]
  exact key (fun i => (s.ring i).guardHits q) i

/-- A refusal at the decode is the whole event. -/
theorem exec_upstreamRequest_of_refuse {q c i} {s : State} (h : s.decodesNow q = true)
    (e : (s.fresh.decode none q) = s.fresh.refuseAnswer none q c i) :
    exec (.upstreamRequest q) s = .next (State.refuse q c i { s with sent := [] }) := by
  have e' : s.fresh.decodeArrival q = s.fresh.refuse q c i := by
    unfold State.decodeArrival; rw [e]; rfl
  obtain ⟨a, b, _, d, _, f, g'⟩ := State.refuse_frame q c i s.fresh
  have w := State.steady_refuse q c i s.fresh
  refine (exec_upstreamRequest_of_decodeArrival h rfl ?_ ?_ ?_ ?_).trans ?_
  · rw [e']; exact f
  · rw [e']; exact g'
  · rw [e']
    obtain ⟨_, _, r3, _⟩ := State.quiet_flags (State.quiet_of_decodesNow h).1
    unfold State.granted State.freeTag? State.anyOffer at r3 ⊢
    rw [d, b]; exact r3
  · rw [e']; exact w.waiting.trans rfl
  · rw [e']; rfl

theorem State.decode_of_lies {q i side} {s : State} (h : s.matchRequest q = .lies i side) (who) :
    s.fresh.decode who q = s.fresh.decodeInside who i side q := by
  unfold State.decode
  rw [show s.fresh.matchRequest q = .lies i side from h]

theorem State.decode_of_fillDecides {q i} {s : State} (h : s.fillDecides q i) :
    s.fresh.decode none q = s.fresh.decideWrite none i q := by
  obtain ⟨m, r, k⟩ := h
  rw [State.decode_of_lies m]; unfold State.decodeInside
  rw [show (s.fresh.ring i).runState = .running from r, k]

theorem State.decode_of_drainDecides {q i} {s : State} (h : s.drainDecides q i) :
    s.fresh.decode none q = s.fresh.decideRead none i q := by
  obtain ⟨m, r, k⟩ := h
  rw [State.decode_of_lies m]; unfold State.decodeInside
  rw [k]
  have : (s.fresh.ring i).runState = .running ∨ (s.fresh.ring i).runState = .ending := by
    simpa [Ring.moves] using r
  rcases this with e | e <;> rw [e]

theorem State.mayIssue_of_entryNone {s : State} (h : s.entryNone) : s.mayIssue none = none := by
  unfold State.mayIssue
  rcases h with h | h | h
  · simp [h]
  · simp [h]
  · split
    · rfl
    · split
      · rfl
      · exact h

/-- A hold at the decode. -/
theorem exec_upstreamRequest_of_hold {q r} {s t : State} (h : s.decodesNow q = true)
    (e : (s.fresh.decode none q) = (t, .hold r))
   (h1 : t.reexamAsked = s.reexamAsked) (h2 : t.walkChanged = s.walkChanged) (h3 : t.granted = true) (h4 : t.waiting = s.waiting) :
    exec (.upstreamRequest q) s = .next (t.join q r) := by
  refine exec_upstreamRequest_of_decodeArrival h ?_ h1 h2 h3 h4
  unfold State.decodeArrival; rw [e]

theorem State.granted_fresh {q} {s : State} (h : s.decodesNow q = true) : s.fresh.granted = true :=
  (State.quiet_flags (State.quiet_of_decodesNow h).1).2.2.1

theorem State.anyOffer_set {s : State} {i : RingId} {r : Ring} {t : State} (h : t.rings = s.rings.set i r)
    (e : r.offers = (s.ring i).offers) : t.anyOffer = s.anyOffer := by
  unfold State.anyOffer
  rw [h, Bool.eq_iff_iff, List.any_eq_true, List.any_eq_true]
  constructor
  · rintro ⟨r, hr, o⟩
    simp only [Vector.mem_toList_iff, Vector.mem_iff_getElem] at hr ⊢
    obtain ⟨j, hj, rfl⟩ := hr
    rw [Vector.getElem_set] at o
    split at o
    · rw [e] at o
      exact ⟨_, ⟨i, i.isLt, rfl⟩, o⟩
    · exact ⟨_, ⟨j, hj, rfl⟩, o⟩
  · rintro ⟨r, hr, o⟩
    simp only [Vector.mem_toList_iff, Vector.mem_iff_getElem] at hr ⊢
    obtain ⟨j, hj, rfl⟩ := hr
    refine ⟨_, ⟨j, hj, rfl⟩, ?_⟩
    rw [Vector.getElem_set]
    split
    · rename_i ij
      subst ij
      rw [e]; exact o
    · exact o

theorem State.ring_of_rings_set (s t : State) (i : RingId) (r : Ring) (h : t.rings = s.rings.set i r) : t.ring i = r := by
  unfold State.ring; rw [h]; simp

theorem State.granted_set {q} {s t : State} {i : RingId} {r : Ring} (h : s.decodesNow q = true) (ht : t.table = s.table)
    (hr : t.rings = s.rings.set i r) (e : r.offers = (s.ring i).offers) : t.granted = true := by
  obtain ⟨_, _, r3, _⟩ := State.quiet_flags (State.quiet_of_decodesNow h).1
  have := State.anyOffer_set (s := s) (t := t) hr e
  unfold State.granted at r3 ⊢
  rw [this]
  unfold State.freeTag? at r3 ⊢
  rw [ht]
  exact r3

/-- A hold after work that may ask for more. -/
theorem exec_upstreamRequest_of_held {q r} {s t : State} (h : s.decodesNow q = true)
    (e : s.fresh.decode none q = (t, .hold r)) :
   exec (.upstreamRequest q) s = .next (t.join q r).finish := by
  rw [exec_upstreamRequest_decodes h]; unfold State.decodeArrival; rw [e]

theorem exec_upstreamRequest_of_done {q} {s t : State} (h : s.decodesNow q = true)
    (e : s.fresh.decode none q = (t, .done)) :
   exec (.upstreamRequest q) s = .next t.finish := by
  rw [exec_upstreamRequest_decodes h]; unfold State.decodeArrival; rw [e]

end Sys2Proof.Machine
end

