-- ==== Sys2Proof/Laws/Checks.lean ====
section
/-! SUPPORT. The validity checks as conditions on ranges: what each check of Table 5-3 that looks at ranges says, and what
the live checks depend on. -/

namespace Sys2Proof.Machine

/-- Checks made in the order of their numbers: none fails, or the number of the first that fails. -/
theorem firstFailure_spec (checks : List (Nat × Bool)) (holds : Nat → Prop) (h : ∀ c ∈ checks, (c.2 = true ↔ holds c.1))
    (p : checks.Pairwise (fun a b => a.1 < b.1)) : firstFailing (checks.map (·.1)) holds (firstFailure checks) := by
  unfold firstFailure
  induction checks with
  | nil => intro n hn; simp at hn
  | cons c cs ih =>
    rw [List.pairwise_cons] at p
    have ih := ih (fun x hx => h x (List.mem_cons_of_mem _ hx)) p.2
    rw [List.find?_cons]
    cases e : c.2 with
    | true =>
      have hc := (h c (by simp)).mp e
      simp only [Bool.not_true]
      cases f : cs.find? (fun c => !c.2) with
      | none =>
        rw [f] at ih
        intro n hn
        rw [List.map_cons, List.mem_cons] at hn
        rcases hn with rfl | hn
        · exact hc
        · exact ih n hn
      | some d =>
        rw [f] at ih
        obtain ⟨i1, i2, i3⟩ := ih
        refine ⟨by rw [List.map_cons]; exact List.mem_cons_of_mem _ i1, i2, fun m hm hl => ?_⟩
        rw [List.map_cons, List.mem_cons] at hm
        rcases hm with rfl | hm
        · exact hc
        · exact i3 m hm hl
    | false =>
      simp only [Bool.not_false, Option.map_some]
      refine ⟨by simp, fun x => ?_, fun m hm hl => ?_⟩
      · have := (h c (by simp)).mpr x; rw [e] at this; cases this
      · exfalso
        rw [List.map_cons, List.mem_cons] at hm
        rcases hm with rfl | hm
        · omega
        · obtain ⟨d, hd, rfl⟩ := List.mem_map.mp hm
          have := p.1 d hd
          omega

/-- Two lists of ranges are disjoint when no range of the one overlaps one of the other. -/
theorem disjointFrom_iff (xs ys : List ByteRange) (p q : ByteRange → Prop) (hp : ∀ g, g ∈ xs ↔ p g) (hq : ∀ g, g ∈ ys ↔
    q g) :
    disjointFrom xs ys = true ↔ rangesApart p q := by
  unfold disjointFrom rangesApart
  simp only [List.all_eq_true, Bool.not_eq_true']
  exact ⟨fun h a b ha hb => h a ((hp a).mpr ha) b ((hq b).mpr hb), fun h a ha b hb => h a b ((hp a).mp ha) ((hq b).mp hb)⟩

theorem mem_allSlots : ∀ k : SlotId, k ∈ allSlots := by decide

theorem Descriptor.mem_usedSlots (d : Descriptor) (k : SlotId) : k ∈ d.usedSlots ↔ k.val < d.slotCount.toNat := by
  simp [Descriptor.usedSlots, mem_allSlots]

theorem Descriptor.mem_apertures (d : Descriptor) (g) : g ∈ d.apertures ↔ d.apertureRange g := by
  simp [Descriptor.apertures, Descriptor.apertureRange, Descriptor.fillAperture, Descriptor.drainAperture]

theorem Descriptor.mem_slotRegions (d : Descriptor) (g) : g ∈ d.slotRegions ↔ d.slotRange g := by
  unfold Descriptor.slotRegions Descriptor.slotRange Descriptor.slotRegion
  rw [List.mem_map]
  simp only [Descriptor.mem_usedSlots]
  exact ⟨fun ⟨k, h, e⟩ => ⟨k, h, e.symm⟩, fun ⟨k, h, e⟩ => ⟨k, h, e.symm⟩⟩

theorem Descriptor.mem_recordRegions (d : Descriptor) (g) : g ∈ d.recordRegions ↔ d.logRange g := by
  unfold Descriptor.recordRegions Descriptor.logRange
  split <;> simp_all

/-- The slot regions and the record region of another ring. -/
theorem Ring.mem_standing (r : Ring) (g) : g ∈ r.standingSlotRegions ++ r.active.recordRegions ↔ r.storeRange g := by
  unfold Ring.standingSlotRegions Ring.storeRange Ring.latchedRange Descriptor.slotRange Descriptor.slotRegion
  rw [List.mem_append, List.mem_flatMap, Descriptor.mem_recordRegions, ← or_assoc]
  refine or_congr ?_ Iff.rfl
  simp only [Descriptor.mem_usedSlots, List.mem_cons, List.not_mem_nil, or_false]
  constructor
  · rintro ⟨k, hk, h | h⟩
    · exact Or.inr ⟨k, hk, h⟩
    · exact Or.inl ⟨k, hk, h⟩
  · rintro (⟨k, hk, h⟩ | ⟨k, hk, h⟩)
    · exact ⟨k, hk, Or.inr h⟩
    · exact ⟨k, hk, Or.inl h⟩

/-- The other rings that are not IDLE. -/
theorem State.mem_otherRings (i : RingId) (s : State) (r) : r ∈ s.otherRings i ↔ ∃ j, j ≠ i ∧
    (s.ring j).runState ≠ .idle ∧ r = s.ring j := by
  unfold State.otherRings Ring.notIdle
  rw [List.mem_filter, List.mem_map]
  have all : ∀ k : RingId, k ∈ allRings := by decide
  simp only [List.mem_filter, all, true_and, bne_iff_ne]
  constructor
  · rintro ⟨⟨j, h1, rfl⟩, h2⟩; exact ⟨j, h1, h2, rfl⟩
  · rintro ⟨j, h1, h2, rfl⟩; exact ⟨⟨j, h1, rfl⟩, h2⟩

/-- Ranges stand apart from a kind of range of every other ring that is not IDLE. -/
theorem State.otherRings_apart_iff (i : RingId) (s : State) (xs : List ByteRange) (ys : Ring → List ByteRange)
    (p : ByteRange → Prop) (q : Ring → ByteRange → Prop)
    (hp : ∀ g, g ∈ xs ↔ p g) (hq : ∀ r g, g ∈ ys r ↔ q r g) :
    ((s.otherRings i).all fun r => disjointFrom xs (ys r)) = true ↔ rangesApart p (s.otherRange i q) := by
  rw [List.all_eq_true]
  constructor
  · rintro h a b ha ⟨j, h1, h2, h3⟩
    exact (disjointFrom_iff xs _ p _ hp (hq _)).mp (h _ ((State.mem_otherRings i s _).mpr ⟨j, h1, h2, rfl⟩)) a b ha h3
  · intro h r hr
    obtain ⟨j, h1, h2, rfl⟩ := (State.mem_otherRings i s r).mp hr
    exact (disjointFrom_iff xs _ p _ hp (hq _)).mpr fun a b ha hb => h a b ha ⟨j, h1, h2, hb⟩

theorem ByteRange.overlaps_symm (a b : ByteRange) : a.overlaps b = b.overlaps a := by
  unfold ByteRange.overlaps; rw [Nat.max_comm, Nat.min_comm]

/-- The ranges of a list of slots are pairwise disjoint. -/
theorem pairwiseDisjoint_iff (l : List SlotId) (f : SlotId → ByteRange) (nd : l.Nodup) :
    pairwiseDisjoint (l.map f) = true ↔ ∀ j k, j ≠ k → j ∈ l → k ∈ l → (f j).overlaps (f k) = false := by
  induction l with
  | nil => simp [pairwiseDisjoint]
  | cons a l ih =>
    rw [List.nodup_cons] at nd
    rw [List.map_cons]
    unfold pairwiseDisjoint
    rw [Bool.and_eq_true, ih nd.2, List.all_eq_true]
    constructor
    · rintro ⟨h1, h2⟩ j k ne hj hk
      rw [List.mem_cons] at hj hk
      rcases hj with rfl | hj <;> rcases hk with rfl | hk
      · exact absurd rfl ne
      · simpa using h1 _ (List.mem_map.mpr ⟨k, hk, rfl⟩)
      · rw [ByteRange.overlaps_symm]; simpa using h1 _ (List.mem_map.mpr ⟨j, hj, rfl⟩)
      · exact h2 j k ne hj hk
    · intro h
      refine ⟨fun x hx => ?_, fun j k ne hj hk => h j k ne (List.mem_cons_of_mem _ hj) (List.mem_cons_of_mem _ hk)⟩
      obtain ⟨k, hk, rfl⟩ := List.mem_map.mp hx
      have : a ≠ k := fun e => nd.1 (e ▸ hk)
      simp [h a k this (by simp) (List.mem_cons_of_mem _ hk)]

/-- A power of two between two bounds. -/
theorem isPowerBetween_iff (l h n : Nat) : isPowerBetween l h n = true ↔ ∃ a, l ≤ a ∧ a ≤ h ∧ n = 2 ^ a := by
  unfold isPowerBetween
  simp only [List.any_eq_true, beq_iff_eq]
  constructor
  · rintro ⟨a, ha, e⟩
    have : a ∈ List.range (h+1) := List.mem_of_mem_drop ha
    rw [List.mem_range] at this
    rw [List.mem_drop_iff_getElem] at ha
    obtain ⟨j, hj, e2⟩ := ha
    simp at e2
    exact ⟨a, by omega, by omega, e⟩
  · rintro ⟨a, h1, h2, e⟩
    refine ⟨a, ?_, e⟩
    rw [List.mem_drop_iff_getElem]
    exact ⟨a - l, by simp; omega, by simp; omega⟩

/-- Check 4 on ranges. -/
theorem State.check4_iff (d : Descriptor) (i : RingId) (s : State) : s.check4 i d = true ↔ s.checkHolds i d 4 := by
  simp only [State.checkHolds]
  unfold State.check4
  exact State.otherRings_apart_iff i s _ _ _ _ (Descriptor.mem_apertures d) fun r g => by rw [List.append_assoc,
    List.mem_append, Descriptor.mem_apertures, Ring.mem_standing]

/-- Check 7. -/
theorem Descriptor.check7_iff (d : Descriptor) (i : RingId) (s : State) : d.check7 = true ↔ s.checkHolds i d 7 := by
  simp only [Descriptor.check7, List.all_eq_true, Descriptor.mem_usedSlots, decide_eq_true_eq, Bool.and_eq_true, beq_iff_eq]
  simp only [State.checkHolds, Nat.dvd_iff_mod_eq_zero]
  rfl

/-- Check 8 on ranges, as both forms make it. -/
theorem State.check8Common_iff (d : Descriptor) (i : RingId) (s : State) : s.check8Common i d = true ↔
    s.checkHolds i d 8 := by
  unfold State.check8Common
  rw [Bool.and_eq_true, Bool.and_eq_true]
  simp only [State.checkHolds]
  rw [and_assoc]
  refine and_congr ?_ (and_congr ?_ ?_)
  · have nd : d.usedSlots.Nodup := by
      unfold Descriptor.usedSlots
      exact List.Nodup.filter _ (by decide)
    unfold Descriptor.slotRegions
    rw [pairwiseDisjoint_iff _ _ nd]
    simp only [Descriptor.mem_usedSlots]; rfl
  · exact disjointFrom_iff _ _ _ _ (Descriptor.mem_slotRegions d) fun g => by rw [List.mem_append,
      Descriptor.mem_apertures, Descriptor.mem_recordRegions]
  · exact State.otherRings_apart_iff i s _ _ _ _ (Descriptor.mem_slotRegions d) fun r g => Ring.mem_standing r g

/-- Check 9 on ranges. -/
theorem State.check9_iff (d : Descriptor) (i : RingId) (s : State) : s.check9 i d = true ↔ s.checkHolds i d 9 := by
  unfold State.check9
  rw [Bool.and_eq_true]
  simp only [State.checkHolds]
  exact and_congr (disjointFrom_iff _ _ _ _ (Descriptor.mem_slotRegions d) (Descriptor.mem_apertures d))
    (State.otherRings_apart_iff i s _ _ _ _ (Descriptor.mem_slotRegions d) fun r g => Descriptor.mem_apertures _ g)

/-- Check 10. -/
theorem Descriptor.check10_iff (d : Descriptor) (i : RingId) (s : State) : d.check10 = true ↔ s.checkHolds i d 10 := by
  simp only [State.checkHolds]
  unfold Descriptor.check10
  cases d.closeOnLimit <;> simp

/-- Check 11. -/
theorem Descriptor.check11_iff (d : Descriptor) (i : RingId) (s : State) : d.check11 = true ↔ s.checkHolds i d 11 := by
  simp only [State.checkHolds]
  simp only [Descriptor.check11, eventFieldValid, Bool.and_eq_true, Bool.or_eq_true, decide_eq_true_eq, beq_iff_eq,
    bne_iff_ne, and_assoc]

/-- Check 12 on ranges. -/
theorem State.check12_iff (d : Descriptor) (i : RingId) (s : State) : s.check12 i d = true ↔ s.checkHolds i d 12 := by
  simp only [State.checkHolds]
  unfold State.check12
  cases h : d.recordEnable with
  | false => simp
  | true =>
    simp only [Bool.not_true, Bool.false_or, Bool.and_eq_true, beq_iff_eq, forall_const]
    rw [and_assoc, and_assoc]
    refine and_congr (isPowerBetween_iff _ _ _) (and_congr (by rw [Nat.dvd_iff_mod_eq_zero]) (and_congr ?_ ?_))
    · exact disjointFrom_iff _ _ _ _ (Descriptor.mem_recordRegions d) fun g => by rw [List.mem_append,
        Descriptor.mem_apertures, Descriptor.mem_slotRegions]
    · exact State.otherRings_apart_iff i s _ _ _ _ (Descriptor.mem_recordRegions d) fun r g => by rw
        [List.append_assoc, List.mem_append, Descriptor.mem_apertures, Ring.mem_standing]

/-- With the structural fields equal, the live fields are all that a copy changes. -/
theorem Descriptor.withLiveFields_eq {d e : Descriptor} (h : d.sameStructure e = true) : d.withLiveFields e = d := by
  cases d; cases e
  simp only [Descriptor.sameStructure, Bool.and_eq_true, beq_iff_eq] at h
  simp only [Descriptor.withLiveFields, Descriptor.mk.injEq]
  simp_all

theorem Ring.standingSlotRegions_congr {r t : Ring} (h1 : t.active = r.active) (h2 : ∀ k, (t.slot k).base =
    (r.slot k).base) :
    t.standingSlotRegions = r.standingSlotRegions := by
  unfold Ring.standingSlotRegions; rw [h1]; simp only [h2]

/-- A test of the other rings that agrees on every ring has one answer. -/
theorem State.otherRings_all_congr {s t : State} (i : RingId) (f : Ring → Bool)
    (h : ∀ j, (t.ring j).runState = (s.ring j).runState) (g : ∀ j, f (t.ring j) = f (s.ring j)) :
    (t.otherRings i).all f = (s.otherRings i).all f := by
  unfold State.otherRings
  rw [Bool.eq_iff_iff, List.all_eq_true, List.all_eq_true]
  simp only [List.mem_filter, List.mem_map]
  constructor
  · rintro H r ⟨⟨j, hj, rfl⟩, n⟩
    rw [← g j]
    exact H _ ⟨⟨j, hj, rfl⟩, by unfold Ring.notIdle at n ⊢; rw [h]; exact n⟩
  · rintro H r ⟨⟨j, hj, rfl⟩, n⟩
    rw [g j]
    exact H _ ⟨⟨j, hj, rfl⟩, by unfold Ring.notIdle at n ⊢; rw [← h]; exact n⟩

/-- The live checks look at run states, active descriptors, latched bases and the shadow alone. -/
theorem State.liveFailure_congr {s t : State} (i : RingId) (h1 : ∀ j, (t.ring j).runState = (s.ring j).runState)
    (h2 : ∀ j, (t.ring j).active = (s.ring j).active) (h3 : ∀ j k, ((t.ring j).slot k).base = ((s.ring j).slot k).base)
    (h4 : (t.ring i).shadow = (s.ring i).shadow) : t.liveFailure i = s.liveFailure i := by
  have st : ∀ j, (t.ring j).standingSlotRegions = (s.ring j).standingSlotRegions := fun j =>
    Ring.standingSlotRegions_congr (h2 j) (h3 j)
  have c8 : ∀ d, t.check8Common i d = s.check8Common i d := by
    intro d; unfold State.check8Common
    rw [State.otherRings_all_congr (s := s) (t := t) i _ h1]
    intro j; rw [st, h2]
  have c9 : ∀ d, t.check9 i d = s.check9 i d := by
    intro d; unfold State.check9
    rw [State.otherRings_all_congr (s := s) (t := t) i _ h1]
    intro j; rw [h2]
  have nr : ∀ d, (t.ring i).newRegionsClear d = (s.ring i).newRegionsClear d := by
    intro d; unfold Ring.newRegionsClear; simp only [h3]
  unfold State.liveFailure
  dsimp only
  rw [h4, c8, c9, nr]

end Sys2Proof.Machine
end

