-- ==== Sys2Proof/Laws/Held.lean ====
section
/-! SUPPORT. A held entry and a ready entry in the middle of their queues: what an operation on one entry does to the whole
list. -/

namespace Sys2Proof.Machine

/-- A held entry may take the lowest free table entry when no record is offered (09 R151). -/
theorem State.mayIssue_held (k : Nat) (s : State) : s.mayIssue (some k) = if s.anyOffer then none else s.freeTag? := by
  unfold State.mayIssue
  split
  · rfl
  · rw [if_neg (by simp)]

/-- The held entry at its place in the queue. -/
theorem State.held?_at {front back : List Held} {h : Held} {s : State} (e : s.hold = front ++ h :: back)
    (f : ∀ g ∈ front, g.order ≠ h.order) :
    s.held? h.order = some h := by
  unfold State.held?
  rw [e, List.find?_append]
  have : front.find? (fun g => g.order == h.order) = none := by
    rw [List.find?_eq_none]; intro g hg; simpa using f g hg
  rw [this]; simp

/-- A held entry takes a reason in its place. -/
theorem State.setReason_at {front back : List Held} {h : Held} {s : State} (e : s.hold = front ++ h :: back)
    (f : ∀ g ∈ front, g.order ≠ h.order)
    (b : ∀ g ∈ back, g.order ≠ h.order) (r : Reason) : s.setReason h.order r = (if h.reason = r then s else { s with
      hold := front ++ { h with reason := r } :: back
      walkChanged := true }) := by
  unfold State.setReason
  rw [State.held?_at e f]
  dsimp only
  by_cases c : h.reason = r
  · rw [if_pos c, if_pos c]
  · rw [if_neg c, if_neg c]
    congr 1
    rw [e, List.map_append, List.map_cons]
    have m : ∀ l : List Held, (∀ g ∈ l, g.order ≠ h.order) → l.map (fun g => if (g.order == h.order) =
      true then { g with reason := r } else g) = l := by
      intro l hl
      conv_rhs => rw [← List.map_id l]
      refine List.map_congr_left ?_
      intro g hg
      rw [if_neg (by simpa using hl g hg)]; rfl
    rw [m _ f, m _ b]; simp

/-- A held entry leaves its place. -/
theorem State.removeHeld_at {front back : List Held} {h : Held} {s : State} (e : s.hold = front ++ h :: back)
    (f : ∀ g ∈ front, g.order ≠ h.order)
    (b : ∀ g ∈ back, g.order ≠ h.order) : s.removeHeld h.order = { s with hold := front ++ back, walkChanged := true } := by
  unfold State.removeHeld
  rw [e, List.filter_append, List.filter_cons, if_neg (by simp)]
  have m : ∀ l : List Held, (∀ g ∈ l, g.order ≠ h.order) → l.filter (fun g => g.order != h.order) = l := by
    intro l hl
    rw [List.filter_eq_self]
    intro g hg; simpa using hl g hg
  rw [m _ f, m _ b]

/-- An operation that leaves a ring as it is leaves the state as it is. -/
theorem State.modRing_eq_self (i : RingId) (f : Ring → Ring) (s : State) (h : f (s.ring i) =
    s.ring i) : s.modRing i f = s := by
  unfold State.modRing State.setRing
  rw [h]
  have : s.rings.set i (s.ring i) = s.rings := by
    apply Vector.ext; intro j hj
    rw [Vector.getElem_set]
    split
    · rename_i x; subst x; rfl
    · rfl
  rw [this]

/-- A condition on the predecessor holds of the head, and of an entry whose predecessor stands in one of the stages. -/
theorem predecessorIs_iff (al : List SlotState) (pred : Option SlotState) : predecessorIs al pred = true ↔ ∀ p, pred =
    some p → p ∈ al := by
  unfold predecessorIs
  cases pred with
  | none => simp
  | some x => simp

/-- The queue in front of an entry, and from it on. -/
theorem Ring.split_ready_at (front back : List ReadyEntry) (e : ReadyEntry) (k : SlotId) (he : e.slot = k)
    (h : ∀ p ∈ front, p.slot ≠ k) :
    (front ++ e :: back).dropWhile (fun e => e.slot != k) = e :: back ∧
      (front ++ e :: back).takeWhile (fun e => e.slot != k) = front := by
  induction front with
  | nil => simp [he]
  | cons a l ih =>
    obtain ⟨i1, i2⟩ := ih (fun p hp => h p (List.mem_cons_of_mem _ hp))
    have := h a (by simp)
    constructor
    · rw [List.cons_append, List.dropWhile_cons, if_pos (by simpa using this)]; exact i1
    · rw [List.cons_append, List.takeWhile_cons, if_pos (by simpa using this), i2]

end Sys2Proof.Machine
end

