-- ==== Sys2Proof/Laws/Table.lean ====
section
/-! SUPPORT. The outstanding table and the record tier, read as conditions on their entries and queues. -/

namespace Sys2Proof.Machine

/-- The lowest free entry. -/
theorem State.freeTag?_eq_some (s : State) (t : DownTag) :
    s.freeTag? = some t ↔ s.table[t] = none ∧ ∀ u, u < t → s.table[u] ≠ none := by
  have l : allTags = List.finRange 32 := by decide
  unfold State.freeTag?
  rw [l]
  constructor
  · intro h
    have h0 := List.find?_some h
    rw [List.find?_eq_some_iff_getElem] at h
    obtain ⟨h1, i, hi, e, h2⟩ := h
    refine ⟨by simpa using h0, fun u hu => ?_⟩
    have e' : t.val = i := by rw [← e]; simp
    have := h2 u.val (by rw [← e']; exact hu)
    intro hn; simp only [Fin.getElem_fin] at hn; simp [hn] at this
  · rintro ⟨h1, h2⟩
    rw [List.find?_eq_some_iff_getElem]
    refine ⟨by simp [h1], t.val, by simp, by simp, fun j hj => ?_⟩
    have := h2 ⟨j, by omega⟩ hj
    simp only [Fin.getElem_fin] at this
    simp [Option.isSome_iff_ne_none]; exact this

theorem State.freeTag?_eq_none (s : State) : s.freeTag? = none ↔ ∀ t : DownTag, s.table[t] ≠ none := by
  unfold State.freeTag?
  rw [List.find?_eq_none]
  constructor
  · intro h t; simpa using h t (allTags_complete t)
  · intro h t _; simpa using h t

theorem Ring.offers_eq_false (r : Ring) : r.offers = false ↔ r.moves = false ∨ r.records = [] := by
  unfold Ring.offers; cases r.moves <;> simp

theorem State.anyOffer_eq_false (s : State) : s.anyOffer = false ↔ ∀ i, (s.ring i).offers = false := by
  unfold State.anyOffer
  rw [List.any_eq_false]
  constructor
  · intro h i; simpa using h (s.ring i) (by simp [State.ring])
  · intro h r hr
    obtain ⟨k, hk, rfl⟩ := List.mem_iff_getElem.mp hr
    have hk' : k < 4 := by simpa using hk
    have := h ⟨k, hk'⟩
    simpa [State.ring] using this

theorem State.calm_of_calm {s : State} (h1 : s.reexamAsked = false) (h2 : s.walkChanged = false) : s.calm = s := by
  cases s
  simp only [State.calm, State.mk.injEq, true_and, and_true]
  exact ⟨h1.symm, h2.symm⟩

theorem State.grantRecords_of_noOffer (s : State) (h : s.anyOffer = false) : s.grantRecords = s :=
  State.grantRecords_of_granted s (by simp [State.granted, h])

/-- No entry belongs to ring i. -/
theorem State.ownsEntry_eq_false (i : RingId) (s : State) :
    s.ownsEntry i = false ↔ ∀ (t : DownTag) (e : Entry), s.table[t] = some e → entryRing e ≠ some i := by
  unfold State.ownsEntry
  rw [List.any_eq_false]
  constructor
  · intro h t e he
    have := h (s.table[t]) (by simp)
    rw [he] at this; simpa using this
  · intro h x hx
    obtain ⟨k, hk, rfl⟩ := List.mem_iff_getElem.mp hx
    have hk' : k < 32 := by simpa using hk
    cases he : s.table[k] with
    | none => simp [he]
    | some e => simpa [he] using h ⟨k, hk'⟩ e he

theorem State.anyOffer_congr {s t : State} (h : ∀ i, (t.ring i).offers = (s.ring i).offers) :
    t.anyOffer = s.anyOffer := by
  rw [Bool.eq_iff_iff]
  have := State.anyOffer_eq_false s
  have h2 := State.anyOffer_eq_false t
  constructor
  · intro x; by_contra y
    have y : s.anyOffer = false := by simpa using y
    have : t.anyOffer = false := h2.2 (fun i => (h i).trans (this.1 y i))
    rw [this] at x; cases x
  · intro x; by_contra y
    have y : t.anyOffer = false := by simpa using y
    have : s.anyOffer = false := this.2 (fun i => (h i).symm.trans (h2.1 y i))
    rw [this] at x; cases x

/-- What the test of an event's end reads. -/
theorem State.quiet_congr {s t : State} (h1 : t.reexamAsked = s.reexamAsked) (h2 : t.walkChanged = s.walkChanged)
    (h3 : t.table = s.table)
   (h4 : t.waiting = s.waiting) (h5 : t.resetLow = s.resetLow) (h6 : t.hold = s.hold) (h : ∀ i,
       (t.ring i).offers = (s.ring i).offers) : s.quiet = true → t.quiet = true := by
  intro q
  unfold State.quiet State.upstreamReady State.freeTag? at q ⊢
  rw [h1, h2, h3, h4, h5, h6, State.anyOffer_congr h]; exact q

end Sys2Proof.Machine
end

