-- ==== Sys2Proof/Laws/Parts.lean ====
section
/-! SUPPORT. What single operations leave alone: the budget at a close, the ports and the hold queue at a release,
    the parts of FAULT and ABORT entry, the last entry of a ready queue. -/

namespace Sys2Proof.Machine

/-- The fill slot is not on the free list. -/
theorem Ring.places_notFree {r : Ring} {k : SlotId} (p : r.placesSound) (ni : r.runState ≠ .idle)
    (h : r.fillSlot = some k) : k ∉ r.freeList := by
  obtain ⟨a, b, _⟩ := p ni
  have := (b k).mp h
  have := a k
  rw [if_neg (by simp_all)] at this
  exact List.count_eq_zero.mp this

theorem State.takeFree_notWaiting (i : RingId) (s : State) (h : (s.ring i).fillSub ≠ .waiting) :
    ((s.takeFree i).ring i).fillSub ≠ .waiting := by
  have t : ∀ r : Ring, r.fillSub ≠ .waiting → r.fillTake.fillSub ≠ .waiting := by
    intro r h; unfold Ring.fillTake; split
    · exact h
    · simp
  unfold State.takeFree
  split
  · dsimp only
    split <;> simp only [State.ring_askReexam, State.ring_noteChange, State.ring_modRing_self] <;> exact t _ h
  · exact h

/-- What the advance of a ready queue, a drain take and a record issue leave alone in a ring: everything of the fill side but
the queue's head, the descriptors and the commit, every slot's BASE, and every FREE slot. -/
structure Ring.Rests (r t : Ring) : Prop where
  runState : t.runState = r.runState
  active : t.active = r.active
  shadow : t.shadow = r.shadow
  budget : t.budgetRemaining = r.budgetRemaining
  commit : t.commitPending = r.commitPending
  lost : t.lostCause = r.lostCause
  cursor : t.fillCursor = r.fillCursor
  bytes : t.fillBytes = r.fillBytes
  mark : t.highMark = r.highMark
  gap : t.gapPending = r.gapPending
  timer : t.fillTimer = r.fillTimer
  free : t.freeList = r.freeList
  base : ∀ k, (t.slot k).base = (r.slot k).base
  freeSlot : ∀ k, (r.slot k).state = .free → t.slot k = r.slot k
  ready : ∃ front, r.ready = front ++ t.ready ∧
    (front = [] → t.drainSub = r.drainSub ∧ t.drainSlot = r.drainSlot) ∧
    ∀ e, front.getLast? = some e → t.drainSub = .draining ∧ t.drainSlot = some e.slot

theorem Ring.Rests.refl (r : Ring) : r.Rests r :=
  ⟨rfl, rfl, rfl, rfl, rfl, rfl, rfl, rfl, rfl, rfl, rfl, rfl, fun _ => rfl, fun _ _ => rfl,
    [], rfl, fun _ => ⟨rfl, rfl⟩, fun _ h => by simp at h⟩

theorem Ring.Rests.trans {a b c : Ring} (h : a.Rests b) (g : b.Rests c) : a.Rests c := by
  refine ⟨g.runState.trans h.runState, g.active.trans h.active, g.shadow.trans h.shadow, g.budget.trans h.budget,
    g.commit.trans h.commit, g.lost.trans h.lost, g.cursor.trans h.cursor, g.bytes.trans h.bytes, g.mark.trans h.mark,
    g.gap.trans h.gap, g.timer.trans h.timer, g.free.trans h.free, fun k => (g.base k).trans (h.base k), fun k hk => ?_, ?_⟩
  · exact (g.freeSlot k (by rw [h.freeSlot k hk]; exact hk)).trans (h.freeSlot k hk)
  · obtain ⟨x, x1, x2, x3⟩ := h.ready
    obtain ⟨y, y1, y2, y3⟩ := g.ready
    refine ⟨x ++ y, by rw [x1, y1, List.append_assoc], fun z => ?_, fun e z => ?_⟩
    · obtain ⟨z1, z2⟩ := List.append_eq_nil_iff.mp z
      exact ⟨(y2 z2).1.trans (x2 z1).1, (y2 z2).2.trans (x2 z1).2⟩
    · rcases List.eq_nil_or_concat y with w | ⟨y', l, w⟩
      · subst w
        rw [List.append_nil] at z
        exact ⟨(y2 rfl).1.trans (x3 e z).1, (y2 rfl).2.trans (x3 e z).2⟩
      · subst w
        rw [List.concat_eq_append, ← List.append_assoc, List.getLast?_concat] at z
        exact y3 e (by rw [List.concat_eq_append, List.getLast?_concat]; exact z)

/-- A slot that is not FREE takes another STATE. -/
theorem Ring.Rests.ofSlot {r t : Ring} (k : SlotId) (st : SlotState) (h : (r.slot k).state ≠ .free)
    (e : t = { r with slots := t.slots, attention := t.attention, records := t.records })
    (hs : t.slots = (r.setSlotState k st).slots) : r.Rests t := by
  have sl : ∀ j, t.slot j = (r.setSlotState k st).slot j := fun j => by unfold Ring.slot; rw [hs]
  have keep : ∀ j, j ≠ k → t.slot j = r.slot j := fun j hj => by
    rw [sl]; exact Ring.slot_modSlot_ne r k j _ hj
  have self : t.slot k = { r.slot k with state := st } := by rw [sl]; exact Ring.slot_modSlot_self r k _
  refine ⟨by rw [e], by rw [e], by rw [e], by rw [e], by rw [e], by rw [e], by rw [e], by rw [e], by rw [e], by rw [e],
    by rw [e], by rw [e], fun j => ?_, fun j hj => ?_,
    [], by rw [e]; rfl, fun _ => ⟨by rw [e], by rw [e]⟩, fun _ x => by simp at x⟩
  · by_cases x : j = k
    · subst x; rw [self]
    · rw [keep j x]
  · by_cases x : j = k
    · subst x; exact absurd hj h
    · exact keep j x

theorem Ring.rests_advanceOne (e : ReadyEntry) (pred : Option SlotState) (r : Ring) : r.Rests (r.advanceOne e pred) := by
  unfold Ring.advanceOne
  split
  · rename_i h
    have st : (r.slot e.slot).state ≠ .free := by
      simp only [Ring.closingAdvances, Bool.and_eq_true, beq_iff_eq] at h
      rw [h.1.1.2]; decide
    split
    · exact Ring.Rests.ofSlot e.slot .recording st rfl rfl
    · exact Ring.Rests.ofSlot e.slot .settled st rfl rfl
  · split
    · rename_i h
      have st : (r.slot e.slot).state ≠ .free := by
        simp only [Ring.recordingSettles, Bool.and_eq_true, beq_iff_eq] at h
        rw [h.1.1.2]; decide
      exact Ring.Rests.ofSlot e.slot .settled st rfl rfl
    · exact Ring.Rests.refl r

theorem Ring.rests_advanceFrom (es : List ReadyEntry) (pred : Option SlotState) (r : Ring) :
    r.Rests (Ring.advanceFrom es pred r) := by
  induction es generalizing pred r with
  | nil => exact Ring.Rests.refl r
  | cons e es ih => exact (Ring.rests_advanceOne e pred r).trans (ih _ _)

theorem Ring.rests_drainTake (r : Ring) (h : r.headSettled = true) : r.Rests r.drainTake := by
  unfold Ring.drainTake
  unfold Ring.headSettled at h
  split
  · exact Ring.Rests.refl r
  · rename_i e rest q
    rw [q] at h
    have st : (r.slot e.slot).state = .settled := by simpa using h
    have a := Ring.Rests.ofSlot (r := r) (t := r.setSlotState e.slot .draining) e.slot .draining (by rw [st]; decide) rfl rfl
    refine ⟨a.runState, a.active, a.shadow, a.budget, a.commit, a.lost, a.cursor, a.bytes, a.mark, a.gap, a.timer, a.free,
      a.base, a.freeSlot, [e], q, fun x => by simp at x, fun x hx => ?_⟩
    simp only [List.getLast?_singleton, Option.some.injEq] at hx
    subst hx
    exact ⟨rfl, rfl⟩

theorem Ring.rests_takeRecord (rest : List LogRecord) (r : Ring) : r.Rests (r.takeRecord rest) := by
  unfold Ring.takeRecord Ring.advanceLog
  split <;>
    exact ⟨rfl, rfl, rfl, rfl, rfl, rfl, rfl, rfl, rfl, rfl, rfl, rfl, fun _ => rfl, fun _ _ => rfl,
      [], rfl, fun _ => ⟨rfl, rfl⟩, fun _ h => by simp at h⟩

/-- The hold queue and the refusals are as they were, and every ring rests. -/
structure State.Rests (s t : State) : Prop where
  hold : t.hold = s.hold
  refusal : t.refusal = s.refusal
  laterCount : t.laterCount = s.laterCount
  globalAttn : t.globalAttn = s.globalAttn
  rings : ∀ i, (s.ring i).Rests (t.ring i)

theorem State.Rests.refl (s : State) : s.Rests s := ⟨rfl, rfl, rfl, rfl, fun _ => Ring.Rests.refl _⟩

theorem State.Rests.trans {a b c : State} (h : a.Rests b) (g : b.Rests c) : a.Rests c :=
  ⟨g.hold.trans h.hold, g.refusal.trans h.refusal, g.laterCount.trans h.laterCount, g.globalAttn.trans h.globalAttn,
    fun i => (h.rings i).trans (g.rings i)⟩

theorem State.rests_flags (s : State) (a b : Bool) : s.Rests { s with reexamAsked := a, walkChanged := b } :=
  ⟨rfl, rfl, rfl, rfl, fun _ => Ring.Rests.refl _⟩

theorem State.Rests.ofRing {s t : State} (i : RingId) (h1 : t.hold = s.hold) (h2 : t.refusal = s.refusal)
    (h3 : t.laterCount = s.laterCount) (h4 : t.globalAttn = s.globalAttn) (h : (s.ring i).Rests (t.ring i))
    (g : ∀ j, j ≠ i → t.ring j = s.ring j) : s.Rests t :=
  ⟨h1, h2, h3, h4, fun j => if e : j = i then e ▸ h else by rw [g j e]; exact Ring.Rests.refl _⟩

theorem State.rests_advanceRing (i : RingId) (s : State) : s.Rests (s.advanceRing i) := by
  have a : s.Rests (s.setRing i (s.ring i).advance) :=
    State.Rests.ofRing i rfl rfl rfl rfl (by rw [State.ring_setRing_self]; exact Ring.rests_advanceFrom _ _ _)
      fun j h => State.ring_setRing_ne _ _ _ _ h
  unfold State.advanceRing
  dsimp only
  split
  · exact a.trans (State.rests_flags _ true _)
  · exact a

theorem State.rests_takeSettled (i : RingId) (s : State) : s.Rests (s.takeSettled i) := by
  unfold State.takeSettled
  split
  · rename_i h
    simp only [Ring.drainMayTake, Bool.and_eq_true] at h
    have a : s.Rests (s.modRing i Ring.drainTake) :=
      State.Rests.ofRing i rfl rfl rfl rfl (by rw [State.ring_modRing_self]; exact Ring.rests_drainTake _ h.2)
        fun j e => State.ring_modRing_ne _ _ _ _ e
    exact (a.trans (State.rests_advanceRing i _)).trans (State.rests_flags _ true true)
  · exact State.Rests.refl s

theorem State.rests_settleRing (i : RingId) (s : State) : s.Rests (s.settleRing i) :=
  (State.rests_advanceRing i s).trans (State.rests_takeSettled i _)

theorem State.rests_grantRecords (s : State) : s.Rests s.grantRecords := by
  unfold State.grantRecords
  generalize 32 = n
  induction n generalizing s with
  | zero => exact State.Rests.refl s
  | succ n ih =>
    unfold State.grantRecordsUpTo
    split
    · exact State.Rests.refl s
    · rename_i j t h
      refine State.Rests.trans ?_ (ih t)
      unfold State.grantRecord? at h
      split at h
      · split at h
        · rename_i k _ _ _ x rest _
          simp only [Option.some.injEq, Prod.mk.injEq] at h
          obtain ⟨_, rfl⟩ := h
          refine State.Rests.ofRing k rfl rfl rfl rfl ?_ fun j e => ?_
          · show (s.ring k).Rests ((s.modRing k (Ring.takeRecord rest)).ring k)
            rw [State.ring_modRing_self]
            exact Ring.rests_takeRecord rest _
          · exact State.ring_modRing_ne s k j (Ring.takeRecord rest) e
        · cases h
      · cases h

/-- Steps 1 and 2 of a close: the ring with the closed slot queued, and what the cascade behind it leaves alone. -/
theorem State.rests_closeSlot (i : RingId) (k : SlotId) (c : CloseCause) (s : State) (h : (s.ring i).fillSlot = some k) :
    (s.modRing i (Ring.closeInto c k)).Rests (s.closeSlot i c) := by
  unfold State.closeSlot
  rw [h]
  refine ((State.rests_settleRing i (s.modRing i (Ring.closeInto c k))).trans (State.rests_grantRecords _)).trans ?_
  exact State.rests_flags _ _ true

/-- A response to an entry in use. -/
theorem exec_downstreamResponse_inUse {t x b} {s : State} {e : Entry} (h1 : b.length ≤ 256) (h2 : s.resetLow = false)
    (h3 : s.table[t] = some e) :
   exec (.downstreamResponse t x b) s = .next ((((s.fresh.freeEntry t).answerOwner e x b).testCompletion e).askReexam.finish) := by
  simp only [exec, execDownstreamResponse, h1, if_true]
  rw [if_neg (by rw [h2]; decide)]
  unfold State.takeResponse
  rw [show s.fresh.table[t] = some e from h3]

/-- A count that does not reach 0 in a CLOSING or RELEASING slot of a ring that moves. -/
theorem State.countResponse_of_plain {i k} {s : State}
    (h : ((s.ring i).slot k).outstanding - 1 ≠ 0 ∨ (s.ring i).moves = false ∨
    (((s.ring i).slot k).state ≠ .closing ∧ ((s.ring i).slot k).state ≠ .releasing)) :
    s.countResponse i k = s.modRing i (Ring.countDown k) := by
  unfold State.countResponse
  dsimp only
  rw [State.ring_modRing_self]
  have e : ((s.ring i).countDown k).slot k = { (s.ring i).slot k with outstanding :=
      ((s.ring i).slot k).outstanding - 1 } := by
    unfold Ring.countDown; rw [Ring.slot_modSlot_self]
  rw [e]
  have em : ((s.ring i).countDown k).moves = (s.ring i).moves := rfl
  rw [em]
  rcases h with h | h | h
  · rw [if_neg (by simp [h])]
  · rw [if_neg (by simp [h])]
  · split
    · split
      · rename_i x; exact absurd x h.1
      · rename_i x; exact absurd x h.2
      · rfl
    · rfl

theorem State.countResponse_of_zero {i k} {s : State} (h : ((s.ring i).slot k).outstanding - 1 = 0)
    (hm : (s.ring i).moves = true) :
    (((s.ring i).slot k).state = .closing → s.countResponse i k = (s.modRing i (Ring.countDown k)).settleRing i) ∧
    (((s.ring i).slot k).state = .releasing → s.countResponse i k = (s.modRing i (Ring.countDown k)).freeReleased i k) :=
        by
  unfold State.countResponse
  dsimp only
  rw [State.ring_modRing_self]
  have e : ((s.ring i).countDown k).slot k = { (s.ring i).slot k with outstanding :=
      ((s.ring i).slot k).outstanding - 1 } := by
    unfold Ring.countDown; rw [Ring.slot_modSlot_self]
  rw [e]
  have em : ((s.ring i).countDown k).moves = (s.ring i).moves := rfl
  rw [em]
  refine ⟨fun x => ?_, fun x => ?_⟩ <;> rw [if_pos (by simp [h, hm]), x]

theorem State.moves_enterFault (i c) (s : State) : (((s.enterFault i c)).ring i).moves = false := by
  unfold State.enterFault
  rw [State.ring_askReexam]
  have := (State.steady_answerHeld (isWaitOf i) .ringFault i (s.modRing i (Ring.enterFault c))).rings i
  unfold Ring.moves
  rw [this.runState, State.ring_modRing_self]
  unfold Ring.enterFault Ring.losePending; dsimp only
  split <;> rfl

theorem Ring.enterFault_eq (r : Ring) (c : FaultCause) : r.enterFault c = { r with
        runState := .fault
        faultCause := c
        fillSub := if r.fillSub = .waiting then .noSlot else r.fillSub
        drainSub := if r.drainSub = .waiting then .empty else r.drainSub
        fillTimer := none
        drainTimer := none
        commitPending := false
        lostCause := if r.commitPending then .faulted else r.lostCause
        attention := addCause .fault (if r.commitPending then addCause .commitLost r.attention else r.attention) } := by
  unfold Ring.enterFault Ring.losePending Ring.loseCommit Ring.attend
  cases h : r.commitPending <;> simp

theorem Ring.enterAbort_eq (r : Ring) : r.enterAbort = { r with
        runState := .aborting
        fillSub := .closed
        drainSub := if r.drainSub = .waiting then .empty else r.drainSub
        fillTimer := none
        drainTimer := none
        records := []
        commitPending := false
        lostCause := if r.commitPending then .aborted else r.lostCause
        attention := if r.commitPending then addCause .commitLost r.attention else r.attention } := by
  unfold Ring.enterAbort Ring.losePending Ring.loseCommit Ring.attend
  cases h : r.commitPending <;> simp

set_option maxHeartbeats 2000000 in
theorem State.releaseSlot_runState (i : RingId) (s : State) :
    ((s.releaseSlot i).ring i).runState = (s.ring i).runState ∧
    ((s.releaseSlot i).ring i).fillTimer = (s.ring i).fillTimer ∨ (s.ring i).fillSub ≠ .closed := by
  have rel : ∀ (d : SlotId) (r : Ring), (Ring.release d r).runState = r.runState ∧
      (Ring.release d r).fillTimer = r.fillTimer := fun d r => ⟨rfl, rfl⟩
  by_cases hc : (s.ring i).fillSub = .closed
  · left
    unfold State.releaseSlot
    split
    · exact ⟨rfl, rfl⟩
    · rename_i d hd
      dsimp only
      have tk : ∀ t : State, (((t.takeSettled i).askReexam).ring i).runState = (t.ring i).runState ∧
          (((t.takeSettled i).askReexam).ring i).fillTimer = (t.ring i).fillTimer := by
        intro t
        have ft : ∀ t : State, ((t.advanceRing i).ring i).fillTimer = (t.ring i).fillTimer := by
          intro t
          have : ∀ (es : List ReadyEntry) (p) (r : Ring), (Ring.advanceFrom es p r).fillTimer = r.fillTimer := by
            intro es
            induction es with
            | nil => intro p r; rfl
            | cons e es ih =>
              intro p r
              refine (ih _ _).trans ?_
              unfold Ring.advanceOne
              repeat' split
              all_goals rfl
          unfold State.advanceRing; dsimp only; split
          · rw [State.ring_askReexam, State.ring_setRing_self]; exact this _ _ _
          · rw [State.ring_setRing_self]; exact this _ _ _
        refine ⟨((State.steady_takeSettled i t).rings i).runState.symm.symm, ?_⟩
        rw [State.ring_askReexam]
        unfold State.takeSettled; split
        · rw [State.ring_noteChange, State.ring_askReexam, ft, State.ring_modRing_self]
          unfold Ring.drainTake; split <;> rfl
        · rfl
      split
      · obtain ⟨t1, t2⟩ := tk ((s.modRing i (Ring.release d)).freeReleased i d)
        rw [t1, t2]
        have c : (((s.modRing i (Ring.release d)).modRing i (Ring.freeReleased d)).ring i).fillSub = .closed := by
          rw [State.ring_modRing_self]
          show (((s.modRing i (Ring.release d)).ring i)).fillSub = .closed
          rw [State.ring_modRing_self]; exact hc
        unfold State.freeReleased
        rw [State.takeFree_closed i _ c, State.ring_modRing_self, State.ring_modRing_self]
        exact ⟨(rel d _).1, (rel d _).2⟩
      · obtain ⟨t1, t2⟩ := tk (s.modRing i (Ring.release d))
        rw [t1, t2, State.ring_modRing_self]; exact rel d _
  · right; exact hc

theorem State.advanceRing_sent (i) (s : State) : (s.advanceRing i).sent = s.sent ∧ (s.advanceRing i).hold = s.hold := by
  unfold State.advanceRing; dsimp only; split <;> exact ⟨rfl, rfl⟩

theorem State.takeSettled_sent (i) (s : State) : (s.takeSettled i).sent = s.sent ∧ (s.takeSettled i).hold = s.hold := by
  unfold State.takeSettled; split
  · exact ⟨(State.advanceRing_sent i _).1, (State.advanceRing_sent i _).2⟩
  · exact ⟨rfl, rfl⟩

theorem State.takeFree_sent (i) (s : State) : (s.takeFree i).sent = s.sent ∧ (s.takeFree i).hold = s.hold := by
  unfold State.takeFree; split
  · dsimp only; split <;> exact ⟨rfl, rfl⟩
  · exact ⟨rfl, rfl⟩

theorem State.releaseSlot_sent (i) (s : State) : (s.releaseSlot i).sent = s.sent ∧ (s.releaseSlot i).hold = s.hold := by
  unfold State.releaseSlot; split
  · exact ⟨rfl, rfl⟩
  · rename_i d _
    dsimp only
    let u := if (((s.ring i).slot d).outstanding == 0) = true then (s.modRing i (Ring.release d)).freeReleased i d
      else s.modRing i (Ring.release d)
    obtain ⟨a, b⟩ := State.takeSettled_sent i u
    have : u.sent = s.sent ∧ u.hold = s.hold := by
      dsimp only [u]
      split
      · exact State.takeFree_sent i _
      · exact ⟨rfl, rfl⟩
    exact ⟨a.trans this.1, b.trans this.2⟩

theorem State.hold_grantRecords (s : State) : s.grantRecords.hold = s.hold := (State.rests_grantRecords s).hold

theorem State.hold_stopFillSlot (i) (s : State) : (s.stopFillSlot i).hold = s.hold := by
  unfold State.stopFillSlot; dsimp only
  split
  · split
    · show (s.closeSlot i .stop).hold = _
      cases h : (s.ring i).fillSlot with
      | none => unfold State.closeSlot; rw [h]
      | some k => exact (State.rests_closeSlot i k .stop s h).hold
    · rfl
  · rfl

theorem allSlots_eq : allSlots = List.finRange 8 := by decide

theorem usedSlots_of_two (n : Nat) (h : 2 ≤ n) :
    allSlots.filter (fun k => decide (k.val < n)) = 0 :: (List.finRange 8).filter fun k => decide (1 ≤ k.val) && decide (k.val < n) := by
  by_cases h9 : n ≤ 8
  · interval_cases n <;> decide
  · have e1 : allSlots.filter (fun k => decide (k.val < n)) = allSlots := by
      rw [List.filter_eq_self]; intro k _; have := k.isLt; simp; omega
    have e2 : ((List.finRange 8).filter fun k => decide (1 ≤ k.val) && decide (k.val < n)) = (List.finRange 8).filter fun k => decide (1 ≤ k.val) := by
      apply List.filter_congr; intro k _; have := k.isLt
      have : decide (k.val < n) = true := by simp; omega
      simp [this]
    rw [e1, e2]; decide

theorem Ring.foldl_free (ks : List SlotId) (r : Ring) :
    ks.foldl (fun x k => x.setSlotState k .free) r = { r with
      slots := Vector.ofFn fun k : SlotId =>
        if k ∈ ks then { r.slot k with state := .free } else r.slot k } := by
  induction ks generalizing r with
  | nil =>
    have : (Vector.ofFn fun k : SlotId => r.slot k) = r.slots := by
      apply Vector.ext; intro j hj; simp [Ring.slot]
    simp [this]
  | cons a l ih =>
    rw [List.foldl_cons, ih]
    unfold Ring.setSlotState Ring.modSlot
    dsimp only
    congr 1
    apply Vector.ext
    intro j hj
    simp only [Vector.getElem_ofFn, Ring.slot, Fin.getElem_fin, Vector.getElem_set, List.mem_cons]
    by_cases h1 : a.val = j
    · subst h1; simp
    · have : ¬ (⟨j, hj⟩ : SlotId) = a := fun x => h1 (by rw [← x])
      simp [h1, this]

/-- The queue from its last entry on, and before it. -/
theorem readyTail_split (front : List ReadyEntry) (e : ReadyEntry) (k : SlotId) (he : e.slot = k)
    (h : ∀ p ∈ front, p.slot ≠ k) :
    (front ++ [e]).dropWhile (fun e => e.slot != k) = [e] ∧ (front ++ [e]).takeWhile (fun e => e.slot != k) = front := by
  induction front with
  | nil => simp [he]
  | cons a l ih =>
    obtain ⟨i1, i2⟩ := ih (fun p hp => h p (List.mem_cons_of_mem _ hp))
    have := h a (by simp)
    constructor
    · rw [List.cons_append, List.dropWhile_cons, if_pos (by simpa using this)]; exact i1
    · rw [List.cons_append, List.takeWhile_cons, if_pos (by simpa using this), i2]

/-- Whether the last entry settled. -/
theorem settledSince_tail (front : List ReadyEntry) (e : ReadyEntry) (k : SlotId) (r v : Ring)
    (hr : r.ready = front ++ [e]) (he : e.slot = k)
    (h : ∀ p ∈ front, p.slot ≠ k) (hs : (r.slot k).state ≠ .settled) (hv : ∀ j, j ≠ k →
        (v.slot j).state = (r.slot j).state) :
    settledSince r v = ((v.slot k).state == .settled) := by
  unfold settledSince
  rw [hr, List.any_append]
  have : (front.any fun e => (r.slot e.slot).state != .settled && (v.slot e.slot).state == .settled) = false := by
    rw [List.any_eq_false]
    intro p hp
    rw [hv p.slot (h p hp)]
    simp
  rw [this]
  simp [he, hs]

theorem Ring.setSlotState_of_ne (k j : SlotId) (st) (r : Ring) (h : j ≠ k) :
    ((r.setSlotState k st).slot j).state = (r.slot j).state := by
  unfold Ring.setSlotState Ring.modSlot Ring.slot
  simp only [Fin.getElem_fin, Vector.getElem_set]
  rw [if_neg (fun x => h (Fin.ext x.symm))]

end Sys2Proof.Machine
end

