-- ==== Sys2Proof/Laws/Port.lean ====
section
/-! SUPPORT. What the bits of a frame can do: four kinds of change, and no word written where none is complete. -/

namespace Sys2Proof.Machine

/-- Everything one bit can do: the frame moves on, a word is sampled, a word is written, the free value's counter moves. -/
theorem State.takeBit_induct {P : State → Prop} (b : Bool) (s : State) (h : P s)
    (frame : ∀ f t, P t → P (t.setFrame f)) (free : ∀ t : State, P t → P { t with choices := t.choices + 1 })
    (sample : ∀ a t, P t → P (t.sample a)) (word : ∀ a w t, P t → P (t.writeWord a w)) : P (s.takeBit b) := by
  unfold State.takeBit
  split
  · exact h
  · exact free s h
  · exact h
  · exact frame _ s h
  · unfold State.takeWriteBit
    split
    · exact frame _ s h
    · exact word _ _ _ (frame _ s h)
  · split
    · exact frame _ s h
    · exact sample _ s h
  · split
    · exact frame _ s h
    · exact sample _ s h

/-- What the start of a frame has and every one of those changes keeps, the bits of a FRAME_BEGIN leave. -/
theorem State.takeFrameBits_induct {P : State → Prop} (mosi : List Bool) (s : State) (h : P s.fresh.openFrame)
    (frame : ∀ f t, P t → P (t.setFrame f)) (free : ∀ t : State, P t → P { t with choices := t.choices + 1 })
    (sample : ∀ a t, P t → P (t.sample a)) (word : ∀ a w t, P t → P (t.writeWord a w)) : P (s.takeFrameBits mosi) := by
  unfold State.takeFrameBits
  generalize s.fresh.openFrame = t at h
  induction mosi generalizing t with
  | nil => exact h
  | cons b bs ih => exact ih _ (State.takeBit_induct b t h frame free sample word)

/-- The bits that a frame still takes before a word of a write frame is complete, if it can be one. -/
def Frame.room : Frame → Option Nat
  | .header taken => some (55 - taken.length)
  | .write _ moving => some (31 - moving.length)
  | .none | .blocked | .ignored | .turnaround _ _ | .read _ _ => Option.none

theorem headerFrame_room (bits : List Bool) (n : Nat) (h : bits.length + n < 56) :
    ∀ m, (headerFrame bits).room = some m → n ≤ m := by
  intro m
  unfold headerFrame
  dsimp only
  repeat' split
  all_goals
    intro e
    simp only [Frame.room, Option.some.injEq, reduceCtorEq, List.length_nil] at e
    try omega

/-- The bits of a FRAME_BEGIN that complete no word change the port, what is sent, and the free value's counter alone. -/
theorem State.takeFrameBits_noWord (mosi : List Bool) (s : State) (h : s.completesNoWord mosi = true) :
    ∃ f l n, s.takeFrameBits mosi = { s with port := ⟨true, f⟩, sent := l, choices := n } := by
  have go : ∀ (bs : List Bool) (t : State), (∀ m, t.port.frame.room = some m → bs.length ≤ m) →
      ∃ f l n, bs.foldl State.takeBit t = { t with port := ⟨t.port.csLow, f⟩, sent := l, choices := n } := by
    intro bs
    induction bs with
    | nil => exact fun t _ => ⟨t.port.frame, t.sent, t.choices, rfl⟩
    | cons b bs ih =>
      intro t ht
      have one : ∃ f l n, t.takeBit b = { t with port := ⟨t.port.csLow, f⟩, sent := l, choices := n } ∧
          ∀ m, f.room = some m → bs.length ≤ m := by
        unfold State.takeBit
        split <;> rename_i e
        · exact ⟨t.port.frame, t.sent, t.choices, rfl, fun m x => by simp [e, Frame.room] at x⟩
        · exact ⟨t.port.frame, t.sent, t.choices + 1, rfl, fun m x => by simp [e, Frame.room] at x⟩
        · exact ⟨t.port.frame, t.sent, t.choices, rfl, fun m x => by simp [e, Frame.room] at x⟩
        · rename_i taken
          have := ht _ (by rw [e]; rfl)
          refine ⟨_, t.sent, t.choices, rfl, headerFrame_room _ _ ?_⟩
          simp only [List.length_cons, List.length_append, List.length_nil] at this ⊢
          omega
        · rename_i a moving
          have := ht _ (by rw [e]; rfl)
          simp only [List.length_cons] at this
          refine ⟨.write a (moving ++ [b]), t.sent, t.choices, ?_, fun m x => ?_⟩
          · unfold State.takeWriteBit
            rw [if_pos (by simp only [List.length_append, List.length_cons, List.length_nil]; omega)]
            rfl
          · simp only [Frame.room, Option.some.injEq, List.length_append, List.length_cons, List.length_nil] at x
            omega
        · split
          · exact ⟨_, t.sent, t.choices, rfl, fun m x => by simp [Frame.room] at x⟩
          · exact ⟨_, _, t.choices, rfl, fun m x => by simp [Frame.room] at x⟩
        · split
          · exact ⟨_, t.sent, t.choices, rfl, fun m x => by simp [Frame.room] at x⟩
          · exact ⟨_, _, t.choices, rfl, fun m x => by simp [Frame.room] at x⟩
      obtain ⟨f, l, n, e, r⟩ := one
      obtain ⟨f', l', n', e'⟩ := ih (t.takeBit b) (by rw [e]; exact r)
      exact ⟨f', l', n', by rw [List.foldl_cons, e', e]⟩
  obtain ⟨f, l, n, e⟩ := go mosi s.fresh.openFrame (by
    intro m x
    unfold State.completesNoWord at h
    unfold State.openFrame at x
    have c : s.fresh.port = s.port := rfl
    rw [c] at x
    by_cases lo : s.port.csLow = true
    · rw [if_pos lo] at h x
      rw [c] at x
      revert h x
      cases s.port.frame <;> simp [Frame.room] <;> intros <;> omega
    · rw [if_neg lo] at h x
      revert h x
      show (decide ((0 : Nat) + mosi.length < 56) = true) →
        Frame.room (if s.resetLow then .none else .header []) = some m → mosi.length ≤ m
      cases s.resetLow <;> simp [Frame.room] <;> intros <;> omega)
  refine ⟨f, l, n, ?_⟩
  unfold State.takeFrameBits
  rw [e]
  unfold State.openFrame
  split
  · rename_i lo
    show { s with port := ⟨s.port.csLow, f⟩, sent := l, choices := n } = _
    rw [show s.port.csLow = true from lo]
  · rfl

end Sys2Proof.Machine
end

