-- ==== Sys2Proof/Laws/Takes.lean ====
section
/-! SUPPORT. What the shared takes, tests and departures can do: the two sides' takes, the test of a whole ready queue, the
conditions of the return to IDLE, and the departure of a held wait. -/

namespace Sys2Proof.Machine

/-- The ring after the drain side's take of the head e (01 R11, 03 R47, R49). -/
theorem Ring.drainTake_cons {r : Ring} {e : ReadyEntry} {rest : List ReadyEntry} (h : r.ready = e :: rest) :
    r.drainTake = { r with
      slots := r.slots.set e.slot { r.slot e.slot with state := .draining }
      ready := rest
      drainSlot := some e.slot
      drainSub := .draining
      drainCursor := 0
      bytesRead := 0
      underrunNoted := false
      drainTimer := none } := by
  unfold Ring.drainTake; rw [h]; rfl

/-- A drain side that may take makes the take, and the entries behind the head are tested from it on (01 R8, 03 R49). -/
theorem State.takeSettled_of_mayTake {i : RingId} {s : State} (h : (s.ring i).drainMayTake = true) :
    s.takeSettled i = { s with
      reexamAsked := true
      walkChanged := true
      rings := s.rings.set i (Ring.advance (s.ring i).drainTake) } := by
  unfold State.takeSettled
  rw [if_pos h]
  have rs : ∀ x, (s.modRing i Ring.drainTake).setRing i x = { s with rings := s.rings.set i x } := by
    intro x; unfold State.modRing State.setRing; dsimp only; rw [Vector.set_set]
  unfold State.advanceRing
  dsimp only
  rw [State.ring_modRing_self, rs]
  split <;> rfl

/-- A drain side that may not take leaves the state as it is. -/
theorem State.takeSettled_of_not {i : RingId} {s : State} (h : (s.ring i).drainMayTake = false) : s.takeSettled i = s := by
  unfold State.takeSettled
  rw [if_neg (by rw [h]; decide)]

/-- The test of a whole ready queue, and what it hands on (01 R8, R10). -/
theorem State.settleRing_eq (i : RingId) (s : State) : s.settleRing i = State.takeSettled i { s with
    rings := s.rings.set i (s.ring i).advance
    reexamAsked := settledSince (s.ring i) (s.ring i).advance || s.reexamAsked } := by
  unfold State.settleRing State.advanceRing
  dsimp only
  cases settledSince (s.ring i) (s.ring i).advance <;> rfl

/-- A fill side that may take makes the take; from WAITING it asks for a re-examination (02 R21). -/
theorem State.takeFree_of_mayTake {i : RingId} {s : State} (h : (s.ring i).fillMayTake = true) :
    s.takeFree i = { s with
      walkChanged := true
      reexamAsked := if (s.ring i).fillSub = .waiting then true else s.reexamAsked
      rings := s.rings.set i (s.ring i).fillTake } := by
  unfold State.takeFree
  rw [if_pos h]
  dsimp only
  by_cases w : (s.ring i).fillSub = .waiting
  · rw [if_pos (by rw [w]; rfl), if_pos w]; rfl
  · rw [if_neg (by simpa using w), if_neg w]; rfl

/-- A fill side that may not take leaves the state as it is. -/
theorem State.takeFree_of_not {i : RingId} {s : State} (h : (s.ring i).fillMayTake = false) : s.takeFree i = s := by
  unfold State.takeFree
  rw [if_neg (by rw [h]; decide)]

/-- The seven conditions of the return to IDLE (06 R110). -/
theorem State.endingDone_iff (i : RingId) (s : State) : s.endingDone i = true ↔
    (s.ring i).runState = .ending ∧ (s.ring i).fillSub = .closed ∧ (s.ring i).ready = [] ∧ (s.ring i).drainSub = .empty ∧
    (s.ring i).releasing = [] ∧ (s.ring i).records = [] ∧
    (∀ h ∈ s.hold, h.reason ≠ .fillWait i ∧ h.reason ≠ .drainWait i) ∧ s.ownsEntry i = false := by
  unfold State.endingDone State.anyFillWait State.anyDrainWait
  simp only [Bool.and_eq_true, beq_iff_eq, Bool.not_eq_true', List.isEmpty_iff, and_assoc, List.any_eq_false]
  refine and_congr Iff.rfl (and_congr Iff.rfl (and_congr Iff.rfl (and_congr Iff.rfl (and_congr Iff.rfl
    (and_congr Iff.rfl ?_)))))
  rw [← and_assoc]
  exact and_congr ⟨fun ⟨a, b⟩ h m => ⟨a h m, b h m⟩, fun a => ⟨fun h m => (a h m).1, fun h m => (a h m).2⟩⟩ Iff.rfl

/-- A held entry that leaves the queue at its place, with what its departure brings (09 R148, 02 R19, 03 R46). -/
theorem State.leave_at {front back : List Held} {h : Held} {s : State} (e : s.hold = front ++ h :: back)
    (f : ∀ g ∈ front, g.order ≠ h.order) (b : ∀ g ∈ back, g.order ≠ h.order) :
    s.leave (some h.order) = State.afterDeparture h.reason { s with hold := front ++ back, walkChanged := true } := by
  unfold State.leave
  dsimp only
  rw [State.held?_at e f]
  dsimp only
  rw [State.removeHeld_at e f b]

end Sys2Proof.Machine
end

