-- ==== Sys2Proof/Laws/Words.lean ====
section
/-! SUPPORT. The bits of a packed word and of the two words of a 40-bit base. -/

namespace Sys2Proof.Machine

theorem getLsbD_field (v w low n : Nat) : (BitVec.ofNat 32 (v % 2 ^ w) <<< low).getLsbD n =
    (decide (n < 32) && decide (low ≤ n) && decide (n - low < w) && v.testBit (n - low)) := by
  rw [BitVec.getLsbD_shiftLeft]
  by_cases h1 : n < 32
  · by_cases h2 : low ≤ n
    · have h3 : n - low < 32 := by omega
      simp only [BitVec.getLsbD_ofNat, Nat.testBit_mod_two_pow, h1, h2, h3, Nat.not_lt.mpr h2]
      simp
    · simp [h1, h2, Nat.lt_of_not_le h2]
  · simp [h1]

/-- A bit of a packed word is that of the field that covers it. -/
theorem getLsbD_packWord (fs : List Field) (n : Nat) : (packWord fs).getLsbD n =
    fs.any fun f => decide (n < 32) && decide (f.low ≤ n) && decide (n - f.low < f.width) &&
      f.value.testBit (n - f.low) := by
  have go : ∀ (fs : List Field) (w : Word),
      (fs.foldl (fun w f => w ||| (BitVec.ofNat 32 (f.value % 2 ^ f.width) <<< f.low)) w).getLsbD n =
      (w.getLsbD n || fs.any fun f => decide (n < 32) && decide (f.low ≤ n) && decide (n - f.low < f.width) &&
        f.value.testBit (n - f.low)) := by
    intro fs
    induction fs with
    | nil => intro w; simp
    | cons f fs ih =>
      intro w
      rw [List.foldl_cons, ih, BitVec.getLsbD_or, getLsbD_field, List.any_cons, Bool.or_assoc]
  exact (go fs 0).trans (by simp)

theorem testBit_toNat_bool (b : Bool) (n : Nat) : b.toNat.testBit n = (b && decide (n = 0)) := by
  cases b
  · simp
  · cases n
    · rfl
    · simp [Nat.testBit_succ]

theorem baseLow_withBaseLow (a : Addr) (w : Word) : baseLow (withBaseLow a w) = w := by
  apply BitVec.eq_of_getLsbD_eq
  intro n hn
  unfold baseLow withBaseLow
  rw [BitVec.getLsbD_extractLsb', Nat.zero_add, BitVec.getLsbD_append]
  simp [hn]

theorem baseHigh_withBaseHigh (a : Addr) (w : Word) : baseHigh (withBaseHigh a w) = w &&& 0xFF#32 := by
  apply BitVec.eq_of_getLsbD_eq
  intro n hn
  unfold baseHigh withBaseHigh
  simp only [BitVec.getLsbD_setWidth, BitVec.getLsbD_extractLsb', BitVec.getLsbD_append, BitVec.getLsbD_and]
  interval_cases n <;> simp

theorem baseLow_withBaseHigh (a : Addr) (w : Word) : baseLow (withBaseHigh a w) = baseLow a := by
  apply BitVec.eq_of_getLsbD_eq
  intro n hn
  unfold baseLow withBaseHigh
  rw [BitVec.getLsbD_extractLsb', Nat.zero_add, BitVec.getLsbD_append, BitVec.getLsbD_extractLsb']
  simp [hn]

theorem baseHigh_withBaseLow (a : Addr) (w : Word) : baseHigh (withBaseLow a w) = baseHigh a := by
  apply BitVec.eq_of_getLsbD_eq
  intro n hn
  unfold baseHigh withBaseLow
  simp only [BitVec.getLsbD_setWidth, BitVec.getLsbD_extractLsb', BitVec.getLsbD_append]
  interval_cases n <;> simp

/-- Two fields share no bit. -/
def Field.apart (f g : Field) : Prop := f.low + f.width ≤ g.low ∨ g.low + g.width ≤ f.low

/-- A word packed from fields that share no bit holds each of them, and 0 elsewhere. -/
theorem wordHolds_packWord (fs : List Field) (ha : fs.Pairwise Field.apart) (hb : ∀ f ∈ fs, f.low + f.width ≤ 32) :
    wordHolds (packWord fs) (fs.map fun f => (f.low, f.width, f.value)) := by
  have same : ∀ f ∈ fs, ∀ g ∈ fs, f = g ∨ f.apart g := by
    intro f hf g hg
    exact List.Pairwise.forall_of_forall_of_flip (R := fun f g : Field => f = g ∨ f.apart g) (l := fs)
      (fun _ _ => Or.inl rfl) (ha.imp fun h => Or.inr h) (ha.imp fun h => Or.inr h.symm) hf hg
  refine ⟨fun x hx => ?_, fun b hb32 hn => ?_⟩
  · obtain ⟨f, hf, rfl⟩ := List.mem_map.mp hx
    apply BitVec.eq_of_getLsbD_eq
    intro k hk
    have hw : k < f.width := hk
    have := hb f hf
    rw [BitVec.getLsbD_extractLsb', getLsbD_packWord, BitVec.getLsbD_ofNat]
    simp only [hw, decide_true, Bool.true_and]
    cases hv : f.value.testBit k
    · rw [List.any_eq_false]
      intro g hg
      rcases same f hf g hg with rfl | d
      · simp [hv]
      · unfold Field.apart at d
        simp only [Bool.and_eq_true, decide_eq_true_eq, not_and]
        intro h1
        omega
    · rw [List.any_eq_true]
      refine ⟨f, hf, ?_⟩
      simp only [Bool.and_eq_true, decide_eq_true_eq]
      exact ⟨⟨⟨by omega, by omega⟩, by omega⟩, by rw [Nat.add_sub_cancel_left]; exact hv⟩
  · rw [getLsbD_packWord, List.any_eq_false]
    intro g hg
    have : b < g.low ∨ g.low + g.width ≤ b := hn _ (List.mem_map.mpr ⟨g, hg, rfl⟩)
    simp only [Bool.and_eq_true, decide_eq_true_eq, not_and]
    intro h1
    omega

/-- A word that is packed from fields that share no bit holds their values. -/
theorem wordHolds_of_pack {w : Word} {fields : List (Nat × Nat × Nat)} (fs : List Field) (e : w = packWord fs)
    (m : fs.map (fun f => (f.low, f.width, f.value)) = fields) (ha : fs.Pairwise Field.apart)
    (hb : ∀ f ∈ fs, f.low + f.width ≤ 32) : wordHolds w fields := by
  subst e; subst m; exact wordHolds_packWord fs ha hb

/-- The high word of a 40-bit base holds bits 39:32. -/
theorem wordHolds_baseHigh (a : Addr) : wordHolds (baseHigh a) [(0, 8, (a.extractLsb' 32 8).toNat)] := by
  refine ⟨?_, ?_⟩
  · intro f hf
    simp only [List.mem_singleton] at hf
    subst hf
    apply BitVec.eq_of_getLsbD_eq
    intro n hn
    unfold baseHigh
    simp only [BitVec.getLsbD_extractLsb', BitVec.getLsbD_setWidth, BitVec.ofNat_toNat]
    have : n < 8 := hn
    interval_cases n <;> simp
  · intro b hb h
    have := h _ (List.mem_singleton.mpr rfl)
    unfold baseHigh
    rw [BitVec.getLsbD_setWidth, BitVec.getLsbD_extractLsb']
    have : ¬ b < 8 := by
      rcases this with h | h
      · exact absurd h (by simp)
      · simpa using h
    simp [this]

/-- The words of ring i's block are those of the ring (12 R174). -/
theorem State.ringWord_eq (i : RingId) (off : Nat) (h : off < 0x400) (s : State) : s.ringWord i off =
    (s.ring i).readWord off := by
  unfold State.ringWord State.readWord
  have e : (BitVec.ofNat 16 (0x1000 + 0x400 * i.val + off)).toNat = 0x1000 + 0x400 * i.val + off := by
    rw [BitVec.toNat_ofNat]; have := i.isLt; omega
  rw [e]
  dsimp only
  have := i.isLt
  rw [if_neg (by omega), if_pos (by omega)]
  have e1 : (0x1000 + 0x400 * i.val + off - 0x1000) / 0x400 = i.val := by omega
  have e2 : (0x1000 + 0x400 * i.val + off - 0x1000) % 0x400 = off := by omega
  rw [e1, e2]
  have : Fin.ofNat 4 i.val = i := by simp
  rw [this]

/-- A stall timer as it is read (12 Table 12-5). -/
theorem timerWord_spec (x : Option Nat) : (x = none → timerWord x = 0) ∧ ∀ n, x =
    some n → wordHolds (timerWord x) [(31, 1, 1), (0, 16, n)] := by
  refine ⟨fun h => by rw [h]; rfl, fun n h => ?_⟩
  rw [h]
  exact wordHolds_of_pack _ rfl rfl (by simp [Field.apart]) (by simp)

/-- One more bit, most significant first. -/
theorem bitsToNat_append (xs : List Bool) (b : Bool) : bitsToNat (xs ++ [b]) = 2 * bitsToNat xs + b.toNat := by
  unfold bitsToNat; rw [List.foldl_append]; simp

/-- The bits of a word, most significant first (10 R160). -/
theorem wordBits_getElem? (w : Word) (j : Nat) (h : j < 32) : (wordBits w)[j]? = some (w.getLsbD (31 - j)) := by
  unfold wordBits; simp [h]

/-- The word that its own bits spell. -/
theorem ofNat_bitsToNat_wordBits (w : Word) : BitVec.ofNat 32 (bitsToNat (wordBits w)) = w := by
  have g : ∀ n, n ≤ 32 → bitsToNat ((List.range n).map fun i => w.getLsbD (31 - i)) = w.toNat / 2 ^ (32 - n) := by
    intro n
    induction n with
    | zero => intro _; show 0 = _; rw [Nat.div_eq_of_lt w.isLt]
    | succ n ih =>
      intro hn
      rw [List.range_succ, List.map_append, List.map_singleton, bitsToNat_append, ih (by omega)]
      have e : w.getLsbD (31 - n) = w.toNat.testBit (31 - n) := rfl
      rw [e, show 32 - n = (31 - n) + 1 by omega, show 32 - (n + 1) = 31 - n by omega, Nat.pow_succ,
        ← Nat.div_div_eq_div_mul]
      rw [Nat.testBit_eq_decide_div_mod_eq]
      generalize w.toNat / 2 ^ (31 - n) = x
      rcases Nat.mod_two_eq_zero_or_one x with h | h <;> simp [h] <;> omega
  have := g 32 (by omega)
  unfold wordBits
  rw [this]
  simp

/-- The fields of a command word are those it was built from. -/
theorem commandWord_fields (c : CommandKind) (n : RingField) (g : Bool) (causes : BitVec 10) :
    ((commandWord c n g causes).extractLsb' 0 4).toNat = commandCode c ∧
    Fin.ofNat 8 ((commandWord c n g causes).extractLsb' 4 3).toNat = n ∧
    (commandWord c n g causes).getLsbD 7 = g ∧ (commandWord c n g causes).extractLsb' 16 10 = causes := by
  have bit : ∀ k, (commandWord c n g causes).getLsbD k = _ := fun k => getLsbD_packWord _ k
  simp only [List.any_cons, List.any_nil, Bool.or_false, testBit_toNat_bool, BitVec.testBit_toNat] at bit
  have e1 : (commandWord c n g causes).extractLsb' 0 4 = BitVec.ofNat 4 (commandCode c) := by
    apply BitVec.eq_of_getLsbD_eq
    intro k hk
    rw [BitVec.getLsbD_extractLsb', bit, BitVec.getLsbD_ofNat]
    interval_cases k <;> simp [Nat.testBit_zero]
  have e2 : (commandWord c n g causes).extractLsb' 4 3 = BitVec.ofNat 3 n.val := by
    apply BitVec.eq_of_getLsbD_eq
    intro k hk
    rw [BitVec.getLsbD_extractLsb', bit, BitVec.getLsbD_ofNat]
    interval_cases k <;> simp [Nat.testBit_zero]
  refine ⟨?_, ?_, ?_, ?_⟩
  · rw [e1]; cases c <;> rfl
  · have h : ∀ m : RingField, Fin.ofNat 8 (BitVec.ofNat 3 m.val).toNat = m := by decide
    rw [e2]; exact h n
  · rw [bit]; simp
  · apply BitVec.eq_of_getLsbD_eq
    intro k hk
    rw [BitVec.getLsbD_extractLsb', bit]
    interval_cases k <;> simp

end Sys2Proof.Machine
end

