-- ==== Sys2Proof/Tests/Slice0.lean ====
section
/-! SUPPORT. The author's own tests: what the well-formedness check refuses, single commands on small states, and for every
statement states that meet its hypotheses, each clause of it at the edge of its range. -/

namespace Sys2Proof.Slice0Tests

/- One test after another: each waits for the kernel's check of what stands before it, and side by side they would wait in
as many threads. -/
set_option Elab.async false

open Sys2Proof.Machine

/-! ### Small states -/

/-- A valid MAPPED descriptor: three slots of 1000h bytes, apertures of 10000h bytes. -/
def plain : Descriptor := { Descriptor.zero with
  fillBase := 0x80000000#40
  drainBase := 0x80010000#40
  aperSize := 0x10000#32
  slotSize := 0x1000#32
  slotCount := 3
  slotBase := #v[0x40000000#40, 0x40001000#40, 0x40002000#40, 0, 0, 0, 0, 0] }

/-- Ring 0 after COMMIT and START of a descriptor: RUNNING, FILLING slot 0. -/
def begun (d : Descriptor) : Ring := Ring.begin { Ring.zero with shadow := d, active := d, activeValid := true }

/-- The state after reset with a given ring 0. -/
def with0 (r : Ring) : State := State.reset.setRing 0 r

/-- Ring 0 with slot 0 at a STATE. -/
def at0 (x : SlotState) (r : Ring) : Ring := r.setSlotState 0 x

/-- Ring 0 with no fill slot, slot 0 at the head of the ready queue in a STATE, slots 1 and 2 free but unlisted. -/
def noSlot (x : SlotState) (d : Descriptor) : Ring :=
  { at0 x (begun d) with fillSub := .noSlot, fillSlot := none, ready := [⟨0, false⟩], freeList := [] }

/-- Ring 0 within a close: slot 0 has left the fill side, with n writes in flight, and no fill slot is taken yet. -/
def closed (n : Nat) (d : Descriptor) : Ring :=
  { (at0 .closing (begun d)).modSlot 0 (fun x => { x with outstanding := n }) with fillSlot := none, ready := [⟨0, false⟩] }

/-- Ring 0 with slot 0 as its drain slot, slot 1 the fill slot. -/
def draining (d : Descriptor) : Ring :=
  { (at0 .draining (begun d)).setSlotState 1 .filling with
    drainSub := .draining, drainSlot := some 0, fillSlot := some 1, freeList := [2] }

/-- The same with slot 0 RETAINED under REPEAT. -/
def retained : Ring := { at0 .retained (draining { plain with underrun := 2 }) with drainSub := .retained }

def write (who : Initiator) (a : Addr) (n : Nat) : Request := ⟨who, 5, a, .write (List.replicate n 7)⟩
def read (who : Initiator) (a : Addr) (n : Nat) : Request := ⟨who, 5, a, .read n⟩

/-- A free table with every entry taken by a pass-through read. -/
def fullTable (s : State) : State := { s with table := Vector.replicate 32 (some (.pass 0 0 .read)) }

/-- Entry 0 of the table in use. -/
def entry0 (e : Entry) (s : State) : State := { s with table := s.table.set 0 (some e) }

/-- One entry held for a reason, of initiator 9. -/
def holding (r : Reason) (q : Request) (s : State) : State := { s with hold := [⟨0, { q with initiator := 9 }, r⟩], nextOrder := 1 }

/-- An open write frame at an address. -/
def writing (a : WordAddr) (moving : List Bool) (s : State) : State := { s with port := ⟨true, .write a moving⟩ }

/-- The next state of a command. -/
def after (c : Instr) (s : State) : Option State :=
  match exec c s with
  | .next t => some t
  | _ => none

/-! ### Well-formedness -/

theorem test_wf_request_length_low : Instr.wellFormed (.upstreamRequest (read 0 0 0)) = false := by decide
theorem test_wf_request_length_high : Instr.wellFormed (.upstreamRequest (read 0 0 257)) = false := by decide
theorem test_wf_request_lengths : Instr.wellFormed (.upstreamRequest (read 0 0 1)) = true ∧
    Instr.wellFormed (.upstreamRequest (read 0 0 256)) = true := by decide
theorem test_wf_response_length : Instr.wellFormed (.downstreamResponse 0 .okay (List.replicate 257 0)) = false ∧
    Instr.wellFormed (.downstreamResponse 0 .okay (List.replicate 256 0)) = true := by decide +kernel
theorem test_wf_frame_bits : Instr.wellFormed (.frameBegin []) = true ∧
    Instr.wellFormed (.frameBegin (List.replicate 56 true)) = true := by decide +kernel
theorem test_illFormed_is_refused : exec (.upstreamRequest (read 0 0 0)) State.reset = .refused .illFormed := rfl

/-! ### Commands on small states -/

/-- COMMIT and START at the register take ring 0 from RESET_N to the state of `begun`, as 06 R106 says. -/
theorem test_commit_start : ((after (.commit 0) (with0 { Ring.zero with shadow := plain })).bind (after (.start 0))).map
    (fun t => ((t.ring 0).runState, (t.ring 0).fillSlot, (t.ring 0).freeList, t.result.refused)) =
    some (.running, some 0, [1, 2], false) := by decide +kernel

/-- A write of 16 bytes goes to BASE + offset as entry 0. -/
theorem test_fill_write : (after (.upstreamRequest (write 1 0x80000020#40 16)) (with0 (begun plain))).map
    (fun t => (t.sent, t.table[0])) =
    some ([.downstream ⟨0, 1, 5, 0x40000020#40, .write (List.replicate 16 7)⟩], some (.fill 0 0 1 5)) := by decide +kernel

/-- Its response frees the entry and goes upstream. -/
theorem test_fill_response : (after (.downstreamResponse 0 .okay []) (entry0 (.fill 0 0 1 5) (with0 (begun plain)))).map
    (fun t => (t.sent, t.table[0])) = some ([.upstream ⟨1, 5, .okay, none⟩], none) := by decide +kernel

/-- CLOSE with nothing in flight and no records settles the frame at once, and the drain side takes it. -/
theorem test_close : (after (.close 0) (with0 { begun plain with fillBytes := 16, highMark := 16 })).map
    (fun t => ((t.ring 0).drainSlot, (t.ring 0).fillSlot, ((t.ring 0).slot 0).fillLength, ((t.ring 0).slot 0).cause)) =
    some (some 0, some 1, 16, some .command) := by decide +kernel

/-- A drain read goes to BASE + offset; its DATA comes back as it is. -/
theorem test_drain_read : (after (.upstreamRequest (read 2 0x80010010#40 4)) (with0 (draining plain))).map (fun t => t.sent) =
    some [.downstream ⟨0, 2, 5, 0x40000010#40, .read 4⟩] := by decide +kernel
theorem test_drain_response : (after (.downstreamResponse 0 .okay [1, 2, 3, 4])
    (entry0 (.drain 0 0 2 5) (with0 ((draining plain).modSlot 0 fun x => { x with outstanding := 1 })))).map
    (fun t => t.sent) = some [.upstream ⟨2, 5, .okay, some [1, 2, 3, 4]⟩] := by decide +kernel

/-- RELEASE frees the slot for the free list at once and leaves the drain side EMPTY. -/
theorem test_release : (after (.release 0) (with0 (draining plain))).map
    (fun t => ((t.ring 0).drainSub, (t.ring 0).freeList, ((t.ring 0).slot 0).state)) =
    some (.empty, [2, 0], .free) := by decide +kernel

/-- STOP of a drained ring ends it at once: back to IDLE with ENDED set. -/
theorem test_stop : (after (.stop 0) (with0 (begun plain))).map
    (fun t => ((t.ring 0).runState, (t.ring 0).attention, t.result.refused)) = some (.idle, 0x004#10, false) := by
  decide +kernel
/-- STOP of a ring that holds a RETAINED drain slot, with nothing ready, releases it (03 R65). -/
theorem test_stop_retained : (after (.stop 0) (with0 retained)).map
    (fun t => ((t.ring 0).runState, (t.ring 0).freeList, (t.ring 0).counters.releases)) = some (.idle, [2, 1, 0], 1) := by
  decide +kernel
theorem test_abort : (after (.abort 0) (with0 (draining plain))).map (fun t => ((t.ring 0).runState, (t.ring 0).freeList)) =
    some (.idle, [0, 1, 2]) := by decide +kernel

/-- ACK of REFUSAL empties the record (08 R145). -/
theorem test_ackGlobal : (after (.ackGlobal 3 1) { State.reset with
      refusal := some ⟨.guard, 1, 2, 3, .read, 0⟩, globalAttn := true, laterCount := 65535 }).map
    (fun t => (t.refusal, t.globalAttn, t.laterCount, t.result.target)) = some (none, false, 0, 3) := by decide +kernel
theorem test_ack : (after (.ack 0 0x001#10) (with0 { begun plain with attention := 0x003#10 })).map
    (fun t => (t.ring 0).attention) = some 0x002#10 := by decide +kernel

/-- A stray response counts up to FFFFFFFFh. -/
theorem test_stray : (after (.downstreamResponse 31 .okay []) { State.reset with stray := 0xFFFFFFFF#32 }).map
    (fun t => t.stray) = some 0xFFFFFFFF#32 := by decide +kernel

/-- A selected edge closes the frame of the ring that names the line. -/
theorem test_eventEdge : (after (.eventEdge 2 true) { with0 { begun { plain with closeEvent := 10 } with
      fillBytes := 4, highMark := 4 } with edges := (Vector.replicate 8 EdgeSel.none).set 2 .rising }).map
    (fun t => (((t.ring 0).slot 0).cause, t.levels)) = some (some .event, 4#8) := by decide +kernel
theorem test_lineTransition : (after (.lineTransition 7 true) State.reset).map (fun t => (t.levels, t.sent)) =
    some (0x80#8, []) := by decide +kernel

/-- A stalled write, its timer, and the timer's last microsecond, which ends in FAULT by either row. -/
theorem test_stall : (after (.upstreamRequest (write 1 0x80000000#40 4))
    (with0 (noSlot .closing { plain with stallTimeout := 1 }))).map
    (fun t => ((t.ring 0).fillTimer, (t.ring 0).fillSub, t.hold.map Held.reason)) =
    some (some 1, .waiting, [.fillWait 0]) := by decide +kernel
theorem test_timebase : (after .timebaseStep (with0 { noSlot .closing plain with fillSub := .waiting, fillTimer := some 2 })).map
    (fun t => ((t.ring 0).fillTimer, (t.ring 0).runState)) = some (some 1, .running) := by decide +kernel
theorem test_timebase_last : (after .timebaseStep
    (with0 { noSlot .closing plain with fillSub := .waiting, fillTimer := some 1 })).map
    (fun t => ((t.ring 0).fillTimer, (t.ring 0).faultCause)) = some (none, .fillStall) := by decide +kernel
theorem test_expiry : (after (.stallTimerExpiry 0 .fill)
    (with0 { noSlot .closing plain with fillSub := .waiting, fillTimer := some 1 })).map
    (fun t => ((t.ring 0).runState, (t.ring 0).faultCause)) = some (.fault, .fillStall) := by decide +kernel

/-- The frame codes 02h and 0Bh, and an address, as the port takes them. -/
def writeCode : List Bool := List.replicate 6 false ++ [true, false]
def readCode : List Bool := List.replicate 4 false ++ [true, false, true, true]
def address (a : BitVec 16) : List Bool := (wordBits (a.setWidth 32)).drop 16

/-- A read frame samples word 0 (the identification word, whose first bit is 0) after its turnaround byte, then word 1. -/
theorem test_read_frame : (after (.frameBegin (readCode ++ address 0 ++ List.replicate 8 true)) State.reset).map
    (fun t => (t.port.frame, t.sent, t.misoLevel, t.sampleRead.port.frame)) =
    some (.read 1 (wordBits 0x5A480148#32), [.miso 0x5A480148#32], some false, .read 2 (wordBits 0)) := by decide +kernel

/-- A header split between two commands, and a write word completed by its last bit: the global mask at 0021h. -/
theorem test_split_frame : ((after (.frameBegin (writeCode ++ (address 0x21#16).take 3)) State.reset).bind
    (after (.frameBegin ((address 0x21#16).drop 3 ++ (wordBits 1#32).take 31)))).bind (fun s =>
      (after (.frameBegin [true]) s).map (fun t => (s.globalMask, s.misoLevel, t.globalMask, t.port.frame))) =
    some (false, some true, true, .write 0x22#16 []) := by decide +kernel
theorem test_write_frame : (after (.registerWrite 0xFFFF#16 7) (writing 0xFFFF#16 [] State.reset)).map
    (fun t => t.port.frame) = some (.write 0 []) := by decide +kernel
theorem test_frameEnd : (after .frameEnd (writing 3 [true] State.reset)).map (fun t => t.port) = some ⟨false, .none⟩ := by
  decide +kernel

/-- The words of the window. -/
theorem test_shadowWrite : (after (.shadowWrite 3 31 0xFFFFFFFF#32) State.reset).map (fun t => (t.ring 3).shadow) =
    some Descriptor.zero := by decide +kernel
theorem test_eventLines : (after (.eventLineConfiguration 0x0000E4#32) State.reset).map
    (fun t => (t.edges.toList, t.readWord 1)) =
    some ([.none, .rising, .falling, .both, .none, .none, .none, .none], 0xE4#32) := by decide +kernel
theorem test_masks : (after (.attentionMaskWrite 3 0xFFFFFFFF#32) State.reset).map (fun t => t.readWord (maskAddr 3)) =
    some 0x3FF#32 ∧
    (after (.globalAttentionMaskWrite 0xFFFFFFFF#32) State.reset).map (fun t => t.readWord 0x21#16) = some 1#32 := by
  decide +kernel

/-- A record of a closed frame goes out to RECORD_BASE with the 16 bytes of 12 R181. -/
theorem test_recordIssue : (after .recordIssue (with0 { begun { plain with
      recordEnable := true, recordBase := 0x50000000#40, recordCount := 2 } with
      records := [⟨.close, 1, 0x0201#16, some .limit, true, true, 0x0403#32 |>.toNat, 5⟩], recordIndex := 1 })).map
    (fun t => (t.sent, (t.ring 0).recordIndex, (t.ring 0).lap)) =
    some ([.downstream ⟨0, 0, 0, 0x50000010#40, .write [1, 2, 1, 1, 1, 3, 0, 0, 3, 4, 0, 0, 5, 0, 0, 0]⟩], 0, 1) := by
  decide +kernel

/-- The steps of the block itself. -/
theorem test_closingAdvance : (after (.closingAdvance 0 0) (with0 (noSlot .closing plain))).map
    (fun t => ((t.ring 0).drainSlot, ((t.ring 0).slot 0).state)) = some (some 0, .draining) := by decide +kernel
theorem test_settle : (after (.settle 0 0) (with0 { noSlot .recording plain with ready := [⟨0, true⟩] })).map
    (fun t => (t.ring 0).drainSlot) = some (some 0) := by decide +kernel
theorem test_releaseCompletion : (after (.releaseCompletion 0 0) (with0 { noSlot .releasing plain with
      ready := [], releasing := [0] })).map (fun t => ((t.ring 0).fillSlot, (t.ring 0).releasing)) = some (some 0, []) := by
  decide +kernel
theorem test_pendingCommit : (after (.pendingCommitApplication 0) (with0 { closed 0 plain with
      shadow := { plain with budget := 7 }, commitPending := true })).map
    (fun t => ((t.ring 0).active.budget, (t.ring 0).budgetRemaining, (t.ring 0).commitPending, (t.ring 0).fillSlot)) =
    some (7, 7, false, some 1) := by decide +kernel
theorem test_endingCompletion : (after (.endingCompletion 0) (with0 { Ring.zero with runState := .ending })).map
    (fun t => (t.ring 0).runState) = some .idle := by decide +kernel
theorem test_abortCompletion : (after (.abortCompletion 0) (with0 { begun plain with runState := .aborting })).map
    (fun t => ((t.ring 0).runState, (t.ring 0).freeList)) = some (.idle, [0, 1, 2]) := by decide +kernel
theorem test_reExamination : (after .reExamination (holding .table (read 0 0 4) State.reset)).map
    (fun t => (t.sent, t.hold)) = some ([.downstream ⟨0, 9, 5, 0, .read 4⟩], []) := by decide +kernel

/-- RESET_N and its rise. -/
theorem test_reset : (after .resetN (with0 (begun plain))).bind (after (.resetNRise 0)) = some State.reset := by
  decide +kernel

/-! ### States that meet the hypotheses of the statements, one theorem for each statement -/

/-- Ring 0 RUNNING and FILLING: the state most of what follows starts from. -/
def filling (d : Descriptor) : State := with0 (begun d)

/-- STREAMED mode on both sides. -/
def streamed (d : Descriptor) : Descriptor := { d with fillMode := 1, drainMode := 1 }

/-- Ring 0 in another run state. -/
def inState (x : RunState) (s : State) : State := s.modRing 0 fun r => { r with runState := x }

theorem test_EmptyQueueSamplesOrIdles :
    let s (f : Frame) : State := { State.reset with port := ⟨true, f⟩ }
    ((s (.turnaround 0xFFFF#16 7)).pending = [] ∧ (s (.turnaround 0xFFFF#16 7)).port.frame = .turnaround 0xFFFF#16 7) ∧
    (s (.read 0xFFFF#16 [true])).port.frame = .read 0xFFFF#16 [true] ∧
    State.reset.pending = [] ∧ (∀ a n, State.reset.port.frame ≠ .turnaround a n) ∧
    ∀ a bits, State.reset.port.frame ≠ .read a bits :=
  ⟨⟨rfl, rfl⟩, rfl, rfl, fun _ _ h => Frame.noConfusion h, fun _ _ h => Frame.noConfusion h⟩

theorem test_EveryCommandCompletes : Instr.wellFormed .timebaseStep = true ∧
    Instr.wellFormed (.upstreamRequest (write 0 0 0)) = false := by decide

theorem test_ResetNRiseSamplesLevels : (State.resetLow { State.reset with resetLow := true } = true) ∧
    State.reset.resetLow = false := by decide

theorem test_ResetStateIsSound : State.reset.port.csLow = false ∧ State.reset.waiting = [] ∧ State.reset.pending = [] ∧
    State.reset.choices = 0 := by decide

theorem test_HeldInitiatorHoldsOrder :
    let s := fullTable (holding .table (read 0 0 4) State.reset)
    let q := write 9 0x10#40 256
    q.wellFormed = true ∧ s.upstreamReady = true ∧ s.quiet = true ∧ s.waiting = [] ∧
      s.hold.any (fun h => h.request.initiator == q.initiator) = true := by decide +kernel

theorem test_BusyPortLeavesRequestWaiting :
    let full : State := { fullTable State.reset with
      hold := (List.range 16).map fun k => ⟨k, read (Fin.ofNat 16 k) 0 4, .table⟩, nextOrder := 16 }
    (read 0 0 1).wellFormed = true ∧ full.upstreamReady = false ∧ full.quiet = true ∧
      State.upstreamReady { State.reset with resetLow := true } = false ∧
      State.quiet { State.reset with resetLow := true } = true := by decide +kernel

/-- The first and the last byte of the aperture, the bytes beside it, and a request across its end. -/
theorem test_ApertureMatching :
    (filling plain).matchRequest (write 0 0x80000000#40 1) = .lies 0 .fill ∧
    (filling plain).matchRequest (write 0 0x8000FFFF#40 1) = .lies 0 .fill ∧
    (filling plain).matchRequest (write 0 0x80010000#40 1) = .lies 0 .drain ∧
    (filling plain).matchRequest (write 0 0x7FFFFFFF#40 1) = .outside ∧
    (filling plain).matchRequest (write 0 0x8001FFFF#40 2) = .straddles 0 ∧
    (filling plain).matchRequest (write 0 0x8000FFFF#40 2) = .straddles 0 := by decide +kernel

theorem test_PassThroughIsIssuedUnchanged : (filling plain).decodesNow (read 3 0x100#40 256) = true ∧
    (filling plain).matchRequest (read 3 0x100#40 256) = .outside ∧
    (filling plain).guardRing? (read 3 0x100#40 256) = none ∧ (filling plain).entryFor 0 = true := by decide +kernel

theorem test_GuardRefusesBackingAccess :
    (filling { plain with guard := 2 }).decodesNow (read 0 0x40002FFF#40 1) = true ∧
    (filling { plain with guard := 2 }).matchRequest (read 0 0x40002FFF#40 1) = .outside ∧
    (filling { plain with guard := 2 }).guardRing? (read 0 0x40002FFF#40 1) = some 0 ∧
    (filling { plain with guard := 1 }).guardRing? (write 0 0x40000000#40 1) = some 0 ∧
    (filling { plain with guard := 1 }).guardRing? (read 0 0x40000000#40 1) = none := by decide +kernel

theorem test_RefusalIsAnsweredAndRecorded : State.reset.refusal = none ∧
    State.refusal { State.reset with refusal := some ⟨.guard, 0, 0, 0, .read, 0⟩ } ≠ none := by decide

theorem test_DecoderRefusals :
    ((filling plain).decodesNow (write 0 0x8001FFFF#40 2) = true ∧
      (filling plain).matchRequest (write 0 0x8001FFFF#40 2) = .straddles 0) ∧
    ((inState .fault (filling plain)).decodesNow (write 0 0x80000000#40 4) = true ∧
      (inState .fault (filling plain)).matchRequest (write 0 0x80000000#40 4) = .lies 0 .fill ∧
      ((inState .fault (filling plain)).ring 0).runState = .fault) ∧
    ((inState .aborting (filling plain)).matchRequest (read 0 0x80010000#40 4) = .lies 0 .drain ∧
      ((inState .aborting (filling plain)).ring 0).runState = .aborting) ∧
    ((filling plain).matchRequest (read 0 0x80000000#40 4) = .lies 0 .fill ∧
      requestKind (read 0 0x80000000#40 4) = .read ∧ ((filling plain).ring 0).runState = .running) ∧
    ((inState .ending (filling plain)).decodesNow (write 0 0x80000000#40 4) = true ∧
      (inState .ending (filling plain)).matchRequest (write 0 0x80000000#40 4) = .lies 0 .fill ∧
      ((inState .ending (filling plain)).ring 0).runState = .ending) := by decide +kernel

theorem test_SideRefusals :
    let s := with0 (draining plain)
    let t := with0 { draining (streamed plain) with drainCursor := 0x1000 }
    let u := inState .ending (with0 { begun plain with fillSub := .closed })
    (s.decodesNow (write 0 0x80000FFF#40 2) = true ∧ s.fillDecides (write 0 0x80000FFF#40 2) 0 ∧
      plain.fillStreamed = false ∧ 0x1000 < 0xFFF + (write 0 0x80000FFF#40 2).payload.length) ∧
    (s.decodesNow (read 0 0x80010FFF#40 2) = true ∧ s.drainDecides (read 0 0x80010FFF#40 2) 0) ∧
    (t.decodesNow (read 0 0x80010000#40 1) = true ∧ t.drainDecides (read 0 0x80010000#40 1) 0 ∧
      (t.ring 0).active.drainStreamed = true ∧ (t.ring 0).hasDrainSlot = true ∧ 0x1000 < (t.ring 0).drainCursor + 1) ∧
    (u.decodesNow (read 0 0x80010FFF#40 1) = true ∧ u.drainDecides (read 0 0x80010FFF#40 1) 0 ∧
      (u.ring 0).hasDrainSlot = false ∧ (u.ring 0).runState = .ending ∧ (u.ring 0).ready = []) := by
  unfold State.fillDecides State.drainDecides
  decide +kernel

theorem test_NoEntryHoldsTable :
    let s := fullTable (with0 (draining plain))
    let t := fullTable (with0 { draining (streamed plain) with fillCursor := 0xFFF, drainCursor := 0xFFF })
    (s.decodesNow (read 0 0 1) = true ∧ s.entryNone ∧ s.matchRequest (read 0 0 1) = .outside ∧
      s.guardRing? (read 0 0 1) = none) ∧
    (s.decodesNow (write 0 0x80000FFF#40 1) = true ∧ s.fillDecides (write 0 0x80000FFF#40 1) 0 ∧
      (s.ring 0).fillSub = .filling ∧ (s.ring 0).fillBytes + 1 ≤ 0x1000) ∧
    (s.decodesNow (read 0 0x80010FFF#40 1) = true ∧ s.drainDecides (read 0 0x80010FFF#40 1) 0 ∧
      (s.ring 0).hasDrainSlot = true) ∧
    (t.decodesNow (write 0 0x80000000#40 1) = true ∧ t.entryNone ∧ t.fillDecides (write 0 0x80000000#40 1) 0 ∧
      (t.ring 0).fillCursor + 1 ≤ 0x1000) ∧
    (t.drainDecides (read 0 0x80010000#40 1) 0 ∧ (t.ring 0).drainCursor + 1 ≤ 0x1000) := by
  unfold State.fillDecides State.drainDecides State.entryNone
  decide +kernel

/-- A write one byte below the slot's end, below CLOSE_LIMIT, at it, and at the slot's end in STREAMED mode. -/
theorem test_FillWriteIsAccepted :
    let s := filling { plain with closeOnLimit := true, closeLimit := 16 }
    let t := with0 { begun (streamed plain) with fillCursor := 0xFFF, fillBytes := 0xFFF, highMark := 0xFFF }
    (s.decodesNow (write 0 0x80000FF1#40 15) = true ∧ s.entryFor 0 = true ∧ s.fillDecides (write 0 0x80000FF1#40 15) 0 ∧
      (s.ring 0).fillSub = .filling ∧ (s.ring 0).fillSlot = some 0 ∧ 0xFF1 + 15 ≤ 0x1000 ∧
      ¬ ((s.ring 0).active.closeLimit.toNat ≤ (s.ring 0).fillBytes + 15)) ∧
    (s.decodesNow (write 0 0x80000FF0#40 16) = true ∧ s.fillDecides (write 0 0x80000FF0#40 16) 0 ∧
      (s.ring 0).active.closeOnLimit = true ∧ (s.ring 0).active.closeLimit.toNat ≤ (s.ring 0).fillBytes + 16) ∧
    (t.decodesNow (write 0 0x80000000#40 1) = true ∧ t.entryFor 0 = true ∧ t.fillDecides (write 0 0x80000000#40 1) 0 ∧
      (t.ring 0).fillSlot = some 0 ∧ (t.ring 0).active.closeOnLimit = false ∧
      0x1000 ≤ (t.ring 0).fillCursor + 1 + (t.ring 0).active.fillGap.toNat) := by
  unfold State.fillDecides
  decide +kernel

/-- The budget spent and not spent, a next slot and none, and each way a pending commit can go. -/
theorem test_CloseProcedure :
    let full (d e : Descriptor) (p : Bool) : State :=
      with0 { begun d with fillBytes := 1, highMark := 1, shadow := e, commitPending := p }
    let d1 : Descriptor := { plain with budget := 1 }
    let s := full d1 d1 false
    let a := full plain plain true
    ((s.ring 0).runState = .running ∧ (s.ring 0).fillSub = .filling ∧ (s.ring 0).fillSlot = some 0 ∧
      (s.ring 0).active.budget ≠ 0 ∧ (s.ring 0).budgetRemaining = 1) ∧
    ((a.ring 0).runState = .running ∧ (a.ring 0).fillSub = .filling ∧ (a.ring 0).fillSlot = some 0 ∧
      (a.ring 0).active.budget = 0 ∧ (a.ring 0).freeList = [1, 2] ∧
      (a.ring 0).commitPending = true ∧ plain.sameStructure plain = true ∧ a.liveFailure 0 = none) ∧
    (((full plain Descriptor.zero true).ring 0).commitPending = true ∧ Descriptor.zero.sameStructure plain = false) ∧
    ((full plain { plain with guard := 3 } true).liveFailure 0 = some 11 ∧
      Descriptor.sameStructure { plain with guard := 3 } plain = true) ∧
    ((full plain plain false).ring 0).commitPending = false := by decide +kernel
theorem test_CloseProcedure_places : (begun plain).placesSound := by
  unfold Ring.placesSound
  decide +kernel
theorem test_CloseProcedure_last :
    let r : Ring := { draining { plain with slotCount := 2 } with freeList := [] }
    r.fillSub = .filling ∧ r.fillSlot = some 1 ∧ r.freeList = [] ∧ r.placesSound := by
  unfold Ring.placesSound
  decide +kernel

/-- RECLAIM after a full slot's close: no settled head, a settled head with and without an entry. -/
theorem test_OverflowingWriteClosesFull_reclaim :
    let full (x : SlotState) : Ring := {
      ((begun (streamed { plain with overrun := 2 })).setSlotState 1 x).setSlotState 2 .draining with
      fillCursor := 0x1000, fillBytes := 0x1000, highMark := 0x1000, freeList := [], ready := [⟨1, true⟩],
      drainSub := .draining, drainSlot := some 2 }
    let q := write 0 0x80000000#40 1
    let v (s : State) : State := State.closeFrame 0 .full none { s with sent := [] }
    let w (s : State) : State := (v s).reclaimHead 0
    let a := with0 { full .recording with ready := [⟨1, false⟩] }
    let b := with0 (full .settled)
    (a.decodesNow q = true ∧ a.fillDecides q 0 ∧ ((v a).ring 0).fillSub = .noSlot ∧ ((v a).ring 0).active.overrun = 2 ∧
      ((v a).ring 0).headSettled = false) ∧
    (b.decodesNow q = true ∧ b.fillDecides q 0 ∧ ((v b).ring 0).fillSub = .noSlot ∧ ((v b).ring 0).headSettled = true ∧
      ((w b).ring 0).fillSlot = some 1 ∧ (w b).entryFor 0 = true) ∧
    ((fullTable b).decodesNow q = true ∧ ((v (fullTable b)).ring 0).fillSub = .noSlot ∧
      ((v (fullTable b)).ring 0).headSettled = true ∧ (w (fullTable b)).entryNone) := by
  unfold State.fillDecides State.entryNone
  decide +kernel

/-- The four ways a full slot's write can go on: the budget spent, the next slot with and without an entry, no next slot. -/
theorem test_OverflowingWriteClosesFull :
    let full (d : Descriptor) : Ring := { begun (streamed d) with fillCursor := 0x1000, fillBytes := 0x1000, highMark := 0x1000 }
    let q := write 0 0x80000000#40 1
    let v (s : State) : State := State.closeFrame 0 .full none { s with sent := [] }
    let a := with0 (full { plain with budget := 1 })
    let b := with0 (full plain)
    let c := with0 { full plain with freeList := [] }
    let e := with0 { full { plain with overrun := 1 } with freeList := [] }
    (a.decodesNow q = true ∧ a.fillDecides q 0 ∧ (a.ring 0).fillSub = .filling ∧
      (a.ring 0).active.slotSize.toNat < (a.ring 0).fillCursor + 1 ∧ ((v a).ring 0).fillSub = .closed) ∧
    (b.decodesNow q = true ∧ b.fillDecides q 0 ∧ ((v b).ring 0).fillSub = .filling ∧ ((v b).ring 0).fillSlot = some 1 ∧
      (v b).entryFor 0 = true) ∧
    ((fullTable b).decodesNow q = true ∧ (fullTable b).fillDecides q 0 ∧ ((v (fullTable b)).ring 0).fillSub = .filling ∧
      (v (fullTable b)).entryNone) ∧
    (c.decodesNow q = true ∧ c.fillDecides q 0 ∧ ((v c).ring 0).fillSub = .noSlot ∧ ((v c).ring 0).active.overrun = 0) ∧
    (e.decodesNow q = true ∧ e.fillDecides q 0 ∧ ((v e).ring 0).fillSub = .noSlot ∧ ((v e).ring 0).active.overrun = 1) := by
  unfold State.fillDecides State.entryNone
  decide +kernel

/-- The MAPPED case: the bytes accepted pass SLOT_SIZE while the offset fits. -/
theorem test_OverflowingWriteClosesFull_mapped :
    let s := with0 { begun plain with fillBytes := 0x1000, highMark := 0x1000 }
    s.decodesNow (write 0 0x80000FFF#40 1) = true ∧ s.fillDecides (write 0 0x80000FFF#40 1) 0 ∧
      (s.ring 0).active.fillStreamed = false ∧ 0xFFF + 1 ≤ (s.ring 0).active.slotSize.toNat ∧
      (s.ring 0).active.slotSize.toNat < (s.ring 0).fillBytes + 1 := by
  unfold State.fillDecides
  decide +kernel

theorem test_OverrunDropsOrHolds :
    let q := write 0 0x80000000#40 256
    let drop := with0 (noSlot .closing { plain with overrun := 1 })
    let stall := with0 (noSlot .closing plain)
    let more := holding (.fillWait 0) q (with0 { noSlot .closing plain with fillSub := .waiting })
    let none_settled := with0 (noSlot .recording { plain with overrun := 2 })
    (drop.decodesNow q = true ∧ drop.fillDecides q 0 ∧ (drop.ring 0).fillSub = .noSlot) ∧
    (stall.decodesNow q = true ∧ stall.fillDecides q 0 ∧ (stall.ring 0).active.overrun = 0) ∧
    (more.decodesNow q = true ∧ more.fillDecides q 0 ∧ (more.ring 0).fillSub = .waiting) ∧
    (none_settled.decodesNow q = true ∧ none_settled.fillDecides q 0 ∧ (none_settled.ring 0).headSettled = false) := by
  unfold State.fillDecides
  decide +kernel

theorem test_OverrunReclaimsSettledHead :
    let q := write 0 0x80000000#40 256
    let s := with0 (noSlot .settled { plain with overrun := 2 })
    let v (s : State) (r : Ring) : State := (State.settleRing 0 { s with sent := [], rings := s.rings.set 0 r }).grantRecords.noteChange
    s.decodesNow q = true ∧ s.fillDecides q 0 ∧ (s.ring 0).fillSub = .noSlot ∧ (s.ring 0).active.overrun = 2 ∧
      (s.ring 0).ready = [⟨0, false⟩] ∧ ((s.ring 0).slot 0).state = .settled ∧
      (v s (Ring.reclaim (s.ring 0))).entryFor 0 = true ∧
      (fullTable s).decodesNow q = true ∧ (v (fullTable s) (Ring.reclaim (s.ring 0))).entryNone := by
  unfold State.fillDecides State.entryNone
  decide +kernel

theorem test_DrainReadIsAccepted :
    let s := with0 ((draining { plain with releaseOnLimit := true }).modSlot 0 fun x => { x with fillLength := 16 })
    s.decodesNow (read 0 0x80010FF1#40 15) = true ∧ s.entryFor 0 = true ∧ s.drainDecides (read 0 0x80010FF1#40 15) 0 ∧
      (s.ring 0).hasDrainSlot = true ∧ (s.ring 0).drainSlot = some 0 ∧ 0xFF1 + 15 ≤ (s.ring 0).active.slotSize.toNat ∧
      ¬ (((s.ring 0).slot 0).fillLength ≤ min ((s.ring 0).bytesRead + 15) 0xFFFFFFFF) ∧
      s.decodesNow (read 0 0x80010FF0#40 16) = true ∧ s.drainDecides (read 0 0x80010FF0#40 16) 0 ∧
      (s.ring 0).active.releaseOnLimit = true ∧ ((s.ring 0).slot 0).fillLength ≤ min ((s.ring 0).bytesRead + 16) 0xFFFFFFFF := by
  unfold State.drainDecides
  decide +kernel

theorem test_UnderrunAnswersOrHolds :
    let q := read 0 0x80010F00#40 256
    let stall := filling plain
    let pattern := filling { plain with underrun := 1 }
    let again := filling { plain with underrun := 2 }
    let drained := inState .ending (with0 { begun plain with fillSub := .closed, ready := [⟨1, false⟩] })
    (stall.decodesNow q = true ∧ stall.drainDecides q 0 ∧ (stall.ring 0).hasDrainSlot = false ∧
      ¬ ((stall.ring 0).runState = .ending ∧ (stall.ring 0).ready = []) ∧ (stall.ring 0).active.underrun = 0 ∧
      0xF00 + 256 ≤ (stall.ring 0).active.slotSize.toNat) ∧
    (pattern.decodesNow q = true ∧ pattern.drainDecides q 0 ∧ (pattern.ring 0).active.underrun = 1) ∧
    (again.decodesNow q = true ∧ again.drainDecides q 0 ∧ (again.ring 0).active.underrun = 2) ∧
    (drained.decodesNow q = true ∧ drained.drainDecides q 0 ∧
      ¬ ((drained.ring 0).runState = .ending ∧ (drained.ring 0).ready = [])) := by
  unfold State.drainDecides
  decide +kernel

theorem test_StrayResponseIsCounted : (List.replicate 256 (0 : Byte)).length ≤ 256 ∧ State.reset.resetLow = false ∧
    (∀ t : DownTag, State.reset.table[t] = none) ∧ State.stray { State.reset with stray := 0xFFFFFFFF#32 } = 0xFFFFFFFF#32 ∧
    State.reset.stray ≠ 0xFFFFFFFF#32 ∧ (fullTable State.reset).table[(31 : DownTag)] ≠ none := by decide +kernel

theorem test_PassResponseIsReturned : ([] : List Byte).length ≤ 256 ∧ State.resetLow { State.reset with resetLow := true } = true ∧
    (fullTable State.reset).resetLow = false ∧ (fullTable State.reset).table[(31 : DownTag)] = some (.pass 0 0 .read) := by
  decide +kernel

/-- Slot 0 with one access in flight: the FILL and the DRAIN entry, with a response that halts the ring and without, that
leaves more in flight, and that is the last of a CLOSING and of a RELEASING slot. -/
theorem test_SlotResponseIsHandled :
    let one (n : Nat) (r : Ring) : Ring := r.modSlot 0 fun x => { x with outstanding := n }
    let s (r : Ring) : State := entry0 (.fill 0 0 1 5) (with0 r)
    let halting := begun { plain with haltOnError := true }
    ((s (one 2 (begun plain))).table[(0 : DownTag)] = some (.fill 0 0 1 5) ∧ ((s (one 2 (begun plain))).ring 0).moves = true ∧
      ((((s (one 2 (begun plain))).ring 0).slot 0).outstanding - 1 ≠ 0) ∧ (s (one 2 (begun plain))).resetLow = false) ∧
    ((((s (one 1 (noSlot .closing plain))).ring 0).slot 0).outstanding - 1 = 0 ∧
      ((s (one 1 (noSlot .closing plain))).ring 0).moves = true ∧
      (((s (one 1 (noSlot .closing plain))).ring 0).slot 0).state = .closing) ∧
    (entry0 (.drain 0 0 1 5) (with0 (one 1 (noSlot .releasing plain)))).table[(0 : DownTag)] = some (.drain 0 0 1 5) ∧
    (((entry0 (.drain 0 0 1 5) (with0 (one 1 (noSlot .releasing plain)))).ring 0).slot 0).state = .releasing ∧
    (((s (one 1 halting)).ring 0).active.haltOnError = true ∧ ((s (one 1 halting)).ring 0).moves = true) := by
  decide +kernel

theorem test_RecordResponseIsHandled :
    (entry0 (.record 0 0 .reclaim) State.reset).table[(0 : DownTag)] = some (.record 0 0 .reclaim) ∧
    (entry0 (.record 0 0 .close) (with0 (noSlot .recording plain))).table[(0 : DownTag)] = some (.record 0 0 .close) ∧
    (entry0 (.record 0 0 .close) (with0 (noSlot .recording plain))).resetLow = false := by decide +kernel

/-- Each EDGE value with both transitions. -/
theorem test_TransitionIsSeenAndDelivered :
    let s (e : EdgeSel) : State := { State.reset with edges := Vector.replicate 8 e }
    (∀ n : LineId, (s .none).edges[n] = .none ∧ (s .rising).edges[n] = .rising ∧ (s .falling).edges[n] = .falling ∧
      (s .both).edges[n] = .both) ∧ (s .both).resetLow = false ∧
    State.resetLow { State.reset with resetLow := true } = true := by decide +kernel

theorem test_ReceivedEventActsOrIsIgnored :
    let s := with0 { draining plain with fillBytes := 1 }
    ((s.ring 0).runState = .running ∧ (s.ring 0).fillSub = .filling ∧ 0 < (s.ring 0).fillBytes ∧
      (s.ring 0).drainSub = .draining) ∧
    ((filling plain).ring 0).fillBytes = 0 ∧ ((filling plain).ring 0).drainSub ≠ .draining ∧
    ((filling plain).ring 0).drainSub ≠ .retained := by decide +kernel

theorem test_TimebaseCountsTimersDown :
    let s := with0 { noSlot .closing plain with fillSub := .waiting, fillTimer := some 2 }
    ∀ i, (s.ring i).fillTimer.map (fun n => n - 1) ≠ some 0 ∧ (s.ring i).drainTimer.map (fun n => n - 1) ≠ some 0 := by
  decide +kernel

/-- A timer at 1, in RUNNING and in ENDING, one at 2, and none. -/
theorem test_ExpiryEntersFault :
    let s (n : Nat) : State := with0 { noSlot .closing plain with fillSub := .waiting, fillTimer := some n }
    let t := inState .ending (with0 { begun plain with drainSub := .waiting, drainTimer := some 1 })
    (((s 1).ring 0).fillTimer = some 1 ∧ ((s 1).ring 0).moves = true) ∧
    ((t.ring 0).drainTimer = some 1 ∧ (t.ring 0).moves = true) ∧
    ((s 2).ring 0).fillTimer = some 2 ∧ (State.reset.ring 0).fillTimer = none := by decide +kernel

/-- A word in a frame of its own, as the next word of an open write frame, half moved, and turned away. -/
theorem test_PortTakesWholeWords : State.reset.takesWord 0x1000#16 0xF0000000#32 = true ∧
    (writing 0xFFFF#16 [] State.reset).takesWord 0xFFFF#16 0 = true ∧
    (writing 0x1000#16 [true, true] State.reset).takesWord 0x1000#16 0xF0000000#32 = true ∧
    (writing 0x1000#16 [true, true] State.reset).takesWord 0x1000#16 0x70000000#32 = false := by decide +kernel
theorem test_PortTakesWholeWords_turned_away :
    (∀ a w, State.takesWord a w { State.reset with resetLow := true } = false) ∧
    ∀ c n g causes, State.takesCommand c n g causes { State.reset with resetLow := true } = false :=
  ⟨fun _ _ => rfl, fun _ _ _ _ => rfl⟩

theorem test_ShadowWriteChangesShadowAlone :
    (∀ (i : RingId) (k : Fin 32), State.reset.takesWord (shadowAddr i k) 0xFFFFFFFF#32 = true) ∧
    (writing (shadowAddr 3 31) [] (filling plain)).takesWord (shadowAddr 3 31) 0 = true := by decide +kernel

theorem test_ConfigurationAndMaskWrites : State.reset.takesWord 0x0001#16 0xFFFFFFFF#32 = true ∧
    (∀ i : RingId, State.reset.takesWord (maskAddr i) 0 = true) ∧ State.reset.takesWord 0x0021#16 1 = true := by
  decide +kernel

/-- Codes 1 to 7 with every disregarded bit set, bit 7 among them, and code 7 with and without GLOBAL. -/
theorem test_RegisterWriteDispatches_codes :
    (∀ n : Fin 7, State.reset.takesWord 0x0004#16 (0xFFFFFFF1#32 + BitVec.ofNat 32 n.val) = true ∧
      ((0xFFFFFFF1#32 + BitVec.ofNat 32 n.val).extractLsb' 0 4).toNat = n.val + 1) ∧
    (0xFFFFFFF7#32).getLsbD 7 = true ∧ (0xFFFFFF77#32).getLsbD 7 = false ∧
    State.reset.takesWord 0x0004#16 0xFFFFFF77#32 = true ∧ State.reset.takesWord (shadowAddr 3 31) 7 = true := by
  decide +kernel

/-- Two words, timers stopped and running, a free list and a ready queue that fill their words, and one with room. -/
theorem test_DescriptorWordsReadBack :
    let r : Ring := { noSlot .closing plain with fillTimer := some 65535, freeList := List.finRange 8 }
    (0 : Fin 32) ≠ 31 ∧ r.fillTimer = some 65535 ∧ r.drainTimer = none ∧ r.freeList.length ≤ 8 ∧
      r.ready[0]? = some ⟨0, false⟩ ∧ r.ready[7]? = none := by decide +kernel

/-- The first and the last address of each gap in a ring's block. -/
theorem test_ConfigurationAndMaskWrites_gaps :
    let full : Ring := { begun plain with mask := 0x3FF#10, attention := 0x3FF#10 }
    ∀ off ∈ [0x020, 0x03F, 0x061, 0x07F, 0x08C, 0x0BF, 0x0E0, 0x0FF, 0x109, 0x13F, 0x14A, 0x17F, 0x182, 0x3FF],
      (with0 full).ringWord 0 off = 0 := by decide +kernel

/-- Command codes 0 and 8, and two words that software cannot write. -/
theorem test_RegisterWriteDispatches : State.reset.takesWord 0x0004#16 0 = true ∧ State.reset.takesWord 0x0004#16 8 = true ∧
    State.reset.takesWord 0x0022#16 7 = true ∧ ¬ writableWord 0x0022#16 ∧ ¬ writableWord 0x1020#16 := by
  have s1 : ∀ (i : RingId) (k : Fin 32), 0x0022#16 ≠ shadowAddr i k := by decide +kernel
  have s2 : ∀ (i : RingId) (k : Fin 32), 0x1020#16 ≠ shadowAddr i k := by decide +kernel
  have m1 : ∀ i : RingId, 0x0022#16 ≠ maskAddr i := by decide +kernel
  have m2 : ∀ i : RingId, 0x1020#16 ≠ maskAddr i := by decide +kernel
  refine ⟨by decide +kernel, by decide +kernel, by decide +kernel, ?_, ?_⟩
  · rintro (e | e | e | ⟨i, k, e⟩ | ⟨i, e⟩)
    · exact absurd e (by decide)
    · exact absurd e (by decide)
    · exact absurd e (by decide)
    · exact s1 i k e
    · exact m1 i e
  · rintro (e | e | e | ⟨i, k, e⟩ | ⟨i, e⟩)
    · exact absurd e (by decide)
    · exact absurd e (by decide)
    · exact absurd e (by decide)
    · exact s2 i k e
    · exact m2 i e

/-- The lengths at which a frame's header ends, the bits at which a word ends, and every frame state. -/
theorem test_FramesBeginAndEnd :
    let code (mosi : List Bool) : Nat := bitsToNat (mosi.take 8)
    (State.reset.port.csLow = false ∧ State.reset.resetLow = false ∧
      State.resetLow { State.reset with resetLow := true } = true ∧ (State.port (writing 0 [] State.reset)).csLow = true) ∧
    (readCode.length = 8 ∧ code readCode = 0x0B ∧ code writeCode = 0x02 ∧ code (List.replicate 8 true) = 0xFF) ∧
    ((writeCode ++ List.replicate 15 true).length = 23 ∧ (writeCode ++ address 0xFFFF#16).length = 24 ∧
      (writeCode ++ List.replicate 47 true).length = 55 ∧ (readCode ++ List.replicate 23 true).length = 31 ∧
      code (writeCode ++ List.replicate 47 true) = 0x02 ∧ code (readCode ++ List.replicate 23 true) = 0x0B) ∧
    (wordBits 7).take 31 ++ [true] = wordBits 7 := by decide +kernel
theorem test_FramesBeginAndEnd_frames : ∀ f : Frame, State.port { State.reset with port := ⟨true, f⟩ } = ⟨true, f⟩ :=
  fun _ => rfl

/-- Ring numbers 4 and 7, and the states in which each command is refused or has no effect. -/
theorem test_RefusedCommandChangesResultAlone :
    (∀ n : RingField, 4 ≤ n.val → State.reset.takesCommand .ack n false 0x3FF#10 = true) ∧ 4 ≤ (4 : RingField).val ∧
    (4 : RingField) ≠ 3 ∧ (3 : RingField) = ringField 3 ∧
    ((inState .fault State.reset).takesCommand .commit 0 false 0 = true ∧ ((inState .fault State.reset).ring 0).runState = .fault) ∧
    (((with0 { begun plain with shadow := Descriptor.zero }).ring 0).moves = true ∧
      Descriptor.zero.sameStructure plain = false) ∧
    ((filling plain).takesCommand .start 0 false 0 = true ∧ ((filling plain).ring 0).runState ≠ .idle) ∧
    ((State.reset.ring 0).runState = .idle ∧ (State.reset.ring 0).activeValid = false) ∧
    ((with0 { Ring.zero with activeValid := true }).startFailure 0 = some 1) ∧
    (State.reset.takesCommand .stop 0 false 0 = true ∧ State.reset.takesCommand .abort 0 false 0 = true) ∧
    ((filling plain).takesCommand .close 0 false 0 = true ∧ ((filling plain).ring 0).fillBytes = 0) ∧
    ((filling plain).takesCommand .release 0 false 0 = true ∧ ((filling plain).ring 0).drainSub = .empty) := by
  decide +kernel

/-- A valid descriptor, and one for each failing check. -/
theorem test_ValidityChecksAtStart :
    let s (d : Descriptor) : State := with0 { Ring.zero with active := d, activeValid := true }
    (s plain).startFailure 0 = none ∧
    (s { plain with aperSize := 0x800#32 }).startFailure 0 = some 1 ∧
    (s { plain with aperSize := 0x1000#32 }).startFailure 0 = none ∧
    (s { plain with aperSize := 0x8000000#32 }).startFailure 0 = some 1 ∧
    (s { plain with fillBase := 0x80001000#40 }).startFailure 0 = some 2 ∧
    (s { plain with drainBase := 0x80000000#40 }).startFailure 0 = some 3 ∧
    ((s plain).setRing 1 { begun plain with active := { plain with drainBase := 0x90000000#40 } }).startFailure 0 = some 4 ∧
    (s { plain with slotCount := 1 }).startFailure 0 = some 5 ∧
    (s { plain with slotCount := 9 }).startFailure 0 = some 5 ∧
    (s { plain with slotSize := 0x20000#32 }).startFailure 0 = some 6 ∧
    (s { plain with slotBase := plain.slotBase.set 2 0xFFFFFFF100#40 }).startFailure 0 = some 7 ∧
    (s { plain with slotBase := plain.slotBase.set 2 0xFFFFFFF000#40 }).startFailure 0 = none ∧
    (s { plain with slotBase := plain.slotBase.set 1 0x40000F00#40 }).startFailure 0 = some 8 ∧
    ((s plain).setRing 1 (begun { plain with
      fillBase := 0x40000000#40, drainBase := 0x50000000#40, slotBase := #v[0x60000000#40, 0x60001000#40, 0x60002000#40,
        0, 0, 0, 0, 0] })).startFailure 0 = some 9 ∧
    (s { plain with closeOnLimit := true }).startFailure 0 = some 10 ∧
    (s { plain with guard := 3 }).startFailure 0 = some 11 ∧
    (s { plain with recordEnable := true }).startFailure 0 = some 12 := by decide +kernel

theorem test_StartInitialisesRing :
    let s := with0 { Ring.zero with active := plain, activeValid := true }
    s.takesCommand .start (ringField 0) false 0 = true ∧ (s.ring 0).runState = .idle ∧ (s.ring 0).activeValid = true ∧
      s.startFailure 0 = none := by decide +kernel

theorem test_StopEndsTheFill :
    let s := with0 { begun plain with fillBytes := 1, highMark := 1 }
    let busy := with0 (retained.modSlot 0 fun x => { x with outstanding := 1 })
    (s.takesCommand .stop (ringField 0) false 0 = true ∧ (s.ring 0).runState = .running ∧ (s.ring 0).fillSub = .filling ∧
      0 < (s.ring 0).fillBytes ∧ (s.ring 0).fillSlot = some 0) ∧
    (((filling plain).ring 0).fillSub = .filling ∧ ((filling plain).ring 0).fillBytes = 0 ∧
      ((filling plain).ring 0).fillSlot = some 0 ∧ ((filling plain).ring 0).drainSub ≠ .retained) ∧
    (((with0 (noSlot .closing plain)).ring 0).fillSub ≠ .filling ∧
      (with0 (noSlot .closing plain)).takesCommand .stop (ringField 0) false 0 = true) ∧
    (((with0 retained).ring 0).runState = .running ∧ retained.fillBytes = 0 ∧ retained.drainSub = .retained ∧
      retained.ready = [] ∧ retained.drainSlot = some 0 ∧ (retained.slot 0).outstanding = 0 ∧ 0 ∉ retained.releasing) ∧
    ((busy.ring 0).drainSub = .retained ∧ ((busy.ring 0).slot 0).outstanding ≠ 0) := by decide +kernel

theorem test_AbortEntersAborting : (filling plain).takesCommand .abort (ringField 0) false 0 = true ∧
    ((filling plain).ring 0).runState ≠ .idle ∧ ((filling plain).ring 0).runState ≠ .aborting := by decide +kernel

theorem test_CommitCopiesOrPends : State.reset.takesCommand .commit (ringField 3) false 0 = true ∧
    (State.reset.ring 3).runState = .idle ∧ ((filling plain).ring 0).moves = true ∧
    ((filling plain).ring 0).shadow.sameStructure ((filling plain).ring 0).active = true ∧
    (filling plain).takesCommand .commit (ringField 0) false 0 = true := by decide +kernel

theorem test_CloseAndReleaseAct :
    let s := with0 { draining plain with fillBytes := 1, highMark := 1 }
    s.takesCommand .close (ringField 0) false 0 = true ∧ (s.ring 0).runState = .running ∧ (s.ring 0).fillSub = .filling ∧
      0 < (s.ring 0).fillBytes ∧ s.takesCommand .release (ringField 0) false 0 = true ∧
      (s.ring 0).drainSub = .draining := by decide +kernel

theorem test_TriggerReleasesOrRetains :
    let s := with0 (draining { plain with underrun := 2 })
    let t := with0 (draining plain)
    let u := with0 ((draining plain).modSlot 0 fun x => { x with outstanding := 1 })
    ((s.ring 0).drainSlot = some 0 ∧ (s.ring 0).runState ≠ .ending ∧ (s.ring 0).active.underrun = 2 ∧
      (s.ring 0).headSettled = false) ∧
    ((t.ring 0).drainSlot = some 0 ∧ (t.ring 0).active.underrun ≠ 2 ∧ ((t.ring 0).slot 0).outstanding = 0) ∧
    ((u.ring 0).active.underrun ≠ 2 ∧ ((u.ring 0).slot 0).outstanding ≠ 0) := by decide +kernel

theorem test_AckClearsAttention : State.reset.takesCommand .ack (ringField 3) false 0x3FF#10 = true ∧
    State.reset.takesCommand .ack 7 true 0x3FF#10 = true ∧ (0x3FF#10).getLsbD 0 = true ∧
    State.reset.takesCommand .ack 0 true 0 = true ∧ (0#10).getLsbD 0 = false := by decide +kernel

/-- The first ring after the last served offers; the last one does; none offers; no entry is free. -/
theorem test_RecordIssueSendsHeadRecord :
    let x : LogRecord := ⟨.close, 0, 0, some .limit, false, false, 1, 1⟩
    let s := with0 { begun plain with records := [x] }
    let t : State := { s with rrLast := 0 }
    ((∀ u : DownTag, u < 0 → s.table[u] ≠ none) ∧ s.table[(0 : DownTag)] = none ∧ s.rrLast + 1 + 0 = 0 ∧
      (s.ring 0).moves = true ∧ (s.ring 0).records = [x]) ∧
    (t.rrLast + 1 + 3 = 0 ∧ (∀ k : Fin 4, k < 3 → (t.ring (t.rrLast + 1 + k)).moves = false)) ∧
    (∀ i, (State.reset.ring i).moves = false) ∧ (∀ u : DownTag, (fullTable State.reset).table[u] ≠ none) := by
  decide +kernel

theorem test_ReExaminationIssuesHeldRequest :
    let h : Held := ⟨0, read 9 0 4, .table⟩
    let s := holding .table (read 0 0 4) State.reset
    (State.reset.resetLow = false ∧ State.reset.quiet = true ∧ State.reset.waiting = [] ∧ State.reset.hold = []) ∧
    (s.resetLow = false ∧ s.quiet = true ∧ s.waiting = [] ∧ s.hold = [h] ∧ h.reason = .table ∧
      s.matchRequest h.request = .outside ∧ s.guardRing? h.request = none ∧ s.anyOffer = false ∧ s.freeTag? = some 0) ∧
    State.resetLow { State.reset with resetLow := true } = true := by decide +kernel

/-- One walk that changes something and one that does not. -/
theorem test_ReExaminationIssuesHeldRequest_walks :
    let s := holding .table (read 0 0 4) State.reset
    let w := State.walk { s with sent := [] }
    let x := State.walk { w with reexamAsked := false, walkChanged := false }
    (s.resetLow = false ∧ s.quiet = true ∧ s.waiting = []) ∧ w.walkChanged = true ∧
      x.reexamAsked = false ∧ x.walkChanged = false ∧ ∀ h ∈ State.reset.hold, h.order ≠ 0 := by decide +kernel

/-- A visit: behind an older entry of its initiator; a pass-through with an entry and without; a write and a read that are
taken, below and at their limits, without an entry, and one that waits. -/
theorem test_ReExaminationIssuesHeldRequest_visits :
    let h (r : Reason) (q : Request) : Held := ⟨1, q, r⟩
    let on (r : Reason) (q : Request) (s : State) : State := { s with hold := [h r q], nextOrder := 2 }
    let put := write 9 0x80000010#40 16
    let get := read 9 0x80010000#40 16
    let pass := on .order (read 9 0 4) State.reset
    let two : State := { State.reset with hold := [⟨0, read 9 0 4, .table⟩, h .table (read 9 4 4)], nextOrder := 2 }
    let a := on .table put (filling { plain with closeOnLimit := true, closeLimit := 17 })
    let b := on (.fillWait 0) put (filling { plain with closeOnLimit := true, closeLimit := 16 })
    let c := on .order put (with0 { begun (streamed plain) with fillCursor := 0xFF0, fillBytes := 0xFF0, highMark := 0xFF0 })
    let d (n : Nat) := on (.drainWait 0) get
      (with0 ((draining { plain with releaseOnLimit := true }).modSlot 0 fun x => { x with fillLength := n }))
    let stalled := on .order put (with0 { noSlot .closing plain with fillSub := .waiting })
    let starved := on .table get (with0 { begun plain with drainSub := .waiting })
    (two.hold = [⟨0, read 9 0 4, .table⟩] ++ h .table (read 9 4 4) :: [] ∧ (0 : Nat) < 1) ∧
    (pass.matchRequest (read 9 0 4) = .outside ∧ pass.guardRing? (read 9 0 4) = none ∧ pass.anyOffer = false ∧
      pass.freeTag? = some 0 ∧ (fullTable pass).freeTag? = none ∧ (pass.decode (some 1) (read 9 0 4)).2 = .done) ∧
    (a.fillDecides put 0 ∧ (a.ring 0).fillSub = .filling ∧ (a.ring 0).fillSlot = some 0 ∧ a.freeTag? = some 0 ∧
      (a.ring 0).active.closeLimit.toNat = 17 ∧ (fullTable a).freeTag? = none) ∧
    (b.fillDecides put 0 ∧ (b.ring 0).active.closeOnLimit = true ∧ (b.ring 0).active.closeLimit.toNat ≤ 16) ∧
    (c.fillDecides put 0 ∧ (c.ring 0).active.closeOnLimit = false ∧ 0x1000 ≤ (c.ring 0).fillCursor + 16) ∧
    (∀ n : Fin 18, (d n).drainDecides get 0 ∧ ((d n).ring 0).hasDrainSlot = true ∧ ((d n).ring 0).drainSlot = some 0 ∧
      (((d n).ring 0).slot 0).fillLength = n) ∧
    (stalled.fillDecides put 0 ∧ (stalled.ring 0).fillSub = .waiting ∧ (stalled.ring 0).active.overrun = 0 ∧
      (stalled.decode (some 1) put).2 = .hold (.fillWait 0)) ∧
    (starved.drainDecides get 0 ∧ (starved.ring 0).drainSub = .waiting ∧ (starved.ring 0).active.underrun = 0 ∧
      ¬ ((starved.ring 0).runState = .ending ∧ (starved.ring 0).ready = [])) := by
  unfold State.fillDecides State.drainDecides
  decide +kernel

/-- A visit that answers the last wait of a side, beside one that is not the last: DROP, a reclaim with an entry and without,
the pattern, and RING_ENDING. -/
theorem test_ReExaminationIssuesHeldRequest_last_wait :
    let put := write 9 0x80000010#40 16
    let get := read 9 0x80010000#40 16
    let on (r : Reason) (q : Request) (more : List Held) (s : State) : State :=
      { s with hold := ⟨1, q, r⟩ :: more, nextOrder := 3 }
    let drop := on (.fillWait 0) put [] (with0 { noSlot .closing { plain with overrun := 1 } with fillSub := .waiting })
    let reclaim := on (.fillWait 0) put [] (with0 { noSlot .settled { plain with overrun := 2 } with fillSub := .waiting })
    let under (n : BitVec 2) : State :=
      on (.drainWait 0) get [] (with0 { begun { plain with underrun := n } with drainSub := .waiting, drainTimer := some 9 })
    let ending := on (.drainWait 0) get []
      (inState .ending (with0 { begun plain with fillSub := .closed, drainSub := .waiting }))
    let two := on (.drainWait 0) get [⟨2, read 8 0x80010000#40 16, .drainWait 0⟩] (under 1)
    (drop.fillDecides put 0 ∧ (drop.ring 0).fillSub = .waiting ∧ (drop.ring 0).active.overrun = 1) ∧
    (reclaim.fillDecides put 0 ∧ (reclaim.ring 0).headSettled = true ∧ ((reclaim.reclaimHead 0).ring 0).fillSlot = some 0 ∧
      (reclaim.reclaimHead 0).anyOffer = false ∧ (reclaim.reclaimHead 0).freeTag? = some 0 ∧
      ((fullTable reclaim).reclaimHead 0).freeTag? = none) ∧
    (∀ n ∈ [1, 2], (under n).drainDecides get 0 ∧ ((under n).ring 0).drainSub = .waiting ∧
      ((under n).ring 0).hasDrainSlot = false ∧ ((under n).ring 0).active.underrun = n) ∧
    (ending.drainDecides get 0 ∧ (ending.ring 0).runState = .ending ∧ (ending.ring 0).ready = []) ∧
    (two.drainDecides get 0 ∧ two.hold.length = 2) := by
  unfold State.fillDecides State.drainDecides
  decide +kernel

/-- The same as events: the side has left WAITING, its timer is stopped, and in ENDING the ring is IDLE. -/
theorem test_last_wait :
    let get := read 9 0x80010000#40 16
    let s (r : Ring) : State := { with0 r with hold := [⟨1, get, .drainWait 0⟩], nextOrder := 2 }
    let waits : Ring := { begun { plain with underrun := 1 } with drainSub := .waiting, drainTimer := some 9 }
    ((after .reExamination (s waits)).map fun t => ((t.ring 0).drainSub, (t.ring 0).drainTimer, t.hold)) =
      some (.empty, none, []) ∧
    ((after .reExamination (s { waits with runState := .ending, fillSub := .closed, fillSlot := none })).map
      fun t => ((t.ring 0).runState, t.refusal.map RefusalRecord.cause)) = some (.idle, some .ringEnding) := by decide +kernel

/-- The fill side's take from NO_SLOT and from WAITING, and the three ways it makes none. -/
theorem test_ReleaseCompletionFreesSlot_take :
    let r (x : FillSub) (free : List SlotId) : Ring := { noSlot .closing plain with fillSub := x, freeList := free }
    ((r .noSlot [1, 2]).runState = .running ∧ (r .waiting [1]).fillSub = .waiting ∧ (r .waiting [1]).freeList = [1]) ∧
    (r .noSlot []).freeList = [] ∧ (begun plain).fillSub = .filling ∧ Ring.zero.runState ≠ .running := by decide +kernel

theorem test_ReleaseCompletionFreesSlot :
    let s := with0 { noSlot .releasing plain with ready := [], releasing := [0] }
    ((s.ring 0).moves = true ∧ 0 ∈ (s.ring 0).releasing ∧ ((s.ring 0).slot 0).state = .releasing ∧
      ((s.ring 0).slot 0).outstanding = 0) ∧ ¬ (State.reset.ring 0).moves = true := by decide +kernel

/-- The drain side's take from EMPTY in RUNNING and from WAITING in ENDING, and the three ways it makes none. -/
theorem test_ReadyEntriesAdvance_take :
    let r := noSlot .settled plain
    let w : Ring := { r with drainSub := .waiting, runState := .ending }
    (r.runState = .running ∧ r.drainSub = .empty ∧ r.ready = ⟨0, false⟩ :: [] ∧ (r.slot 0).state = .settled) ∧
    (w.runState = .ending ∧ w.drainSub = .waiting ∧ w.ready = ⟨0, false⟩ :: []) ∧
    (draining plain).drainSub = .draining ∧ (begun plain).ready = [] ∧ ((noSlot .recording plain).slot 0).state ≠ .settled := by
  decide +kernel

/-- A head and an entry behind another, with and without records; entries that stay. -/
theorem test_ReadyEntriesAdvance :
    let two (a b : SlotState) (d : Descriptor) : Ring :=
      { (noSlot a d).setSlotState 1 b with ready := [⟨0, false⟩, ⟨1, true⟩] }
    let rec_ : Descriptor := { plain with recordEnable := true, recordCount := 4 }
    ((two .recording .closing rec_).ready = [⟨0, false⟩] ++ [⟨1, true⟩] ∧ (two .recording .closing rec_).moves = true ∧
      ((two .recording .closing rec_).slot 1).state = .closing ∧ ((two .recording .closing rec_).slot 1).outstanding = 0 ∧
      (two .recording .closing rec_).active.recordEnable = true ∧ ((two .recording .closing rec_).slot 0).state = .recording) ∧
    ((noSlot .closing plain).ready = [] ++ [⟨0, false⟩] ∧ ((noSlot .closing plain).slot 0).state = .closing ∧
      (noSlot .closing plain).active.recordEnable = false ∧ (noSlot .closing plain).moves = true) ∧
    (((two .settled .recording rec_).slot 1).state = .recording ∧ ((two .settled .recording rec_).slot 0).state = .settled ∧
      (two .settled .recording rec_).moves = true) ∧
    ((noSlot .settled plain).slot 0).state ≠ .closing ∧ ((noSlot .settled plain).slot 0).state ≠ .recording := by
  decide +kernel

/-- An entry in the middle: it advances with one behind it, or its predecessor keeps it, by each row, with and without
records; an entry that the queue does not hold. -/
theorem test_ReadyEntriesAdvance_predecessor :
    let three (a b : SlotState) (d : Descriptor) : Ring :=
      { (noSlot a d).setSlotState 1 b with ready := [⟨0, false⟩, ⟨1, true⟩, ⟨2, false⟩] }
    let rec_ : Descriptor := { plain with recordEnable := true, recordCount := 4 }
    (∀ d ∈ [plain, rec_], ∀ x ∈ [SlotState.closing, .recording],
      (three .closing x d).ready = [⟨0, false⟩] ++ ⟨1, true⟩ :: [⟨2, false⟩] ∧ (three .closing x d).moves = true ∧
      ((three .closing x d).slot 1).state = x ∧ ((three .closing x d).slot 1).outstanding = 0 ∧
      ((three .closing x d).slot 0).state ∉ [SlotState.recording, .settled]) ∧
    ((three .recording .closing plain).slot 0).state ∉ [SlotState.settled] ∧
    ((three .settled .recording rec_).slot 0).state = .settled ∧
    (∀ p ∈ (noSlot .closing plain).ready, p.slot ≠ 1) := by decide +kernel

theorem test_PendingCommitIsAppliedOrLost :
    let s (d : Descriptor) : State := with0 { closed 1 plain with shadow := d, commitPending := true }
    (((s plain).ring 0).commitPending = true ∧ ((s plain).ring 0).runState = .running ∧
      ((s plain).ring 0).fillSub = .filling ∧ ((s plain).ring 0).fillSlot = none ∧ (s plain).liveFailure 0 = none ∧
      plain.sameStructure plain = true) ∧
    (Descriptor.zero.sameStructure plain = false) ∧
    ((s { plain with guard := 3 }).liveFailure 0 = some 11 ∧ Descriptor.sameStructure { plain with guard := 3 } plain = true) ∧
    (((filling plain).ring 0).commitPending = false ∧ ((filling plain).ring 0).fillSlot ≠ none) := by decide +kernel

theorem test_EndingCompletesToIdle :
    let s (p : Bool) : State := with0 { begun plain with runState := .ending, fillSub := .closed, commitPending := p }
    (∀ p : Bool, ((s p).ring 0).runState = .ending ∧ ((s p).ring 0).fillSub = .closed ∧ ((s p).ring 0).ready = [] ∧
      ((s p).ring 0).drainSub = .empty ∧ ((s p).ring 0).releasing = [] ∧ ((s p).ring 0).records = [] ∧ (s p).hold = [] ∧
      ((s p).ring 0).commitPending = p ∧ ∀ t : DownTag, (s p).table[t] = none) ∧
    ((filling plain).ring 0).runState ≠ .ending := by decide +kernel

theorem test_AbortCompletesToIdle :
    (((inState .aborting (with0 (draining plain))).ring 0).runState = .aborting ∧
      ∀ t : DownTag, (inState .aborting (with0 (draining plain))).table[t] = none) ∧
    (entry0 (.fill 0 0 1 5) (inState .aborting (filling plain))).table[(0 : DownTag)] = some (.fill 0 0 1 5) ∧
    entryRing (.fill 0 0 1 5) = some 0 := by decide +kernel

/-! ### The invariants hold in states with something in them, and a step goes on from there -/

theorem test_HoldQueueStaysSound :
    let s : State := { holding .table (read 0 0 4) (fullTable State.reset) with pending := [.upstreamRequest (read 9 0 4)] }
    s.holdBounded ∧ s.holdOrdered ∧ ∃ t, step s = .next t := by
  refine ⟨by unfold State.holdBounded; decide +kernel, ?_, _, rfl⟩
  unfold State.holdOrdered
  decide +kernel

theorem test_RefusalRecordStaysSound :
    let s : State := { State.reset with
      refusal := some ⟨.guard, 1, 2, 3, .read, 0⟩, globalAttn := true, laterCount := 65535, pending := [.ackGlobal 0 1] }
    s.refusalSound ∧ ∃ t, step s = .next t := by
  refine ⟨?_, _, rfl⟩
  unfold State.refusalSound
  decide +kernel

theorem test_EventsEndQuiet :
    let s : State := { holding .table (read 0 0 4) (fullTable State.reset) with pending := [.downstreamResponse 0 .okay []] }
    s.quiet = true ∧ ∃ t, step s = .next t := ⟨by decide +kernel, _, rfl⟩

theorem test_RingsStaySound :
    let s : State := { with0 { noSlot .closing { plain with slotCount := 2 } with
      fillSub := .waiting, fillTimer := some 5, freeList := [1] } with pending := [.closingAdvance 0 0] }
    s.everyRing Ring.timersSound ∧ s.everyRing Ring.commitSound ∧ s.everyRing Ring.placesSound ∧ ∃ t, step s = .next t := by
  refine ⟨?_, ?_, ?_, _, rfl⟩
  · unfold State.everyRing Ring.timersSound
    decide +kernel
  · unfold State.everyRing Ring.commitSound
    decide +kernel
  · unfold State.everyRing Ring.placesSound
    decide +kernel

theorem test_OnlyOwnCommandsChangeRegisters : ∃ t, exec .timebaseStep (filling plain) = .next t ∧ Instr.timebaseStep ≠ .resetN ∧
    (∀ a w, Instr.timebaseStep ≠ .registerWrite a w) ∧ ∀ m, Instr.timebaseStep ≠ .frameBegin m :=
  ⟨_, rfl, by decide, fun _ _ h => Instr.noConfusion h, fun _ h => Instr.noConfusion h⟩

/-- A FRAME_BEGIN one bit short of a word: in a new frame, and in an open one. -/
theorem test_OnlyOwnCommandsChangeRegisters_bits : State.reset.completesNoWord (List.replicate 55 true) = true ∧
    State.reset.completesNoWord (List.replicate 56 true) = false ∧
    (writing 3 [] State.reset).completesNoWord (List.replicate 31 true) = true ∧
    (writing 3 [true] State.reset).completesNoWord (List.replicate 31 true) = false := by decide +kernel

theorem test_AttentionSummaryAndLine : State.reset.takesWord 0x0022#16 0xFFFFFFFF#32 = true := by decide +kernel

end Sys2Proof.Slice0Tests
end

section
/-! PROOFS. Every step keeps each ring's timers, its pending commit and the places of its slots (07 R124, R127, 05 R94, 01 R4). -/

namespace Sys2Proof.Machine

/-- A ring's three soundness properties. -/
def Ring.Sound (r : Ring) : Prop := r.timersSound ∧ r.commitSound ∧ r.placesSound

theorem State.everyRing_sound_iff (s : State) : s.everyRing Ring.Sound ↔
    s.everyRing Ring.timersSound ∧ s.everyRing Ring.commitSound ∧ s.everyRing Ring.placesSound := by
  simp only [State.everyRing, Ring.Sound, forall_and]

/-! ### What keeps a ring sound -/

theorem Ring.Kin.sound {r t : Ring} (h : r.Kin t) (p : r.Sound) : t.Sound := by
  obtain ⟨timers, commit, places⟩ := p
  exact ⟨(Ring.timersSound_iff t).mpr (h.timers _ ((Ring.timersSound_iff r).mp timers)), h.commit commit, h.places places⟩

theorem Ring.sound_zero : Ring.zero.Sound :=
  ⟨(Ring.timersSound_iff _).mpr (Ring.Timers.stopped rfl rfl), fun _ => rfl, Ring.placesSound_idle rfl⟩

theorem Ring.sound_begin (r : Ring) : r.begin.Sound :=
  ⟨(Ring.timersSound_iff _).mpr (Ring.timers_begin _ r),
    fun h => by simp [Ring.moves, Ring.runState_begin] at h, Ring.places_begin r⟩

/-- The registers of software's own are no part of it. -/
theorem Ring.sound_setShadow (d : Descriptor) {r : Ring} (p : r.Sound) : Ring.Sound { r with shadow := d } := p

theorem Ring.sound_setMask (m : BitVec 10) {r : Ring} (p : r.Sound) : Ring.Sound { r with mask := m } := p

theorem Ring.sound_acknowledge (causes : BitVec 10) {r : Ring} (p : r.Sound) : (r.acknowledge causes).Sound := p

/-! ### What keeps every ring sound -/

theorem State.sound_of_rings {s t : State} (h : t.rings = s.rings) (p : s.everyRing Ring.Sound) :
    t.everyRing Ring.Sound := fun i => by
  have e : t.ring i = s.ring i := by unfold State.ring; rw [h]
  rw [e]
  exact p i

theorem Flow.sound {s t : State} (f : Flow s t) (p : s.everyRing Ring.Sound) : t.everyRing Ring.Sound :=
  fun i => (f.rings i).sound (p i)

theorem State.sound_finish {s : State} (p : s.everyRing Ring.Sound) : s.finish.everyRing Ring.Sound :=
  (State.flow_finish s).sound p

theorem State.sound_modRing {s : State} (i : RingId) (f : Ring → Ring) (h : (s.ring i).Sound → (f (s.ring i)).Sound)
    (p : s.everyRing Ring.Sound) : (s.modRing i f).everyRing Ring.Sound := fun j => by
  by_cases e : j = i
  · subst e
    rw [State.ring_modRing_self]
    exact h (p j)
  · rw [State.ring_modRing_ne _ _ _ _ e]
    exact p j

/-! ### The commands that a ring takes -/

theorem State.sound_commitRing (i : RingId) {s : State} (p : s.everyRing Ring.Sound) :
    (s.commitRing i).1.everyRing Ring.Sound := by
  unfold State.commitRing
  dsimp only
  have pend (h : (s.ring i).moves = true) : (if (s.ring i).shadow.sameStructure (s.ring i).active then
      (s.modRing i Ring.pendCommit, Reply.accepted) else (s, .refused .structuralChange 0)).1.everyRing Ring.Sound := by
    split
    · exact State.sound_modRing i _ (Ring.kin_pendCommit _ h).sound p
    · exact p
  split
  next h =>
    exact State.sound_finish (State.sound_modRing i _ (Ring.kin_copyShadow _ h).sound p)
  next h => exact pend (by simp [Ring.moves, h])
  next h => exact pend (by simp [Ring.moves, h])
  next => exact p
  next => exact p

theorem State.sound_startRing (i : RingId) {s : State} (p : s.everyRing Ring.Sound) :
    (s.startRing i).1.everyRing Ring.Sound := by
  unfold State.startRing
  dsimp only
  split
  · exact p
  · split
    · exact p
    · split
      · exact p
      · exact State.sound_finish (State.sound_modRing i _ (fun _ => Ring.sound_begin _) p)

theorem State.sound_stopRing (i : RingId) {s : State} (p : s.everyRing Ring.Sound) :
    (s.stopRing i).1.everyRing Ring.Sound := by
  unfold State.stopRing
  split
  · exact p
  next h =>
    dsimp only
    exact State.sound_finish ((State.flow_stop i s (by simpa using h)).sound p)

theorem State.sound_abortRing (i : RingId) {s : State} (p : s.everyRing Ring.Sound) :
    (s.abortRing i).1.everyRing Ring.Sound := by
  unfold State.abortRing
  dsimp only
  split
  · exact p
  next h =>
    have notIdle : (s.ring i).runState ≠ .idle := fun e => h (by simp [e])
    exact State.sound_finish ((State.flow_abort i s notIdle).sound p)

theorem State.sound_closeRing (i : RingId) {s : State} (p : s.everyRing Ring.Sound) :
    (s.closeRing i).1.everyRing Ring.Sound := by
  unfold State.closeRing
  dsimp only
  split
  · exact p
  · split
    next h =>
      simp only [Ring.canClose, Bool.and_eq_true, beq_iff_eq] at h
      obtain ⟨⟨running, filling⟩, _⟩ := h
      exact State.sound_finish ((State.works_closeFrame i .command none s running filling).1.flow.sound p)
    · exact p

theorem State.sound_releaseRing (i : RingId) {s : State} (p : s.everyRing Ring.Sound) :
    (s.releaseRing i).1.everyRing Ring.Sound := by
  unfold State.releaseRing
  dsimp only
  split
  · exact p
  · split
    · exact State.sound_finish ((State.works_trigger i s).flow.sound p)
    · exact p

theorem State.sound_ackRing (causes : BitVec 10) (i : RingId) {s : State} (p : s.everyRing Ring.Sound) :
    (s.ackRing causes i).1.everyRing Ring.Sound :=
  State.sound_modRing i _ (Ring.sound_acknowledge causes) p

/-! ### Words at the management port -/

theorem State.rings_setResult (c : CommandKind) (n : RingField) (g : Bool) (reply : Reply) (s : State) :
    (s.setResult c n g reply).rings = s.rings := by
  cases reply <;> rfl

theorem State.sound_takeCommand (c : CommandKind) (n : RingField) (f : RingId → State → State × Reply)
    (h : ∀ i (s : State), s.everyRing Ring.Sound → (f i s).1.everyRing Ring.Sound) {s : State}
    (p : s.everyRing Ring.Sound) : (s.takeCommand c n f).everyRing Ring.Sound := by
  unfold State.takeCommand
  split
  · exact State.sound_of_rings (State.rings_setResult _ _ _ _ _) (h _ s p)
  · exact State.sound_of_rings (State.rings_setResult _ _ _ _ _) p

theorem State.rings_takeGlobalAck (n : RingField) (causes : BitVec 10) (s : State) :
    (s.takeGlobalAck n causes).rings = s.rings := by
  unfold State.takeGlobalAck
  rw [State.rings_setResult]
  unfold State.ackRefusal
  split <;> rfl

theorem State.sound_writeCommand (w : Word) {s : State} (p : s.everyRing Ring.Sound) :
    (s.writeCommand w).everyRing Ring.Sound := by
  unfold State.writeCommand
  dsimp only
  split
  · exact State.sound_takeCommand _ _ _ (fun i _ => State.sound_commitRing i) p
  · exact State.sound_takeCommand _ _ _ (fun i _ => State.sound_startRing i) p
  · exact State.sound_takeCommand _ _ _ (fun i _ => State.sound_stopRing i) p
  · exact State.sound_takeCommand _ _ _ (fun i _ => State.sound_abortRing i) p
  · exact State.sound_takeCommand _ _ _ (fun i _ => State.sound_closeRing i) p
  · exact State.sound_takeCommand _ _ _ (fun i _ => State.sound_releaseRing i) p
  · split
    · exact State.sound_of_rings (State.rings_takeGlobalAck _ _ _) p
    · exact State.sound_takeCommand _ _ _ (fun i _ => State.sound_ackRing _ i) p
  · exact p

theorem State.sound_writeShadow (i : RingId) (k : Fin 32) (w : Word) {s : State} (p : s.everyRing Ring.Sound) :
    (s.writeShadow i k w).everyRing Ring.Sound :=
  State.sound_modRing i _ (Ring.sound_setShadow _) p

theorem State.sound_writeMask (i : RingId) (w : Word) {s : State} (p : s.everyRing Ring.Sound) :
    (s.writeMask i w).everyRing Ring.Sound :=
  State.sound_modRing i _ (Ring.sound_setMask _) p

theorem State.sound_writeWord (a : WordAddr) (w : Word) {s : State} (p : s.everyRing Ring.Sound) :
    (s.writeWord a w).everyRing Ring.Sound := by
  unfold State.writeWord
  dsimp only
  split
  · exact State.sound_of_rings (State.rings_writeEdges s w) p
  split
  · exact State.sound_writeCommand w p
  split
  · exact State.sound_of_rings (State.rings_writeGlobalMask s w) p
  split
  · split
    · exact State.sound_writeShadow _ _ w p
    split
    · exact State.sound_writeMask _ w p
    · exact p
  · exact p

theorem State.sound_portWrite (a : WordAddr) (w : Word) (f : State → State)
    (h : ∀ s : State, s.everyRing Ring.Sound → (f s).everyRing Ring.Sound) {s : State} (p : s.everyRing Ring.Sound) :
    (s.portWrite a w f).everyRing Ring.Sound := by
  have fresh : s.fresh.movePast.everyRing Ring.Sound := State.sound_of_rings rfl p
  unfold State.portWrite
  split
  · exact h _ fresh
  · exact p

theorem State.sound_command (c : CommandKind) (n : RingField) (causes : BitVec 10) (f : RingId → State → State × Reply)
    (h : ∀ i (s : State), s.everyRing Ring.Sound → (f i s).1.everyRing Ring.Sound) {s : State}
    (p : s.everyRing Ring.Sound) : (s.command c n causes f).everyRing Ring.Sound :=
  State.sound_portWrite _ _ _ (fun _ => State.sound_takeCommand c n f h) p

/-- The bits of a frame: a bit moves the frame on, samples a word or writes one. -/
theorem State.sound_takeFrameBits (mosi : List Bool) {s : State} (p : s.everyRing Ring.Sound) :
    (s.takeFrameBits mosi).everyRing Ring.Sound := by
  refine State.takeFrameBits_induct (P := fun t => t.everyRing Ring.Sound) mosi s ?_ (fun _ _ => id) (fun _ => id)
    (fun _ _ => id) (fun a w _ => State.sound_writeWord a w)
  unfold State.openFrame
  split <;> exact p

/-! ### Pins, ports and time -/

theorem State.sound_inReset (s : State) : s.inReset.everyRing Ring.Sound := fun i => by
  have e : s.inReset.ring i = Ring.zero := by simp [State.ring, State.inReset, State.reset]
  rw [e]
  exact Ring.sound_zero

theorem State.sound_takeResponse (t : DownTag) (status : Status) (bytes : List Byte) {s : State}
    (p : s.everyRing Ring.Sound) : (s.takeResponse t status bytes).everyRing Ring.Sound := by
  unfold State.takeResponse
  split
  · exact State.sound_of_rings (State.rings_countStray s) p
  next e _ => exact State.sound_finish ((State.works_response e t status bytes s).flow.sound p)

theorem State.sound_seeTransition (n : LineId) (rising : Bool) {s : State} (p : s.everyRing Ring.Sound) :
    (s.seeTransition n rising).everyRing Ring.Sound := by
  unfold State.seeTransition
  dsimp only
  split
  · refine State.sound_finish ((State.works_deliver n _).flow.sound ?_)
    exact State.sound_of_rings (s := s) rfl p
  · exact p

/-- A step of the timebase: the timers by their own law, the pending commit and the places untouched by the decrement. -/
theorem State.sound_timebaseStep {s : State} (p : s.everyRing Ring.Sound) : s.timebaseStep.everyRing Ring.Sound := by
  have timers := State.timers_timebaseStep s fun i => (p i).1
  intro i
  obtain ⟨_, commit, places⟩ := p i
  have kin := (State.flow_timebaseStep s).rings i
  have tick : State.ring i { s.tickAll with choices := s.choices + (s.tickAll.dueTimers.length - 1) } = (s.ring i).tick :=
    State.ring_tickAll i s
  rw [tick] at kin
  exact ⟨timers i, kin.commit commit, kin.places places⟩

theorem State.sound_sampleRead {s : State} (p : s.everyRing Ring.Sound) : s.sampleRead.everyRing Ring.Sound := by
  unfold State.sampleRead
  split <;> exact p

/-! ### Every command, every step -/

theorem exec_keeps_sound (c : Instr) {s t : State} (p : s.everyRing Ring.Sound) (h : exec c s = .next t) :
    t.everyRing Ring.Sound := by
  have fresh : s.fresh.everyRing Ring.Sound := p
  cases c with
  | resetN => cases h; exact State.sound_inReset s
  | resetNRise levels =>
    cases h
    split
    · exact State.sound_finish (State.sound_of_rings (s := s) rfl p)
    · exact fresh
  | upstreamRequest q =>
    simp only [exec, execUpstreamRequest] at h
    split at h
    · cases h
      split
      · exact State.sound_of_rings (s := s) rfl p
      · exact State.sound_finish (State.sound_of_rings (s := s) rfl p)
    · cases h
  | downstreamResponse tag status data =>
    simp only [exec, execDownstreamResponse] at h
    split at h
    · cases h
      split
      · exact fresh
      · exact State.sound_takeResponse tag status data fresh
    · cases h
  | eventEdge n rising =>
    cases h
    split
    · exact fresh
    · exact State.sound_seeTransition n rising fresh
  | lineTransition n rising =>
    cases h
    split
    · exact fresh
    · exact State.sound_seeTransition n rising fresh
  | stallTimerExpiry i side => cases h; exact (State.flow_expire i side s.fresh).sound fresh
  | timebaseStep => cases h; exact State.sound_timebaseStep fresh
  | frameBegin mosi => cases h; exact State.sound_takeFrameBits mosi p
  | frameEnd => cases h; exact State.sound_of_rings (s := s) rfl p
  | shadowWrite i k w => cases h; exact State.sound_portWrite _ _ _ (fun _ => State.sound_writeShadow i k w) p
  | eventLineConfiguration w =>
    cases h; exact State.sound_portWrite _ _ _ (fun u => State.sound_of_rings (State.rings_writeEdges u w)) p
  | attentionMaskWrite i w => cases h; exact State.sound_portWrite _ _ _ (fun _ => State.sound_writeMask i w) p
  | globalAttentionMaskWrite w =>
    cases h; exact State.sound_portWrite _ _ _ (fun u => State.sound_of_rings (State.rings_writeGlobalMask u w)) p
  | registerWrite a w => cases h; exact State.sound_portWrite _ _ _ (fun _ => State.sound_writeWord a w) p
  | commit n => cases h; exact State.sound_command _ _ _ _ (fun i _ => State.sound_commitRing i) p
  | start n => cases h; exact State.sound_command _ _ _ _ (fun i _ => State.sound_startRing i) p
  | stop n => cases h; exact State.sound_command _ _ _ _ (fun i _ => State.sound_stopRing i) p
  | abort n => cases h; exact State.sound_command _ _ _ _ (fun i _ => State.sound_abortRing i) p
  | close n => cases h; exact State.sound_command _ _ _ _ (fun i _ => State.sound_closeRing i) p
  | release n => cases h; exact State.sound_command _ _ _ _ (fun i _ => State.sound_releaseRing i) p
  | ack n causes => cases h; exact State.sound_command _ _ _ _ (fun i _ => State.sound_ackRing causes i) p
  | ackGlobal n causes =>
    cases h; exact State.sound_portWrite _ _ _ (fun u => State.sound_of_rings (State.rings_takeGlobalAck n causes u)) p
  | recordIssue => cases h; exact (State.flow_issueOne s.fresh).sound fresh
  | reExamination => cases h; exact (State.flow_reexamineNow s.fresh).sound fresh
  | releaseCompletion i k => cases h; exact (State.flow_completeRelease i k s.fresh).sound fresh
  | closingAdvance i k => cases h; exact (State.flow_advanceClosing i k s.fresh).sound fresh
  | settle i k => cases h; exact (State.flow_settleRecording i k s.fresh).sound fresh
  | pendingCommitApplication i => cases h; exact (State.flow_applyAlone i s.fresh).sound fresh
  | endingCompletion i => cases h; exact (State.flow_completeEnding i s.fresh).sound fresh
  | abortCompletion i => cases h; exact (State.flow_completeAborting i s.fresh).sound fresh

theorem step_keeps_sound {s t : State} (p : s.everyRing Ring.Sound) (h : step s = .next t) : t.everyRing Ring.Sound := by
  unfold step at h
  split at h
  · cases h
    exact State.sound_sampleRead p
  next c rest _ => exact exec_keeps_sound c (s := s.withQueue rest) p h

/-- Settles O57: each command is work within an event (`Flow`), or one of the few changes outside one. -/
theorem ringsStaySound : Obligations.RingsStaySound := by
  intro s t timers commit places h
  exact (State.everyRing_sound_iff t).mp (step_keeps_sound ((State.everyRing_sound_iff s).mpr ⟨timers, commit, places⟩) h)

end Sys2Proof.Machine
end

section
/-! PROOFS. The slot pool: the RESET_N values of a ring, the two sides' takes, release and retention, START and the completion of
an ABORT (chapters 1, 3 and 6). -/

namespace Sys2Proof.Machine

/-! ### Reset -/

theorem Descriptor.readWord_zero (k : Fin 32) : Descriptor.zero.readWord k = 0 := by
  revert k; decide

theorem Counters.value_zero (c : Counter) : Counters.zero.value c = 0 := by
  cases c <;> rfl

theorem Ring.slot_zero (k : SlotId) : Ring.zero.slot k = Slot.zero := by
  simp [Ring.slot, Ring.zero]

/-- Settles O5: the words of the all-zero descriptors, the slot records and the counters; the rest is `Ring.zero` itself. -/
theorem ringResetValues : Obligations.RingResetValues := by
  refine ⟨fun k => ⟨Descriptor.readWord_zero k, Descriptor.readWord_zero k⟩, rfl, rfl, rfl, rfl, rfl, rfl, Ring.slot_zero,
    rfl, rfl, rfl, rfl, rfl, rfl, rfl, rfl, rfl, rfl, rfl, rfl, rfl, rfl, rfl, rfl, rfl, rfl, rfl, rfl,
    Counters.value_zero, rfl, rfl⟩

/-! ### A slot's return to the free list, and the fill side's take -/

theorem Ring.releaseDone_iff (k : SlotId) (r : Ring) : r.releaseDone k = true ↔
    r.moves = true ∧ k ∈ r.releasing ∧ (r.slot k).state = .releasing ∧ (r.slot k).outstanding = 0 := by
  simp [Ring.releaseDone, and_assoc]

theorem Ring.fillMayTake_iff (r : Ring) : r.fillMayTake = true ↔
    (r.fillSub = .noSlot ∨ r.fillSub = .waiting) ∧ r.runState = .running ∧ r.freeList ≠ [] := by
  simp [Ring.fillMayTake, and_assoc]

/-- The ring after the fill side's take of the free-list head j (01 R2, R3, R6, 02 R20, R21). -/
theorem Ring.fillTake_cons {r : Ring} {j : SlotId} {rest : List SlotId} (h : r.freeList = j :: rest) :
    r.fillTake = { r with
      slots := r.slots.set j { r.slot j with
        state := .filling
        base := r.active.slotBase[j]
        seq := 0
        fillLength := 0
        bytesAccepted := 0
        cause := none
        tainted := false
        afterGap := false }
      freeList := rest
      fillSlot := some j
      fillSub := .filling
      fillCursor := 0
      fillBytes := 0
      highMark := 0
      fillTimer := none } := by
  unfold Ring.fillTake; rw [h]; rfl

/-- Settles O49: the step is its own test, and the two takes are the laws of `State.takeFree`. -/
theorem releaseCompletionFreesSlot : Obligations.ReleaseCompletionFreesSlot := by
  intro i k s
  dsimp only
  refine ⟨fun done => ?_, fun notDone => ?_, rfl, fun j rest running sub free => ?_, fun stays => ?_⟩
  · have test : (s.fresh.ring i).releaseDone k = true := (Ring.releaseDone_iff k _).mpr done
    simp only [exec, execReleaseCompletion, State.completeRelease, test, if_true]
    rfl
  · have test : (s.fresh.ring i).releaseDone k = false := by
      rw [Bool.eq_false_iff, ne_eq, Ring.releaseDone_iff]; exact notDone
    simp only [exec, execReleaseCompletion, State.completeRelease, test]
    rfl
  · rw [State.takeFree_of_mayTake ((Ring.fillMayTake_iff _).mpr ⟨sub, running, by simp [free]⟩), Ring.fillTake_cons free]
  · refine State.takeFree_of_not ?_
    rw [Bool.eq_false_iff, ne_eq, Ring.fillMayTake_iff]
    rintro ⟨sub, running, free⟩
    rcases stays with h | ⟨h1, h2⟩ | h
    · exact h running
    · exact sub.elim h1 h2
    · exact free h

/-! ### Release and retention -/

theorem Ring.triggerReleases_iff (r : Ring) : r.triggerReleases = true ↔
    r.runState = .ending ∨ r.active.underrun ≠ 2 ∨ r.headSettled = true := by
  simp [Ring.triggerReleases, Descriptor.underrunRepeat, or_assoc]

/-- The retained drain slot (03 R59). -/
theorem Ring.retain_of_drainSlot {r : Ring} {d : SlotId} (h : r.drainSlot = some d) : r.retain = { r with
    slots := r.slots.set d { r.slot d with state := .retained }
    counters := { r.counters with retains := satInc r.counters.retains }
    drainSub := .retained
    drainCursor := 0
    bytesRead := 0
    drainTimer := none } := by
  unfold Ring.retain
  split
  next none => rw [h] at none; cases none
  next d' some =>
    obtain rfl : d = d' := Option.some.inj (h.symm.trans some)
    rfl

/-- The release of a drain slot: with a read in flight it stays in the releasing set, else it passes on at once (03 R58). -/
theorem State.releaseSlot_of_drainSlot {i : RingId} {d : SlotId} {s : State} (h : (s.ring i).drainSlot = some d) :
    (((s.ring i).slot d).outstanding ≠ 0 →
      s.releaseSlot i = ((s.modRing i (Ring.release d)).takeSettled i).askReexam) ∧
    (((s.ring i).slot d).outstanding = 0 →
      s.releaseSlot i = (((s.modRing i (Ring.release d)).freeReleased i d).takeSettled i).askReexam) := by
  unfold State.releaseSlot
  rw [h]
  dsimp only
  exact ⟨fun busy => by rw [if_neg (by simpa using busy)], fun idle => by rw [if_pos (by simpa using idle)]⟩

/-- Settles O45: the trigger's condition decides; the release goes on by the reads in flight. -/
theorem triggerReleasesOrRetains : Obligations.TriggerReleasesOrRetains := by
  intro i d s hd
  refine ⟨fun notEnding rep head => ?_, fun releases => ?_⟩
  · have retains : (s.ring i).triggerReleases = false := by
      rw [Bool.eq_false_iff, ne_eq, Ring.triggerReleases_iff]
      rintro (h | h | h)
      · exact notEnding h
      · exact h rep
      · rw [head] at h; cases h
    unfold State.trigger
    rw [retains, if_neg (by decide)]
    unfold State.modRing
    rw [Ring.retain_of_drainSlot hd]
    rfl
  · have test := (Ring.triggerReleases_iff (s.ring i)).mpr releases
    obtain ⟨busy, idle⟩ := State.releaseSlot_of_drainSlot hd
    unfold State.trigger
    rw [if_pos test]
    exact ⟨fun h => by rw [busy h]; rfl, fun h => by rw [idle h]; rfl⟩

/-! ### START -/

/-- A START that check 5 lets pass has at least two slots (05 R89). -/
theorem State.slotCount_of_startFailure {i : RingId} {s : State} (h : s.startFailure i = none) :
    2 ≤ (s.ring i).active.slotCount.toNat := by
  simp only [State.startFailure, firstFailure, Option.map_eq_none_iff, List.find?_eq_none] at h
  have check := h (5, (s.ring i).active.check5) (by simp)
  simp [Descriptor.check5] at check
  exact check.1

/-- The ring that START leaves, whose fill side has taken slot 0 (06 R106). -/
theorem Ring.begin_eq {r : Ring} (h : 2 ≤ r.active.slotCount.toNat) : r.begin = { r with
    slots := Vector.ofFn fun k : SlotId =>
      { state := if k = 0 then .filling else .free
        base := if k.val < r.active.slotCount.toNat then r.active.slotBase[k] else (r.slot k).base
        seq := 0
        fillLength := 0
        bytesAccepted := 0
        cause := none
        tainted := false
        afterGap := false
        outstanding := 0 }
    freeList := (List.finRange 8).filter fun k => 1 ≤ k.val && k.val < r.active.slotCount.toNat
    ready := []
    releasing := []
    records := []
    fillSlot := some 0
    drainSlot := none
    nextSeq := 0
    budgetRemaining := r.active.budget.toNat
    recordIndex := 0
    lap := 0
    counters := Counters.zero
    started := true
    runState := .running
    fillSub := .filling
    fillCursor := 0
    fillBytes := 0
    highMark := 0
    gapPending := false
    fillTimer := none
    drainSub := .empty
    drainCursor := 0
    bytesRead := 0
    underrunNoted := false
    drainTimer := none } := by
  have slots : (Vector.ofFn r.startSlot).set 0 { r.startSlot 0 with state := .filling, base := r.active.slotBase[0] } =
      Vector.ofFn fun k : SlotId => ({
        state := if k = 0 then .filling else .free
        base := if k.val < r.active.slotCount.toNat then r.active.slotBase[k] else (r.slot k).base
        seq := 0, fillLength := 0, bytesAccepted := 0, cause := none, tainted := false, afterGap := false
        outstanding := 0 } : Slot) := by
    apply Vector.ext
    intro j hj
    rw [Vector.getElem_set, Vector.getElem_ofFn, Vector.getElem_ofFn]
    by_cases first : 0 = j
    · subst first
      have : 0 < r.active.slotCount.toNat := by omega
      simp [Ring.startSlot, Slot.zero, this]
    · have : ¬ (⟨j, hj⟩ : SlotId) = 0 := fun e => first (congrArg Fin.val e).symm
      simp [Ring.startSlot, Slot.zero, first, this]
  unfold Ring.begin
  dsimp only
  rw [Ring.fillTake_cons (usedSlots_of_two _ h), ← slots]
  rfl

theorem State.startRing_accepted {i : RingId} {s : State} (idle : (s.ring i).runState = .idle)
    (valid : (s.ring i).activeValid = true) (checks : s.startFailure i = none) :
    s.startRing i = ((s.modRing i Ring.begin).askReexam.finish, .accepted) := by
  unfold State.startRing
  dsimp only
  rw [if_neg (by simp [idle]), if_neg (by simp [valid]), checks]

/-- The command result of an accepted command is numbered from the result before its event (10 R167). -/
theorem State.setResult_accepted (c : CommandKind) (n : RingField) (g : Bool) {s t : State} (h : t.result = s.result) :
    t.setResult c n g .accepted = { t with result := ⟨some c, n, g, false, .none, 0, s.result.count + 1⟩ } := by
  unfold State.setResult
  rw [h]

/-- Settles O40: the command is taken, START is accepted, and `Ring.begin_eq` says what it makes of the ring. -/
theorem startInitialisesRing : Obligations.StartInitialisesRing := by
  intro i s takes idle valid checks
  have accepted := State.startRing_accepted (s := s.fresh.movePast) idle valid checks
  have result : (s.fresh.movePast.modRing i Ring.begin).askReexam.finish.result = s.result :=
    (State.flow_finish _).result
  have begun := Ring.begin_eq (State.slotCount_of_startFailure checks)
  simp only [exec, execStart, State.command]
  rw [State.portWrite_taken takes, State.takeCommand_ring, accepted, State.setResult_accepted _ _ _ result, ← begun]
  rfl

/-! ### The completion of an ABORT -/

/-- The ring that the completion of an ABORT leaves (06 R117, 01 R18). -/
theorem Ring.completeAbort_eq (r : Ring) : r.completeAbort = { r with
    slots := Vector.ofFn fun k : SlotId =>
      if k.val < r.active.slotCount.toNat then { r.slot k with state := .free } else r.slot k
    freeList := (List.finRange 8).filter fun k => k.val < r.active.slotCount.toNat
    ready := []
    releasing := []
    fillSlot := none
    drainSlot := none
    fillSub := .closed
    fillCursor := 0
    fillBytes := 0
    highMark := 0
    gapPending := false
    drainSub := .empty
    drainCursor := 0
    bytesRead := 0
    underrunNoted := false
    runState := .idle
    attention := addCause .ended r.attention } := by
  unfold Ring.completeAbort
  rw [Ring.foldl_free]
  simp only [Descriptor.mem_usedSlots]
  unfold Descriptor.usedSlots
  rw [allSlots_eq]
  rfl

theorem State.abortDone_iff (i : RingId) (s : State) : s.abortDone i = true ↔ (s.ring i).runState = .aborting ∧
    ∀ (t : DownTag) (e : Entry), s.table[t] = some e → entryRing e ≠ some i := by
  simp only [State.abortDone, Bool.and_eq_true, beq_iff_eq, Bool.not_eq_true', State.ownsEntry_eq_false]

/-- Settles O53: the test is one condition, and the return is `Ring.completeAbort_eq`. -/
theorem abortCompletesToIdle : Obligations.AbortCompletesToIdle := by
  intro i s
  dsimp only
  refine ⟨fun done => ?_, fun notDone => ?_⟩
  · have test := (State.abortDone_iff i s).mpr done
    have tested (u : State) (h : u.abortDone i = true) : u.testAborting i = (u.modRing i Ring.completeAbort).askReexam :=
      if_pos h
    have test' : s.fresh.abortDone i = true := test
    simp only [exec, execAbortCompletion, State.completeAborting, test', if_true]
    rw [tested s test, tested s.fresh test', State.modRing, State.modRing, State.ring_fresh, Ring.completeAbort_eq]
    exact ⟨rfl, rfl⟩
  · have test : s.abortDone i = false := by
      rw [Bool.eq_false_iff, ne_eq, State.abortDone_iff]; exact notDone
    have test' : s.fresh.abortDone i = false := test
    simp only [exec, execAbortCompletion, State.completeAborting, test']
    refine ⟨?_, rfl⟩
    unfold State.testAborting
    rw [if_neg]
    show ¬ s.abortDone i = true
    simp [test]

end Sys2Proof.Machine
end

section
/-! PROOFS. Requests that a slot serves: the accepted fill write and the accepted drain read, and the overrun that reclaims the
settled head (02 R24 to R28, R39, 03 R51 to R55). -/

namespace Sys2Proof.Machine

/-- An event that has issued a request where no record was offered leaves nothing to do (09 R155). -/
theorem State.finish_of_issued {q : Request} {s u : State} {i : RingId} {r : Ring} (now : s.decodesNow q = true)
    (noOffer : s.anyOffer = false) (rings : u.rings = s.rings.set i r) (offers : r.offers = (s.ring i).offers)
    (asked : u.reexamAsked = s.reexamAsked) (changed : u.walkChanged = s.walkChanged) (waiting : u.waiting = s.waiting) :
    u.finish = u := by
  obtain ⟨quiet, none⟩ := State.quiet_of_decodesNow now
  obtain ⟨a, c, _, _⟩ := State.quiet_flags quiet
  have granted : u.granted = true := State.granted_of_noOffer ((State.anyOffer_set rings offers).trans noOffer)
  exact State.finish_of_quiet u (State.quiet_of_flags (asked.trans a) (changed.trans c) granted (waiting.trans none))

/-! ### The accepted write -/

/-- What an accepted write counts in the ring (01 R5, 02 R24, R26). -/
theorem Ring.acceptWrite_eq (q : Request) (k : SlotId) (r : Ring) : r.acceptWrite q k = { r with
    slots := r.slots.set k { r.slot k with outstanding := (r.slot k).outstanding + 1 }
    fillBytes := r.fillBytes + q.payload.length
    fillCursor := if r.active.fillStreamed then r.fillCursor + q.payload.length + r.active.fillGap.toNat else r.fillCursor
    highMark := if r.active.fillStreamed then r.fillCursor + q.payload.length
      else max r.highMark (r.fillOffset q + q.payload.length) } := by
  unfold Ring.acceptWrite
  cases r.active.fillStreamed <;> rfl

/-- A write that fits the FILLING slot k is placed there (02 R23 to R27). -/
theorem State.decideWrite_of_fits {q : Request} {i : RingId} {k : SlotId} {t : DownTag} {s : State}
    (entry : s.mayIssue none = some t) (sub : (s.ring i).fillSub = .filling) (slot : (s.ring i).fillSlot = some k)
    (fits : (s.ring i).fillOffset q + q.payload.length ≤ (s.ring i).active.slotSize.toNat)
    (mapped : (s.ring i).active.fillStreamed = false →
      (s.ring i).fillBytes + q.payload.length ≤ (s.ring i).active.slotSize.toNat) :
    s.decideWrite none i q = (s.acceptFill none i k t q, .done) := by
  have inside : (s.ring i).writeOutside q = false := by
    unfold Ring.writeOutside Ring.fillOffset at *
    cases mode : (s.ring i).active.fillStreamed <;> simp_all
  have noOverflow : (s.ring i).writeOverflows q = false := by
    unfold Ring.writeOverflows Ring.fillOffset at *
    cases mode : (s.ring i).active.fillStreamed <;> simp_all
  have placed : s.placeWrite none i q = (s.acceptFill none i k t q, .done) := by
    unfold State.placeWrite; rw [entry, slot]
  unfold State.decideWrite State.decideAfterOverflow
  rw [inside, noOverflow, sub]
  exact placed

/-- The close check after an accepted write: CLOSE_LIMIT before the slot's end (02 R28). -/
theorem State.limitClose_cases (i : RingId) (s : State) :
    let r := s.ring i
    let atLimit := r.active.closeOnLimit = true ∧ r.active.closeLimit.toNat ≤ r.fillBytes
    let atEnd := r.active.fillStreamed = true ∧ r.active.slotSize.toNat ≤ r.fillCursor
    (¬ atLimit → ¬ atEnd → s.limitClose i = s) ∧ (atLimit → s.limitClose i = s.closeFrame i .limit none) ∧
    (¬ atLimit → atEnd → s.limitClose i = s.closeFrame i .full none) := by
  dsimp only
  unfold State.limitClose
  dsimp only
  refine ⟨fun l e => ?_, fun l => ?_, fun l e => ?_⟩
  · rw [if_neg (by simpa using l), if_neg (by simpa using e)]
  · rw [if_pos (by simpa using l)]
  · rw [if_neg (by simpa using l), if_pos (by simpa using e)]

/-- Settles O17: the write is placed, and the close check goes its three ways. -/
theorem fillWriteIsAccepted : Obligations.FillWriteIsAccepted := by
  intro q i k t s now entry decides sub slot r n streamed offset cursor fits mapped accepted atLimit atEnd
  have decided := State.decideWrite_of_fits (s := s.fresh) (State.mayIssue_of_entryFor entry) sub slot fits mapped
  have placed : s.fresh.acceptFill none i k t q = accepted.limitClose i := by
    have counted := Ring.acceptWrite_eq q k r
    unfold State.acceptFill State.modRing
    dsimp only [State.leave]
    congr 1
    show State.setRing i (r.acceptWrite q k) _ = _
    rw [counted]
    rfl
  have whole : exec (.upstreamRequest q) s = .next (accepted.limitClose i).finish := by
    rw [← placed]
    exact exec_upstreamRequest_of_done now ((State.decode_of_fillDecides decides).trans decided)
  have ring : accepted.ring i = _ := State.ring_of_rings_set s accepted i _ rfl
  have check := State.limitClose_cases i accepted
  rw [ring] at check
  obtain ⟨stays, limit, full⟩ := check
  refine ⟨fun l e => ?_, fun l => ?_, fun l e => ?_⟩
  · obtain ⟨noOffer, _, _⟩ := State.entryFor_facts entry
    rw [whole, stays l e, State.finish_of_issued (u := accepted) now noOffer rfl rfl rfl rfl rfl]
  · rw [whole, limit l]
  · rw [whole, full l e]

/-! ### The accepted read -/

/-- What an accepted read counts in the ring (01 R5, 03 R52, R53). -/
theorem Ring.acceptRead_eq (q : Request) (d : SlotId) (r : Ring) : r.acceptRead q d = { r with
    slots := r.slots.set d { r.slot d with outstanding := (r.slot d).outstanding + 1 }
    bytesRead := min (r.bytesRead + q.payload.length) 0xFFFFFFFF
    drainCursor := if r.active.drainStreamed then r.drainCursor + q.payload.length + r.active.drainGap.toNat
      else r.drainCursor } := by
  unfold Ring.acceptRead
  cases r.active.drainStreamed <;> rfl

/-- A read that the drain slot d serves is placed there (03 R51 to R53). -/
theorem State.decideRead_of_serves {q : Request} {i : RingId} {d : SlotId} {t : DownTag} {s : State}
    (entry : s.mayIssue none = some t) (has : (s.ring i).hasDrainSlot = true) (slot : (s.ring i).drainSlot = some d)
    (fits : (s.ring i).drainOffset q + q.payload.length ≤ (s.ring i).active.slotSize.toNat) :
    s.decideRead none i q = (s.acceptDrain none i d t q, .done) := by
  have inside : (s.ring i).readOutside q = false := by
    unfold Ring.readOutside Ring.drainOffset at *
    cases mode : (s.ring i).active.drainStreamed <;> simp_all
  have notPast : (s.ring i).readPastEnd q = false := by
    unfold Ring.readPastEnd Ring.drainOffset at *
    cases mode : (s.ring i).active.drainStreamed <;> simp_all
  unfold State.decideRead State.placeRead
  dsimp only
  rw [inside, has, notPast, entry, slot]
  rfl

/-- The release check after an accepted read (03 R55). -/
theorem State.limitRelease_cases (i : RingId) (d : SlotId) (s : State) :
    let r := s.ring i
    let atLimit := r.active.releaseOnLimit = true ∧ (r.slot d).fillLength ≤ r.drainPosition
    (¬ atLimit → s.limitRelease i d = s) ∧ (atLimit → s.limitRelease i d = s.trigger i) := by
  dsimp only
  unfold State.limitRelease
  dsimp only
  exact ⟨fun l => by rw [if_neg (by simpa using l)], fun l => by rw [if_pos (by simpa using l)]⟩

/-- Settles O22: the read is placed, and the release check goes its two ways. -/
theorem drainReadIsAccepted : Obligations.DrainReadIsAccepted := by
  intro q i d t s now entry decides has slot r n streamed offset cursor bytes fits accepted atLimit
  have decided := State.decideRead_of_serves (s := s.fresh) (State.mayIssue_of_entryFor entry) has slot fits
  have placed : s.fresh.acceptDrain none i d t q = accepted.limitRelease i d := by
    have counted := Ring.acceptRead_eq q d r
    unfold State.acceptDrain State.modRing
    dsimp only [State.leave]
    congr 1
    show State.setRing i (r.acceptRead q d) _ = _
    rw [counted]
    rfl
  have whole : exec (.upstreamRequest q) s = .next (accepted.limitRelease i d).finish := by
    rw [← placed]
    exact exec_upstreamRequest_of_done now ((State.decode_of_drainDecides decides).trans decided)
  have ring : accepted.ring i = _ := State.ring_of_rings_set s accepted i _ rfl
  have length : ((accepted.ring i).slot d).fillLength = (r.slot d).fillLength := by
    rw [ring]; simp [Ring.slot]
  have position : (accepted.ring i).drainPosition = if streamed then cursor else bytes := by rw [ring]; rfl
  have limit : (accepted.ring i).active.releaseOnLimit = r.active.releaseOnLimit := by rw [ring]
  have check := State.limitRelease_cases i d accepted
  dsimp only at check
  rw [length, position, limit] at check
  obtain ⟨stays, releases⟩ := check
  refine ⟨fun l => ?_, fun l => ?_⟩
  · obtain ⟨noOffer, _, _⟩ := State.entryFor_facts entry
    rw [whole, stays l, State.finish_of_issued (u := accepted) now noOffer rfl rfl rfl rfl rfl]
  · rw [whole, releases l]

/-! ### The reclaim of the settled head -/

/-- The ring after the reclaim of the head e (02 R39, 01 R11, 04 R73). -/
theorem Ring.reclaim_cons {r : Ring} {e : ReadyEntry} {rest : List ReadyEntry} (h : r.ready = e :: rest) :
    r.reclaim = { r with
      records := if r.active.recordEnable then r.records ++ [reclaimRecord e.slot (r.slot e.slot)] else r.records
      slots := r.slots.set e.slot { r.slot e.slot with
        state := .filling
        base := r.active.slotBase[e.slot]
        seq := 0
        fillLength := 0
        bytesAccepted := 0
        cause := none
        tainted := false
        afterGap := false }
      ready := rest
      fillSlot := some e.slot
      fillSub := .filling
      fillCursor := 0
      fillBytes := 0
      highMark := 0
      gapPending := true
      fillTimer := none
      counters := { r.counters with reclaims := satInc r.counters.reclaims }
      attention := addCause .overrun r.attention } := by
  unfold Ring.reclaim
  rw [h]
  cases r.active.recordEnable <;> rfl

/-- What follows a reclaim leaves the reclaimed slot on the fill side (01 R8, 09 R155). -/
theorem State.fillSlot_reclaimHead (i : RingId) (s : State) :
    ((s.reclaimHead i).ring i).fillSlot = (s.ring i).reclaim.fillSlot := by
  have after := ((State.steady_settleRing i (s.modRing i Ring.reclaim)).trans
    ((State.steady_grantRecords _).trans (State.steady_noteChange _))).rings i
  rw [State.ring_modRing_self] at after
  exact after.fillSlot

/-- A write that finds no fill slot meets the policy in force, unless it lies outside the slot (02 R23 to R25). -/
theorem State.decideWrite_of_noSlot {q : Request} {i : RingId} {s : State} (who : Option Nat)
    (sub : (s.ring i).fillSub = .noSlot ∨ (s.ring i).fillSub = .waiting)
    (inside : (s.ring i).active.fillStreamed = false →
      (q.addr.toNat - (s.ring i).active.fillBase.toNat) + q.payload.length ≤ (s.ring i).active.slotSize.toNat) :
    s.decideWrite who i q = s.overrun who i q := by
  have notOutside : (s.ring i).writeOutside q = false := by
    unfold Ring.writeOutside
    cases mode : (s.ring i).active.fillStreamed <;> simp_all
  have noOverflow : (s.ring i).writeOverflows q = false := by
    unfold Ring.writeOverflows
    rcases sub with h | h <;> simp [h]
  unfold State.decideWrite State.decideAfterOverflow
  rw [notOutside, noOverflow]
  rcases sub with h | h <;> rw [h] <;> rfl

/-- RECLAIM with a settled head: the write is placed after the reclaim (02 R39). -/
theorem State.overrun_of_reclaim {q : Request} {i : RingId} {s : State} (who : Option Nat)
    (policy : (s.ring i).active.overrun = 2) (head : (s.ring i).headSettled = true) :
    s.overrun who i q = (s.reclaimHead i).placeWrite who i q := by
  unfold State.overrun Descriptor.overrunDrop Descriptor.overrunReclaim
  dsimp only
  rw [policy, head]
  rfl

/-- Settles O21: the reclaim is `Ring.reclaim_cons`, and the placement goes by the entry that the arrival may take. -/
theorem overrunReclaimsSettledHead : Obligations.OverrunReclaimsSettledHead := by
  intro i e rest s r ready x reclaimed
  have ring : r.reclaim = reclaimed := Ring.reclaim_cons ready
  have head (u : State) (h : u.ring i = r) :
      u.reclaimHead i = (State.settleRing i (u.setRing i reclaimed)).grantRecords.noteChange := by
    unfold State.reclaimHead State.modRing
    rw [h, ring]
  refine ⟨head s rfl, ?_⟩
  intro q now decides sub inside policy settled v
  have toV : s.fresh.reclaimHead i = v := head s.fresh rfl
  have headSettled : (s.fresh.ring i).headSettled = true := by
    show r.headSettled = true
    unfold Ring.headSettled; rw [ready]; simpa using settled
  have decoded : s.fresh.decode none q = v.placeWrite none i q := by
    rw [State.decode_of_fillDecides decides, State.decideWrite_of_noSlot (s := s.fresh) none sub inside,
      State.overrun_of_reclaim (s := s.fresh) none policy headSettled, toV]
  have slot : (v.ring i).fillSlot = some e.slot := by
    rw [← toV, State.fillSlot_reclaimHead]
    exact congrArg Ring.fillSlot ring
  refine ⟨s.fresh.decodeArrival q, exec_upstreamRequest_decodes now, fun t entry => ?_, fun noEntry => ?_⟩
  · unfold State.decodeArrival State.placeWrite at *
    rw [decoded, State.mayIssue_of_entryFor entry, slot]
  · unfold State.decodeArrival State.placeWrite at *
    rw [decoded, State.mayIssue_of_entryNone noEntry]

end Sys2Proof.Machine
end

section
/-! PROOFS. Responses to fill writes and drain reads (02 R44, R45, 03 R68, R69, 09 R156). -/

namespace Sys2Proof.Machine

/-! ### One ring written twice -/

theorem State.setRing_setRing (i : RingId) (x y : Ring) (s : State) : (s.setRing i x).setRing i y = s.setRing i y := by
  unfold State.setRing
  dsimp only
  rw [Vector.set_set]

theorem State.modRing_setRing (i : RingId) (x : Ring) (f : Ring → Ring) (s : State) :
    (s.setRing i x).modRing i f = s.setRing i (f x) := by
  unfold State.modRing
  rw [State.ring_setRing_self, State.setRing_setRing]

theorem State.setRing_ring (i : RingId) (s : State) : s.setRing i (s.ring i) = s :=
  State.modRing_eq_self i id s rfl

/-! ### What an ERROR does before the count -/

/-- What the response notes in the ring before its count keeps of the ring (02 R45, 03 R69). -/
structure Ring.Noted (k : SlotId) (r t : Ring) : Prop where
  moves : t.moves = r.moves
  active : t.active = r.active
  state : (t.slot k).state = (r.slot k).state
  outstanding : (t.slot k).outstanding = (r.slot k).outstanding

theorem Ring.noted_refl (k : SlotId) (r : Ring) : r.Noted k r := ⟨rfl, rfl, rfl, rfl⟩

theorem Ring.noted_noteWriteError (k : SlotId) (r : Ring) : r.Noted k (r.noteWriteError k) := by
  have slot : (r.noteWriteError k).slot k = { r.slot k with tainted := true } :=
    Ring.slot_modSlot_self r k fun x => { x with tainted := true }
  exact ⟨rfl, rfl, by rw [slot], by rw [slot]⟩

theorem Ring.noted_noteReadError (k : SlotId) (r : Ring) : r.Noted k r.noteReadError := ⟨rfl, rfl, rfl, rfl⟩

/-- HALT_ON_ERROR takes a ring that moves into FAULT, and no other (06 R112). -/
theorem State.haltOnError_cases (i : RingId) (cause : FaultCause) (s : State) :
    ((s.ring i).active.haltOnError = true ∧ (s.ring i).moves = true → s.haltOnError i cause = s.enterFault i cause) ∧
    (¬ ((s.ring i).active.haltOnError = true ∧ (s.ring i).moves = true) → s.haltOnError i cause = s) := by
  unfold State.haltOnError
  exact ⟨fun h => by rw [if_pos (by simpa using h)], fun h => by rw [if_neg (by simpa using h)]⟩

/-- The count that a FAULT comes before is the count alone (01 R17). -/
theorem State.countResponse_enterFault (i : RingId) (k : SlotId) (cause : FaultCause) (s : State) :
    (s.enterFault i cause).countResponse i k = (s.enterFault i cause).modRing i (Ring.countDown k) :=
  State.countResponse_of_plain (Or.inr (Or.inl (State.moves_enterFault i cause s)))

theorem Ring.countDown_eq (k : SlotId) (r : Ring) : r.countDown k = { r with
    slots := r.slots.set k { r.slot k with outstanding := (r.slot k).outstanding - 1 } } := rfl

/-- The owner's handling of a response to a FILL or DRAIN entry: what is noted, the FAULT of HALT_ON_ERROR, the count, the
response upstream (09 R156). `noted` and `cause` are what the entry's kind and the STATUS make of them. -/
theorem State.answerOwner_slot {s : State} {status : Status} {bytes : List Byte} {i : RingId} {k : SlotId}
    {who : Initiator} {tag : UpTag} {e : Entry} {noted : Ring} {cause : FaultCause} {data : Option (List Byte)}
    (okay : status = .okay → noted = s.ring i)
    (owner : (e = .fill i k who tag ∧ cause = .writeError ∧ data = none ∧
        (status = .error → noted = (s.ring i).noteWriteError k)) ∨
      (e = .drain i k who tag ∧ cause = .readError ∧ data = some bytes ∧
        (status = .error → noted = (s.ring i).noteReadError))) :
    let halts := status = .error ∧ (s.ring i).active.haltOnError = true ∧ (s.ring i).moves = true
    (s.ring i).Noted k noted ∧
    (¬ halts → s.answerOwner e status bytes = ((s.setRing i noted).countResponse i k).respond who tag status data) ∧
    (halts → s.answerOwner e status bytes =
      (((s.setRing i noted).enterFault i cause).countResponse i k).respond who tag status data) := by
  cases status with
  | okay =>
    obtain rfl := okay rfl
    refine ⟨Ring.noted_refl k _, fun _ => ?_, fun h => by cases h.1⟩
    rw [State.setRing_ring]
    rcases owner with ⟨rfl, _, rfl, _⟩ | ⟨rfl, _, rfl, _⟩ <;> rfl
  | error =>
    have handled : (s.ring i).Noted k noted ∧ s.answerOwner e .error bytes =
        (((s.setRing i noted).haltOnError i cause).countResponse i k).respond who tag .error data := by
      rcases owner with ⟨rfl, rfl, rfl, note⟩ | ⟨rfl, rfl, rfl, note⟩ <;> rw [note rfl]
      · exact ⟨Ring.noted_noteWriteError k _, rfl⟩
      · exact ⟨Ring.noted_noteReadError k _, rfl⟩
    obtain ⟨same, answer⟩ := handled
    obtain ⟨faults, stays⟩ := State.haltOnError_cases i cause (s.setRing i noted)
    rw [State.ring_setRing_self, same.active, same.moves] at faults stays
    refine ⟨same, fun h => ?_, fun h => ?_⟩
    · rw [answer, stays fun x => h ⟨rfl, x⟩]
    · rw [answer, faults h.2]

/-- Settles O26: the owner's handling (`State.answerOwner_slot`), then the count's four ways. -/
theorem slotResponseIsHandled : Obligations.SlotResponseIsHandled := by
  intro t status bytes i k who tag s len high r e noted cause data owner inUse left counted halts done at_
  have okay : status = .okay → noted = r := by
    rintro rfl
    rcases owner with ⟨_, _, _, same⟩ | ⟨_, _, _, same⟩ <;> exact same
  have noting : (e = .fill i k who tag ∧ cause = .writeError ∧ data = none ∧
        (status = .error → noted = r.noteWriteError k)) ∨
      (e = .drain i k who tag ∧ cause = .readError ∧ data = some bytes ∧ (status = .error → noted = r.noteReadError)) := by
    refine owner.imp (fun ⟨entry, c, d, note⟩ => ⟨entry, c, d, ?_⟩) (fun ⟨entry, c, d, note⟩ => ⟨entry, c, d, ?_⟩) <;>
      (rintro rfl; exact note)
  obtain ⟨⟨moves, _, state, outstanding⟩, plain, faulting⟩ :=
    State.answerOwner_slot (s := s.fresh.freeEntry t) (bytes := bytes) okay noting
  have ring : (at_ noted).ring i = noted := State.ring_of_rings_set s _ i _ rfl
  have slot : ((at_ noted).ring i).slot k = noted.slot k := by rw [ring]
  have count : (at_ noted).modRing i (Ring.countDown k) = at_ counted := by
    have written := State.modRing_setRing i noted (Ring.countDown k) (s.fresh.freeEntry t)
    rw [Ring.countDown_eq, outstanding] at written
    exact written
  have whole (u : State) (h : (s.fresh.freeEntry t).answerOwner e status bytes = u.respond who tag status data) :
      exec (.downstreamResponse t status bytes) s = .next (done u) := by
    have completes (v : State) : v.testCompletion e = (v.testEnding i).testAborting i := by
      rcases owner with ⟨rfl, _⟩ | ⟨rfl, _⟩ <;> rfl
    rw [exec_downstreamResponse_inUse len high inUse, h, completes]
  have zeroCount (zero : left = 0) (moving : r.moves = true) := State.countResponse_of_zero (s := at_ noted) (i := i) (k := k)
    (by rw [slot, outstanding]; exact zero) (by rw [ring, moves]; exact moving)
  refine ⟨fun nh stays => ?_, fun nh zero moving closing => ?_, fun nh zero moving releasing => ?_, fun h => ?_⟩
  · rw [whole _ (plain nh)]
    show Host.Outcome.next (done ((at_ noted).countResponse i k)) = _
    rw [State.countResponse_of_plain, count]
    rw [slot, ring, outstanding, moves, state]
    exact stays
  · obtain ⟨settles, _⟩ := zeroCount zero moving
    rw [whole _ (plain nh), ← count, ← settles (by rw [slot, state]; exact closing)]
    rfl
  · obtain ⟨_, frees⟩ := zeroCount zero moving
    rw [whole _ (plain nh), ← count, ← frees (by rw [slot, state]; exact releasing)]
    rfl
  · rw [whole _ (faulting h), State.countResponse_enterFault]
    rfl

end Sys2Proof.Machine
end

section
/-! PROOFS. The ready queue: the advance and the settle of an entry, the cascade behind it, and the drain side's take (01 R7 to R11,
03 R49). -/

namespace Sys2Proof.Machine

/-! ### One entry -/

/-- The conditions of the advance of a CLOSING entry (01 R8). -/
theorem Ring.closingAdvances_iff (e : ReadyEntry) (pred : Option SlotState) (r : Ring) :
    r.closingAdvances e pred = true ↔
      r.moves = true ∧ (r.slot e.slot).state = .closing ∧ (r.slot e.slot).outstanding = 0 ∧
      (r.active.recordEnable = true → ∀ p, pred = some p → p ∈ [SlotState.recording, .settled]) ∧
      (r.active.recordEnable = false → ∀ p, pred = some p → p ∈ [SlotState.settled]) := by
  unfold Ring.closingAdvances
  cases r.active.recordEnable <;>
    simp only [Bool.and_eq_true, beq_iff_eq, and_assoc, predecessorIs_iff, if_true, if_false, Bool.false_eq_true,
      reduceCtorEq, forall_const, false_implies, true_and, and_true]

/-- The conditions of the settle of a RECORDING entry (01 R9). -/
theorem Ring.recordingSettles_iff (e : ReadyEntry) (pred : Option SlotState) (r : Ring) :
    r.recordingSettles e pred = true ↔
      r.moves = true ∧ (r.slot e.slot).state = .recording ∧ e.answered = true ∧
      ∀ p, pred = some p → p ∈ [SlotState.settled] := by
  simp only [Ring.recordingSettles, Bool.and_eq_true, beq_iff_eq, and_assoc, predecessorIs_iff]

/-- A CLOSING entry that advances queues its CLOSE record, or settles without records (01 R8, 04 R72). -/
theorem Ring.advanceOne_of_advances {e : ReadyEntry} {pred : Option SlotState} {r : Ring}
    (h : r.closingAdvances e pred = true) :
    (r.active.recordEnable = true →
      r.advanceOne e pred = (r.setSlotState e.slot .recording).queueRecord (closeRecord e.slot (r.slot e.slot))) ∧
    (r.active.recordEnable = false → r.advanceOne e pred = r.settleSlot e.slot) := by
  unfold Ring.advanceOne
  rw [if_pos h]
  exact ⟨fun on => by rw [if_pos on], fun off => by rw [off, if_neg (by decide)]⟩

/-- A RECORDING entry is no CLOSING one, so it is the second test that it meets (01 R9). -/
theorem Ring.advanceOne_of_settles {e : ReadyEntry} {pred : Option SlotState} {r : Ring}
    (h : r.recordingSettles e pred = true) : r.advanceOne e pred = r.settleSlot e.slot := by
  have notClosing : ¬ r.closingAdvances e pred = true := by
    rw [Ring.closingAdvances_iff]
    rintro ⟨_, closing, _⟩
    obtain ⟨_, recording, _⟩ := (Ring.recordingSettles_iff e pred r).mp h
    rw [closing] at recording
    cases recording
  unfold Ring.advanceOne
  rw [if_neg notClosing, if_pos h]

theorem Ring.advanceOne_of_neither {e : ReadyEntry} {pred : Option SlotState} {r : Ring}
    (h : ¬ r.closingAdvances e pred = true) (g : ¬ r.recordingSettles e pred = true) : r.advanceOne e pred = r := by
  unfold Ring.advanceOne
  rw [if_neg h, if_neg g]

/-! ### An entry at its place in the queue -/

/-- The predecessor's stage, for an entry with `front` before it. -/
def Ring.lastStage (front : List ReadyEntry) (r : Ring) : Option SlotState :=
  front.getLast?.map fun p => (r.slot p.slot).state

theorem Ring.lastStage_mem (front : List ReadyEntry) (allowed : List SlotState) (r : Ring) :
    (∀ p, r.lastStage front = some p → p ∈ allowed) ↔
      ∀ p, front.getLast? = some p → (r.slot p.slot).state ∈ allowed := by
  unfold Ring.lastStage
  cases front.getLast? <;> simp

section
variable {r : Ring} {k : SlotId} {e : ReadyEntry} {front back : List ReadyEntry} (split : r.ready = front ++ e :: back)
  (here : e.slot = k) (first : ∀ p ∈ front, p.slot ≠ k)
include split here first

theorem Ring.fromEntry_at : r.fromEntry k = e :: back := by
  unfold Ring.fromEntry
  rw [split]
  exact (Ring.split_ready_at front back e k here first).1

theorem Ring.stageBefore_at : r.stageBefore k = r.lastStage front := by
  unfold Ring.stageBefore Ring.lastStage
  rw [split, (Ring.split_ready_at front back e k here first).2]

theorem Ring.entryMeets_at (test : ReadyEntry → Option SlotState → Ring → Bool) :
    r.entryMeets k test = test e (r.lastStage front) r := by
  unfold Ring.entryMeets
  rw [Ring.fromEntry_at split here first, Ring.stageBefore_at split here first]

end

/-- A slot without an entry meets no test. -/
theorem Ring.entryMeets_of_absent {r : Ring} {k : SlotId} (absent : ∀ p ∈ r.ready, p.slot ≠ k)
    (test : ReadyEntry → Option SlotState → Ring → Bool) : r.entryMeets k test = false := by
  have none : r.fromEntry k = [] := by
    unfold Ring.fromEntry
    rw [List.dropWhile_eq_nil_iff]
    exact fun p hp => by simpa using absent p hp
  unfold Ring.entryMeets
  rw [none]

/-! ### The cascade from an entry on -/

/-- Ring i tested, a settle asking for a re-examination, and the drain side's take (01 R8, R10). -/
def State.handOn (i : RingId) (tested : Ring) (s : State) : State :=
  State.takeSettled i { s with
    rings := s.rings.set i tested
    reexamAsked := settledSince (s.ring i) tested || s.reexamAsked }

/-- What ends an advance (04 R77, 06 R110). -/
def State.endAdvance (i : RingId) (s : State) : State := (s.grantRecords.testEnding i).finish

/-- The advance of slot k's entry, and of those behind it against its new stage. -/
theorem State.advanceAt_eq {i : RingId} {k : SlotId} {e : ReadyEntry} {front back : List ReadyEntry} {s : State}
    (split : (s.ring i).ready = front ++ e :: back) (here : e.slot = k) (first : ∀ p ∈ front, p.slot ≠ k) :
    s.advanceAt i k = s.handOn i (Ring.advanceFrom (e :: back) ((s.ring i).lastStage front) (s.ring i)) := by
  unfold State.advanceAt State.handOn
  dsimp only
  rw [Ring.fromEntry_at split here first, Ring.stageBefore_at split here first]
  generalize Ring.advanceFrom (e :: back) _ _ = tested
  cases settledSince (s.ring i) tested <;> rfl

/-- The commands CLOSING_ADVANCE and SETTLE are the advance under their own test, and nothing without it. -/
theorem exec_closingAdvance (i : RingId) (k : SlotId) (s : State) : exec (.closingAdvance i k) s = .next
    (if (s.ring i).entryMeets k Ring.closingAdvances then (s.fresh.advanceAt i k).endAdvance i else s.fresh) := rfl

theorem exec_settle (i : RingId) (k : SlotId) (s : State) : exec (.settle i k) s = .next
    (if (s.ring i).entryMeets k Ring.recordingSettles then (s.fresh.advanceAt i k).endAdvance i else s.fresh) := rfl

theorem Ring.advanceFrom_cons {e : ReadyEntry} {back : List ReadyEntry} {pred : Option SlotState} {r t : Ring}
    {st : SlotState} (one : r.advanceOne e pred = t) (stage : (t.slot e.slot).state = st) :
    Ring.advanceFrom (e :: back) pred r = Ring.advanceFrom back (some st) t := by
  subst one stage
  rfl

theorem Ring.state_setSlotState (k : SlotId) (st : SlotState) (r : Ring) : ((r.setSlotState k st).slot k).state = st := by
  unfold Ring.setSlotState
  rw [Ring.slot_modSlot_self]

/-! ### The drain side's take -/

theorem Ring.drainMayTake_iff (r : Ring) : r.drainMayTake = true ↔
    ((r.runState = .running ∨ r.runState = .ending) ∧ (r.drainSub = .empty ∨ r.drainSub = .waiting)) ∧
    ∃ e rest, r.ready = e :: rest ∧ (r.slot e.slot).state = .settled := by
  have head : r.headSettled = true ↔ ∃ e rest, r.ready = e :: rest ∧ (r.slot e.slot).state = .settled := by
    unfold Ring.headSettled
    cases r.ready <;> simp
  simp only [Ring.drainMayTake, Ring.moves, Bool.and_eq_true, Bool.or_eq_true, beq_iff_eq, head]
  tauto

/-- Settles O50: one entry's two tests, the cascade's equations, the two commands at an entry's place, and the take. -/
theorem readyEntriesAdvance : Obligations.ReadyEntriesAdvance := by
  refine ⟨?_, fun e back pred r => ⟨rfl, rfl⟩, ?_, ?_, ?_⟩
  · intro e pred r k x before staged advances settles
    have advance : r.closingAdvances e pred = true ↔ advances := Ring.closingAdvances_iff e pred r
    have settle : r.recordingSettles e pred = true ↔ settles := Ring.recordingSettles_iff e pred r
    refine ⟨fun h on => ?_, fun h off => ?_, fun h => ?_, fun h g => ?_⟩
    · exact (Ring.advanceOne_of_advances (advance.mpr h)).1 on
    · exact (Ring.advanceOne_of_advances (advance.mpr h)).2 off
    · exact Ring.advanceOne_of_settles (settle.mpr h)
    · exact Ring.advanceOne_of_neither (fun a => h (advance.mp a)) (fun a => g (settle.mp a))
  · intro i k e front back s r x before staged ends split here first
    subst here
    have closing := Ring.closingAdvances_iff e (r.lastStage front) r
    have recording := Ring.recordingSettles_iff e (r.lastStage front) r
    simp only [Ring.lastStage_mem] at closing recording
    have closes : exec (.closingAdvance i e.slot) s = .next (if r.closingAdvances e (r.lastStage front) then
        (s.fresh.advanceAt i e.slot).endAdvance i else s.fresh) := by
      rw [exec_closingAdvance, Ring.entryMeets_at split rfl first]
    have settles : exec (.settle i e.slot) s = .next (if r.recordingSettles e (r.lastStage front) then
        (s.fresh.advanceAt i e.slot).endAdvance i else s.fresh) := by
      rw [exec_settle, Ring.entryMeets_at split rfl first]
    have handed (t : Ring) (st : SlotState) (one : r.advanceOne e (r.lastStage front) = t)
        (stage : (t.slot e.slot).state = st) :
        (s.fresh.advanceAt i e.slot).endAdvance i = ends (Ring.advanceFrom back (some st) t) := by
      rw [State.advanceAt_eq (s := s.fresh) split rfl first, ← Ring.advanceFrom_cons one stage]
      rfl
    have stage (st : SlotState) : ((r.setSlotState e.slot st).slot e.slot).state = st := Ring.state_setSlotState _ _ _
    refine ⟨fun a b c on d => ?_, fun a b c off d => ?_, fun a b c d => ?_, fun no => ?_, fun no => ?_⟩
    · have test := closing.mpr ⟨a, b, c, fun _ => d, fun off => absurd (on.symm.trans off) (by decide)⟩
      rw [closes, if_pos test, handed _ _ ((Ring.advanceOne_of_advances test).1 on) (stage .recording)]
      rfl
    · have test := closing.mpr ⟨a, b, c, fun on => absurd (off.symm.trans on) (by decide), fun _ => d⟩
      rw [closes, if_pos test, handed _ _ ((Ring.advanceOne_of_advances test).2 off) (stage .settled)]
      rfl
    · have test := recording.mpr ⟨a, b, c, d⟩
      rw [settles, if_pos test, handed _ _ (Ring.advanceOne_of_settles test) (stage .settled)]
      rfl
    · have fails : ¬ r.closingAdvances e (r.lastStage front) = true := by
        rw [closing]
        rintro ⟨a, b, c, d, f⟩
        rcases no with h | h | h | ⟨on, h⟩ | ⟨off, h⟩
        · rw [a] at h; cases h
        · exact h b
        · exact h c
        · exact h (d on)
        · exact h (f off)
      rw [closes, if_neg fails]
      rfl
    · have fails : ¬ r.recordingSettles e (r.lastStage front) = true := by
        rw [recording]
        rintro ⟨a, b, c, d⟩
        rcases no with h | h | h | h
        · rw [a] at h; cases h
        · exact h b
        · rw [c] at h; cases h
        · exact h d
      rw [settles, if_neg fails]
      rfl
  · intro i k s absent
    rw [exec_closingAdvance, exec_settle, Ring.entryMeets_of_absent absent, Ring.entryMeets_of_absent absent]
    exact ⟨rfl, rfl⟩
  · intro i s r tested asked mayTake
    refine ⟨State.settleRing_eq i s, fun e rest may ready settled => ?_, fun stays => ?_⟩
    · rw [State.takeSettled_of_mayTake ((Ring.drainMayTake_iff r).mpr ⟨may, e, rest, ready, settled⟩),
        Ring.drainTake_cons ready]
      rfl
    · refine State.takeSettled_of_not ?_
      rw [Bool.eq_false_iff, ne_eq, Ring.drainMayTake_iff]
      rintro ⟨may, e, rest, ready, settled⟩
      rcases stays with h | h | ⟨e', rest', ready', h⟩
      · exact h may
      · rw [ready] at h; cases h
      · rw [show (s.ring i).ready = e' :: rest' from ready'] at ready
        cases ready
        exact h settled

end Sys2Proof.Machine
end

section
/-! PROOFS. The close procedure: its first three steps, the end of the fill at a spent budget, and the pending commit and the next
slot otherwise (02 R32 to R35). -/

namespace Sys2Proof.Machine

/-! ### Steps 1 to 3: the frame and the budget -/

/-- The state after steps 1 to 3 of a close: the frame closed, the budget decremented (02 R32, R33). -/
def State.countClose (i : RingId) (cause : CloseCause) (s : State) : State :=
  (s.closeSlot i cause).modRing i Ring.spendBudget

theorem State.closeFrame_eq (i : RingId) (cause : CloseCause) (also : Option Nat) (s : State) :
    s.closeFrame i cause also =
      if ((s.countClose i cause).ring i).budgetSpent then ((s.countClose i cause).endFill i also).testEnding i
      else (s.countClose i cause).finishClose i := rfl

/-- BUDGET_REMAINING after a close (02 R33). -/
def Ring.budgetLeft (r : Ring) : Nat := if r.active.budget = 0 then 0 else r.budgetRemaining - 1

theorem Ring.spendBudget_eq (r : Ring) : r.spendBudget = { r with budgetRemaining := r.budgetLeft } := by
  unfold Ring.spendBudget Ring.budgetLeft
  split <;> rfl

theorem Ring.budgetSpent_iff (r : Ring) : r.budgetSpent = true ↔ r.active.budget ≠ 0 ∧ r.budgetRemaining = 0 := by
  simp [Ring.budgetSpent]

/-- Slot k's new entry ends the ready queue, behind what is left of the queue of r, unless the drain side has taken it. -/
def Ring.QueuedLast (k : SlotId) (r w : Ring) : Prop :=
  (∃ front, w.ready = front ++ [⟨k, false⟩] ∧ front <:+ r.ready) ∨
  (w.ready = [] ∧ w.drainSlot = some k ∧ w.drainSub = .draining)

/-- Ring w is ring r after steps 1 to 3 of the close of slot k, apart from the closed frame itself. -/
structure Ring.Counted (k : SlotId) (r w : Ring) : Prop where
  runState : w.runState = r.runState
  fillSub : w.fillSub = r.fillSub
  fillSlot : w.fillSlot = none
  active : w.active = r.active
  shadow : w.shadow = r.shadow
  budget : w.budgetRemaining = r.budgetLeft
  commit : w.commitPending = r.commitPending
  lost : w.lostCause = r.lostCause
  cursor : w.fillCursor = 0
  bytes : w.fillBytes = 0
  mark : w.highMark = 0
  gap : w.gapPending = false
  free : w.freeList = r.freeList
  freeSlot : ∀ j, (r.slot j).state = .free → w.slot j = r.slot j
  queued : r.QueuedLast k w

/-- What the advance and the take leave of a queue that ends with slot k's new entry. -/
theorem Ring.queuedLast_of_rests {k : SlotId} {r c w : Ring} (queue : c.ready = r.ready ++ [⟨k, false⟩]) (rests : c.Rests w) :
    r.QueuedLast k w := by
  obtain ⟨front, split, _, taken⟩ := rests.ready
  rw [queue] at split
  rcases List.eq_nil_or_concat w.ready with empty | ⟨front', e, last⟩
  · rw [empty, List.append_nil] at split
    obtain ⟨sub, slot⟩ := taken ⟨k, false⟩ (by simp [← split])
    exact Or.inr ⟨empty, slot, sub⟩
  · rw [last, List.concat_eq_append, ← List.append_assoc] at split
    obtain ⟨parts, entry⟩ := List.append_inj' split rfl
    obtain rfl := List.singleton_inj.mp entry
    exact Or.inl ⟨front', last.trans List.concat_eq_append, front, parts.symm⟩

theorem State.counted_countClose {i : RingId} {k : SlotId} (cause : CloseCause) {s : State}
    (owner : (s.ring i).fillSlot = some k) (filling : ((s.ring i).slot k).state = .filling) :
    (s.ring i).Counted k ((s.countClose i cause).ring i) := by
  have rests := (State.rests_closeSlot i k cause s owner).rings i
  obtain ⟨_, _, sub, slot⟩ := State.works_closeSlot i cause s
  unfold State.countClose
  rw [State.ring_modRing_self] at rests ⊢
  have left : ((s.closeSlot i cause).ring i).budgetLeft = (s.ring i).budgetLeft := by
    unfold Ring.budgetLeft; rw [rests.active, rests.budget]; rfl
  have queued : (s.ring i).QueuedLast k ((s.closeSlot i cause).ring i) := Ring.queuedLast_of_rests rfl rests
  rw [Ring.spendBudget_eq, left]
  have freeSlot (j : SlotId) (free : ((s.ring i).slot j).state = .free) :
      ((s.closeSlot i cause).ring i).slot j = (s.ring i).slot j := by
    have other : j ≠ k := fun e => by rw [e, filling] at free; cases free
    have same : (Ring.closeInto cause k (s.ring i)).slot j = (s.ring i).slot j := Ring.slot_modSlot_ne _ k j _ other
    exact (rests.freeSlot j (by rw [same, free])).trans same
  exact ⟨rests.runState, sub, slot, rests.active, rests.shadow, rfl, rests.commit, rests.lost, rests.cursor, rests.bytes, rests.mark,
    rests.gap, rests.free, freeSlot, queued⟩

/-- The refusal record, LATER_COUNT and REFUSAL. -/
def State.refusals (s : State) : Option RefusalRecord × Nat × Bool := (s.refusal, s.laterCount, s.globalAttn)

theorem State.refusals_eq {s t : State} : s.refusals = t.refusals ↔
    s.refusal = t.refusal ∧ s.laterCount = t.laterCount ∧ s.globalAttn = t.globalAttn := by
  simp [State.refusals]

theorem State.countClose_outside {i : RingId} {k : SlotId} (cause : CloseCause) {s : State} (owner : (s.ring i).fillSlot = some k) :
    (s.countClose i cause).hold = s.hold ∧ (s.countClose i cause).refusals = s.refusals := by
  have rests := State.rests_closeSlot i k cause s owner
  exact ⟨rests.hold, State.refusals_eq.mpr ⟨rests.refusal, rests.laterCount, rests.globalAttn⟩⟩

/-- What a change of one ring leaves alone in that ring, it leaves alone in each. -/
theorem State.modRing_keeps {α : Type} (part : Ring → α) {f : Ring → Ring} (keeps : ∀ r, part (f r) = part r) (i j : RingId)
    (s : State) : part ((s.modRing i f).ring j) = part (s.ring j) := by
  by_cases same : j = i
  · rw [same, State.ring_modRing_self, keeps]
  · rw [State.ring_modRing_ne _ _ _ _ same]

theorem State.liveFailure_countClose {i : RingId} {k : SlotId} (cause : CloseCause) {s : State}
    (owner : (s.ring i).fillSlot = some k) : (s.countClose i cause).liveFailure i = s.liveFailure i := by
  have rests := (State.rests_closeSlot i k cause s owner).rings
  have keeps {α : Type} (part : Ring → α) (spend : ∀ r, part r.spendBudget = part r)
      (close : ∀ r, part (Ring.closeInto cause k r) = part r)
      (rest : ∀ j, part ((s.closeSlot i cause).ring j) = part ((s.modRing i (Ring.closeInto cause k)).ring j)) (j : RingId) :
      part ((s.countClose i cause).ring j) = part (s.ring j) :=
    ((State.modRing_keeps part spend i j _).trans (rest j)).trans (State.modRing_keeps part close i j s)
  have closeBase (n : SlotId) (r : Ring) : ((Ring.closeInto cause k r).slot n).base = (r.slot n).base := by
    refine (congrArg Slot.base (Ring.slot_modSlot k n (r.closeFields cause) r)).trans ?_
    split
    · rename_i same; rw [same]; rfl
    · rfl
  refine State.liveFailure_congr i ?_ ?_ ?_ ?_
  · exact keeps Ring.runState (fun r => by rw [Ring.spendBudget_eq]) (fun _ => rfl) fun j => (rests j).runState
  · exact keeps Ring.active (fun r => by rw [Ring.spendBudget_eq]) (fun _ => rfl) fun j => (rests j).active
  · exact fun j n => keeps (fun r => (r.slot n).base) (fun r => by rw [Ring.spendBudget_eq]; rfl) (closeBase n)
      (fun j => (rests j).base n) j
  · exact keeps Ring.shadow (fun r => by rw [Ring.spendBudget_eq]) (fun _ => rfl) (fun j => (rests j).shadow) i

/-! ### The end of the fill -/

/-- Held requests that the end of the fill of ring i answers: its FILL_WAIT writes, and the write `also` (08 R146). -/
def answeredAtEnd (i : RingId) (also : Option Nat) (h : Held) : Bool := h.reason == .fillWait i || some h.order == also

/-- A refusal enters equal refusal records alike. -/
theorem State.refusals_refuse {s t : State} (q : Request) (c : RefusalCause) (i : RingId) (same : s.refusals = t.refusals) :
    (s.refuse q c i).refusals = (t.refuse q c i).refusals := by
  obtain ⟨record, later, attn⟩ := State.refusals_eq.mp same
  unfold State.refuse State.noteRefusal State.respond State.refusals
  dsimp only
  rw [record]
  split <;> simp [*]

theorem State.refusals_foldl (c : RefusalCause) (i : RingId) (held : List Held) {s t : State} (same : s.refusals = t.refusals) :
    (held.foldl (fun u h => u.refuse h.request c i) s).refusals = (held.foldl (fun u h => u.refuse h.request c i) t).refusals := by
  induction held generalizing s t with
  | nil => exact same
  | cons h held ih => exact ih (State.refusals_refuse h.request c i same)

/-- Slot k's entry keeps the drain side busy or the ready queue filled: a retained slot stays, and the ring stays ENDING. -/
theorem Ring.QueuedLast.busy {k : SlotId} {r w : Ring} (queued : r.QueuedLast k w) :
    (w.drainSub == .retained && w.ready.isEmpty) = false ∧ (w.ready.isEmpty && w.drainSub == .empty) = false := by
  rcases queued with ⟨front, ready, _⟩ | ⟨ready, _, sub⟩
  · simp [ready]
  · rw [ready, sub]; decide

/-- The end of the fill behind a closed frame releases no slot and leaves the ring ENDING (06 R107, R110). -/
theorem State.endFill_of_queued {i : RingId} {k : SlotId} (also : Option Nat) {r : Ring} {s : State}
    (queued : r.QueuedLast k (s.ring i)) :
    (s.endFill i also).testEnding i =
      ((s.modRing i Ring.endFill).answerHeld (answeredAtEnd i also) .fillClosed i).askReexam := by
  obtain ⟨stays, fills⟩ := queued.busy
  have ended : (((s.modRing i Ring.endFill).answerHeld (answeredAtEnd i also) .fillClosed i).ring i) = (s.ring i).endFill :=
    (congrArg (·[i]) (State.answerHeld_frame (answeredAtEnd i also) .fillClosed i _).2.1).trans (State.ring_modRing_self ..)
  have kept : s.endFill i also = ((s.modRing i Ring.endFill).answerHeld (answeredAtEnd i also) .fillClosed i).askReexam := by
    refine congrArg State.askReexam (if_neg ?_)
    rw [Bool.not_eq_true]
    exact (congrArg (fun v : Ring => v.drainSub == .retained && v.ready.isEmpty) ended).trans stays
  rw [kept]
  refine if_neg fun done => ?_
  obtain ⟨_, _, ready, drain, _⟩ := (State.endingDone_iff i _).mp done
  rw [State.ring_askReexam, ended] at ready drain
  change (s.ring i).ready = [] at ready
  change (s.ring i).drainSub = .empty at drain
  rw [ready, drain] at fills
  exact absurd fills (by decide)

/-! ### The pending commit and the next slot -/

/-- What becomes of a pending commit touches the descriptor, the budget, the commit's own fields and the attention. -/
theorem State.ring_applyIfPending {i : RingId} {s : State} (running : (s.ring i).runState = .running) :
    ∃ active budget lost attention, (s.applyIfPending i).ring i = { s.ring i with
      active := active, budgetRemaining := budget, lostCause := lost, attention := attention, commitPending := false } := by
  cases pending : (s.ring i).commitPending
  · have same : s.applyIfPending i = s := if_neg (by simp [pending])
    rw [same]
    exact ⟨_, _, _, _, congrArg (fun p => { s.ring i with commitPending := p }) pending⟩
  · have applies : s.applyIfPending i = s.applyPending i := if_pos (by simp [pending, running])
    rw [applies]
    unfold State.applyPending
    dsimp only
    split
    · exact ⟨_, _, _, _, State.ring_modRing_self ..⟩
    · split
      · exact ⟨_, _, _, _, State.ring_modRing_self ..⟩
      · exact ⟨_, _, _, _, State.ring_modRing_self ..⟩

/-- Ring v has the outcome of ring r's pending commit, `left` frames before a new budget: none pending, lost for its structure,
lost to live check n, or applied (02 R34, 05 R95, R96). -/
def Ring.CommitDecided (left : Nat) (failure : Option Nat) (r v : Ring) : Prop :=
  (r.commitPending = false → v.active = r.active ∧ v.budgetRemaining = left ∧ v.lostCause = r.lostCause) ∧
  (r.commitPending = true → r.shadow.sameStructure r.active = false →
    v.active = r.active ∧ v.budgetRemaining = left ∧ v.lostCause = .structuralChange ∧ v.attention.getLsbD 5 = true) ∧
  (∀ n, r.commitPending = true → r.shadow.sameStructure r.active = true → failure = some n →
    v.active = r.active ∧ v.budgetRemaining = left ∧ v.lostCause = .invalid n ∧ v.attention.getLsbD 5 = true) ∧
  (r.commitPending = true → r.shadow.sameStructure r.active = true → failure = none →
    v.active = r.shadow ∧ v.budgetRemaining = r.shadow.budget.toNat ∧ v.lostCause = r.lostCause ∧
    v.attention.getLsbD 4 = true)

theorem Ring.attention_loseCommit (cause : LostCause) (r : Ring) : (r.loseCommit cause).attention.getLsbD 5 = true := by
  simp [Ring.loseCommit, addCause, causeBit]

theorem Ring.attention_applyCommit (r : Ring) : r.applyCommit.attention.getLsbD 4 = true := by
  simp [Ring.applyCommit, addCause, causeBit]

theorem State.commitDecided_applyIfPending {i : RingId} {s : State} (running : (s.ring i).runState = .running) :
    (s.ring i).CommitDecided (s.ring i).budgetRemaining (s.liveFailure i) ((s.applyIfPending i).ring i) := by
  have applies (pending : (s.ring i).commitPending = true) : s.applyIfPending i = s.applyPending i :=
    if_pos (by simp [pending, running])
  refine ⟨fun pending => ?_, fun pending differs => ?_, fun n pending same fails => ?_, fun pending same valid => ?_⟩
  · have same : s.applyIfPending i = s := if_neg (by simp [pending])
    rw [same]
    exact ⟨rfl, rfl, rfl⟩
  · rw [applies pending]
    unfold State.applyPending
    rw [if_pos (by simp [differs]), State.ring_modRing_self]
    exact ⟨rfl, rfl, rfl, Ring.attention_loseCommit _ _⟩
  · rw [applies pending]
    unfold State.applyPending
    rw [if_neg (by simp [same])]
    simp only [fails, State.ring_modRing_self]
    exact ⟨rfl, rfl, rfl, Ring.attention_loseCommit _ _⟩
  · rw [applies pending]
    unfold State.applyPending
    rw [if_neg (by simp [same])]
    simp only [valid, State.ring_noteChange, State.ring_askReexam, State.ring_modRing_self]
    exact ⟨Descriptor.withLiveFields_eq same, rfl, rfl, Ring.attention_applyCommit _⟩

/-- The fill side after a close that did not end the fill: the free-list head, or NO_SLOT (02 R35). -/
def Ring.nextFill (r : Ring) : Ring := r.emptyFill.fillTake

theorem Ring.nextFill_nil {r : Ring} (free : r.freeList = []) : r.nextFill = r.emptyFill := by
  unfold Ring.nextFill Ring.fillTake
  rw [show r.emptyFill.freeList = [] from free]

theorem Ring.nextFill_cons {r : Ring} {j : SlotId} {rest : List SlotId} (free : r.freeList = j :: rest) :
    r.nextFill = { r.modSlot j (Slot.refill r.active.slotBase[j]) with
      freeList := rest
      fillSlot := some j
      fillSub := .filling
      fillCursor := 0
      fillBytes := 0
      highMark := 0
      fillTimer := none } := by
  unfold Ring.nextFill Ring.fillTake
  rw [show r.emptyFill.freeList = j :: rest from free]
  rfl

theorem Ring.nextFill_keeps (r : Ring) :
    r.nextFill.runState = r.runState ∧ r.nextFill.active = r.active ∧ r.nextFill.commitPending = r.commitPending ∧
    r.nextFill.budgetRemaining = r.budgetRemaining ∧ r.nextFill.lostCause = r.lostCause ∧ r.nextFill.attention = r.attention ∧
    r.nextFill.gapPending = r.gapPending ∧ r.nextFill.ready = r.ready ∧ r.nextFill.drainSlot = r.drainSlot := by
  cases free : r.freeList with
  | nil => rw [Ring.nextFill_nil free]; exact ⟨rfl, rfl, rfl, rfl, rfl, rfl, rfl, rfl, rfl⟩
  | cons j rest => rw [Ring.nextFill_cons free]; exact ⟨rfl, rfl, rfl, rfl, rfl, rfl, rfl, rfl, rfl⟩

theorem Ring.nextFill_fillSide (r : Ring) :
    r.nextFill.fillSub ≠ .waiting ∧ r.nextFill.fillTimer = none ∧ (r.fillCursor = 0 → r.nextFill.fillCursor = 0) ∧
    (r.fillBytes = 0 → r.nextFill.fillBytes = 0) ∧ (r.highMark = 0 → r.nextFill.highMark = 0) := by
  cases free : r.freeList with
  | nil => rw [Ring.nextFill_nil free]; exact ⟨nofun, rfl, id, id, id⟩
  | cons j rest => rw [Ring.nextFill_cons free]; exact ⟨nofun, rfl, fun _ => rfl, fun _ => rfl, fun _ => rfl⟩

/-- The fill side of v has NO_SLOT, or fills the head j of ring r's free list, with its record filled anew (02 R35, 01 R3). -/
def Ring.TakesNext (r v : Ring) : Prop :=
  (r.freeList = [] → v.fillSub = .noSlot ∧ v.fillSlot = none ∧ v.freeList = []) ∧
  ∀ j rest, r.freeList = j :: rest →
    v.fillSub = .filling ∧ v.fillSlot = some j ∧ v.freeList = rest ∧ v.slot j = Slot.refill v.active.slotBase[j] (r.slot j)

theorem Ring.takesNext_nextFill {r u : Ring} (free : u.freeList = r.freeList) (slot : u.fillSlot = none)
    (same : ∀ j rest, r.freeList = j :: rest → u.slot j = r.slot j) : r.TakesNext u.nextFill := by
  constructor
  · intro empty
    rw [Ring.nextFill_nil (free.trans empty)]
    exact ⟨rfl, slot, free.trans empty⟩
  · intro j rest head
    rw [Ring.nextFill_cons (free.trans head), ← same j rest head]
    exact ⟨rfl, rfl, rfl, Ring.slot_modSlot_self _ j _⟩

theorem State.ring_nextFillSlot {i : RingId} {s : State} (running : (s.ring i).runState = .running) :
    (s.nextFillSlot i).ring i = (s.ring i).nextFill := by
  have empty : ((s.modRing i Ring.emptyFill).ring i) = (s.ring i).emptyFill := State.ring_modRing_self ..
  unfold State.nextFillSlot State.takeFree
  rw [empty]
  cases free : (s.ring i).freeList with
  | nil => rw [if_neg (by simp [Ring.fillMayTake, Ring.emptyFill, free]), Ring.nextFill_nil free, empty]
  | cons j rest =>
    rw [if_pos (by simp [Ring.fillMayTake, Ring.emptyFill, free, running]), if_neg (by simp [Ring.emptyFill]),
      State.ring_noteChange, State.ring_modRing_self, empty]
    rfl

theorem State.ring_finishClose {i : RingId} {s : State} (running : (s.ring i).runState = .running) :
    (s.finishClose i).ring i = ((s.applyIfPending i).ring i).nextFill := by
  have running' := ((State.steady_applyIfPending i s).rings i).runState.trans running
  unfold State.finishClose
  rw [State.ring_noteChange, State.ring_askReexam, State.ring_nextFillSlot running']

theorem State.takeFree_outside (i : RingId) (s : State) :
    (s.takeFree i).hold = s.hold ∧ (s.takeFree i).refusals = s.refusals := by
  cases take : (s.ring i).fillMayTake
  · rw [State.takeFree_of_not take]; exact ⟨rfl, rfl⟩
  · rw [State.takeFree_of_mayTake take]; exact ⟨rfl, rfl⟩

theorem State.applyIfPending_outside (i : RingId) (s : State) :
    (s.applyIfPending i).hold = s.hold ∧ (s.applyIfPending i).refusals = s.refusals := by
  unfold State.applyIfPending State.applyPending
  dsimp only
  split
  · split
    · exact ⟨rfl, rfl⟩
    · split <;> exact ⟨rfl, rfl⟩
  · exact ⟨rfl, rfl⟩

theorem State.nextFillSlot_outside (i : RingId) (s : State) :
    (s.nextFillSlot i).hold = s.hold ∧ (s.nextFillSlot i).refusals = s.refusals :=
  State.takeFree_outside i (s.modRing i Ring.emptyFill)

theorem State.finishClose_outside (i : RingId) (s : State) :
    (s.finishClose i).hold = s.hold ∧ (s.finishClose i).refusals = s.refusals := by
  have flags (t : State) : t.askReexam.noteChange.hold = t.hold ∧ t.askReexam.noteChange.refusals = t.refusals := ⟨rfl, rfl⟩
  obtain ⟨hold, refusals⟩ := State.applyIfPending_outside i s
  obtain ⟨hold', refusals'⟩ := State.nextFillSlot_outside i (s.applyIfPending i)
  unfold State.finishClose
  rw [(flags _).1, (flags _).2, hold', refusals']
  exact ⟨hold, refusals⟩

/-! ### The procedure -/

/-- A free-list head is FREE (01 R15). -/
theorem Ring.places_headFree {r : Ring} {j : SlotId} {rest : List SlotId} (places : r.placesSound) (started : r.runState ≠ .idle)
    (free : r.freeList = j :: rest) : (r.slot j).state = .free := by
  obtain ⟨counts, _⟩ := places started
  have once : 0 < r.freeList.count j := List.count_pos_iff.mpr (by simp [free])
  rw [counts j] at once
  by_contra other
  rw [if_neg (fun both => other both.1)] at once
  exact absurd once (by decide)

/-- Slot k's entry ends the ready queue, or the drain side has taken slot k and the queue is empty. -/
def Ring.Stands (k : SlotId) (r v : Ring) : Prop :=
  (∃ front, v.ready = front ++ [⟨k, false⟩] ∧ front <:+ r.ready) ∨ (v.ready = [] ∧ v.drainSlot = some k)

theorem Ring.QueuedLast.stands {k : SlotId} {r w v : Ring} (queued : r.QueuedLast k w) (ready : v.ready = w.ready)
    (drainSlot : v.drainSlot = w.drainSlot) : r.Stands k v := by
  unfold Ring.Stands
  rw [ready, drainSlot]
  exact queued.imp_right fun ⟨empty, slot, _⟩ => ⟨empty, slot⟩

/-- The budget of the closed frame was the last one (02 R33). -/
def Ring.lastFrame (r : Ring) : Prop := r.active.budget ≠ 0 ∧ r.budgetLeft = 0

theorem Ring.Counted.budgetSpent_iff {k : SlotId} {r w : Ring} (counted : r.Counted k w) : w.budgetSpent = true ↔ r.lastFrame := by
  rw [Ring.budgetSpent_iff, counted.active, counted.budget]; rfl

section Close
variable {i : RingId} {k : SlotId} {cause : CloseCause} {also : Option Nat} {s : State}
  (counted : (s.ring i).Counted k ((s.countClose i cause).ring i))
include counted

/-- The close of the last frame of a budget, whole. -/
theorem State.closeFrame_of_last (last : (s.ring i).lastFrame) :
    s.closeFrame i cause also =
      (((s.countClose i cause).modRing i Ring.endFill).answerHeld (answeredAtEnd i also) .fillClosed i).askReexam := by
  rw [State.closeFrame_eq, if_pos (counted.budgetSpent_iff.mpr last), State.endFill_of_queued also counted.queued]

theorem State.ring_closeFrame_of_last (last : (s.ring i).lastFrame) :
    (s.closeFrame i cause also).ring i = ((s.countClose i cause).ring i).endFill := by
  rw [State.closeFrame_of_last counted last]
  exact (congrArg (·[i]) (State.answerHeld_frame (answeredAtEnd i also) .fillClosed i _).2.1).trans (State.ring_modRing_self ..)

theorem State.outside_closeFrame_of_last (owner : (s.ring i).fillSlot = some k) (last : (s.ring i).lastFrame) :
    (s.closeFrame i cause also).hold = s.hold.filter (fun h => !answeredAtEnd i also h) ∧
    (s.closeFrame i cause also).refusals =
      ((s.hold.filter (answeredAtEnd i also)).foldl (fun u h => u.refuse h.request .fillClosed i) s).refusals := by
  obtain ⟨hold, refusals⟩ := State.countClose_outside cause owner
  rw [State.closeFrame_of_last counted last]
  constructor
  · exact (State.answerHeld_frame (answeredAtEnd i also) .fillClosed i _).1.trans (by rw [← hold]; rfl)
  · refine (State.refusals_foldl .fillClosed i _ (t := s) ?_).trans ?_
    · exact refusals
    · rw [← hold]; rfl

/-- The close of another frame goes on with the pending commit and the next slot. -/
theorem State.closeFrame_of_more (more : ¬ (s.ring i).lastFrame) :
    s.closeFrame i cause also = (s.countClose i cause).finishClose i := by
  rw [State.closeFrame_eq, if_neg fun spent => more (counted.budgetSpent_iff.mp spent)]

theorem State.commitDecided_finishClose (running : (s.ring i).runState = .running) (owner : (s.ring i).fillSlot = some k) :
    (s.ring i).CommitDecided (s.ring i).budgetLeft (s.liveFailure i) (((s.countClose i cause).finishClose i).ring i) := by
  have running' := counted.runState.trans running
  have decided := State.commitDecided_applyIfPending running'
  rw [State.liveFailure_countClose cause owner] at decided
  obtain ⟨_, active, _, budget, lost, attention, _⟩ := Ring.nextFill_keeps (((s.countClose i cause).applyIfPending i).ring i)
  rw [State.ring_finishClose running']
  unfold Ring.CommitDecided at decided ⊢
  rw [counted.commit, counted.shadow, counted.active, counted.budget, counted.lost] at decided
  rw [active, budget, lost, attention]
  exact decided

theorem State.takesNext_finishClose (running : (s.ring i).runState = .running) (places : (s.ring i).placesSound) :
    (s.ring i).TakesNext (((s.countClose i cause).finishClose i).ring i) := by
  have running' := counted.runState.trans running
  obtain ⟨_, _, _, _, shape⟩ := State.ring_applyIfPending running'
  rw [State.ring_finishClose running', shape]
  refine Ring.takesNext_nextFill counted.free counted.fillSlot fun j rest head => counted.freeSlot j ?_
  exact Ring.places_headFree places (by rw [running]; decide) head

/-- The rest of the ring after the close of another frame: the working state clear, still RUNNING, no commit pending. -/
theorem State.cleared_finishClose (running : (s.ring i).runState = .running) :
    let v := ((s.countClose i cause).finishClose i).ring i
    v.runState = .running ∧ v.fillSub ≠ .waiting ∧ v.fillCursor = 0 ∧ v.fillBytes = 0 ∧ v.highMark = 0 ∧ v.gapPending = false ∧
    v.fillTimer = none ∧ v.commitPending = false ∧ (s.ring i).Stands k v := by
  have running' := counted.runState.trans running
  obtain ⟨_, _, _, _, shape⟩ := State.ring_applyIfPending running'
  dsimp only
  rw [State.ring_finishClose running', shape]
  obtain ⟨state, _, commit, _, _, _, gap, ready, drainSlot⟩ := Ring.nextFill_keeps _
  obtain ⟨sub, timer, cursor, bytes, mark⟩ := Ring.nextFill_fillSide _
  exact ⟨state.trans running', sub, cursor counted.cursor, bytes counted.bytes, mark counted.mark, gap.trans counted.gap, timer,
    commit, counted.queued.stands ready drainSlot⟩

end Close

/-- Settles O18: steps 1 to 3 leave `Ring.Counted`; then either the fill ends, or the commit's outcome and the next slot follow. -/
theorem closeProcedure : Obligations.CloseProcedure := by
  intro i k cause also s running sub owner places
  have started : (s.ring i).runState ≠ .idle := by rw [running]; decide
  obtain ⟨closed, gone⟩ := State.closeFrame_facts i k cause also s owner (Ring.places_notFree places started owner)
  obtain ⟨works, _⟩ := State.works_closeFrame i cause also s running sub
  have kin := works.rings i
  obtain ⟨_, fills, _⟩ := places started
  have counted := State.counted_countClose cause owner ((fills k).mp owner)
  dsimp only
  by_cases last : (s.ring i).lastFrame
  · have ring := State.ring_closeFrame_of_last (also := also) counted last
    obtain ⟨hold, refusals⟩ := State.outside_closeFrame_of_last (also := also) counted owner last
    obtain ⟨record, later, attn⟩ := State.refusals_eq.mp refusals
    rw [ring] at closed gone kin ⊢
    refine ⟨closed, gone, nofun, kin.shadow, kin.mask, works.sent, kin.attention, counted.cursor, counted.bytes, counted.mark,
      counted.gap, rfl, counted.queued.stands rfl rfl, fun _ => ?_, fun more => absurd last more⟩
    exact ⟨rfl, counted.fillSlot, rfl, counted.budget.trans last.2, counted.active, counted.commit, counted.lost, counted.free,
      hold, record, later, attn⟩
  · have whole := State.closeFrame_of_more (also := also) counted last
    obtain ⟨state, notWaiting, cursor, bytes, mark, gap, timer, commit, stands⟩ := State.cleared_finishClose counted running
    obtain ⟨hold, refusals⟩ := State.finishClose_outside i (s.countClose i cause)
    obtain ⟨hold', refusals'⟩ := State.countClose_outside cause owner
    obtain ⟨record, later, _⟩ := State.refusals_eq.mp (refusals.trans refusals')
    obtain ⟨noSlot, nextSlot⟩ := State.takesNext_finishClose counted running places
    rw [whole] at closed gone kin works ⊢
    exact ⟨closed, gone, notWaiting, kin.shadow, kin.mask, works.sent, kin.attention, cursor, bytes, mark, gap, timer, stands,
      fun spent => absurd spent last, fun _ => ⟨state, commit, hold.trans hold', record, later, noSlot, nextSlot,
        State.commitDecided_finishClose counted running owner⟩⟩

end Sys2Proof.Machine
end

section
/-! PROOFS. How a command's answer stands in the command result, and the commands and events that close a frame or release a slot
(02 R29, R30, 03 R56, R57, 10 R167). -/

namespace Sys2Proof.Machine

/-! ### A ring's tests as conditions -/

theorem Ring.canClose_iff (r : Ring) : r.canClose = true ↔ r.runState = .running ∧ r.fillSub = .filling ∧ 0 < r.fillBytes := by
  simp [Ring.canClose, and_assoc]

theorem Ring.moves_iff (r : Ring) : r.moves = true ↔ r.runState = .running ∨ r.runState = .ending := by
  simp [Ring.moves]

theorem Ring.hasDrainSlot_iff (r : Ring) : r.hasDrainSlot = true ↔ r.drainSub = .draining ∨ r.drainSub = .retained := by
  simp [Ring.hasDrainSlot]

/-! ### Received events -/

theorem State.takeEvent_fill (i : RingId) (s : State) :
    ((s.ring i).canClose = true → s.takeEvent (i, .fill) = s.closeFrame i .event none) ∧
    (¬ (s.ring i).canClose = true → s.takeEvent (i, .fill) = s) :=
  ⟨fun closes => if_pos closes, fun stays => if_neg stays⟩

theorem State.takeEvent_drain (i : RingId) (s : State) :
    ((s.ring i).moves = true ∧ (s.ring i).hasDrainSlot = true → s.takeEvent (i, .drain) = s.trigger i) ∧
    (¬ ((s.ring i).moves = true ∧ (s.ring i).hasDrainSlot = true) → s.takeEvent (i, .drain) = s) :=
  ⟨fun acts => if_pos (by simpa using acts), fun stays => if_neg (by simpa using stays)⟩

/-- Settles O29: the two tests of `State.takeEvent`, as conditions on the ring. -/
theorem receivedEventActsOrIsIgnored : Obligations.ReceivedEventActsOrIsIgnored := by
  intro i s
  dsimp only
  obtain ⟨closes, noClose⟩ := State.takeEvent_fill i s
  obtain ⟨triggers, noTrigger⟩ := State.takeEvent_drain i s
  rw [Ring.canClose_iff] at closes noClose
  rw [Ring.moves_iff, Ring.hasDrainSlot_iff] at triggers noTrigger
  refine ⟨fun running filling bytes => closes ⟨running, filling, bytes⟩, fun no => noClose ?_,
    fun moves slot => triggers ⟨moves, slot⟩, fun no => noTrigger ?_⟩
  · rintro ⟨running, filling, bytes⟩
    rcases no with h | h | h
    · exact h running
    · exact h filling
    · omega
  · rintro ⟨moves, slot⟩
    rcases no with ⟨notRunning, notEnding⟩ | ⟨notDraining, notRetained⟩
    · exact moves.elim notRunning notEnding
    · exact slot.elim notDraining notRetained

/-! ### A command that its ring takes -/

/-- A command that its ring accepts: the ring's work, then the command result (10 R166, R167). -/
theorem State.command_accepted {c : CommandKind} {i : RingId} {causes : BitVec 10} {f : RingId → State → State × Reply} {s u : State}
    (takes : s.takesCommand c (ringField i) false causes = true) (ring : f i s.fresh.movePast = (u, .accepted))
    (result : u.result = s.result) : s.command c (ringField i) causes f =
      { u with result := ⟨some c, ringField i, false, false, .none, 0, s.result.count + 1⟩ } := by
  unfold State.command
  rw [State.portWrite_taken takes, State.takeCommand_ring, ring]
  exact State.setResult_accepted c _ _ result

/-- A command that its ring refuses leaves the state to the command result alone (10 R167). -/
theorem State.command_refused {c : CommandKind} {i : RingId} {causes : BitVec 10} {f : RingId → State → State × Reply} {s : State}
    {cause : CommandCause} {check : Nat} (takes : s.takesCommand c (ringField i) false causes = true)
    (ring : f i s.fresh.movePast = (s.fresh.movePast, .refused cause check)) : s.command c (ringField i) causes f =
      { s.fresh.movePast with result := ⟨some c, ringField i, false, true, cause, check, s.result.count + 1⟩ } := by
  unfold State.command
  rw [State.portWrite_taken takes, State.takeCommand_ring, ring]
  rfl

/-- A command for a ring number above 3 is refused BAD_RING (10 R166). -/
theorem State.command_badRing {c : CommandKind} {n : RingField} {causes : BitVec 10} {f : RingId → State → State × Reply} {s : State}
    (takes : s.takesCommand c n false causes = true) (above : 4 ≤ n.val) : s.command c n causes f =
      { s.fresh.movePast with result := ⟨some c, n, false, true, .badRing, 0, s.result.count + 1⟩ } := by
  unfold State.command
  rw [State.portWrite_taken takes, State.takeCommand_badRing _ _ _ _ above]
  rfl

/-! ### CLOSE and RELEASE -/

/-- CLOSE taken by a ring: WRONG_STATE outside RUNNING, NOTHING_TO_CLOSE without a frame, else the close procedure (02 R30). -/
theorem State.closeRing_cases (i : RingId) (s : State) :
    ((s.ring i).runState ≠ .running → s.closeRing i = (s, .refused .wrongState 0)) ∧
    ((s.ring i).runState = .running → ¬ (s.ring i).canClose = true → s.closeRing i = (s, .refused .nothingToClose 0)) ∧
    ((s.ring i).canClose = true → s.closeRing i = ((s.closeFrame i .command none).finish, .accepted)) := by
  unfold State.closeRing
  dsimp only
  refine ⟨fun h => if_pos (by simpa using h), fun running no => ?_, fun closes => ?_⟩
  · rw [if_neg (by simpa using running), if_neg no]
  · obtain ⟨running, _⟩ := (Ring.canClose_iff _).mp closes
    rw [if_neg (by simpa using running), if_pos closes]

/-- RELEASE taken by a ring: WRONG_STATE outside RUNNING and ENDING, NOTHING_TO_RELEASE without a drain slot, else the trigger (03
R57). -/
theorem State.releaseRing_cases (i : RingId) (s : State) :
    (¬ (s.ring i).moves = true → s.releaseRing i = (s, .refused .wrongState 0)) ∧
    ((s.ring i).moves = true → ¬ (s.ring i).hasDrainSlot = true → s.releaseRing i = (s, .refused .nothingToRelease 0)) ∧
    ((s.ring i).moves = true → (s.ring i).hasDrainSlot = true → s.releaseRing i = ((s.trigger i).finish, .accepted)) := by
  unfold State.releaseRing
  dsimp only
  refine ⟨fun h => if_pos (by simpa using h), fun moves no => ?_, fun moves slot => ?_⟩
  · rw [if_neg (by simp [moves]), if_neg no]
  · rw [if_neg (by simp [moves]), if_pos slot]

/-- Settles O44: each command is taken, and its ring accepts it. -/
theorem closeAndReleaseAct : Obligations.CloseAndReleaseAct := by
  intro i s r taken
  refine ⟨fun takes running filling bytes => ?_, fun takes moves slot => ?_⟩
  · obtain ⟨_, _, closes⟩ := State.closeRing_cases i taken
    have result : (taken.closeFrame i .command none).finish.result = s.result :=
      (State.flow_finish _).result.trans (State.works_closeFrame i .command none taken running filling).1.result
    exact congrArg Host.Outcome.next
      (State.command_accepted takes (closes ((Ring.canClose_iff r).mpr ⟨running, filling, bytes⟩)) result)
  · obtain ⟨_, _, releases⟩ := State.releaseRing_cases i taken
    have result : (taken.trigger i).finish.result = s.result :=
      (State.flow_finish _).result.trans (State.works_trigger i taken).result
    exact congrArg Host.Outcome.next
      (State.command_accepted takes (releases ((Ring.moves_iff r).mpr moves) ((Ring.hasDrainSlot_iff r).mpr slot)) result)

/-! ### Commands refused, or accepted without an effect -/

/-- Word 0005h holds the fields of the command result (12 R180, Table 12-8). -/
theorem wordHolds_result (s : State) {command cause : Nat} (coded : resultCode s.result.command = command)
    (causeCoded : commandCauseCode s.result.cause = cause) : wordHolds (s.readWord 0x0005#16)
      [(0, 4, command), (4, 3, s.result.target.val), (7, 1, s.result.isGlobal.toNat), (8, 1, s.result.refused.toNat),
        (9, 3, cause), (12, 4, s.result.check), (16, 8, s.result.count.toNat)] := by
  subst coded causeCoded
  exact wordHolds_of_pack _ rfl rfl (by simp [Field.apart]) (by simp)

/-- COMMIT outside IDLE with other structural fields, and in FAULT and ABORTING (05 R92, R93). -/
theorem State.commitRing_refused (i : RingId) (s : State) :
    ((s.ring i).runState = .fault ∨ (s.ring i).runState = .aborting → s.commitRing i = (s, .refused .wrongState 0)) ∧
    ((s.ring i).moves = true → (s.ring i).shadow.sameStructure (s.ring i).active = false →
      s.commitRing i = (s, .refused .structuralChange 0)) := by
  unfold State.commitRing
  dsimp only
  refine ⟨fun stopped => ?_, fun moves differs => ?_⟩
  · rcases stopped with h | h <;> rw [h]
  · rw [if_neg (by simp [differs])]
    rcases (Ring.moves_iff _).mp moves with h | h <;> rw [h]

/-- START outside IDLE, without a descriptor, and at a failing check (06 R104, R105). -/
theorem State.startRing_refused (i : RingId) (s : State) :
    ((s.ring i).runState ≠ .idle → s.startRing i = (s, .refused .wrongState 0)) ∧
    ((s.ring i).runState = .idle → (s.ring i).activeValid = false → s.startRing i = (s, .refused .noDescriptor 0)) ∧
    (∀ check, (s.ring i).runState = .idle → (s.ring i).activeValid = true → s.startFailure i = some check →
      s.startRing i = (s, .refused .invalid check)) := by
  unfold State.startRing
  dsimp only
  refine ⟨fun h => if_pos (by simpa using h), fun idle none => ?_, fun check idle valid fails => ?_⟩
  · rw [if_neg (by simp [idle]), if_pos (by simp [none])]
  · rw [if_neg (by simp [idle]), if_neg (by simp [valid]), fails]

/-- STOP outside RUNNING (06 R104). -/
theorem State.stopRing_refused {i : RingId} {s : State} (h : (s.ring i).runState ≠ .running) :
    s.stopRing i = (s, .refused .wrongState 0) := if_pos (by simpa using h)

/-- ABORT in IDLE and in ABORTING is accepted and has no effect (06 R104). -/
theorem State.abortRing_idle {i : RingId} {s : State} (h : (s.ring i).runState = .idle ∨ (s.ring i).runState = .aborting) :
    s.abortRing i = (s, .accepted) := if_pos (by simpa using h)

/-- Settles O38: the word's fields, and each command's refusals, through the command's entry. -/
theorem refusedCommandChangesResultAlone : Obligations.RefusedCommandChangesResultAlone := by
  refine ⟨fun s => wordHolds_result s ?_ ?_, fun n i causes s => ⟨fun above => ?_, ?_⟩⟩
  · rcases s.result.command with _ | command
    · rfl
    · cases command <;> rfl
  · cases s.result.cause <;> rfl
  · have bad {c : CommandKind} {carried : BitVec 10} {f : RingId → State → State × Reply}
        (takes : s.takesCommand c n false carried = true) := congrArg (Host.Outcome.next (φ := Fault) (ρ := Refusal))
      (State.command_badRing (f := f) takes above)
    exact ⟨bad, bad, bad, bad, bad, bad, bad⟩
  · rintro rfl
    have refused {c : CommandKind} {f : RingId → State → State × Reply} {cause : CommandCause} {check : Nat}
        (takes : s.takesCommand c (ringField i) false 0 = true)
        (ring : f i s.fresh.movePast = (s.fresh.movePast, .refused cause check)) :=
      congrArg (Host.Outcome.next (φ := Fault) (ρ := Refusal)) (State.command_refused takes ring)
    obtain ⟨stopped, differs⟩ := State.commitRing_refused i s.fresh.movePast
    obtain ⟨notIdle, noDescriptor, fails⟩ := State.startRing_refused i s.fresh.movePast
    obtain ⟨notRunning, noFrame, _⟩ := State.closeRing_cases i s.fresh.movePast
    obtain ⟨notMoving, noSlot, _⟩ := State.releaseRing_cases i s.fresh.movePast
    refine ⟨fun takes => ⟨fun h => refused takes (stopped h), fun h g => refused takes (differs h g)⟩,
      fun takes => ⟨fun h => refused takes (notIdle h), fun h g => refused takes (noDescriptor h g),
        fun check h g e => refused takes (fails check h g e)⟩,
      fun takes h => refused takes (State.stopRing_refused h),
      fun takes h => congrArg Host.Outcome.next (State.command_accepted takes (State.abortRing_idle h) rfl),
      fun takes => ⟨fun h => refused takes (notRunning h), fun running no => refused takes (noFrame running fun closes => ?_)⟩,
      fun takes => ⟨fun h g => refused takes (notMoving fun moves => ?_), fun moves no =>
        refused takes (noSlot ((Ring.moves_iff _).mpr moves) fun slot => ?_)⟩⟩
    · obtain ⟨_, filling, bytes⟩ := (Ring.canClose_iff _).mp closes
      exact no.elim (fun h => h filling) (fun h => Nat.ne_of_gt bytes h)
    · exact ((Ring.moves_iff _).mp moves).elim h g
    · rcases (Ring.hasDrainSlot_iff _).mp slot with h | h <;> rcases no with g | g <;> exact absurd (h.symm.trans g) (by decide)

end Sys2Proof.Machine
end

section
/-! PROOFS. What the two sides decide of a request, whether it arrives or is held: outside the slot, in the slot, and without one (02
R23 to R27, R37 to R39, 03 R51 to R64). -/

namespace Sys2Proof.Machine

/-! ### The decode of a request that a side decides -/

section
variable {q : Request} {i : RingId} {s : State}

theorem State.decode_eq_decideWrite (who : Option Nat) (decides : s.fillDecides q i) : s.decode who q = s.decideWrite who i q := by
  obtain ⟨lies, running, kind⟩ := decides
  unfold State.decode State.decodeInside
  rw [lies]
  dsimp only
  rw [running, kind]

theorem State.decode_eq_decideRead (who : Option Nat) (decides : s.drainDecides q i) : s.decode who q = s.decideRead who i q := by
  obtain ⟨lies, moves, kind⟩ := decides
  unfold State.decode State.decodeInside
  rw [lies]
  dsimp only
  rcases (Ring.moves_iff _).mp moves with h | h <;> rw [h, kind]

/-! ### The tests of a request against its slot -/

theorem Ring.writeOutside_iff (q : Request) (r : Ring) : r.writeOutside q = true ↔ r.active.fillStreamed = false ∧
    r.active.slotSize.toNat < (q.addr.toNat - r.active.fillBase.toNat) + q.payload.length := by
  simp [Ring.writeOutside]

theorem Ring.readOutside_iff (q : Request) (r : Ring) : r.readOutside q = true ↔ r.active.drainStreamed = false ∧
    r.active.slotSize.toNat < (q.addr.toNat - r.active.drainBase.toNat) + q.payload.length := by
  simp [Ring.readOutside]

theorem Ring.readPastEnd_iff (q : Request) (r : Ring) : r.readPastEnd q = true ↔ r.active.drainStreamed = true ∧
    r.active.slotSize.toNat < r.drainCursor + q.payload.length := by
  simp [Ring.readPastEnd]

theorem Ring.writeOverflows_iff (q : Request) (r : Ring) : r.writeOverflows q = true ↔ r.fillSub = .filling ∧
    (r.active.fillStreamed = true → r.active.slotSize.toNat < r.fillCursor + q.payload.length) ∧
    (r.active.fillStreamed = false → r.active.slotSize.toNat < r.fillBytes + q.payload.length) := by
  unfold Ring.writeOverflows
  cases r.active.fillStreamed <;> simp

/-- The write lies within a slot, as far as its mode looks at it (02 R24). -/
def Ring.writeInside (q : Request) (r : Ring) : Prop := r.active.fillStreamed = false →
  (q.addr.toNat - r.active.fillBase.toNat) + q.payload.length ≤ r.active.slotSize.toNat

/-- The read lies within a slot, as far as its mode looks at it (03 R52). -/
def Ring.readInside (q : Request) (r : Ring) : Prop := r.active.drainStreamed = false →
  (q.addr.toNat - r.active.drainBase.toNat) + q.payload.length ≤ r.active.slotSize.toNat

theorem Ring.writeOutside_eq_false {r : Ring} (inside : r.writeInside q) : r.writeOutside q = false := by
  rw [Bool.eq_false_iff, ne_eq, Ring.writeOutside_iff]
  rintro ⟨mapped, past⟩
  have := inside mapped
  omega

theorem Ring.readOutside_eq_false {r : Ring} (inside : r.readInside q) : r.readOutside q = false := by
  rw [Bool.eq_false_iff, ne_eq, Ring.readOutside_iff]
  rintro ⟨mapped, past⟩
  have := inside mapped
  omega

/-! ### The read decision -/

theorem State.decideRead_of_outside (who : Option Nat) (outside : (s.ring i).readOutside q = true) :
    s.decideRead who i q = s.refuseAnswer who q .outsideSlot i := if_pos outside

theorem State.decideRead_of_hasDrainSlot (who : Option Nat) (inside : (s.ring i).readInside q)
    (has : (s.ring i).hasDrainSlot = true) : s.decideRead who i q = s.placeRead who i q := by
  unfold State.decideRead
  dsimp only
  rw [Ring.readOutside_eq_false inside, has]
  rfl

/-- A read of a drained ring in ENDING (03 R65). -/
theorem State.decideRead_of_drained (who : Option Nat) (inside : (s.ring i).readInside q) (none : (s.ring i).hasDrainSlot = false)
    (ending : (s.ring i).runState = .ending) (empty : (s.ring i).ready = []) :
    s.decideRead who i q = s.refuseAnswer who q .ringEnding i := by
  unfold State.decideRead
  dsimp only
  rw [Ring.readOutside_eq_false inside, none, ending, empty]
  rfl

theorem State.decideRead_of_underrun (who : Option Nat) (inside : (s.ring i).readInside q) (none : (s.ring i).hasDrainSlot = false)
    (goesOn : ¬ ((s.ring i).runState = .ending ∧ (s.ring i).ready = [])) : s.decideRead who i q = s.underrun who i q := by
  unfold State.decideRead
  dsimp only
  rw [Ring.readOutside_eq_false inside, none, if_neg (by decide), if_neg (by decide), if_neg (by simpa using goesOn)]

end

/-- Settles O15: each refusal is its side's own test, and a refusal is the whole event. -/
theorem sideRefusals : Obligations.SideRefusals := by
  intro q i s now
  dsimp only
  refine ⟨fun decides mapped past => ?_, fun decides mapped past => ?_, fun decides streamed has past => ?_,
    fun decides none ending empty inside => ?_⟩ <;> refine exec_upstreamRequest_of_refuse now ?_
  · rw [State.decode_of_fillDecides decides]
    exact if_pos ((Ring.writeOutside_iff q _).mpr ⟨mapped, past⟩)
  · rw [State.decode_of_drainDecides decides]
    exact State.decideRead_of_outside (s := s.fresh) Option.none ((Ring.readOutside_iff q _).mpr ⟨mapped, past⟩)
  · have inside : (s.ring i).readInside q := fun mapped => absurd (streamed.symm.trans mapped) (by decide)
    rw [State.decode_of_drainDecides decides, State.decideRead_of_hasDrainSlot (s := s.fresh) Option.none inside has]
    exact if_pos ((Ring.readPastEnd_iff q _).mpr ⟨streamed, past⟩)
  · rw [State.decode_of_drainDecides decides]
    exact State.decideRead_of_drained (s := s.fresh) Option.none inside none ending empty

/-! ### A request in its slot -/

section
variable {q : Request} {i : RingId} {s : State}

/-- A write is placed when the issue unit gives an entry and there is a fill slot, and takes reason TABLE without an entry (02 R23). -/
theorem State.placeWrite_of_entry {who : Option Nat} {t : DownTag} {k : SlotId} (entry : s.mayIssue who = some t)
    (slot : (s.ring i).fillSlot = some k) : s.placeWrite who i q = (s.acceptFill who i k t q, .done) := by
  unfold State.placeWrite
  rw [entry, slot]

theorem State.placeWrite_of_noEntry {who : Option Nat} (noEntry : s.mayIssue who = none) :
    s.placeWrite who i q = (s, .hold .table) := by
  unfold State.placeWrite
  rw [noEntry]

/-- A write that fits the FILLING slot is placed (02 R23 to R27). -/
theorem State.decideWrite_eq_placeWrite (who : Option Nat) (filling : (s.ring i).fillSub = .filling)
    (fits : (s.ring i).fillOffset q + q.payload.length ≤ (s.ring i).active.slotSize.toNat)
    (mapped : (s.ring i).active.fillStreamed = false →
      (s.ring i).fillBytes + q.payload.length ≤ (s.ring i).active.slotSize.toNat) :
    s.decideWrite who i q = s.placeWrite who i q := by
  have inside : (s.ring i).writeInside q := fun mode => by simpa [Ring.fillOffset, mode] using fits
  have noOverflow : (s.ring i).writeOverflows q = false := by
    rw [Bool.eq_false_iff, ne_eq, Ring.writeOverflows_iff]
    rintro ⟨_, streamed, full⟩
    unfold Ring.fillOffset at fits
    cases mode : (s.ring i).active.fillStreamed
    · have := mapped mode; have := full mode; omega
    · have := streamed mode; rw [if_pos mode] at fits; omega
  unfold State.decideWrite State.decideAfterOverflow
  rw [Ring.writeOutside_eq_false inside, noOverflow, filling]
  rfl

/-- A read that the drain slot serves is placed, with an entry, or takes reason TABLE (03 R51 to R53). -/
theorem State.decideRead_of_fits {d : SlotId} (who : Option Nat) (has : (s.ring i).hasDrainSlot = true)
    (slot : (s.ring i).drainSlot = some d)
    (fits : (s.ring i).drainOffset q + q.payload.length ≤ (s.ring i).active.slotSize.toNat) :
    (∀ t, s.mayIssue who = some t → s.decideRead who i q = (s.acceptDrain who i d t q, .done)) ∧
    (s.mayIssue who = none → s.decideRead who i q = (s, .hold .table)) := by
  have inside : (s.ring i).readInside q := fun mode => by simpa [Ring.drainOffset, mode] using fits
  have notPast : (s.ring i).readPastEnd q = false := by
    rw [Bool.eq_false_iff, ne_eq, Ring.readPastEnd_iff]
    rintro ⟨mode, past⟩
    unfold Ring.drainOffset at fits
    rw [if_pos mode] at fits
    omega
  rw [State.decideRead_of_hasDrainSlot who inside has]
  unfold State.placeRead
  rw [notPast, slot]
  exact ⟨fun t entry => by rw [entry]; rfl, fun noEntry => by rw [noEntry]; rfl⟩

/-- Under PATTERN and REPEAT an underrunning read is answered, and left behind (03 R62, R64). -/
theorem State.underrun_of_pattern (who : Option Nat) (policy : (s.ring i).active.underrun = 1 ∨ (s.ring i).active.underrun = 2) :
    s.underrun who i q = (((s.modRing i Ring.patternAnswer).respond q.initiator q.tag .okay
      (some (patternData (s.ring i).active.pattern q.addr q.payload.length))).leave who, .done) :=
  if_pos (by simpa [Descriptor.underrunPattern, Descriptor.underrunRepeat] using policy)

/-- Under STALL the drain side holds an underrunning read (03 R61). -/
theorem State.underrun_of_stall (who : Option Nat) (policy : (s.ring i).active.underrun = 0) :
    s.underrun who i q = (s.modRing i Ring.drainStall, .hold (.drainWait i)) :=
  if_neg (by simp [Descriptor.underrunPattern, Descriptor.underrunRepeat, policy])

end

/-! ### A write without a slot -/

section
variable {q : Request} {i : RingId} {s : State}

/-- Under DROP the write is answered, and left behind (02 R38). -/
theorem State.overrun_of_drop (who : Option Nat) (policy : (s.ring i).active.overrun = 1) :
    s.overrun who i q = (((s.modRing i Ring.dropWrite).respond q.initiator q.tag .okay none).leave who, .done) :=
  if_pos (by simp [Descriptor.overrunDrop, policy])

/-- Under STALL, and under RECLAIM without a settled head, the fill side holds the write (02 R37, R39). -/
theorem State.overrun_of_stall (who : Option Nat)
    (policy : (s.ring i).active.overrun = 0 ∨ ((s.ring i).active.overrun = 2 ∧ (s.ring i).headSettled = false)) :
    s.overrun who i q = (s.modRing i Ring.fillStall, .hold (.fillWait i)) := by
  unfold State.overrun Descriptor.overrunDrop Descriptor.overrunReclaim
  dsimp only
  rcases policy with h | ⟨h, head⟩
  · rw [h]; rfl
  · rw [h, head]; rfl

theorem Ring.fillStall_eq (r : Ring) : r.fillStall = if r.fillSub = .noSlot then { r with
      fillSub := .waiting
      fillTimer := if r.active.stallTimeout = 0 then none else some r.active.stallTimeout.toNat
      attention := addCause .overrun r.attention }
    else r := by
  unfold Ring.fillStall
  simp only [beq_iff_eq]
  rfl

theorem Ring.offers_fillStall (r : Ring) : r.fillStall.offers = r.offers := by
  rw [Ring.fillStall_eq]
  split <;> rfl

end

/-- Settles O20: the policy decides, and neither answer nor hold leaves anything to do. -/
theorem overrunDropsOrHolds : Obligations.OverrunDropsOrHolds := by
  intro q i s now decides r sub inside
  have meets : s.fresh.decode none q = s.fresh.overrun none i q := by
    rw [State.decode_of_fillDecides decides, State.decideWrite_of_noSlot (s := s.fresh) none sub inside]
  refine ⟨fun drop => ?_, fun stall => ?_⟩
  · rw [State.overrun_of_drop (s := s.fresh) none drop] at meets
    refine exec_upstreamRequest_of_decodeArrival now ?_ rfl rfl (State.granted_set now rfl rfl rfl) rfl
    unfold State.decodeArrival
    rw [meets]
    rfl
  · rw [State.overrun_of_stall (s := s.fresh) none stall] at meets
    rw [← Ring.fillStall_eq]
    exact exec_upstreamRequest_of_hold now meets rfl rfl (State.granted_set now rfl rfl (Ring.offers_fillStall r)) rfl

/-! ### A write that the fill slot cannot take -/

section
variable {q : Request} {i : RingId} {s : State}

theorem State.decideWrite_of_overflow (who : Option Nat) (inside : (s.ring i).writeInside q)
    (overflows : (s.ring i).writeOverflows q = true) :
    s.decideWrite who i q = (s.closeFrame i .full who).decideAfterOverflow who i q := by
  unfold State.decideWrite
  rw [Ring.writeOutside_eq_false inside, overflows]
  rfl

theorem State.decideAfterOverflow_of_closed (closed : (s.ring i).fillSub = .closed) :
    s.decideAfterOverflow none i q = s.refuseAnswer none q .fillClosed i := by
  unfold State.decideAfterOverflow
  rw [closed]
  rfl

theorem State.decideAfterOverflow_of_filling (who : Option Nat) (filling : (s.ring i).fillSub = .filling) :
    s.decideAfterOverflow who i q = s.placeWrite who i q := by
  unfold State.decideAfterOverflow
  rw [filling]

theorem State.decideAfterOverflow_of_noSlot (who : Option Nat) (noSlot : (s.ring i).fillSub = .noSlot) :
    s.decideAfterOverflow who i q = s.overrun who i q := by
  unfold State.decideAfterOverflow
  rw [noSlot]

end

/-- Settles O19: the close of the frame, then the decision by what it left of the fill side. -/
theorem overflowingWriteClosesFull : Obligations.OverflowingWriteClosesFull := by
  intro q i s now decides filling r n streamed mapped v w
  have overflows : r.writeOverflows q = true :=
    (Ring.writeOverflows_iff q r).mpr ⟨filling, streamed, fun m => (mapped m).2⟩
  have decided : s.fresh.decode none q = v.decideAfterOverflow none i q := by
    rw [State.decode_of_fillDecides decides]
    exact State.decideWrite_of_overflow (s := s.fresh) none (fun m => (mapped m).1) overflows
  have answered {u : State} (e : v.decideAfterOverflow none i q = (u, .done)) : s.fresh.decodeArrival q = u := by
    unfold State.decodeArrival; rw [decided, e]
  have held {u : State} {reason : Reason} (e : v.decideAfterOverflow none i q = (u, .hold reason)) :
      s.fresh.decodeArrival q = u.join q reason := by
    unfold State.decodeArrival; rw [decided, e]
  have reclaims (noSlot : (v.ring i).fillSub = .noSlot) (policy : (v.ring i).active.overrun = 2)
      (head : (v.ring i).headSettled = true) : v.decideAfterOverflow none i q = w.placeWrite none i q := by
    rw [State.decideAfterOverflow_of_noSlot none noSlot, State.overrun_of_reclaim none policy head]
  have stalls (noSlot : (v.ring i).fillSub = .noSlot) := fun policy =>
    held ((State.decideAfterOverflow_of_noSlot none noSlot).trans (State.overrun_of_stall none policy))
  refine ⟨s.fresh.decodeArrival q, exec_upstreamRequest_decodes now, fun closed => ?_, fun k t fills slot entry => ?_,
    fun fills noEntry => ?_, fun noSlot stall => stalls noSlot (Or.inl stall), fun noSlot drop => ?_,
    fun noSlot reclaim head => stalls noSlot (Or.inr ⟨reclaim, head⟩), fun k t noSlot reclaim head slot entry => ?_,
    fun noSlot reclaim head noEntry => ?_⟩
  · exact answered (State.decideAfterOverflow_of_closed closed)
  · exact answered ((State.decideAfterOverflow_of_filling none fills).trans
      (State.placeWrite_of_entry (State.mayIssue_of_entryFor entry) slot))
  · exact held ((State.decideAfterOverflow_of_filling none fills).trans
      (State.placeWrite_of_noEntry (State.mayIssue_of_entryNone noEntry)))
  · exact answered ((State.decideAfterOverflow_of_noSlot none noSlot).trans (State.overrun_of_drop none drop))
  · exact answered ((reclaims noSlot reclaim head).trans (State.placeWrite_of_entry (State.mayIssue_of_entryFor entry) slot))
  · exact held ((reclaims noSlot reclaim head).trans (State.placeWrite_of_noEntry (State.mayIssue_of_entryNone noEntry)))

end Sys2Proof.Machine
end

section
/-! PROOFS. The application of a pending commit within a close, taken alone (05 R90, R95, R96, 02 R34, R35). -/

namespace Sys2Proof.Machine

/-! ### The live checks -/

theorem Ring.newRegionsClear_iff (d : Descriptor) (r : Ring) : r.newRegionsClear d = true ↔
    ∀ j k : SlotId, j ≠ k → j.val < d.slotCount.toNat → k.val < d.slotCount.toNat →
      (byteRange d.slotBase[k] d.slotSize.toNat).overlaps (byteRange (r.slot j).base d.slotSize.toNat) = false := by
  unfold Ring.newRegionsClear Descriptor.slotRegion
  simp only [List.all_eq_true, Descriptor.mem_usedSlots, Bool.or_eq_true, beq_iff_eq, Bool.not_eq_true']
  exact ⟨fun h j k ne hj hk => (h k hk j hj).resolve_left ne, fun h k hk j hj => or_iff_not_imp_left.mpr fun ne => h j k ne hj hk⟩

/-- The live checks in the order of their numbers: none fails, or the first that does (05 R90). -/
theorem State.liveFailure_spec (i : RingId) (s : State) :
    firstFailing [7, 8, 9, 10, 11] (fun n => s.liveHolds i n) (s.liveFailure i) := by
  have plain {n : Nat} {check : Bool} (other : n ≠ 8) (holds : check = true ↔ s.checkHolds i (s.ring i).shadow n) :
      check = true ↔ s.liveHolds i n :=
    holds.trans (by simp only [State.liveHolds, other, false_implies, and_true])
  refine firstFailure_spec _ (fun n => s.liveHolds i n) ?_ (by simp)
  simp only [List.forall_mem_cons, List.not_mem_nil, false_implies, implies_true, and_true]
  refine ⟨plain (by decide) (Descriptor.check7_iff _ i s), ?_, plain (by decide) (State.check9_iff _ i s),
    plain (by decide) (Descriptor.check10_iff _ i s), plain (by decide) (Descriptor.check11_iff _ i s)⟩
  rw [Bool.and_eq_true, State.check8Common_iff, Ring.newRegionsClear_iff]
  simp only [State.liveHolds, forall_const]

/-! ### The rest of the close -/

/-- The next fill slot is the ring's own matter, but for the marks of the walk (02 R35). -/
theorem State.nextFillSlot_of_running {i : RingId} {s : State} (running : (s.ring i).runState = .running) :
    (s.nextFillSlot i).askReexam.noteChange = (s.setRing i (s.ring i).nextFill).askReexam.noteChange := by
  have ring := State.ring_modRing_self s i Ring.emptyFill
  unfold State.nextFillSlot
  cases free : (s.ring i).freeList with
  | nil =>
    rw [State.takeFree_of_not (by rw [ring]; simp [Ring.fillMayTake, Ring.emptyFill, free]), Ring.nextFill_nil free]
    rfl
  | cons j rest =>
    rw [State.takeFree_of_mayTake (by rw [ring]; simp [Ring.fillMayTake, Ring.emptyFill, free, running]), ring,
      State.rings_modRing, Vector.set_set]
    rfl

/-- Steps 4 and 5 of a close, where the application makes ring x of ring i (02 R34, R35). -/
theorem State.finishClose_of_applied {i : RingId} {x : Ring} {s : State} (running : x.runState = .running)
    (applied : (s.applyIfPending i).askReexam.noteChange = (s.setRing i x).askReexam.noteChange) :
    s.finishClose i = (s.setRing i x.nextFill).askReexam.noteChange := by
  have ring : (s.applyIfPending i).ring i = x :=
    (congrArg (State.ring i) applied).trans (State.ring_setRing_self s i x)
  calc s.finishClose i = ((s.applyIfPending i).setRing i x.nextFill).askReexam.noteChange := by
        unfold State.finishClose
        rw [State.nextFillSlot_of_running (by rw [ring]; exact running), ring]
    _ = (s.applyIfPending i).askReexam.noteChange.setRing i x.nextFill := rfl
    _ = (s.setRing i x.nextFill).askReexam.noteChange := by
        rw [applied]
        exact State.setRing_setRing i x x.nextFill s.askReexam.noteChange

/-- The three ways of an application within a close (05 R95, R96). -/
theorem State.finishClose_cases {i : RingId} {s : State} (pending : (s.ring i).commitPending = true)
    (running : (s.ring i).runState = .running) :
    let goesOn (x : Ring) : State := (s.setRing i x.nextFill).askReexam.noteChange
    ((s.ring i).shadow.sameStructure (s.ring i).active = false →
      s.finishClose i = goesOn ((s.ring i).loseCommit .structuralChange)) ∧
    (∀ n, (s.ring i).shadow.sameStructure (s.ring i).active = true → s.liveFailure i = some n →
      s.finishClose i = goesOn ((s.ring i).loseCommit (.invalid n))) ∧
    ((s.ring i).shadow.sameStructure (s.ring i).active = true → s.liveFailure i = none →
      s.finishClose i = goesOn (s.ring i).applyCommit) := by
  have applies : s.applyIfPending i = s.applyPending i := if_pos (by simp [pending, running])
  refine ⟨fun differs => ?_, fun n same fails => ?_, fun same valid => ?_⟩ <;>
    refine State.finishClose_of_applied running ?_ <;> rw [applies] <;> unfold State.applyPending
  · rw [if_pos (by simp [differs])]
    rfl
  · rw [if_neg (by simp [same]), fails]
    rfl
  · rw [if_neg (by simp [same]), valid]
    rfl

theorem exec_pendingCommitApplication (i : RingId) (s : State) : exec (.pendingCommitApplication i) s = .next
    (if (s.ring i).commitPending && (s.ring i).inClose then (s.fresh.finishClose i).finish else s.fresh) := rfl

theorem Ring.inClose_iff (r : Ring) : r.inClose = true ↔ r.runState = .running ∧ r.fillSub = .filling ∧ r.fillSlot = none := by
  simp [Ring.inClose, and_assoc]

/-- Settles O51: the row is the rest of the close, whose three ways are `State.finishClose_cases`. -/
theorem pendingCommitIsAppliedOrLost : Obligations.PendingCommitIsAppliedOrLost := by
  intro i s r within lost goesOn
  have test : (r.commitPending && r.inClose) = true ↔ within := by rw [Bool.and_eq_true, Ring.inClose_iff]
  have row (x : Ring) (w : within) (free : x.freeList = r.freeList) (slots : x.slots = r.slots)
      (rest : s.fresh.finishClose i = (s.fresh.setRing i x.nextFill).askReexam.noteChange) :
      exec (.pendingCommitApplication i) s = .next (goesOn x) := by
    rw [exec_pendingCommitApplication, if_pos (test.mpr w), rest]
    dsimp only [goesOn]
    cases list : r.freeList with
    | nil => rw [Ring.nextFill_nil (free.trans list)]; rfl
    | cons j rest =>
      rw [Ring.nextFill_cons (free.trans list)]
      unfold Ring.modSlot Ring.slot
      rw [slots]
      rfl
  refine ⟨State.liveFailure_spec i s, fun w => ?_, fun no => ?_, fun same => Descriptor.withLiveFields_eq same⟩
  · have ⟨pending, running, _⟩ := w
    obtain ⟨differing, invalid, applied⟩ := State.finishClose_cases (s := s.fresh) pending running
    exact ⟨fun differs => row (lost .structuralChange) w rfl rfl (differing differs),
      fun n same fails => row (lost (.invalid n)) w rfl rfl (invalid n same fails),
      fun same valid => row r.applyCommit w rfl rfl (applied same valid)⟩
  · rw [exec_pendingCommitApplication, if_neg (fun h => no (test.mp h))]
    rfl

end Sys2Proof.Machine
end

section
/-! PROOFS. STOP and ABORT up to their completion test: the end of the fill and the ring that freezes (06 R107, R115, 02 R41, R43). -/

namespace Sys2Proof.Machine

/-! ### ABORT -/

theorem State.abortRing_of_acts {i : RingId} {s : State} (notIdle : (s.ring i).runState ≠ .idle)
    (notAborting : (s.ring i).runState ≠ .aborting) : s.abortRing i =
      (((((s.modRing i Ring.enterAbort).answerHeld (isWaitOf i) .aborted i).askReexam).reexamine.testAborting i).finish, .accepted) :=
  if_neg (by simp [notIdle, notAborting])

/-- Settles O42: the ring's own part is `Ring.enterAbort_eq`, and the answers are those of `State.answerHeld`. -/
theorem abortEntersAborting : Obligations.AbortEntersAborting := by
  intro i s takes notIdle notAborting r waits picked answer start e
  let taken : State := s.fresh.movePast
  have entered : ((taken.modRing i Ring.enterAbort).answerHeld (isWaitOf i) .aborted i).askReexam = e := by
    unfold State.modRing
    rw [Ring.enterAbort_eq]
    rfl
  obtain ⟨_, rings, sent, table⟩ := State.answerHeld_frame (isWaitOf i) .aborted i (taken.modRing i Ring.enterAbort)
  have result : State.result (e.reexamine.testAborting i).finish = s.result := by
    rw [← entered]
    exact (State.flow_finish _).result.trans (State.flow_abort i taken notIdle).result
  refine ⟨?_, fun j other => ?_, ?_, ?_⟩
  · have accepted := State.abortRing_of_acts (s := taken) notIdle notAborting
    rw [entered] at accepted
    exact congrArg Host.Outcome.next (State.command_accepted takes accepted result)
  · rw [← entered]
    exact (congrArg (·[j]) rings).trans (State.ring_modRing_ne taken i j Ring.enterAbort other)
  · rw [← entered]
    exact sent
  · rw [← entered]
    exact table

/-! ### STOP: the fill slot -/

/-- The fill slot at a STOP: none to handle, an empty one returned, or a frame closed with cause STOP (02 R41). -/
theorem State.stopFillSlot_cases (i : RingId) (s : State) :
    ((s.ring i).fillSub ≠ .filling → s.stopFillSlot i = s) ∧
    ((s.ring i).fillSub = .filling → (s.ring i).fillBytes = 0 → s.stopFillSlot i = s.modRing i Ring.returnFillSlot) ∧
    ((s.ring i).fillSub = .filling → 0 < (s.ring i).fillBytes → s.stopFillSlot i = s.countClose i .stop) := by
  unfold State.stopFillSlot
  dsimp only
  refine ⟨fun no => if_neg (by simpa using no), fun filling empty => ?_, fun filling bytes => ?_⟩
  · rw [if_pos (by simp [filling]), if_neg (by omega)]
  · rw [if_pos (by simp [filling]), if_pos bytes]
    rfl

theorem Ring.returnFillSlot_of_fillSlot {r : Ring} {k : SlotId} (slot : r.fillSlot = some k) : r.returnFillSlot = { r with
    slots := r.slots.set k { r.slot k with state := .free }
    freeList := r.freeList ++ [k]
    fillSlot := none
    fillCursor := 0
    fillBytes := 0
    highMark := 0 } := by
  unfold Ring.returnFillSlot
  rw [slot]
  rfl

theorem State.closeSlot_of_fillSlot {i : RingId} {k : SlotId} {s : State} (cause : CloseCause) (slot : (s.ring i).fillSlot = some k) :
    s.closeSlot i cause = (((s.modRing i (Ring.closeInto cause k)).settleRing i).grantRecords).noteChange := by
  unfold State.closeSlot
  rw [slot]

/-! ### STOP: the end of the fill -/

theorem answeredAtEnd_none (i : RingId) : answeredAtEnd i none = fun h => h.reason == .fillWait i := by
  funext h
  simp [answeredAtEnd]

/-- The fill side closed and its held writes answered, before the release of a RETAINED slot (06 R107 steps 1 to 3). -/
def State.closeFill (i : RingId) (s : State) : State :=
  (s.modRing i Ring.endFill).answerHeld (fun h => h.reason == .fillWait i) .fillClosed i

theorem State.ring_closeFill (i : RingId) (s : State) : (s.closeFill i).ring i = (s.ring i).endFill :=
  (congrArg (·[i]) (State.answerHeld_frame _ .fillClosed i (s.modRing i Ring.endFill)).2.1).trans (State.ring_modRing_self ..)

/-- The end of the fill releases a RETAINED drain slot before an empty ready queue, and no other (03 R65). -/
theorem State.endFill_cases (i : RingId) (s : State) :
    let x := (s.closeFill i).ring i
    (¬ (x.drainSub = .retained ∧ x.ready = []) → s.endFill i none = (s.closeFill i).askReexam) ∧
    (x.drainSub = .retained ∧ x.ready = [] → s.endFill i none = ((s.closeFill i).releaseSlot i).askReexam) := by
  have whole : s.endFill i none = State.askReexam (if ((s.closeFill i).ring i).drainSub == .retained &&
      ((s.closeFill i).ring i).ready.isEmpty then (s.closeFill i).releaseSlot i else s.closeFill i) := by
    unfold State.closeFill
    rw [← answeredAtEnd_none]
    rfl
  dsimp only
  rw [whole]
  exact ⟨fun stays => by rw [if_neg (by simpa using stays)], fun releases => by rw [if_pos (by simpa using releases)]⟩

theorem Ring.release_eq (d : SlotId) (r : Ring) : r.release d = { r with
    slots := r.slots.set d { r.slot d with state := .releasing }
    releasing := r.releasing ++ [d]
    counters := { r.counters with releases := satInc r.counters.releases }
    attention := addCause .released r.attention
    drainSlot := none
    drainCursor := 0
    bytesRead := 0
    drainSub := .empty
    drainTimer := none } := rfl

theorem Ring.freeReleased_eq (k : SlotId) (r : Ring) : r.freeReleased k = { r with
    slots := r.slots.set k { r.slot k with state := .free }
    freeList := r.freeList ++ [k]
    releasing := r.releasing.filter (· != k) } := rfl

/-- The ring after a release with no read in flight: the slot has passed through the releasing set (03 R58, 01 R14). -/
theorem Ring.freeReleased_release {r : Ring} {d : SlotId} (absent : d ∉ r.releasing) : (r.release d).freeReleased d = { r with
    slots := r.slots.set d { r.slot d with state := .free }
    freeList := r.freeList ++ [d]
    counters := { r.counters with releases := satInc r.counters.releases }
    attention := addCause .released r.attention
    drainSlot := none
    drainCursor := 0
    bytesRead := 0
    drainSub := .empty
    drainTimer := none } := by
  have released : (r.release d).slot d = { r.slot d with state := .releasing } :=
    Ring.slot_modSlot_self r d fun x => { x with state := .releasing }
  have kept : (r.releasing ++ [d]).filter (· != d) = r.releasing := by
    have others : ∀ k ∈ r.releasing, (k != d) = true := by
      rintro k member
      exact bne_iff_ne.mpr fun same => absent (same ▸ member)
    rw [List.filter_append, List.filter_eq_self.mpr others]
    simp
  rw [Ring.freeReleased_eq, released, Ring.release_eq]
  dsimp only
  rw [Vector.set_set, kept]

/-- A release beside a CLOSED fill side and an empty ready queue: no side takes a slot after it. -/
theorem State.releaseSlot_of_closed {i : RingId} {d : SlotId} {s : State} (slot : (s.ring i).drainSlot = some d)
    (closed : (s.ring i).fillSub = .closed) (empty : (s.ring i).ready = []) :
    (((s.ring i).slot d).outstanding ≠ 0 → s.releaseSlot i = (s.setRing i ((s.ring i).release d)).askReexam) ∧
    (((s.ring i).slot d).outstanding = 0 →
      s.releaseSlot i = (s.setRing i (((s.ring i).release d).freeReleased d)).askReexam) := by
  have noTake {x : Ring} (ready : x.ready = []) : (s.setRing i x).takeSettled i = s.setRing i x :=
    State.takeSettled_of_not (by rw [State.ring_setRing_self]; simp [Ring.drainMayTake, Ring.headSettled, ready])
  have releasedQueue : ((s.ring i).release d).ready = [] := by rw [Ring.release_eq]; exact empty
  have freedSide : (((s.ring i).release d).freeReleased d).fillSub = .closed := by
    rw [Ring.freeReleased_eq, Ring.release_eq]; exact closed
  have freedQueue : (((s.ring i).release d).freeReleased d).ready = [] := by
    rw [Ring.freeReleased_eq]; exact releasedQueue
  obtain ⟨busy, idle⟩ := State.releaseSlot_of_drainSlot slot
  refine ⟨fun h => ?_, fun h => ?_⟩
  · rw [busy h]
    exact congrArg State.askReexam (noTake releasedQueue)
  · have freed : (s.modRing i (Ring.release d)).modRing i (Ring.freeReleased d) =
        s.setRing i (((s.ring i).release d).freeReleased d) := State.modRing_setRing i _ _ s
    rw [idle h]
    unfold State.freeReleased
    rw [freed, State.takeFree_closed i _ (by rw [State.ring_setRing_self]; exact freedSide),
      noTake freedQueue]

/-! ### STOP, whole -/

theorem State.closeFill_eq (i : RingId) (s : State) : s.closeFill i =
    (s.hold.filter fun h => h.reason == .fillWait i).foldl (fun t h => t.refuse h.request .fillClosed i) { s with
      rings := s.rings.set i { s.ring i with fillSub := .closed, fillTimer := none, runState := .ending }
      hold := s.hold.filter fun h => !(h.reason == .fillWait i)
      walkChanged := s.walkChanged || !(s.hold.filter fun h => h.reason == .fillWait i).isEmpty } := rfl

/-- What the end of the fill leaves, whether a slot is released or not (06 R107). -/
theorem State.endFill_facts (i : RingId) (s : State) :
    ((s.endFill i none).ring i).runState = .ending ∧ ((s.endFill i none).ring i).fillSub = .closed ∧
    ((s.endFill i none).ring i).fillTimer = none ∧
    (s.endFill i none).hold = s.hold.filter (fun h => !(h.reason == .fillWait i)) ∧
    (s.endFill i none).sent = s.sent ++ (s.hold.filter fun h => h.reason == .fillWait i).map fun h => errorAnswer h.request := by
  obtain ⟨hold, _, sent, _⟩ := State.answerHeld_frame (fun h => h.reason == .fillWait i) .fillClosed i (s.modRing i Ring.endFill)
  have ring := State.ring_closeFill i s
  obtain ⟨stays, releases⟩ := State.endFill_cases i s
  by_cases retained : ((s.closeFill i).ring i).drainSub = .retained ∧ ((s.closeFill i).ring i).ready = []
  · have closed : ((s.closeFill i).ring i).fillSub = .closed := by rw [ring]; rfl
    obtain ⟨_, _, side⟩ := State.stays_releaseSlot i (s.closeFill i) closed
    obtain ⟨run, timer⟩ := (State.releaseSlot_runState i (s.closeFill i)).resolve_right (fun no => no closed)
    obtain ⟨sent', hold'⟩ := State.releaseSlot_sent i (s.closeFill i)
    rw [releases retained]
    exact ⟨run.trans (by rw [ring]; rfl), side.trans closed, timer.trans (by rw [ring]; rfl), hold'.trans hold, sent'.trans sent⟩
  · rw [stays retained, State.ring_askReexam, ring]
    exact ⟨rfl, rfl, rfl, hold, sent⟩

theorem State.stopRing_of_running {i : RingId} {s : State} (running : (s.ring i).runState = .running) : s.stopRing i =
    (((((s.stopFillSlot i).endFill i none).reexamine).testEnding i).finish, .accepted) := if_neg (by simp [running])

/-- Settles O41: the fill slot's three cases, then the end of the fill with its release. -/
theorem stopEndsTheFill : Obligations.StopEndsTheFill := by
  intro i s takes running r picked taken
  have hold : (taken.stopFillSlot i).hold = s.hold := State.hold_stopFillSlot i taken
  obtain ⟨other, empty, frame⟩ := State.stopFillSlot_cases i taken
  have returned {k : SlotId} (filling : r.fillSub = .filling) (none : r.fillBytes = 0) (slot : r.fillSlot = some k) :=
    (empty filling none).trans (congrArg (taken.setRing i) (Ring.returnFillSlot_of_fillSlot slot))
  obtain ⟨stays, releases⟩ := State.endFill_cases i (taken.stopFillSlot i)
  have closed : (((taken.stopFillSlot i).closeFill i).ring i).fillSub = .closed := by rw [State.ring_closeFill]; rfl
  obtain ⟨run, side, timer, queue, sent⟩ := State.endFill_facts i (taken.stopFillSlot i)
  rw [hold] at queue sent
  refine ⟨taken.stopFillSlot i, (taken.stopFillSlot i).closeFill i, (taken.stopFillSlot i).endFill i none, ?_, other,
    fun k filling none slot => returned filling none slot, fun k filling bytes slot => ?_, ?_, stays,
    fun d retained ready slot => ⟨fun busy => ?_, fun idle absent => ?_⟩, run, side, timer, queue, ⟨_, sent.symm⟩,
    fun k filling bytes slot => ?_, fun k filling none slot notRetained => ?_⟩
  · have result : State.result ((((taken.stopFillSlot i).endFill i none).reexamine).testEnding i).finish = s.result :=
      (State.flow_finish _).result.trans (State.flow_stop i taken running).result
    exact congrArg Host.Outcome.next (State.command_accepted takes (State.stopRing_of_running running) result)
  · rw [frame filling bytes]
    unfold State.countClose
    rw [State.closeSlot_of_fillSlot (s := taken) .stop slot, funext Ring.spendBudget_eq]
    rfl
  · rw [State.closeFill_eq, hold]
  · obtain ⟨kept, _⟩ := State.releaseSlot_of_closed slot closed ready
    rw [releases ⟨retained, ready⟩, kept busy, Ring.release_eq]
    rfl
  · obtain ⟨_, freed⟩ := State.releaseSlot_of_closed slot closed ready
    rw [releases ⟨retained, ready⟩, freed idle, Ring.freeReleased_release absent]
    rfl
  · obtain ⟨record, _⟩ := State.closeSlot_facts i k .stop taken slot
    have spent := (State.steady_modRing i Ring.spendBudget (taken.closeSlot i .stop) (Ring.inner_spendBudget _)).rings i
    obtain ⟨ended, _⟩ := State.stays_endFill i none (taken.stopFillSlot i)
    rw [frame filling bytes] at ended ⊢
    exact Ring.closedAs_of_frames (spent.frames.trans ended) record
  · have ring := State.ring_closeFill i (taken.stopFillSlot i)
    rw [returned filling none slot, State.ring_setRing_self] at ring
    rw [stays fun ⟨retained, _⟩ => notRetained ?_, State.ring_askReexam, returned filling none slot, ring]
    · refine ⟨rfl, ?_, rfl, rfl⟩
      simp [Ring.slot, Ring.endFill]
    · rw [returned filling none slot, ring] at retained
      exact retained

end Sys2Proof.Machine
end

section
/-! PROOFS. Re-examination: a held entry visited at its place in the queue, what its departure brings, and the walks (09 R151). -/

namespace Sys2Proof.Machine

/-! ### Walks -/

theorem State.walks_of_rested {n : Nat} {s : State} (asked : s.calm.walk.reexamAsked = false)
    (changed : s.calm.walk.walkChanged = false) : State.walks (n + 1) s = s.calm.walk := by
  unfold State.walks
  dsimp only
  rw [asked, changed, if_neg (by decide)]

theorem State.walks_of_changed {n : Nat} {s : State}
    (again : s.calm.walk.reexamAsked = true ∨ s.calm.walk.walkChanged = true) :
    State.walks (n + 1) s = State.walks n s.calm.walk := by
  rw [State.walks, if_pos (by simpa using again)]

/-- Walks follow one another until one changes nothing; `walk m` is what walk number m leaves. -/
theorem State.walks_of_sequence {n bound : Nat} {s : State} {walk : Nat → State} (room : n < bound) (first : walk 0 = s.calm.walk)
    (next : ∀ m < n, ((walk m).reexamAsked = true ∨ (walk m).walkChanged = true) ∧ walk (m + 1) = (walk m).calm.walk)
    (asked : (walk n).reexamAsked = false) (changed : (walk n).walkChanged = false) : State.walks bound s = walk n := by
  induction n generalizing bound s walk with
  | zero =>
    obtain ⟨bound, rfl⟩ := Nat.exists_eq_succ_of_ne_zero (Nat.ne_of_gt room)
    rw [first] at asked changed ⊢
    exact State.walks_of_rested asked changed
  | succ n ih =>
    obtain ⟨bound, rfl⟩ := Nat.exists_eq_succ_of_ne_zero (Nat.ne_of_gt (Nat.zero_lt_of_lt room))
    obtain ⟨again, second⟩ := next 0 (Nat.zero_lt_succ n)
    rw [first] at again second
    rw [State.walks_of_changed again]
    exact ih (walk := fun m => walk (m + 1)) (Nat.lt_of_succ_lt_succ room) second
      (fun m below => next (m + 1) (Nat.succ_lt_succ below)) asked changed

theorem State.walk_of_empty {s : State} (empty : s.hold = []) : s.walk = s := by
  unfold State.walk
  rw [empty]
  rfl

theorem exec_reExamination (s : State) :
    exec .reExamination s = .next (if s.resetLow then s.fresh else s.fresh.askReexam.finish) := rfl

/-- RE_EXAMINATION where nothing else is left to do: the walks, from the state as it is (09 R151). -/
theorem exec_reExamination_of_quiet {s : State} (high : s.resetLow = false) (quiet : s.quiet = true) (none : s.waiting = []) :
    exec .reExamination s = .next (State.walks 1024 s.fresh.askReexam) := by
  obtain ⟨_, _, granted, _⟩ := State.quiet_flags quiet
  have settled : s.fresh.askReexam.grantRecords = s.fresh.askReexam := State.grantRecords_of_granted s.fresh.askReexam granted
  rw [exec_reExamination, high, if_neg (by decide), State.finish_of_noWaiting (s := s.fresh.askReexam) none, settled]
  rfl

theorem State.calm_askReexam {s : State} (quiet : s.quiet = true) : s.fresh.askReexam.calm = s.fresh := by
  obtain ⟨asked, changed, _, _⟩ := State.quiet_flags quiet
  exact State.calm_of_calm (s := s.fresh) asked changed

/-! ### A held entry at its place -/

theorem State.visit_of_absent {k : Nat} {s : State} (absent : ∀ h ∈ s.hold, h.order ≠ k) : s.visit k = s := by
  have none : s.held? k = none := List.find?_eq_none.mpr fun h member => by simpa using absent h member
  unfold State.visit
  rw [none]

theorem State.blocked_iff (h : Held) (s : State) :
    s.blocked h = true ↔ ∃ g ∈ s.hold, g.order < h.order ∧ g.request.initiator = h.request.initiator := by
  simp [State.blocked]

theorem State.mayIssue_held_of_free {k : Nat} {t : DownTag} {s : State} (noOffer : s.anyOffer = false) (free : s.freeTag? = some t) :
    s.mayIssue (some k) = some t := by
  rw [State.mayIssue_held, noOffer]
  exact free

theorem State.mayIssue_held_of_none {k : Nat} {s : State} (noEntry : s.anyOffer = true ∨ s.freeTag? = none) :
    s.mayIssue (some k) = none := by
  rw [State.mayIssue_held]
  split
  · rfl
  · next noOffer => exact noEntry.resolve_left noOffer

/-- The fill side of ring i after the departure of an entry with a reason: without its wait when that was the last (02 R19). -/
def Ring.fillDeparted (reason : Reason) (i : RingId) (left : List Held) (r : Ring) : Ring :=
  if reason = .fillWait i ∧ r.fillSub = .waiting ∧ ∀ g ∈ left, g.reason ≠ .fillWait i then r.emptyFill else r

/-- The drain side of ring i after the departure of an entry with a reason: without its wait when that was the last (03 R46). -/
def Ring.drainDeparted (reason : Reason) (i : RingId) (left : List Held) (r : Ring) : Ring :=
  if reason = .drainWait i ∧ r.drainSub = .waiting ∧ ∀ g ∈ left, g.reason ≠ .drainWait i then r.endDrainWait else r

theorem State.afterDeparture_fill {reason : Reason} (i : RingId) (s : State)
    (known : reason = .table ∨ reason = .order ∨ reason = .fillWait i) :
    s.afterDeparture reason = s.setRing i ((s.ring i).fillDeparted reason i s.hold) := by
  unfold Ring.fillDeparted
  rcases known with rfl | rfl | rfl
  · rw [if_neg (by simp), State.setRing_ring]; rfl
  · rw [if_neg (by simp), State.setRing_ring]; rfl
  · have last : (!s.anyFillWait i && (s.ring i).fillSub == .waiting) = true ↔
        Reason.fillWait i = .fillWait i ∧ (s.ring i).fillSub = .waiting ∧ ∀ g ∈ s.hold, g.reason ≠ .fillWait i := by
      simp [State.anyFillWait, and_comm]
    unfold State.afterDeparture
    dsimp only
    by_cases ends : (!s.anyFillWait i && (s.ring i).fillSub == .waiting) = true
    · rw [if_pos ends, if_pos (last.mp ends)]; rfl
    · rw [if_neg ends, if_neg (fun e => ends (last.mpr e)), State.setRing_ring]

theorem State.afterDeparture_drain {reason : Reason} (i : RingId) (s : State)
    (known : reason = .table ∨ reason = .order ∨ reason = .drainWait i) :
    let left := s.setRing i ((s.ring i).drainDeparted reason i s.hold)
    s.afterDeparture reason = if reason = .drainWait i then left.testEnding i else left := by
  unfold Ring.drainDeparted
  dsimp only
  rcases known with rfl | rfl | rfl
  · rw [if_neg (by simp), if_neg (by simp), State.setRing_ring]; rfl
  · rw [if_neg (by simp), if_neg (by simp), State.setRing_ring]; rfl
  · have last : (!s.anyDrainWait i && (s.ring i).drainSub == .waiting) = true ↔
        Reason.drainWait i = .drainWait i ∧ (s.ring i).drainSub = .waiting ∧ ∀ g ∈ s.hold, g.reason ≠ .drainWait i := by
      simp [State.anyDrainWait, and_comm]
    unfold State.afterDeparture
    dsimp only
    rw [if_pos rfl]
    by_cases ends : (!s.anyDrainWait i && (s.ring i).drainSub == .waiting) = true
    · rw [if_pos ends, if_pos (last.mp ends)]; rfl
    · rw [if_neg ends, if_neg (fun e => ends (last.mpr e)), State.setRing_ring]

section
variable {front back : List Held} {h : Held} {s : State} (split : s.hold = front ++ h :: back)
  (before : ∀ g ∈ front, g.order ≠ h.order) (behind : ∀ g ∈ back, g.order ≠ h.order)
include split before

theorem State.visit_of_older (older : ∃ g ∈ s.hold, g.order < h.order ∧ g.request.initiator = h.request.initiator) :
    s.visit h.order = s.setReason h.order .order := by
  unfold State.visit
  rw [State.held?_at split before]
  exact if_pos ((State.blocked_iff h s).mpr older)

section
variable (oldest : ¬ ∃ g ∈ s.hold, g.order < h.order ∧ g.request.initiator = h.request.initiator)
include oldest

theorem State.visit_of_done {u : State} (decoded : s.decode (some h.order) h.request = (u, .done)) : s.visit h.order = u := by
  unfold State.visit
  rw [State.held?_at split before]
  dsimp only
  rw [if_neg (fun blocked => oldest ((State.blocked_iff h s).mp blocked)), decoded]

theorem State.visit_of_hold {u : State} {reason : Reason} (decoded : s.decode (some h.order) h.request = (u, .hold reason)) :
    s.visit h.order = u.setReason h.order reason := by
  unfold State.visit
  rw [State.held?_at split before]
  dsimp only
  rw [if_neg (fun blocked => oldest ((State.blocked_iff h s).mp blocked)), decoded]

end

include behind

/-- The departure of a held entry that the fill side decided (09 R148, 02 R19). -/
theorem State.leave_fill (i : RingId) (known : h.reason = .table ∨ h.reason = .order ∨ h.reason = .fillWait i) :
    s.leave (some h.order) = State.setRing i ((s.ring i).fillDeparted h.reason i (front ++ back))
      { s with hold := front ++ back, walkChanged := true } := by
  rw [State.leave_at split before behind]
  exact State.afterDeparture_fill i { s with hold := front ++ back, walkChanged := true } known

/-- The departure of a held entry that the drain side decided (09 R148, 03 R46, 06 R110). -/
theorem State.leave_drain (i : RingId) (known : h.reason = .table ∨ h.reason = .order ∨ h.reason = .drainWait i) :
    let left := State.setRing i ((s.ring i).drainDeparted h.reason i (front ++ back))
      { s with hold := front ++ back, walkChanged := true }
    s.leave (some h.order) = if h.reason = .drainWait i then left.testEnding i else left := by
  rw [State.leave_at split before behind]
  exact State.afterDeparture_drain i { s with hold := front ++ back, walkChanged := true } known

end

/-! ### Requests that a held entry issues -/

/-- The state with a write issued into slot k at entry t, and counted (02 R24, R26, 01 R5). -/
def State.issueWrite (i : RingId) (k : SlotId) (t : DownTag) (q : Request) (s : State) : State :=
  let r := s.ring i
  { s with
    sent := s.sent ++
      [.downstream ⟨t, q.initiator, q.tag, BitVec.ofNat 40 ((r.slot k).base.toNat + r.fillOffset q), q.payload⟩]
    table := s.table.set t (some (.fill i k q.initiator q.tag))
    rings := s.rings.set i { r with
      slots := r.slots.set k { r.slot k with outstanding := (r.slot k).outstanding + 1 }
      fillBytes := r.fillBytes + q.payload.length
      fillCursor := if r.active.fillStreamed then r.fillCursor + q.payload.length + r.active.fillGap.toNat else r.fillCursor
      highMark := if r.active.fillStreamed then r.fillCursor + q.payload.length
        else max r.highMark (r.fillOffset q + q.payload.length) } }

theorem State.issueWrite_eq (i : RingId) (k : SlotId) (t : DownTag) (q : Request) (s : State) :
    s.issueWrite i k t q = ((s.grant t (.fill i k q.initiator q.tag)).sendDown
      ⟨t, q.initiator, q.tag, translate ((s.ring i).slot k).base ((s.ring i).fillOffset q), q.payload⟩).modRing i
        (Ring.acceptWrite q k) := by
  unfold State.modRing
  rw [Ring.acceptWrite_eq]
  rfl

/-- The close check that follows the write goes its three ways (02 R28). -/
theorem State.acceptFill_cases (i : RingId) (k : SlotId) (t : DownTag) (q : Request) (s : State) :
    let r := s.ring i
    let cursor := if r.active.fillStreamed then r.fillCursor + q.payload.length + r.active.fillGap.toNat else r.fillCursor
    let atLimit := r.active.closeOnLimit = true ∧ r.active.closeLimit.toNat ≤ r.fillBytes + q.payload.length
    let atEnd := r.active.fillStreamed = true ∧ r.active.slotSize.toNat ≤ cursor
    (¬ atLimit → ¬ atEnd → s.acceptFill none i k t q = s.issueWrite i k t q) ∧
    (atLimit → s.acceptFill none i k t q = (s.issueWrite i k t q).closeFrame i .limit none) ∧
    (¬ atLimit → atEnd → s.acceptFill none i k t q = (s.issueWrite i k t q).closeFrame i .full none) := by
  have whole : s.acceptFill none i k t q = (s.issueWrite i k t q).limitClose i :=
    congrArg (State.limitClose i) (State.issueWrite_eq i k t q s).symm
  have check := State.limitClose_cases i (s.issueWrite i k t q)
  rw [State.ring_of_rings_set s (s.issueWrite i k t q) i _ rfl, ← whole] at check
  exact check

/-- The state with a read issued from slot d at entry t, and counted (03 R52, R53, 01 R5). -/
def State.issueRead (i : RingId) (d : SlotId) (t : DownTag) (q : Request) (s : State) : State :=
  let r := s.ring i
  { s with
    sent := s.sent ++
      [.downstream ⟨t, q.initiator, q.tag, BitVec.ofNat 40 ((r.slot d).base.toNat + r.drainOffset q), q.payload⟩]
    table := s.table.set t (some (.drain i d q.initiator q.tag))
    rings := s.rings.set i { r with
      slots := r.slots.set d { r.slot d with outstanding := (r.slot d).outstanding + 1 }
      bytesRead := min (r.bytesRead + q.payload.length) 0xFFFFFFFF
      drainCursor := if r.active.drainStreamed then r.drainCursor + q.payload.length + r.active.drainGap.toNat
        else r.drainCursor } }

theorem State.issueRead_eq (i : RingId) (d : SlotId) (t : DownTag) (q : Request) (s : State) :
    s.issueRead i d t q = ((s.grant t (.drain i d q.initiator q.tag)).sendDown
      ⟨t, q.initiator, q.tag, translate ((s.ring i).slot d).base ((s.ring i).drainOffset q), q.payload⟩).modRing i
        (Ring.acceptRead q d) := by
  unfold State.modRing
  rw [Ring.acceptRead_eq]
  rfl

/-- The release check that follows the read goes its two ways (03 R55). -/
theorem State.acceptDrain_cases (i : RingId) (d : SlotId) (t : DownTag) (q : Request) (s : State) :
    let r := s.ring i
    let cursor := if r.active.drainStreamed then r.drainCursor + q.payload.length + r.active.drainGap.toNat else r.drainCursor
    let bytes := min (r.bytesRead + q.payload.length) 0xFFFFFFFF
    let atLimit := r.active.releaseOnLimit = true ∧
      (r.slot d).fillLength ≤ (if r.active.drainStreamed then cursor else bytes)
    (¬ atLimit → s.acceptDrain none i d t q = s.issueRead i d t q) ∧
    (atLimit → s.acceptDrain none i d t q = (s.issueRead i d t q).trigger i) := by
  have whole : s.acceptDrain none i d t q = (s.issueRead i d t q).limitRelease i d :=
    congrArg (State.limitRelease i d) (State.issueRead_eq i d t q s).symm
  have ring : (s.issueRead i d t q).ring i = _ := State.ring_of_rings_set s (s.issueRead i d t q) i _ rfl
  have length : (((s.issueRead i d t q).ring i).slot d).fillLength = ((s.ring i).slot d).fillLength := by
    rw [ring]; simp [Ring.slot]
  have check := State.limitRelease_cases i d (s.issueRead i d t q)
  dsimp only at check
  rw [length, ring, ← whole] at check
  exact check

/-! ### The departure that an answer or an issue brings -/

theorem Ring.fillDeparted_of_notWaiting {reason : Reason} {i : RingId} {left : List Held} {r : Ring} (h : r.fillSub ≠ .waiting) :
    r.fillDeparted reason i left = r := if_neg fun ⟨_, waiting, _⟩ => h waiting

theorem Ring.drainDeparted_of_notWaiting {reason : Reason} {i : RingId} {left : List Held} {r : Ring} (h : r.drainSub ≠ .waiting) :
    r.drainDeparted reason i left = r := if_neg fun ⟨_, waiting, _⟩ => h waiting

theorem Ring.drainDeparted_keeps (reason : Reason) (i : RingId) (left : List Held) (r : Ring) :
    (r.drainDeparted reason i left).runState = r.runState ∧ (r.drainDeparted reason i left).ready = r.ready := by
  unfold Ring.drainDeparted
  split <;> exact ⟨rfl, rfl⟩

theorem Ring.patternAnswer_eq (r : Ring) : r.patternAnswer = { r with
    counters := { r.counters with patternReads := satInc r.counters.patternReads }
    underrunNoted := true
    attention := if r.underrunNoted then r.attention else addCause .underrun r.attention } := by
  unfold Ring.patternAnswer
  cases noted : r.underrunNoted
  · rfl
  · exact congrArg (fun b => { r.count .patternReads with underrunNoted := b }) noted

/-- An answer to a request that has left the queue, and one more change of the ring that the answer changed. -/
theorem State.setRing_answered (i : RingId) (f : Ring → Ring) (x : Ring) (left : List Held) (who : Initiator) (tag : UpTag)
    (status : Status) (data : Option (List Byte)) (s : State) :
    State.setRing i x { (s.modRing i f).respond who tag status data with hold := left, walkChanged := true } =
      State.setRing i x { s with
        hold := left
        walkChanged := true
        sent := s.sent ++ [.upstream ⟨who, tag, status, data⟩] } :=
  State.setRing_setRing i (f (s.ring i)) x { s with
    hold := left
    walkChanged := true
    sent := s.sent ++ [.upstream ⟨who, tag, status, data⟩] }

/-- A ring that is not a drained one in ENDING stays as it is at the completion test (06 R110). -/
theorem State.testEnding_of_goesOn {i : RingId} {s : State}
    (h : ¬ ((s.ring i).runState = .ending ∧ (s.ring i).ready = [] ∧ (s.ring i).drainSub = .empty)) : s.testEnding i = s := by
  refine if_neg fun done => h ?_
  obtain ⟨ending, _, ready, drain, _⟩ := (State.endingDone_iff i s).mp done
  exact ⟨ending, ready, drain⟩

section
variable {front back : List Held} {h : Held} {s : State} (split : s.hold = front ++ h :: back)
  (before : ∀ g ∈ front, g.order ≠ h.order) (behind : ∀ g ∈ back, g.order ≠ h.order)
include split before behind

/-- A held write is accepted as an arrival would be in the state that it has left. -/
theorem State.acceptFill_held {i : RingId} {k : SlotId} {t : DownTag} {q : Request} (filling : (s.ring i).fillSub = .filling)
    (known : h.reason = .table ∨ h.reason = .order ∨ h.reason = .fillWait i) : s.acceptFill (some h.order) i k t q =
      State.acceptFill none i k t q { s with hold := front ++ back, walkChanged := true } := by
  have placed := State.issueWrite_eq i k t q s
  have ring : (s.issueWrite i k t q).ring i = _ := State.ring_of_rings_set s (s.issueWrite i k t q) i _ rfl
  have side : ((s.issueWrite i k t q).ring i).fillSub ≠ .waiting := by rw [ring]; simp [filling]
  have left := State.leave_fill (s := s.issueWrite i k t q) split before behind i known
  rw [Ring.fillDeparted_of_notWaiting side, placed] at left
  refine congrArg (State.limitClose i) (left.trans ?_)
  exact State.setRing_ring i _

/-- A held read is accepted as an arrival would be in the state that it has left. -/
theorem State.acceptDrain_held {i : RingId} {d : SlotId} {t : DownTag} {q : Request} (has : (s.ring i).hasDrainSlot = true)
    (known : h.reason = .table ∨ h.reason = .order ∨ h.reason = .drainWait i) : s.acceptDrain (some h.order) i d t q =
      State.acceptDrain none i d t q { s with hold := front ++ back, walkChanged := true } := by
  have placed := State.issueRead_eq i d t q s
  have ring : (s.issueRead i d t q).ring i = _ := State.ring_of_rings_set s (s.issueRead i d t q) i _ rfl
  have side : ((s.issueRead i d t q).ring i).drainSub ≠ .waiting ∧ ((s.issueRead i d t q).ring i).drainSub ≠ .empty := by
    rw [ring]
    rcases (Ring.hasDrainSlot_iff _).mp has with e | e <;> simp [e]
  have left := State.leave_drain (s := s.issueRead i d t q) split before behind i known
  dsimp only at left
  rw [Ring.drainDeparted_of_notWaiting side.1, State.testEnding_of_goesOn, ite_self, placed] at left
  · refine congrArg (State.limitRelease i d) (left.trans ?_)
    exact State.setRing_ring i _
  · rw [State.ring_setRing_self]
    exact fun ⟨_, _, empty⟩ => side.2 empty

end

/-! ### Visits to a held entry that is the oldest of its initiator -/

section
variable {front back : List Held} {h : Held} {s : State} (split : s.hold = front ++ h :: back)
  (before : ∀ g ∈ front, g.order ≠ h.order) (behind : ∀ g ∈ back, g.order ≠ h.order)
  (oldest : ¬ ∃ g ∈ s.hold, g.order < h.order ∧ g.request.initiator = h.request.initiator)
include split before oldest

/-- A held write that reclaims the settled head: placed in its slot, or held TABLE (02 R39). -/
theorem State.visit_of_reclaim {i : RingId} (decides : s.fillDecides h.request i)
    (sub : (s.ring i).fillSub = .noSlot ∨ (s.ring i).fillSub = .waiting)
    (inside : (s.ring i).writeInside h.request) (policy : (s.ring i).active.overrun = 2) (head : (s.ring i).headSettled = true) :
    (∀ k t, ((s.reclaimHead i).ring i).fillSlot = some k → (s.reclaimHead i).anyOffer = false →
      (s.reclaimHead i).freeTag? = some t →
      s.visit h.order = (s.reclaimHead i).acceptFill (some h.order) i k t h.request) ∧
    ((s.reclaimHead i).anyOffer = true ∨ (s.reclaimHead i).freeTag? = none →
      s.visit h.order = (s.reclaimHead i).setReason h.order .table) := by
  have decided := (State.decode_eq_decideWrite (some h.order) decides).trans
    ((State.decideWrite_of_noSlot (some h.order) sub inside).trans (State.overrun_of_reclaim (some h.order) policy head))
  refine ⟨fun k t slot noOffer free => State.visit_of_done split before oldest ?_,
    fun noEntry => State.visit_of_hold split before oldest ?_⟩
  · exact decided.trans (State.placeWrite_of_entry (State.mayIssue_held_of_free noOffer free) slot)
  · exact decided.trans (State.placeWrite_of_noEntry (State.mayIssue_held_of_none noEntry))

/-- A held write that its WAITING side goes on holding under STALL (02 R37). -/
theorem State.visit_of_fillStall {i : RingId} (decides : s.fillDecides h.request i) (waiting : (s.ring i).fillSub = .waiting)
    (inside : (s.ring i).writeInside h.request) (policy : (s.ring i).active.overrun = 0) : s.visit h.order = s.setReason h.order (.fillWait i) := by
  have decided := (State.decode_eq_decideWrite (some h.order) decides).trans
    ((State.decideWrite_of_noSlot (some h.order) (Or.inr waiting) inside).trans
      (State.overrun_of_stall (some h.order) (Or.inl policy)))
  have stays : (s.ring i).fillStall = s.ring i := by rw [Ring.fillStall_eq, if_neg (by simp [waiting])]
  rw [State.modRing_eq_self i Ring.fillStall s stays] at decided
  exact State.visit_of_hold split before oldest decided

/-- A held read that its WAITING side goes on holding under STALL (03 R61). -/
theorem State.visit_of_drainStall {i : RingId} (decides : s.drainDecides h.request i) (waiting : (s.ring i).drainSub = .waiting)
    (inside : (s.ring i).readInside h.request) (goesOn : ¬ ((s.ring i).runState = .ending ∧ (s.ring i).ready = [])) (policy : (s.ring i).active.underrun = 0) :
    s.visit h.order = s.setReason h.order (.drainWait i) := by
  have none : (s.ring i).hasDrainSlot = false := by simp [Ring.hasDrainSlot, waiting]
  have decided := (State.decode_eq_decideRead (some h.order) decides).trans
    ((State.decideRead_of_underrun (some h.order) inside none goesOn).trans (State.underrun_of_stall (some h.order) policy))
  have stays : (s.ring i).drainStall = s.ring i := if_neg (by simp [waiting])
  rw [State.modRing_eq_self i Ring.drainStall s stays] at decided
  exact State.visit_of_hold split before oldest decided

include behind

/-- A pass-through request of a held entry: issued unchanged, or held TABLE (08 R141, 09 R151). -/
theorem State.visit_of_passThrough (outside : s.matchRequest h.request = .outside) (noGuard : s.guardRing? h.request = none) :
    (s.anyOffer = true ∨ s.freeTag? = none → s.visit h.order = s.setReason h.order .table) ∧
    ∀ t, s.anyOffer = false → s.freeTag? = some t → h.reason = .table ∨ h.reason = .order →
      s.visit h.order = { s with
        hold := front ++ back
        walkChanged := true
        sent := s.sent ++ [.downstream ⟨t, h.request.initiator, h.request.tag, h.request.addr, h.request.payload⟩]
        table := s.table.set t (some (.pass h.request.initiator h.request.tag (requestKind h.request))) } := by
  have decoded : s.decode (some h.order) h.request = s.passThrough (some h.order) h.request := by
    unfold State.decode State.decodeOutside
    rw [outside, noGuard]
  unfold State.passThrough at decoded
  refine ⟨fun noEntry => State.visit_of_hold split before oldest ?_, fun t noOffer free known => ?_⟩
  · rw [decoded, State.mayIssue_held_of_none noEntry]
  · rw [State.mayIssue_held_of_free noOffer free] at decoded
    rw [State.visit_of_done split before oldest decoded,
      State.leave_at (s := (s.grant t _).sendDown _) split before behind]
    rcases known with reason | reason <;> rw [reason] <;> rfl

section
variable {i : RingId} (decides : s.fillDecides h.request i)
include decides

/-- A held write that fits the FILLING slot: accepted, or held TABLE (02 R23, 09 R151). -/
theorem State.visit_of_fits {k : SlotId} (filling : (s.ring i).fillSub = .filling) (slot : (s.ring i).fillSlot = some k)
    (fits : (s.ring i).fillOffset h.request + h.request.payload.length ≤ (s.ring i).active.slotSize.toNat)
    (mapped : (s.ring i).active.fillStreamed = false →
      (s.ring i).fillBytes + h.request.payload.length ≤ (s.ring i).active.slotSize.toNat) :
    (s.anyOffer = true ∨ s.freeTag? = none → s.visit h.order = s.setReason h.order .table) ∧
    ∀ t, s.anyOffer = false → s.freeTag? = some t → h.reason = .table ∨ h.reason = .order ∨ h.reason = .fillWait i →
      s.visit h.order = State.acceptFill none i k t h.request { s with hold := front ++ back, walkChanged := true } := by
  have decided := (State.decode_eq_decideWrite (some h.order) decides).trans
    (State.decideWrite_eq_placeWrite (some h.order) filling fits mapped)
  refine ⟨fun noEntry => State.visit_of_hold split before oldest ?_, fun t noOffer free known => ?_⟩
  · exact decided.trans (State.placeWrite_of_noEntry (State.mayIssue_held_of_none noEntry))
  · rw [State.visit_of_done split before oldest
      (decided.trans (State.placeWrite_of_entry (State.mayIssue_held_of_free noOffer free) slot))]
    exact State.acceptFill_held split before behind filling known

/-- A held write that meets DROP (02 R38). -/
theorem State.visit_of_drop (sub : (s.ring i).fillSub = .noSlot ∨ (s.ring i).fillSub = .waiting)
    (inside : (s.ring i).writeInside h.request) (policy : (s.ring i).active.overrun = 1)
    (known : h.reason = .table ∨ h.reason = .order ∨ h.reason = .fillWait i) :
    s.visit h.order = State.setRing i ((s.ring i).dropWrite.fillDeparted h.reason i (front ++ back)) { s with
      hold := front ++ back
      walkChanged := true
      sent := s.sent ++ [.upstream ⟨h.request.initiator, h.request.tag, .okay, none⟩] } := by
  have decided := (State.decode_eq_decideWrite (some h.order) decides).trans
    ((State.decideWrite_of_noSlot (some h.order) sub inside).trans (State.overrun_of_drop (some h.order) policy))
  rw [State.visit_of_done split before oldest decided,
    State.leave_fill (s := (s.modRing i Ring.dropWrite).respond _ _ .okay none) split before behind i known,
    State.ring_respond, State.ring_modRing_self]
  exact State.setRing_answered i _ _ _ _ _ _ _ s

end

section
variable {i : RingId} (decides : s.drainDecides h.request i)
include decides

/-- A held read that the drain slot serves: accepted, or held TABLE (03 R51, 09 R151). -/
theorem State.visit_of_serves {d : SlotId} (has : (s.ring i).hasDrainSlot = true) (slot : (s.ring i).drainSlot = some d)
    (fits : (s.ring i).drainOffset h.request + h.request.payload.length ≤ (s.ring i).active.slotSize.toNat) :
    (s.anyOffer = true ∨ s.freeTag? = none → s.visit h.order = s.setReason h.order .table) ∧
    ∀ t, s.anyOffer = false → s.freeTag? = some t → h.reason = .table ∨ h.reason = .order ∨ h.reason = .drainWait i →
      s.visit h.order = State.acceptDrain none i d t h.request { s with hold := front ++ back, walkChanged := true } := by
  have decided := State.decode_eq_decideRead (some h.order) decides
  obtain ⟨placed, holds⟩ := State.decideRead_of_fits (some h.order) has slot fits
  refine ⟨fun noEntry => State.visit_of_hold split before oldest ?_, fun t noOffer free known => ?_⟩
  · exact decided.trans (holds (State.mayIssue_held_of_none noEntry))
  · rw [State.visit_of_done split before oldest (decided.trans (placed t (State.mayIssue_held_of_free noOffer free)))]
    exact State.acceptDrain_held split before behind has known

/-- A held read that a pattern answers (03 R62, R64). -/
theorem State.visit_of_pattern (none : (s.ring i).hasDrainSlot = false) (inside : (s.ring i).readInside h.request)
    (goesOn : ¬ ((s.ring i).runState = .ending ∧ (s.ring i).ready = []))
    (policy : (s.ring i).active.underrun = 1 ∨ (s.ring i).active.underrun = 2)
    (known : h.reason = .table ∨ h.reason = .order ∨ h.reason = .drainWait i) :
    s.visit h.order = State.setRing i ((s.ring i).patternAnswer.drainDeparted h.reason i (front ++ back)) { s with
      hold := front ++ back
      walkChanged := true
      sent := s.sent ++ [.upstream ⟨h.request.initiator, h.request.tag, .okay,
        some (patternData (s.ring i).active.pattern h.request.addr h.request.payload.length)⟩] } := by
  have decided := (State.decode_eq_decideRead (some h.order) decides).trans
    ((State.decideRead_of_underrun (some h.order) inside none goesOn).trans (State.underrun_of_pattern (some h.order) policy))
  have left := State.leave_drain (s := (s.modRing i Ring.patternAnswer).respond h.request.initiator h.request.tag .okay
    (some (patternData (s.ring i).active.pattern h.request.addr h.request.payload.length))) split before behind i known
  dsimp only at left
  rw [State.testEnding_of_goesOn, ite_self, State.ring_respond, State.ring_modRing_self] at left
  · rw [State.visit_of_done split before oldest decided, left]
    exact State.setRing_answered i _ _ _ _ _ _ _ s
  · obtain ⟨run, ready⟩ := Ring.drainDeparted_keeps h.reason i (front ++ back) (s.ring i).patternAnswer
    rw [State.ring_setRing_self, State.ring_respond, State.ring_modRing_self, run, ready, Ring.patternAnswer_eq]
    exact fun ⟨ending, empty, _⟩ => goesOn ⟨ending, empty⟩

/-- A held read of a drained ring in ENDING (03 R65). -/
theorem State.visit_of_drained (none : (s.ring i).hasDrainSlot = false) (inside : (s.ring i).readInside h.request)
    (ending : (s.ring i).runState = .ending) (empty : (s.ring i).ready = [])
    (known : h.reason = .table ∨ h.reason = .order ∨ h.reason = .drainWait i) :
    let left : State := { s.refuse h.request .ringEnding i with
      hold := front ++ back
      walkChanged := true
      rings := s.rings.set i ((s.ring i).drainDeparted h.reason i (front ++ back)) }
    s.visit h.order = if h.reason = .drainWait i then left.testEnding i else left := by
  have decided := (State.decode_eq_decideRead (some h.order) decides).trans
    (State.decideRead_of_drained (some h.order) inside none ending empty)
  obtain ⟨hold, rings, _⟩ := State.refuse_frame h.request .ringEnding i s
  have ring : (s.refuse h.request .ringEnding i).ring i = s.ring i := congrArg (·[i]) rings
  have left := State.leave_drain (s := s.refuse h.request .ringEnding i) (hold.trans split) before behind i known
  unfold State.setRing at left
  rw [ring, rings] at left
  exact (State.visit_of_done split before oldest decided).trans left

end

end

/-! ### The command -/

/-- RE_EXAMINATION with a single held request, which passes through (08 R141, 09 R151). -/
theorem exec_reExamination_of_passThrough {h : Held} {t : DownTag} {s : State} (high : s.resetLow = false)
    (quiet : s.quiet = true) (noneWaits : s.waiting = []) (only : s.hold = [h]) (reason : h.reason = .table) (outside : s.matchRequest h.request = .outside)
    (noGuard : s.guardRing? h.request = .none) (noOffer : s.anyOffer = false) (free : s.freeTag? = some t) :
    exec .reExamination s = .next { s with
      sent := [.downstream ⟨t, h.request.initiator, h.request.tag, h.request.addr, h.request.payload⟩]
      table := s.table.set t (some (.pass h.request.initiator h.request.tag (requestKind h.request)))
      hold := [] } := by
  obtain ⟨asked, changed, _, _⟩ := State.quiet_flags quiet
  have oldest : ¬ ∃ g ∈ s.hold, g.order < h.order ∧ g.request.initiator = h.request.initiator := by
    rintro ⟨g, member, older, _⟩
    obtain rfl := List.mem_singleton.mp (only ▸ member)
    exact Nat.lt_irrefl _ older
  obtain ⟨_, issues⟩ := State.visit_of_passThrough (s := s.fresh) (front := []) (back := []) only nofun nofun oldest outside noGuard
  have visited := issues t noOffer free (Or.inl reason)
  have walked : s.fresh.askReexam.calm.walk = s.fresh.visit h.order := by
    have one : s.fresh.walk = (s.fresh.visit h.order).grantRecords :=
      congrArg (fun held => (held.map Held.order).foldl (fun t k => (t.visit k).grantRecords) s.fresh) only
    rw [State.calm_askReexam quiet, one, State.grantRecords_of_noOffer]
    rw [visited]; exact noOffer
  have rests : (s.fresh.visit h.order).calm.walk = (s.fresh.visit h.order).calm :=
    State.walk_of_empty (by rw [visited]; rfl)
  rw [exec_reExamination_of_quiet high quiet noneWaits, State.walks_of_changed, walked, State.walks_of_rested, rests, visited]
  · refine congrArg Host.Outcome.next (Eq.symm ?_)
    refine (State.calm_of_calm ?_ ?_).symm.trans ?_
    · exact asked
    · exact changed
    · rfl
  · rw [rests]; rfl
  · rw [rests]; rfl
  · rw [walked, visited]; exact Or.inr rfl

/-- Settles O48: the command is its walks, and each visit goes by what the decode comes to. -/
theorem reExaminationIssuesHeldRequest : Obligations.ReExaminationIssuesHeldRequest := by
  refine ⟨fun s => ⟨fun low => ?_, fun high => ?_, fun high quiet none empty => ?_, ?_⟩, ?_, fun s => rfl,
    fun k s absent => State.visit_of_absent absent, ?_⟩
  -- The command: in reset, out of reset, with nothing held, with one pass-through request, as a sequence of walks.
  · rw [exec_reExamination, if_pos low]
    rfl
  · rw [exec_reExamination, if_neg (by simp [high])]
    rfl
  · obtain ⟨asked, changed, _, _⟩ := State.quiet_flags quiet
    have walk : s.fresh.askReexam.calm.walk = s.fresh := by
      rw [State.calm_askReexam quiet, State.walk_of_empty (s := s.fresh) empty]
    rw [exec_reExamination_of_quiet high quiet none, State.walks_of_rested, walk]
    · rfl
    · rw [walk]; exact asked
    · rw [walk]; exact changed
  · intro h t high quiet none only reason outside noGuard noOffer free
    exact exec_reExamination_of_passThrough high quiet none only reason outside noGuard noOffer free
  · intro s n seq high quiet none room first next asked changed
    rw [exec_reExamination_of_quiet high quiet none]
    refine congrArg Host.Outcome.next (State.walks_of_sequence room ?_ next asked changed)
    rw [first, State.calm_askReexam quiet]
    rfl
  -- The visit: behind an older request, or by the decode of a pass-through, a fill or a drain request.
  · intro front back h s split before behind q n keeps left older last
    have kept (reason : Reason) (visit : s.visit h.order = s.setReason h.order reason) : keeps s reason :=
      visit.trans (State.setReason_at split before behind reason)
    refine ⟨fun some => kept .order (State.visit_of_older split before some), fun oldest => ?_⟩
    refine ⟨fun u => State.visit_of_done split before oldest, fun u reason => State.visit_of_hold split before oldest,
      fun t outside noGuard noOffer free known => ?_, fun outside noGuard noEntry => ?_, fun i => ?_⟩
    · obtain ⟨_, issues⟩ := State.visit_of_passThrough split before behind oldest outside noGuard
      exact issues t noOffer free known
    · obtain ⟨holds, _⟩ := State.visit_of_passThrough split before behind oldest outside noGuard
      exact kept .table (holds noEntry)
    · refine ⟨?_, ?_, ?_, ?_, ?_, ?_⟩
      · intro k decides filling slot streamed offset cursor fits mapped accepted atLimit atEnd
        obtain ⟨holds, places⟩ := State.visit_of_fits split before behind oldest decides filling slot fits mapped
        refine ⟨fun noEntry => kept .table (holds noEntry), fun t noOffer free known => ?_⟩
        exact places t noOffer free known ▸ State.acceptFill_cases i k t q left
      · intro d decides has slot streamed offset cursor bytes fits accepted atLimit
        obtain ⟨holds, places⟩ := State.visit_of_serves split before behind oldest decides has slot fits
        refine ⟨fun noEntry => kept .table (holds noEntry), fun t noOffer free known => ?_⟩
        exact places t noOffer free known ▸ State.acceptDrain_cases i d t q left
      · intro decides sub inside
        refine ⟨fun drop known => ?_, fun reclaim head => ?_⟩
        · exact State.visit_of_drop split before behind oldest decides sub inside drop known
        · exact State.visit_of_reclaim split before oldest decides sub inside reclaim head
      · intro decides none inside known ends
        refine ⟨fun goesOn policy => ?_, fun ending empty => ?_⟩
        · refine (State.visit_of_pattern split before behind oldest decides none inside goesOn policy known).trans ?_
          rw [Ring.patternAnswer_eq]
          rfl
        · exact State.visit_of_drained split before behind oldest decides none inside ending empty known
      · intro decides waiting policy inside
        exact kept _ (State.visit_of_fillStall split before oldest decides waiting inside policy)
      · intro decides waiting policy goesOn inside
        exact kept _ (State.visit_of_drainStall split before oldest decides waiting inside goesOn policy)

end Sys2Proof.Machine
end

section
/-! PROOFS. A read that arrives without a drain slot: the answer under PATTERN and REPEAT, the hold under STALL (03 R61 to R63, 07
R125). -/

namespace Sys2Proof.Machine

/-- The change from EMPTY to WAITING is one update of the ring (03 R61, 07 R125). -/
theorem Ring.drainStall_eq (r : Ring) : r.drainStall = if r.drainSub = .empty then { r with
      drainSub := .waiting
      drainTimer := if r.active.stallTimeout = 0 then none else some r.active.stallTimeout.toNat
      attention := addCause .underrun r.attention }
    else r := by
  unfold Ring.drainStall
  simp only [beq_iff_eq]
  rfl

theorem Ring.offers_drainStall (r : Ring) : r.drainStall.offers = r.offers := by
  rw [Ring.drainStall_eq]
  split <;> rfl

theorem Ring.offers_patternAnswer (r : Ring) : r.patternAnswer.offers = r.offers := by
  rw [Ring.patternAnswer_eq]
  rfl

/-- Settles O23: the policy decides, and neither answer nor hold leaves anything to do. -/
theorem underrunAnswersOrHolds : Obligations.UnderrunAnswersOrHolds := by
  intro q i s now decides r noSlot goesOn inside
  have meets : s.fresh.decode none q = s.fresh.underrun none i q := by
    rw [State.decode_of_drainDecides decides, State.decideRead_of_underrun (s := s.fresh) none inside noSlot goesOn]
  refine ⟨fun answers => ?_, fun stall => ?_⟩
  · rw [State.underrun_of_pattern (s := s.fresh) none answers] at meets
    rw [← Ring.patternAnswer_eq]
    refine exec_upstreamRequest_of_decodeArrival now ?_ rfl rfl (State.granted_set now rfl rfl (Ring.offers_patternAnswer r)) rfl
    unfold State.decodeArrival
    rw [meets]
    rfl
  · rw [State.underrun_of_stall (s := s.fresh) none stall] at meets
    rw [← Ring.drainStall_eq]
    exact exec_upstreamRequest_of_hold now meets rfl rfl (State.granted_set now rfl rfl (Ring.offers_drainStall r)) rfl

end Sys2Proof.Machine
end

section
/-! PROOFS. The record writer: the response to a record (04 R78 to R80) and the grant of the record tier (04 R74, R77, 09 R155). -/

namespace Sys2Proof.Machine

/-! ### The response to a record -/

/-- The owner's handling of a response to a RECORD entry, by its kind. `noted` is what the STATUS makes of the ring (04 R78 to
R80). -/
theorem State.recordResponse_eq {s : State} {i : RingId} {status : Status} {noted : Ring} (k : SlotId)
    (okay : status = .okay → noted = s.ring i) (error : status = .error → noted = (s.ring i).noteRecordError) :
    s.recordResponse i k .reclaim status = s.setRing i noted ∧
    s.recordResponse i k .close status = (s.setRing i (noted.markAnswered k)).settleRing i := by
  cases status with
  | okay =>
    rw [okay rfl, State.setRing_ring]
    exact ⟨rfl, rfl⟩
  | error =>
    rw [error rfl]
    exact ⟨rfl, congrArg (State.settleRing i) (State.modRing_setRing i _ (Ring.markAnswered k) s)⟩

/-- Settles O27: the event of a response to an entry in use, with the owner's handling of its kind. -/
theorem recordResponseIsHandled : Obligations.RecordResponseIsHandled := by
  intro t status bytes i k kind s len high inUse r noted at_ done
  have okay : status = .okay → noted = r := by rintro rfl; rfl
  have error : status = .error → noted = r.noteRecordError := by rintro rfl; rfl
  obtain ⟨reclaims, closes⟩ := State.recordResponse_eq (s := s.fresh.freeEntry t) k okay error
  have whole (u : State) (h : (s.fresh.freeEntry t).recordResponse i k kind status = u) :
      exec (.downstreamResponse t status bytes) s = .next (done u) := by
    rw [exec_downstreamResponse_inUse len high inUse, ← h]
    rfl
  exact ⟨fun reclaim => whole _ (reclaim ▸ reclaims), fun close => whole _ (close ▸ closes)⟩

/-! ### The grant -/

/-- The order of the record tier counts up from the ring after the one served last, around the four rings (09 R155). -/
theorem State.recordOrder_eq (s : State) : s.recordOrder = (List.finRange 4).map (s.rrLast + 1 + ·) := by
  unfold State.recordOrder
  generalize s.rrLast = last
  revert last
  decide

/-- The ring served next is the first in that order that offers. -/
theorem State.offeringRing?_eq_some {s : State} {step : Fin 4} (offers : (s.ring (s.rrLast + 1 + step)).offers = true)
    (first : ∀ k, k < step → (s.ring (s.rrLast + 1 + k)).offers = false) :
    s.offeringRing? = some (s.rrLast + 1 + step) := by
  have found : Fin.find? (fun k => (s.ring (s.rrLast + 1 + k)).offers) = some step := Fin.find?_eq_some_iff.mpr ⟨offers, first⟩
  rw [Fin.find?_eq_find?_finRange] at found
  unfold State.offeringRing?
  rw [State.recordOrder_eq, List.find?_map]
  exact congrArg (Option.map (s.rrLast + 1 + ·)) found

theorem State.offeringRing?_eq_none {s : State} (noOffer : ∀ i, (s.ring i).offers = false) : s.offeringRing? = none :=
  List.find?_eq_none.mpr fun i _ => by rw [noOffer i]; decide

theorem State.grantRecord?_of_offer {s : State} {t : DownTag} {i : RingId} {x : LogRecord} {rest : List LogRecord}
    (free : s.freeTag? = some t) (next : s.offeringRing? = some i) (head : (s.ring i).records = x :: rest) :
    s.grantRecord? = some (i, s.issueRecord i t x rest) := by
  unfold State.grantRecord?
  simp only [free, next, head]

/-- Nothing is granted without a free entry or without an offer (09 R155). -/
theorem State.grantRecord?_eq_none {s : State} (nothing : s.freeTag? = none ∨ s.offeringRing? = none) :
    s.grantRecord? = none := by
  unfold State.grantRecord?
  rcases nothing with noEntry | noOffer
  · rw [noEntry]
  · rw [noOffer]
    cases s.freeTag? <;> rfl

/-! ### The command RECORD_ISSUE -/

/-- The command is the grant, the completion test of its ring, and the end of the event (04 R77, 06 R110). -/
theorem exec_recordIssue_of_grant {s v : State} {i : RingId} (grant : s.fresh.grantRecord? = some (i, v)) :
    exec .recordIssue s = .next (v.testEnding i).finish := by
  show Host.Outcome.next s.fresh.issueOne = _
  unfold State.issueOne
  rw [grant]

theorem exec_recordIssue_of_none {s : State} (nothing : s.fresh.grantRecord? = none) :
    exec .recordIssue s = .next s.fresh := by
  show Host.Outcome.next s.fresh.issueOne = _
  unfold State.issueOne
  rw [nothing]

/-- The log position after an issue, field by field: RECORD_INDEX wraps at RECORD_COUNT, and LAP advances with the wrap (04
R74). -/
theorem Ring.takeRecord_eq (rest : List LogRecord) (r : Ring) : r.takeRecord rest = { r with
    records := rest
    recordIndex := if r.recordIndex + 1 = r.active.recordCount.toNat then 0 else r.recordIndex + 1
    lap := if r.recordIndex + 1 = r.active.recordCount.toNat then r.lap + 1 else r.lap } := by
  unfold Ring.takeRecord Ring.advanceLog
  split <;> rfl

/-- Settles O47: the first offer in order and the lowest free entry make the grant, whose state is `State.issueRecord`. -/
theorem recordIssueSendsHeadRecord : Obligations.RecordIssueSendsHeadRecord := by
  intro s
  constructor
  · intro t step x rest i lower free before moves head r wraps
    have entry : s.fresh.freeTag? = some t := (State.freeTag?_eq_some s.fresh t).mpr ⟨free, lower⟩
    have offers : (s.ring i).offers = true := by simp [Ring.offers, moves, head]
    have next : s.fresh.offeringRing? = some i :=
      State.offeringRing?_eq_some (s := s.fresh) offers fun k earlier => (Ring.offers_eq_false _).mpr (before k earlier)
    rw [exec_recordIssue_of_grant (State.grantRecord?_of_offer entry next head), ← Ring.takeRecord_eq]
    rfl
  · intro nothing
    refine exec_recordIssue_of_none (State.grantRecord?_eq_none (nothing.imp ?_ ?_))
    · exact (State.freeTag?_eq_none s.fresh).mpr
    · exact fun noOffer => State.offeringRing?_eq_none fun i => (Ring.offers_eq_false _).mpr (noOffer i)

end Sys2Proof.Machine
end

section
/-! PROOFS. Descriptors: a shadow word written, the validity checks of START, COMMIT, and the return from ENDING to IDLE (05 R84 to
R92, 06 R110, R111). -/

namespace Sys2Proof.Machine

/-! ### A shadow word -/

/-- Settles O33: the port takes the word, and its effect is one ring's shadow. -/
theorem shadowWriteChangesShadowAlone : Obligations.ShadowWriteChangesShadowAlone := by
  intro i k w s takes
  exact congrArg Host.Outcome.next (State.portWrite_taken takes (State.writeShadow i k w))

/-! ### The checks of START -/

/-- Two ranges overlap when some byte address lies in both; the larger of their beginnings is one (05 R88). -/
theorem ByteRange.overlaps_iff (a b : ByteRange) :
    a.overlaps b = true ↔ ∃ x, (a.lo ≤ x ∧ x < a.hi) ∧ (b.lo ≤ x ∧ x < b.hi) := by
  simp only [ByteRange.overlaps, decide_eq_true_eq]
  constructor
  · intro h
    exact ⟨max a.lo b.lo, by omega, by omega⟩
  · rintro ⟨x, inA, inB⟩
    omega

/-- Check 1. -/
theorem Descriptor.check1_iff (d : Descriptor) (i : RingId) (s : State) : d.check1 = true ↔ s.checkHolds i d 1 :=
  isPowerBetween_iff 12 26 _

/-- Check 2. -/
theorem Descriptor.check2_iff (d : Descriptor) (i : RingId) (s : State) : d.check2 = true ↔ s.checkHolds i d 2 := by
  simp only [Descriptor.check2, State.checkHolds, Bool.and_eq_true, beq_iff_eq, Nat.dvd_iff_mod_eq_zero]

/-- Check 3. -/
theorem Descriptor.check3_iff (d : Descriptor) (i : RingId) (s : State) : d.check3 = true ↔ s.checkHolds i d 3 :=
  bne_iff_ne

/-- Check 5. -/
theorem Descriptor.check5_iff (d : Descriptor) (i : RingId) (s : State) : d.check5 = true ↔ s.checkHolds i d 5 := by
  simp only [Descriptor.check5, State.checkHolds, Bool.and_eq_true, decide_eq_true_eq]

/-- Check 6. -/
theorem Descriptor.check6_iff (d : Descriptor) (i : RingId) (s : State) : d.check6 = true ↔ s.checkHolds i d 6 := by
  simp only [Descriptor.check6, State.checkHolds, Bool.and_eq_true, decide_eq_true_eq, beq_iff_eq, Nat.dvd_iff_mod_eq_zero,
    and_assoc]

/-- The twelve checks in the order of their numbers: none fails, or the first that does (05 R89). -/
theorem State.startFailure_spec (i : RingId) (s : State) : firstFailing [1, 2, 3, 4, 5, 6, 7, 8, 9, 10, 11, 12]
    (fun n => s.checkHolds i (s.ring i).active n) (s.startFailure i) := by
  refine firstFailure_spec _ (fun n => s.checkHolds i (s.ring i).active n) ?_ (by simp)
  simp only [List.forall_mem_cons, List.not_mem_nil, false_implies, implies_true, and_true]
  exact ⟨Descriptor.check1_iff _ i s, Descriptor.check2_iff _ i s, Descriptor.check3_iff _ i s, State.check4_iff _ i s,
    Descriptor.check5_iff _ i s, Descriptor.check6_iff _ i s, Descriptor.check7_iff _ i s, State.check8Common_iff _ i s,
    State.check9_iff _ i s, Descriptor.check10_iff _ i s, Descriptor.check11_iff _ i s, State.check12_iff _ i s⟩

/-- Settles O39: overlap as a shared byte, and one `↔` for each of the twelve checks. -/
theorem validityChecksAtStart : Obligations.ValidityChecksAtStart :=
  ⟨ByteRange.overlaps_iff, State.startFailure_spec⟩

/-! ### COMMIT -/

/-- The structural comparison, field by field (05 R87). -/
theorem Descriptor.sameStructure_iff (d e : Descriptor) : d.sameStructure e = true ↔
    d.fillBase = e.fillBase ∧ d.drainBase = e.drainBase ∧ d.aperSize = e.aperSize ∧ d.slotCount = e.slotCount ∧
    d.slotSize = e.slotSize ∧ d.fillMode = e.fillMode ∧ d.drainMode = e.drainMode ∧ d.recordEnable = e.recordEnable ∧
    d.recordBase = e.recordBase ∧ d.recordCount = e.recordCount := by
  simp only [Descriptor.sameStructure, Bool.and_eq_true, beq_iff_eq, and_assoc]

/-- The copy of the whole shadow, field by field; the free list is rebuilt under a new SLOT_COUNT of a ring that has been started
(05 R91, 01 R18). -/
theorem Ring.copyShadow_eq (r : Ring) : r.copyShadow = { r with
    active := r.shadow
    activeValid := true
    commitPending := false
    budgetRemaining := r.shadow.budget.toNat
    attention := addCause .commitApplied r.attention
    freeList := if r.shadow.slotCount ≠ r.active.slotCount ∧ r.started = true then
        (List.finRange 8).filter fun k => k.val < r.shadow.slotCount.toNat
      else r.freeList } := by
  unfold Ring.copyShadow
  by_cases rebuilt : r.shadow.slotCount ≠ r.active.slotCount ∧ r.started = true
  · rw [if_pos (by simpa using rebuilt), if_pos rebuilt, ← allSlots_eq]
    rfl
  · rw [if_neg (by simpa using rebuilt), if_neg rebuilt]
    rfl

/-- COMMIT in IDLE copies the shadow and ends the event (05 R91). -/
theorem State.commitRing_of_idle {i : RingId} {s : State} (idle : (s.ring i).runState = .idle) :
    s.commitRing i = ((s.modRing i Ring.copyShadow).askReexam.finish, .accepted) := by
  unfold State.commitRing
  simp only [idle]

/-- COMMIT in RUNNING and ENDING with the structural fields equal sets COMMIT_PENDING alone (05 R92). -/
theorem State.commitRing_of_moves {i : RingId} {s : State} (moves : (s.ring i).moves = true)
    (same : (s.ring i).shadow.sameStructure (s.ring i).active = true) :
    s.commitRing i = (s.modRing i Ring.pendCommit, .accepted) := by
  unfold State.commitRing
  dsimp only
  rw [if_pos same]
  rcases (Ring.moves_iff _).mp moves with h | h <;> rw [h]

/-- Settles O43: the command is taken, and the ring copies its shadow (`Ring.copyShadow_eq`) or sets the flag. -/
theorem commitCopiesOrPends : Obligations.CommitCopiesOrPends := by
  refine ⟨Descriptor.sameStructure_iff, fun i s takes => ?_⟩
  intro r n past
  refine ⟨fun idle => ?_, fun moves same => ?_⟩
  · have accepted := State.commitRing_of_idle (s := s.fresh.movePast) idle
    have result : (s.fresh.movePast.modRing i Ring.copyShadow).askReexam.finish.result = s.result :=
      (State.flow_finish _).result
    rw [State.modRing, Ring.copyShadow_eq] at accepted result
    exact congrArg Host.Outcome.next (State.command_accepted takes accepted result)
  · have accepted := State.commitRing_of_moves (s := s.fresh.movePast) moves same
    exact congrArg Host.Outcome.next (State.command_accepted takes accepted rfl)

/-! ### The return from ENDING to IDLE -/

/-- The return to IDLE without a pending commit, field by field (06 R111). -/
theorem Ring.returnToIdle_of_clear {r : Ring} (clear : r.commitPending = false) : r.returnToIdle = { r with
    runState := .idle
    fillCursor := 0
    fillBytes := 0
    highMark := 0
    gapPending := false
    drainCursor := 0
    bytesRead := 0
    underrunNoted := false
    attention := addCause .ended r.attention } := by
  unfold Ring.returnToIdle
  dsimp only
  rw [if_neg (by simp [Ring.clearWork, clear])]
  rfl

/-- The return to IDLE with a pending commit, which is applied as a whole (06 R111, 05 R97). -/
theorem Ring.returnToIdle_of_pending {r : Ring} (pending : r.commitPending = true) : r.returnToIdle = { r with
    runState := .idle
    fillCursor := 0
    fillBytes := 0
    highMark := 0
    gapPending := false
    drainCursor := 0
    bytesRead := 0
    underrunNoted := false
    active := r.shadow
    activeValid := true
    commitPending := false
    budgetRemaining := r.shadow.budget.toNat
    freeList := if r.shadow.slotCount ≠ r.active.slotCount ∧ r.started = true then
        (List.finRange 8).filter fun k => k.val < r.shadow.slotCount.toNat
      else r.freeList
    attention := addCause .ended (addCause .commitApplied r.attention) } := by
  unfold Ring.returnToIdle
  dsimp only
  rw [if_pos (show r.clearWork.commitPending = true from pending), Ring.copyShadow_eq]
  rfl

theorem State.testEnding_of_done {i : RingId} {s : State} (done : s.endingDone i = true) :
    s.testEnding i = (s.modRing i Ring.returnToIdle).askReexam := if_pos done

theorem State.testEnding_of_not {i : RingId} {s : State} (notDone : s.endingDone i = false) : s.testEnding i = s :=
  if_neg (by simp [notDone])

theorem exec_endingCompletion (i : RingId) (s : State) : exec (.endingCompletion i) s =
    .next (if s.endingDone i then (s.fresh.testEnding i).finish else s.fresh) := rfl

/-- Settles O52: the test is the seven conditions (`State.endingDone_iff`), and the return is `Ring.returnToIdle`. -/
theorem endingCompletesToIdle : Obligations.EndingCompletesToIdle := by
  intro i s r done idle applied at_
  have test : s.endingDone i = true ↔ done := by
    rw [State.endingDone_iff, State.ownsEntry_eq_false]
  have returned (x : Ring) (w : done) (ring : r.returnToIdle = x) : s.testEnding i = at_ x ∧
      exec (.endingCompletion i) s = .next (State.finish { at_ x with sent := [] }) := by
    have test := test.mpr w
    have test' : s.fresh.endingDone i = true := test
    rw [exec_endingCompletion, if_pos test, State.testEnding_of_done test, State.testEnding_of_done test', ← ring]
    exact ⟨rfl, rfl⟩
  refine ⟨fun w clear => returned _ w (Ring.returnToIdle_of_clear clear),
    fun w pending => returned _ w (Ring.returnToIdle_of_pending pending), fun no => ?_⟩
  have test : s.endingDone i = false := by rw [Bool.eq_false_iff, ne_eq, test]; exact no
  rw [exec_endingCompletion, if_neg (by simp [test])]
  exact ⟨State.testEnding_of_not test, rfl⟩

end Sys2Proof.Machine
end

section
/-! PROOFS. FAULT entry, and the expiry of a stall timer that brings it (06 R112, R113, 07 R127). -/

namespace Sys2Proof.Machine

/-- A timer that STALL_TIMER_EXPIRY takes: at its last microsecond, in a RUNNING or ENDING ring (07 R127). -/
theorem Ring.expires_iff (side : Side) (r : Ring) :
    r.expires side = true ↔ (∃ n, n ≤ 1 ∧ r.timer side = some n) ∧ r.moves = true := by
  unfold Ring.expires
  cases r.timer side <;> simp

/-- FAULT entry, whole: the ring's own part and the answers to its held waits, oldest first (06 R113). -/
theorem State.enterFault_eq (i : RingId) (cause : FaultCause) (s : State) : s.enterFault i cause =
    State.askReexam (State.answerHeld (isWaitOf i) .ringFault i (s.setRing i ((s.ring i).enterFault cause))) := rfl

/-- FAULT entry answers the ring's held waits ERROR, and leaves the other rings and the table as they are (06 R113). -/
theorem State.enterFault_frame (i : RingId) (cause : FaultCause) (s : State) :
    (∀ j, j ≠ i → (s.enterFault i cause).ring j = s.ring j) ∧ (s.enterFault i cause).table = s.table ∧
    (s.enterFault i cause).sent = s.sent ++ (s.hold.filter (isWaitOf i)).map fun h => errorAnswer h.request := by
  obtain ⟨_, rings, sent, table⟩ :=
    State.answerHeld_frame (isWaitOf i) .ringFault i (s.setRing i ((s.ring i).enterFault cause))
  exact ⟨fun j other => (congrArg (·[j]) rings).trans (State.ring_setRing_ne s i j _ other), table, sent⟩

theorem exec_stallTimerExpiry (i : RingId) (side : Side) (s : State) : exec (.stallTimerExpiry i side) s =
    .next (if (s.ring i).expires side then (s.fresh.enterFault i (stallCause side)).finish else s.fresh) := rfl

/-- Settles O31: the ring's own part is `Ring.enterFault_eq`, and the answers are those of `State.answerHeld`. -/
theorem expiryEntersFault : Obligations.ExpiryEntersFault := by
  intro i side s waits picked faulted u last
  have entered (cause : FaultCause) (sent : List PortEvent) :
      State.enterFault i cause { s with sent := sent } = u cause sent := by
    rw [State.enterFault_eq, Ring.enterFault_eq]
    rfl
  have expires : (s.ring i).expires side = true ↔ last := by
    rw [Ring.expires_iff]
    cases side <;> rfl
  refine ⟨fun cause => entered cause s.sent, fun cause sent => ?_, fun h => ?_, fun no => ?_⟩
  · rw [← entered]
    exact State.enterFault_frame i cause { s with sent := sent }
  · rw [exec_stallTimerExpiry, if_pos (expires.mpr h), ← entered]
    cases side <;> rfl
  · rw [exec_stallTimerExpiry, if_neg (fun h => no (expires.mp h))]
    rfl

end Sys2Proof.Machine
end

section
/-! PROOFS. What the register window shows of a ring: the words of a descriptor, written and read back, and the words of the ring's
block (12 R174 to R179). -/

namespace Sys2Proof.Machine

/-! ### The two words of a base -/

/-- The 40-bit bases of a descriptor, each held in a low and a high word (12 R176). -/
inductive BaseField
  | fill | drain | record
  | slot (k : SlotId)

/-- The word that holds bits 31:0 of a base (12 Table 12-3). -/
def BaseField.lowWord : BaseField → Fin 32
  | .fill => 0
  | .drain => 2
  | .record => 8
  | .slot k => Fin.ofNat 32 (10 + 2 * k.val)

/-- The word that holds bits 39:32 of a base (12 Table 12-3). -/
def BaseField.highWord : BaseField → Fin 32
  | .fill => 1
  | .drain => 3
  | .record => 9
  | .slot k => Fin.ofNat 32 (11 + 2 * k.val)

/-- The base in a descriptor. -/
def BaseField.get (b : BaseField) (d : Descriptor) : Addr :=
  match b with
  | .fill => d.fillBase
  | .drain => d.drainBase
  | .record => d.recordBase
  | .slot k => d.slotBase[k]

/-- The descriptor with the base replaced. -/
def BaseField.set (b : BaseField) (a : Addr) (d : Descriptor) : Descriptor :=
  match b with
  | .fill => { d with fillBase := a }
  | .drain => { d with drainBase := a }
  | .record => { d with recordBase := a }
  | .slot k => { d with slotBase := d.slotBase.set k a }

/-- The words that hold no base. -/
def fieldWords : List (Fin 32) := [4, 5, 6, 7, 26, 27, 28, 29, 30, 31]

theorem descriptorWord_cases (j : Fin 32) : j ∈ fieldWords ∨ ∃ b : BaseField, j = b.lowWord ∨ j = b.highWord := by
  have cases : ∀ j : Fin 32, j ∈ fieldWords ∨ j ∈ [0, 1, 2, 3, 8, 9] ∨
      ∃ k, j = (BaseField.slot k).lowWord ∨ j = (BaseField.slot k).highWord := by decide
  rcases cases j with field | base | ⟨k, slot⟩
  · exact Or.inl field
  · simp only [List.mem_cons, List.not_mem_nil, or_false] at base
    rcases base with rfl | rfl | rfl | rfl | rfl | rfl
    · exact Or.inr ⟨.fill, Or.inl rfl⟩
    · exact Or.inr ⟨.fill, Or.inr rfl⟩
    · exact Or.inr ⟨.drain, Or.inl rfl⟩
    · exact Or.inr ⟨.drain, Or.inr rfl⟩
    · exact Or.inr ⟨.record, Or.inl rfl⟩
    · exact Or.inr ⟨.record, Or.inr rfl⟩
  · exact Or.inr ⟨.slot k, slot⟩

section
variable (b : BaseField) (w : Word) (d : Descriptor)

@[simp] theorem BaseField.get_set_self (a : Addr) : b.get (b.set a d) = a := by
  cases b with
  | slot k => exact Vector.getElem_set_self _
  | _ => rfl

theorem BaseField.get_set_ne {b c : BaseField} (ne : c ≠ b) (a : Addr) : c.get (b.set a d) = c.get d := by
  cases b with
  | slot k =>
    cases c with
    | slot j =>
      have : k.val ≠ j.val := fun e => ne (congrArg BaseField.slot (Fin.ext e.symm))
      exact Vector.getElem_set_ne k.isLt j.isLt this
    | _ => rfl
  | fill =>
    cases c with
    | fill => exact absurd rfl ne
    | _ => rfl
  | drain =>
    cases c with
    | drain => exact absurd rfl ne
    | _ => rfl
  | record =>
    cases c with
    | record => exact absurd rfl ne
    | _ => rfl

theorem Descriptor.readWord_lowWord : d.readWord b.lowWord = baseLow (b.get d) := by
  cases b with
  | slot k => fin_cases k <;> rfl
  | _ => rfl

theorem Descriptor.readWord_highWord : d.readWord b.highWord = baseHigh (b.get d) := by
  cases b with
  | slot k => fin_cases k <;> rfl
  | _ => rfl

theorem Descriptor.writeWord_lowWord : d.writeWord b.lowWord w = b.set (withBaseLow (b.get d) w) d := by
  cases b with
  | slot k => fin_cases k <;> rfl
  | _ => rfl

theorem Descriptor.writeWord_highWord : d.writeWord b.highWord w = b.set (withBaseHigh (b.get d) w) d := by
  cases b with
  | slot k => fin_cases k <;> rfl
  | _ => rfl

/-- A base stands in its two words alone. -/
theorem Descriptor.readWord_setBase {j : Fin 32} (low : j ≠ b.lowWord) (high : j ≠ b.highWord) (a : Addr) :
    (b.set a d).readWord j = d.readWord j := by
  rcases descriptorWord_cases j with field | ⟨c, rfl | rfl⟩
  · have number : j.val ∈ [4, 5, 6, 7, 26, 27, 28, 29, 30, 31] := List.mem_map_of_mem (f := Fin.val) field
    unfold Descriptor.readWord
    cases b <;> split <;> try rfl
    -- what is left are the words that hold a base, and `field` shuts them out
    all_goals simp_all
  · rw [Descriptor.readWord_lowWord, Descriptor.readWord_lowWord, BaseField.get_set_ne d (fun e => low (congrArg _ e))]
  · rw [Descriptor.readWord_highWord, Descriptor.readWord_highWord, BaseField.get_set_ne d (fun e => high (congrArg _ e))]

/-- The fields of each other word stand in that word alone. -/
theorem Descriptor.readWord_setFields (j : Fin 32) :
    (j.val ≠ 4 → ∀ a, Descriptor.readWord j { d with aperSize := a } = d.readWord j) ∧
    (j.val ≠ 5 → ∀ a, Descriptor.readWord j { d with slotSize := a } = d.readWord j) ∧
    (j.val ≠ 6 → ∀ n f g r, Descriptor.readWord j { d with
      slotCount := n, fillMode := f, drainMode := g, recordEnable := r } = d.readWord j) ∧
    (j.val ≠ 7 → ∀ n, Descriptor.readWord j { d with recordCount := n } = d.readWord j) ∧
    (j.val ≠ 26 → ∀ c l, Descriptor.readWord j { d with closeOnLimit := c, closeLimit := l } = d.readWord j) ∧
    (j.val ≠ 27 → ∀ c r l h o u g, Descriptor.readWord j { d with
      closeEvent := c, releaseEvent := r, releaseOnLimit := l, haltOnError := h, overrun := o, underrun := u, guard := g } =
      d.readWord j) ∧
    (j.val ≠ 28 → ∀ f g t, Descriptor.readWord j { d with fillGap := f, drainGap := g, stallTimeout := t } = d.readWord j) ∧
    (j.val ≠ 29 → ∀ n, Descriptor.readWord j { d with budget := n } = d.readWord j) ∧
    (j.val ≠ 30 → ∀ p, Descriptor.readWord j { d with pattern := p } = d.readWord j) := by
  and_intros
  all_goals
    intros
    unfold Descriptor.readWord
    split <;> try contradiction
    all_goals rfl

theorem Descriptor.readWord_writeWord_field {j k : Fin 32} (field : k ∈ fieldWords) (ne : j ≠ k) :
    (d.writeWord k w).readWord j = d.readWord j := by
  have ne : j.val ≠ k.val := fun e => ne (Fin.ext e)
  obtain ⟨w4, w5, w6, w7, w26, w27, w28, w29, w30⟩ := d.readWord_setFields j
  simp only [fieldWords, List.mem_cons, List.not_mem_nil, or_false] at field
  rcases field with rfl | rfl | rfl | rfl | rfl | rfl | rfl | rfl | rfl | rfl
  · exact w4 ne w
  · exact w5 ne w
  · exact w6 ne _ _ _ _
  · exact w7 ne _
  · exact w26 ne _ _
  · exact w27 ne _ _ _ _ _ _ _
  · exact w28 ne _ _ _
  · exact w29 ne _
  · exact w30 ne w
  · rfl

end

/-! ### A word written -/

theorem toNat_getLsbD (w : Word) (n : Nat) : (w.getLsbD n).toNat = (w.extractLsb' n 1).toNat := by
  rw [BitVec.extractLsb'_toNat, BitVec.getLsbD, Nat.toNat_testBit, Nat.shiftRight_eq_div_pow, Nat.pow_one]

/-- Fields taken from a word and packed at their places are that word under a mask of all of them. -/
theorem packWord_extracted (places : List (Nat × Nat)) (w : Word) :
    packWord (places.map fun p => ⟨p.1, p.2, (w.extractLsb' p.1 p.2).toNat⟩) =
      w &&& packWord (places.map fun p => ⟨p.1, p.2, 2 ^ p.2 - 1⟩) := by
  apply BitVec.eq_of_getLsbD_eq
  intro n _
  rw [BitVec.getLsbD_and, getLsbD_packWord, getLsbD_packWord, List.any_map, List.any_map, List.and_any_distrib_left]
  congr 1
  funext p
  simp only [Function.comp, BitVec.testBit_toNat, BitVec.getLsbD_extractLsb', Nat.testBit_two_pow_sub_one]
  by_cases low : p.1 ≤ n
  · rw [Nat.add_sub_cancel' low]
    cases w.getLsbD n <;> simp
  · simp [low]

/-- A word of fields that is written reads back its assigned bits (12 R177). -/
theorem Descriptor.readWord_writeWord_field_same {k : Fin 32} (field : k ∈ fieldWords) (w : Word) (d : Descriptor) :
    (d.writeWord k w).readWord k = w &&& assignedBits k := by
  have packed (places : List (Nat × Nat)) (mask : assignedBits k = packWord (places.map fun p => ⟨p.1, p.2, 2 ^ p.2 - 1⟩))
      (read : (d.writeWord k w).readWord k = packWord (places.map fun p => ⟨p.1, p.2, (w.extractLsb' p.1 p.2).toNat⟩)) :
      (d.writeWord k w).readWord k = w &&& assignedBits k := by
    rw [read, mask, packWord_extracted]
  simp only [fieldWords, List.mem_cons, List.not_mem_nil, or_false] at field
  rcases field with rfl | rfl | rfl | rfl | rfl | rfl | rfl | rfl | rfl | rfl
  · exact (BitVec.and_allOnes (x := w)).symm
  · exact (BitVec.and_allOnes (x := w)).symm
  · refine packed [(0, 4), (8, 2), (10, 2), (16, 1)] rfl ?_
    show packWord [_, _, _, ⟨16, 1, (w.getLsbD 16).toNat⟩] = _
    rw [toNat_getLsbD]
    rfl
  · exact packed [(0, 9)] rfl rfl
  · refine packed [(31, 1), (0, 27)] rfl ?_
    show packWord [⟨31, 1, (w.getLsbD 31).toNat⟩, _] = _
    rw [toNat_getLsbD]
    rfl
  · refine packed [(0, 4), (4, 4), (8, 1), (9, 1), (16, 2), (18, 2), (20, 2)] rfl ?_
    show packWord [_, _, ⟨8, 1, (w.getLsbD 8).toNat⟩, ⟨9, 1, (w.getLsbD 9).toNat⟩, _, _, _] = _
    rw [toNat_getLsbD, toNat_getLsbD]
    rfl
  · exact packed [(0, 8), (8, 8), (16, 16)] rfl rfl
  · exact packed [(0, 16)] rfl rfl
  · exact (BitVec.and_allOnes (x := w)).symm
  · exact (BitVec.and_zero (x := w)).symm

theorem assignedBits_base (b : BaseField) : assignedBits b.lowWord = BitVec.allOnes 32 ∧ assignedBits b.highWord = 0xFF#32 := by
  cases b with
  | slot k => fin_cases k <;> exact ⟨rfl, rfl⟩
  | _ => exact ⟨rfl, rfl⟩

/-- A descriptor word that is written reads back its assigned bits (12 R174, R177). -/
theorem Descriptor.readWord_writeWord_same (k : Fin 32) (w : Word) (d : Descriptor) :
    (d.writeWord k w).readWord k = w &&& assignedBits k := by
  rcases descriptorWord_cases k with field | ⟨b, rfl | rfl⟩
  · exact Descriptor.readWord_writeWord_field_same field w d
  · obtain ⟨low, _⟩ := assignedBits_base b
    rw [Descriptor.writeWord_lowWord, Descriptor.readWord_lowWord, BaseField.get_set_self, baseLow_withBaseLow, low,
      BitVec.and_allOnes]
  · obtain ⟨_, high⟩ := assignedBits_base b
    rw [Descriptor.writeWord_highWord, Descriptor.readWord_highWord, BaseField.get_set_self, baseHigh_withBaseHigh, high]

/-- The other words read as before: of a base that is written in one half, the other half stays (12 R177). -/
theorem Descriptor.readWord_writeWord_ne {j k : Fin 32} (w : Word) (d : Descriptor) (ne : j ≠ k) :
    (d.writeWord k w).readWord j = d.readWord j := by
  rcases descriptorWord_cases k with field | ⟨b, rfl | rfl⟩
  · exact Descriptor.readWord_writeWord_field w d field ne
  · rw [Descriptor.writeWord_lowWord]
    by_cases half : j = b.highWord
    · subst half
      rw [Descriptor.readWord_highWord, Descriptor.readWord_highWord, BaseField.get_set_self, baseHigh_withBaseLow]
    · exact Descriptor.readWord_setBase b d ne half _
  · rw [Descriptor.writeWord_highWord]
    by_cases half : j = b.lowWord
    · subst half
      rw [Descriptor.readWord_lowWord, Descriptor.readWord_lowWord, BaseField.get_set_self, baseLow_withBaseHigh]
    · exact Descriptor.readWord_setBase b d half ne _

/-! ### The layout of a descriptor -/

/-- Each field of a descriptor stands at its bits of Table 12-3 (12 R176). -/
theorem Descriptor.readWord_layout (d : Descriptor) :
    (d.readWord 0 = d.fillBase.extractLsb' 0 32 ∧ wordHolds (d.readWord 1) [(0, 8, (d.fillBase.extractLsb' 32 8).toNat)]) ∧
    (d.readWord 2 = d.drainBase.extractLsb' 0 32 ∧ wordHolds (d.readWord 3) [(0, 8, (d.drainBase.extractLsb' 32 8).toNat)]) ∧
    d.readWord 4 = d.aperSize ∧ d.readWord 5 = d.slotSize ∧
    wordHolds (d.readWord 6) [(0, 4, d.slotCount.toNat), (8, 2, d.fillMode.toNat), (10, 2, d.drainMode.toNat),
      (16, 1, d.recordEnable.toNat)] ∧
    wordHolds (d.readWord 7) [(0, 9, d.recordCount.toNat)] ∧
    (d.readWord 8 = d.recordBase.extractLsb' 0 32 ∧
      wordHolds (d.readWord 9) [(0, 8, (d.recordBase.extractLsb' 32 8).toNat)]) ∧
    (∀ k : SlotId, d.readWord (Fin.ofNat 32 (10 + 2 * k.val)) = d.slotBase[k].extractLsb' 0 32 ∧
      wordHolds (d.readWord (Fin.ofNat 32 (11 + 2 * k.val))) [(0, 8, (d.slotBase[k].extractLsb' 32 8).toNat)]) ∧
    wordHolds (d.readWord 26) [(31, 1, d.closeOnLimit.toNat), (0, 27, d.closeLimit.toNat)] ∧
    wordHolds (d.readWord 27) [(0, 4, d.closeEvent.toNat), (4, 4, d.releaseEvent.toNat), (8, 1, d.releaseOnLimit.toNat),
      (9, 1, d.haltOnError.toNat), (16, 2, d.overrun.toNat), (18, 2, d.underrun.toNat), (20, 2, d.guard.toNat)] ∧
    wordHolds (d.readWord 28) [(0, 8, d.fillGap.toNat), (8, 8, d.drainGap.toNat), (16, 16, d.stallTimeout.toNat)] ∧
    wordHolds (d.readWord 29) [(0, 16, d.budget.toNat)] ∧ d.readWord 30 = d.pattern ∧ d.readWord 31 = 0 := by
  have base (b : BaseField) : d.readWord b.lowWord = (b.get d).extractLsb' 0 32 ∧
      wordHolds (d.readWord b.highWord) [(0, 8, ((b.get d).extractLsb' 32 8).toNat)] := by
    rw [Descriptor.readWord_lowWord, Descriptor.readWord_highWord]
    exact ⟨rfl, wordHolds_baseHigh _⟩
  refine ⟨base .fill, base .drain, rfl, rfl, ?_, ?_, base .record, fun k => base (.slot k), ?_, ?_, ?_, ?_, rfl, rfl⟩
  all_goals exact wordHolds_of_pack _ rfl rfl (by simp [Field.apart]) (by simp)

/-! ### The words of a ring's block -/

/-- The shadow and the active descriptor stand at the offsets 000h and 040h of the block (12 R176, R178). -/
theorem State.readWord_descriptors (i : RingId) (k : Fin 32) (s : State) :
    s.readWord (shadowAddr i k) = (s.ring i).shadow.readWord k ∧
    s.readWord (shadowAddr i k + 0x0040#16) = (s.ring i).active.readWord k := by
  have index : Fin.ofNat 32 k.val = k := by simp
  have shadow : shadowAddr i k = BitVec.ofNat 16 (0x1000 + 0x400 * i.val + k.val) := by
    rw [shadowAddr, ringBlock, Nat.mul_comm i.val]
  have active : shadowAddr i k + 0x0040#16 = BitVec.ofNat 16 (0x1000 + 0x400 * i.val + (0x040 + k.val)) := by
    rw [shadow, ← BitVec.ofNat_add, Nat.add_assoc _ k.val, Nat.add_comm k.val]
  constructor
  · rw [shadow]
    refine (State.ringWord_eq i k.val (by omega) s).trans ?_
    rw [Ring.readWord, if_pos k.isLt, index]
  · rw [active]
    refine (State.ringWord_eq i (0x040 + k.val) (by omega) s).trans ?_
    rw [Ring.readWord, if_neg (by omega), if_neg (by omega), if_pos (by omega), Nat.add_sub_cancel_left, index]

/-- The slot records stand four words each from 0C0h on (12 Table 12-6). -/
theorem Ring.readWord_slot {off : Nat} (k : SlotId) (n : Fin 4) (h : off = 0x0C0 + 4 * k.val + n.val) (r : Ring) :
    r.readWord off = (r.slot k).readWord n := by
  have slot : Fin.ofNat 8 ((off - 0x0C0) / 4) = k := Fin.ext (show (off - 0x0C0) / 4 % 8 = k.val by omega)
  have index : Fin.ofNat 4 (off - 0x0C0) = n := Fin.ext (show (off - 0x0C0) % 4 = n.val by omega)
  unfold Ring.readWord
  rw [if_neg (by omega), if_neg (by omega), if_neg (by omega), if_neg (by omega), if_neg (by omega), if_neg (by omega),
    if_neg (by omega), if_pos (by omega), slot, index]

/-- The entries of the ready-queue snapshot stand from 101h on, head first (12 R179). -/
theorem Ring.readWord_entry {off : Nat} (n : Fin 8) (h : off = 0x101 + n.val) (r : Ring) :
    r.readWord off = r.readSnapshot (n.val + 1) := by
  have index : off - 0x100 = n.val + 1 := by omega
  unfold Ring.readWord
  rw [if_neg (by omega), if_neg (by omega), if_neg (by omega), if_neg (by omega), if_neg (by omega), if_neg (by omega),
    if_neg (by omega), if_neg (by omega), if_neg (by omega), if_pos (by omega), index]

theorem Ring.readSnapshot_of_some {n : Nat} {e : ReadyEntry} {r : Ring} (h : r.ready[n]? = some e) :
    r.readSnapshot (n + 1) = r.entryWord e := by
  simp only [Ring.readSnapshot, h]

theorem Ring.readSnapshot_of_none {n : Nat} {r : Ring} (h : r.ready[n]? = none) : r.readSnapshot (n + 1) = 0 := by
  simp only [Ring.readSnapshot, h]

/-- The free-list word holds the length and the entries, head first, of a list that the word can hold (12 Table 12-5). -/
theorem Ring.freeListWord_spec {r : Ring} (short : r.freeList.length ≤ 8) : wordHolds r.freeListWord
    ((0, 4, r.freeList.length) :: r.freeList.zipIdx.map fun e => (4 + 3 * e.2, 3, e.1.val)) := by
  have bound (e) (mem : e ∈ r.freeList.zipIdx) : e.2 < 8 :=
    Nat.lt_of_lt_of_le (by simpa using List.snd_lt_add_of_mem_zipIdx mem) short
  have ordered : r.freeList.zipIdx.Pairwise fun e f => e.2 < f.2 := by
    rw [← List.pairwise_map (f := Prod.snd) (R := (· < ·)), List.zipIdx_map_snd]
    exact List.pairwise_lt_range'
  refine wordHolds_of_pack _ rfl (by simp [Function.comp_def]) ?_ ?_
  · refine List.pairwise_cons.mpr ⟨?_, List.pairwise_map.mpr (ordered.imp fun before => ?_)⟩
    · rintro f mem
      obtain ⟨e, _, rfl⟩ := List.mem_map.mp mem
      exact Or.inl (Nat.le_add_right 4 _)
    · exact Or.inl (by dsimp only; omega)
  · refine List.forall_mem_cons.mpr ⟨by simp, fun f mem => ?_⟩
    obtain ⟨e, entry, rfl⟩ := List.mem_map.mp mem
    have := bound e entry
    dsimp only
    omega

/-- Bit k of the releasing word is set for each slot k of the releasing set (12 Table 12-5). -/
theorem getLsbD_slotSet (slots : List SlotId) (b : Nat) :
    (packWord (slots.map fun k => ⟨k.val, 1, 1⟩)).getLsbD b = true ↔ ∃ k ∈ slots, k.val = b := by
  rw [getLsbD_packWord, List.any_map, List.any_eq_true]
  refine exists_congr fun k => and_congr Iff.rfl ?_
  simp only [Function.comp, Bool.and_eq_true, decide_eq_true_eq]
  constructor
  · rintro ⟨⟨⟨_, low⟩, width⟩, _⟩
    omega
  · rintro rfl
    exact ⟨⟨⟨by omega, Nat.le_refl _⟩, by omega⟩, by rw [Nat.sub_self]; rfl⟩

/-- A set of causes stands in the low bits of its word (12 R179). -/
theorem wordHolds_causes (causes : BitVec 10) : wordHolds (causes.setWidth 32) [(0, 10, causes.toNat)] := by
  have packed : causes.setWidth 32 = packWord [⟨0, 10, causes.toNat⟩] := by
    apply BitVec.eq_of_getLsbD_eq
    intro n lt
    rw [getLsbD_packWord, BitVec.getLsbD_setWidth]
    simp only [List.any_cons, List.any_nil, Bool.or_false, Nat.sub_zero, BitVec.testBit_toNat, lt, decide_true,
      Bool.true_and, Nat.zero_le]
    by_cases inside : n < 10
    · simp [inside]
    · simp [inside, BitVec.getLsbD_of_ge causes n (by omega)]
  exact wordHolds_of_pack _ packed rfl (by simp) (by simp)

/-- Settles O34: a written word read back, the layout of a descriptor, and the words of a ring's block one by one. -/
theorem descriptorWordsReadBack : Obligations.DescriptorWordsReadBack := by
  refine ⟨Descriptor.readWord_writeWord_same, fun j k w d ne => Descriptor.readWord_writeWord_ne w d ne,
    Descriptor.readWord_layout, by decide, fun i s => ?_⟩
  intro r word holder timer
  have read {off : Nat} (inside : off < 0x400) {w : Word} (e : r.readWord off = w) : word off = w :=
    (State.ringWord_eq i off inside s).trans e
  have packed {off : Nat} (inside : off < 0x400) {fields : List (Nat × Nat × Nat)} (fs : List Field)
      (e : r.readWord off = packWord fs) (layout : fs.map (fun f => (f.low, f.width, f.value)) = fields)
      (apart : fs.Pairwise Field.apart) (fits : ∀ f ∈ fs, f.low + f.width ≤ 32) : wordHolds (word off) fields :=
    wordHolds_of_pack fs (read inside e) layout apart fits
  have entry (n : Fin 8) : word (0x101 + n.val) = r.readSnapshot (n.val + 1) := read (by omega) (r.readWord_entry n rfl)
  refine ⟨fun k => State.readWord_descriptors i k s, ?_, ?_, ?_, ?_, fun short => ?_, fun b => ?_, ?_, ?_, ?_, ?_, ?_, ?_, ?_,
    fun k => ⟨?_, ?_, ?_, ?_⟩, ?_, fun n => ⟨fun e at_ => ?_, fun absent => ?_⟩, ?_, ?_⟩
  · exact packed (by decide) _ rfl rfl (by simp) (by simp)
  · exact packed (by decide) _ rfl rfl (by simp [Field.apart]) (by simp)
  · exact packed (by decide) _ rfl rfl (by simp [Field.apart]) (by simp)
  · exact packed (by decide) _ rfl (by cases r.lostCause <;> rfl) (by simp [Field.apart]) (by simp)
  · rw [read (by decide) (show r.readWord 0x083 = r.freeListWord from rfl)]
    exact Ring.freeListWord_spec short
  · rw [read (by decide) (show r.readWord 0x084 = packWord (r.releasing.map fun k => ⟨k.val, 1, 1⟩) from rfl)]
    exact getLsbD_slotSet r.releasing b
  · exact read (by decide) rfl
  · exact read (by decide) rfl
  · exact read (by decide) rfl
  · exact read (by decide) rfl
  · exact read (by decide) rfl
  · rw [read (by decide) (show r.readWord 0x08A = timerWord r.fillTimer from rfl)]
    exact timerWord_spec r.fillTimer
  · rw [read (by decide) (show r.readWord 0x08B = timerWord r.drainTimer from rfl)]
    exact timerWord_spec r.drainTimer
  · exact packed (by omega) _ (r.readWord_slot k 0 rfl) rfl (by simp [Field.apart]) (by simp)
  · exact read (by omega) (r.readWord_slot k 1 (by simp; omega))
  · exact read (by omega) (r.readWord_slot k 2 (by simp; omega))
  · exact read (by omega) (r.readWord_slot k 3 (by simp; omega))
  · exact packed (by decide) _ rfl rfl (by simp) (by simp)
  · exact wordHolds_of_pack _ ((entry n).trans (Ring.readSnapshot_of_some at_)) (by cases (r.slot e.slot).state <;> rfl)
      (by simp [Field.apart]) (by simp)
  · exact (entry n).trans (Ring.readSnapshot_of_none absent)
  · exact ⟨read (by decide) rfl, read (by decide) rfl, read (by decide) rfl, read (by decide) rfl, read (by decide) rfl,
      read (by decide) rfl, read (by decide) rfl, read (by decide) rfl, read (by decide) rfl, read (by decide) rfl⟩
  · rw [read (by decide) (show r.readWord 0x180 = r.attention.setWidth 32 from rfl)]
    exact wordHolds_causes r.attention

end Sys2Proof.Machine
end

section
/-! PROOFS. What only software, RESET_N or the pins change: each register kept from event to event, but by its own commands (05
R84, 07 R120, 09 R157, 10 R167 to R170). -/

namespace Sys2Proof.Machine

/-! ### The registers, and what it is to keep one -/

/-- The registers and sets that change by their own commands alone, with the queue of commands, which no command changes. -/
inductive Reg
  | queue | shadows | masks | globalMask | edges | result | stray | attention | globalAttn | refusal

/-- A register is kept from s to t: it is as it was; of the attention sets and the refusal record, nothing has left it. -/
def Reg.kept (p : Reg) (s t : State) : Prop :=
  match p with
  | .queue => t.pending = s.pending
  | .shadows => ∀ i, (t.ring i).shadow = (s.ring i).shadow
  | .masks => ∀ i, (t.ring i).mask = (s.ring i).mask
  | .globalMask => t.globalMask = s.globalMask
  | .edges => t.edges = s.edges
  | .result => t.result = s.result
  | .stray => t.stray = s.stray
  | .attention => ∀ i b, (s.ring i).attention.getLsbD b = true → (t.ring i).attention.getLsbD b = true
  | .globalAttn => s.globalAttn = true → t.globalAttn = true
  | .refusal => ∀ x, s.refusal = some x → t.refusal = some x

/-- The command is one of the register's own, by which alone it may change. -/
def Reg.ownedBy (c : Instr) (p : Reg) : Bool :=
  match c, p with
  | .shadowWrite _ _ _, .shadows => true
  | .attentionMaskWrite _ _, .masks => true
  | .globalAttentionMaskWrite _, .globalMask => true
  | .eventLineConfiguration _, .edges => true
  | .commit _, .result | .start _, .result | .stop _, .result | .abort _, .result | .close _, .result | .release _, .result
  | .ack _ _, .result | .ack _ _, .attention => true
  | .ackGlobal _ _, .result | .ackGlobal _ _, .globalAttn | .ackGlobal _ _, .refusal => true
  | .downstreamResponse _ _ _, .stray => true
  | _, _ => false

/-- The commands that write the command result are those of the command register (10 R167). -/
theorem Reg.ownedBy_result {c : Instr} (owned : Reg.ownedBy c .result = true) :
    ∃ n x, c = .commit n ∨ c = .start n ∨ c = .stop n ∨ c = .abort n ∨ c = .close n ∨ c = .release n ∨ c = .ack n x ∨ c = .ackGlobal n x := by
  cases c with
  | commit n | start n | stop n | abort n | close n | release n => exact ⟨n, 0, by simp⟩
  | ack n x | ackGlobal n x => exact ⟨n, x, by simp⟩
  | _ => exact absurd owned Bool.false_ne_true

theorem Reg.kept_refl (p : Reg) (s : State) : p.kept s s := by
  cases p with
  | shadows => exact fun _ => rfl
  | masks => exact fun _ => rfl
  | attention => exact fun _ _ => id
  | globalAttn => exact id
  | refusal => exact fun _ => id
  | _ => rfl

theorem Reg.kept_trans {p : Reg} {s t u : State} (h : p.kept s t) (g : p.kept t u) : p.kept s u := by
  cases p with
  | shadows => exact fun i => (g i).trans (h i)
  | masks => exact fun i => (g i).trans (h i)
  | attention => exact fun i b => g i b ∘ h i b
  | globalAttn => exact g ∘ h
  | refusal => exact fun x => g x ∘ h x
  | _ => exact Eq.trans g h

/-! ### What keeps every register -/

theorem Flow.kept {s t : State} (f : Flow s t) (p : Reg) : p.kept s t := by
  cases p with
  | queue => exact f.pending
  | shadows => exact fun i => (f.rings i).shadow
  | masks => exact fun i => (f.rings i).mask
  | globalMask => exact f.globalMask
  | edges => exact f.edges
  | result => exact f.result
  | stray => exact f.stray
  | attention => exact fun i => (f.rings i).attention
  | globalAttn => exact f.globalAttn
  | refusal => exact f.record

/-- The pins, the port, the requests that wait and the free value's counter are no such register. -/
theorem Reg.kept_pins (p : Reg) (s : State) (low : Bool) (waiting : List Request) (levels : BitVec 8) (port : MgmtPort)
    (sent : List PortEvent) (choices : Nat) : p.kept s { s with
      resetLow := low, waiting := waiting, levels := levels, port := port, sent := sent, choices := choices } := by
  have same := Reg.kept_refl p s
  cases p <;> exact same

theorem Reg.kept_fresh (p : Reg) (s : State) : p.kept s s.fresh :=
  Reg.kept_pins p s s.resetLow s.waiting s.levels s.port [] s.choices

theorem Reg.kept_finish {p : Reg} {s t : State} (h : p.kept s t) : p.kept s t.finish :=
  Reg.kept_trans h ((State.flow_finish t).kept p)

/-- An event that starts afresh and flows to its end. -/
theorem Flow.kept_fresh {s t : State} (f : Flow s.fresh t) (p : Reg) : p.kept s t :=
  Reg.kept_trans (Reg.kept_fresh p s) (f.kept p)

/-- One ring changed. -/
theorem Reg.kept_modRing {p : Reg} (i : RingId) (f : Ring → Ring) (s : State)
    (shadow : p = .shadows → (f (s.ring i)).shadow = (s.ring i).shadow)
    (mask : p = .masks → (f (s.ring i)).mask = (s.ring i).mask)
    (attention : p = .attention → ∀ b, (s.ring i).attention.getLsbD b = true → (f (s.ring i)).attention.getLsbD b = true) :
    p.kept s (s.modRing i f) := by
  have same := Reg.kept_refl p s
  have ring (j : RingId) : (s.modRing i f).ring j = s.ring j ∨ j = i ∧ (s.modRing i f).ring j = f (s.ring i) := by
    by_cases e : j = i
    · exact Or.inr ⟨e, e ▸ State.ring_modRing_self s j f⟩
    · exact Or.inl (State.ring_modRing_ne s i j f e)
  cases p with
  | shadows =>
    intro j
    rcases ring j with e | ⟨rfl, e⟩ <;> rw [e]
    exact shadow rfl
  | masks =>
    intro j
    rcases ring j with e | ⟨rfl, e⟩ <;> rw [e]
    exact mask rfl
  | attention =>
    intro j b has
    rcases ring j with e | ⟨rfl, e⟩ <;> rw [e]
    · exact has
    · exact attention rfl b has
  | _ => exact same

/-! ### The commands of the command register -/

theorem Reg.kept_setResult {p : Reg} (other : p ≠ .result) (c : CommandKind) (n : RingField) (g : Bool) (reply : Reply)
    (s : State) : p.kept s (s.setResult c n g reply) := by
  have same := Reg.kept_refl p s
  cases reply <;> cases p with
  | result => exact absurd rfl other
  | _ => exact same

theorem State.flow_commitRing (i : RingId) (s : State) : Flow s (s.commitRing i).1 := by
  have refused := Flow.refl s
  have pend (h : (s.ring i).moves = true) : Flow s (s.modRing i Ring.pendCommit) :=
    (State.works_modRing i _ s (Ring.kin_pendCommit _ h)).flow
  unfold State.commitRing
  dsimp only
  split
  next h =>
    exact ((State.works_modRing i _ s (Ring.kin_copyShadow _ h)).trans (State.steady_askReexam _).works).flow.trans
      (State.flow_finish _)
  next h =>
    split
    · exact pend (by simp [Ring.moves, h])
    · exact refused
  next h =>
    split
    · exact pend (by simp [Ring.moves, h])
    · exact refused
  · exact refused
  · exact refused

/-- START sets no register of software's own (06 R106). -/
theorem Ring.registers_begin (r : Ring) :
    r.begin.shadow = r.shadow ∧ r.begin.mask = r.mask ∧ r.begin.attention = r.attention := by
  unfold Ring.begin
  dsimp only
  obtain ⟨shadow, mask, attention, _⟩ := Ring.fillTake_parts _
  exact ⟨shadow, mask, attention⟩

theorem Reg.kept_startRing (p : Reg) (i : RingId) (s : State) : p.kept s (s.startRing i).1 := by
  have refused := Reg.kept_refl p s
  have begun : p.kept s (s.modRing i Ring.begin).askReexam.finish := by
    obtain ⟨shadow, mask, attention⟩ := Ring.registers_begin (s.ring i)
    have registers : p.kept s (s.modRing i Ring.begin) :=
      Reg.kept_modRing i Ring.begin s (fun _ => shadow) (fun _ => mask) fun _ b has => by rw [attention]; exact has
    exact Reg.kept_trans registers (((State.steady_askReexam _).flow.trans (State.flow_finish _)).kept p)
  unfold State.startRing
  dsimp only
  split
  · exact refused
  split
  · exact refused
  split
  · exact refused
  · exact begun

theorem State.flow_stopRing (i : RingId) (s : State) : Flow s (s.stopRing i).1 := by
  unfold State.stopRing
  split
  · exact Flow.refl s
  next h =>
    dsimp only
    exact (State.flow_stop i s (by simpa using h)).trans (State.flow_finish _)

theorem State.flow_abortRing (i : RingId) (s : State) : Flow s (s.abortRing i).1 := by
  unfold State.abortRing
  dsimp only
  split
  · exact Flow.refl s
  next h =>
    have notIdle : (s.ring i).runState ≠ .idle := fun e => h (by simp [e])
    exact (State.flow_abort i s notIdle).trans (State.flow_finish _)

theorem State.flow_closeRing (i : RingId) (s : State) : Flow s (s.closeRing i).1 := by
  obtain ⟨notRunning, noFrame, closes⟩ := State.closeRing_cases i s
  by_cases running : (s.ring i).runState = .running
  · by_cases can : (s.ring i).canClose = true
    · rw [closes can]
      obtain ⟨_, filling, _⟩ := (Ring.canClose_iff _).mp can
      exact (State.works_closeFrame i .command none s running filling).1.flow.trans (State.flow_finish _)
    · rw [noFrame running can]
      exact Flow.refl s
  · rw [notRunning running]
    exact Flow.refl s

theorem State.flow_releaseRing (i : RingId) (s : State) : Flow s (s.releaseRing i).1 := by
  obtain ⟨notMoving, noSlot, releases⟩ := State.releaseRing_cases i s
  by_cases moves : (s.ring i).moves = true
  · by_cases slot : (s.ring i).hasDrainSlot = true
    · rw [releases moves slot]
      exact (State.works_trigger i s).flow.trans (State.flow_finish _)
    · rw [noSlot moves slot]
      exact Flow.refl s
  · rw [notMoving moves]
    exact Flow.refl s

/-- A global ACK clears the refusal state alone (08 R145). -/
theorem Reg.kept_ackRefusal {p : Reg} (set : p ≠ .globalAttn) (record : p ≠ .refusal) (causes : BitVec 10) (s : State) :
    p.kept s (s.ackRefusal causes) := by
  have same := Reg.kept_refl p s
  unfold State.ackRefusal
  split
  · cases p with
    | globalAttn => exact absurd rfl set
    | refusal => exact absurd rfl record
    | _ => exact same
  · exact same

/-! ### Words at the management port -/

theorem Reg.kept_portWrite {p : Reg} (a : WordAddr) (w : Word) (f : State → State) (h : ∀ s, p.kept s (f s)) (s : State) :
    p.kept s (s.portWrite a w f) := by
  unfold State.portWrite
  split
  · exact Reg.kept_trans (Reg.kept_pins p s s.resetLow s.waiting s.levels _ [] s.choices) (h s.fresh.movePast)
  · exact Reg.kept_fresh p s

/-- A command that names a ring changes the command result beside what its ring makes of it (10 R166, R167). -/
theorem Reg.kept_command {p : Reg} (other : p ≠ .result) (c : CommandKind) (n : RingField) (causes : BitVec 10)
    (f : RingId → State → State × Reply) (h : ∀ i s, p.kept s (f i s).1) (s : State) : p.kept s (s.command c n causes f) := by
  refine Reg.kept_portWrite _ _ _ (fun t => ?_) s
  unfold State.takeCommand
  split
  · exact Reg.kept_trans (h _ t) (Reg.kept_setResult other _ _ _ _ _)
  · exact Reg.kept_setResult other _ _ _ _ _

theorem Reg.kept_writeEdges {p : Reg} (other : p ≠ .edges) (w : Word) (s : State) : p.kept s (s.writeEdges w) := by
  have same := Reg.kept_refl p s
  cases p with
  | edges => exact absurd rfl other
  | _ => exact same

theorem Reg.kept_writeGlobalMask {p : Reg} (other : p ≠ .globalMask) (w : Word) (s : State) :
    p.kept s (s.writeGlobalMask w) := by
  have same := Reg.kept_refl p s
  cases p with
  | globalMask => exact absurd rfl other
  | _ => exact same

/-! ### Pins, ports and time -/

/-- A response counts in STRAY_RESPONSES, or is an event (09 R156, R157). -/
theorem Reg.kept_takeResponse {p : Reg} (other : p ≠ .stray) (t : DownTag) (status : Status) (bytes : List Byte) (s : State) :
    p.kept s (s.takeResponse t status bytes) := by
  have same := Reg.kept_refl p s
  unfold State.takeResponse
  split
  · cases p with
    | stray => exact absurd rfl other
    | _ => exact same
  next e _ => exact Reg.kept_finish ((State.works_response e t status bytes s).flow.kept p)

theorem Reg.kept_seeTransition (p : Reg) (n : LineId) (rising : Bool) (s : State) : p.kept s (s.seeTransition n rising) := by
  have seen (levels : BitVec 8) (choices : Nat) : p.kept s { s with levels := levels, choices := choices } :=
    Reg.kept_pins p s s.resetLow s.waiting levels s.port s.sent choices
  unfold State.seeTransition
  dsimp only
  split
  · exact Reg.kept_finish (Reg.kept_trans (seen _ _) ((State.works_deliver n _).flow.kept p))
  · exact seen _ s.choices

/-- The decrement of the timers touches no register of software's own (07 R124). -/
theorem Reg.kept_tickAll (p : Reg) (s : State) : p.kept s s.tickAll := by
  have same := Reg.kept_refl p s
  have ring (i : RingId) := State.ring_tickAll i s
  cases p with
  | shadows => exact fun i => by rw [ring i]; rfl
  | masks => exact fun i => by rw [ring i]; rfl
  | attention => exact fun i b has => by rw [ring i]; exact has
  | _ => exact same

theorem Reg.kept_timebaseStep (p : Reg) (s : State) : p.kept s s.timebaseStep :=
  Reg.kept_trans (Reg.kept_trans (Reg.kept_tickAll p s)
    (Reg.kept_pins p s.tickAll s.resetLow s.waiting s.levels s.port s.sent _)) ((State.flow_timebaseStep s).kept p)

/-! ### Every command -/

/-- A command keeps every register that is not its own: it is work within events (`Flow`), beside a change of its own registers. -/
theorem exec_keeps_register (c : Instr) {s t : State} {p : Reg} (h : exec c s = .next t) (notReset : c ≠ .resetN)
    (notRegister : ∀ a w, c ≠ .registerWrite a w) (noWord : ∀ mosi, c = .frameBegin mosi → s.completesNoWord mosi = true)
    (free : p.ownedBy c = false) : p.kept s t := by
  have other {q : Reg} (owned : q.ownedBy c = true) : p ≠ q := fun e => by
    rw [e, owned] at free
    cases free
  have fresh := Reg.kept_fresh p s
  cases c with
  | resetN => exact absurd rfl notReset
  | registerWrite a w => exact absurd rfl (notRegister a w)
  | resetNRise levels =>
    cases h
    split
    · exact Reg.kept_finish (Reg.kept_pins p s false s.waiting levels _ [] s.choices)
    · exact fresh
  | upstreamRequest q =>
    have presented := Reg.kept_pins p s s.resetLow (s.waiting ++ [q]) s.levels s.port [] s.choices
    simp only [exec, execUpstreamRequest] at h
    split at h
    · cases h
      split
      · exact presented
      · exact Reg.kept_finish presented
    · cases h
  | downstreamResponse tag status data =>
    simp only [exec, execDownstreamResponse] at h
    split at h
    · cases h
      split
      · exact fresh
      · exact Reg.kept_trans fresh (Reg.kept_takeResponse (other rfl) tag status data s.fresh)
    · cases h
  | eventEdge n rising =>
    cases h
    split
    · exact fresh
    · exact Reg.kept_trans fresh (Reg.kept_seeTransition p n rising s.fresh)
  | lineTransition n rising =>
    cases h
    split
    · exact fresh
    · exact Reg.kept_trans fresh (Reg.kept_seeTransition p n rising s.fresh)
  | stallTimerExpiry i side => cases h; exact (State.flow_expire i side s.fresh).kept_fresh p
  | timebaseStep => cases h; exact Reg.kept_trans fresh (Reg.kept_timebaseStep p s.fresh)
  | frameBegin mosi =>
    obtain ⟨frame, sent, choices, bits⟩ := State.takeFrameBits_noWord mosi s (noWord mosi rfl)
    cases h
    rw [bits]
    exact Reg.kept_pins p s s.resetLow s.waiting s.levels _ sent choices
  | frameEnd => cases h; exact Reg.kept_pins p s s.resetLow s.waiting s.levels _ [] s.choices
  | shadowWrite i k w =>
    cases h
    exact Reg.kept_portWrite _ _ _
      (fun u => Reg.kept_modRing i _ u (fun e => absurd e (other rfl)) (fun _ => rfl) fun _ _ => id) s
  | attentionMaskWrite i w =>
    cases h
    exact Reg.kept_portWrite _ _ _
      (fun u => Reg.kept_modRing i _ u (fun _ => rfl) (fun e => absurd e (other rfl)) fun _ _ => id) s
  | eventLineConfiguration w => cases h; exact Reg.kept_portWrite _ _ _ (Reg.kept_writeEdges (other rfl) w) s
  | globalAttentionMaskWrite w => cases h; exact Reg.kept_portWrite _ _ _ (Reg.kept_writeGlobalMask (other rfl) w) s
  | commit n => cases h; exact Reg.kept_command (other rfl) _ _ _ _ (fun i u => (State.flow_commitRing i u).kept p) s
  | start n => cases h; exact Reg.kept_command (other rfl) _ _ _ _ (Reg.kept_startRing p) s
  | stop n => cases h; exact Reg.kept_command (other rfl) _ _ _ _ (fun i u => (State.flow_stopRing i u).kept p) s
  | abort n => cases h; exact Reg.kept_command (other rfl) _ _ _ _ (fun i u => (State.flow_abortRing i u).kept p) s
  | close n => cases h; exact Reg.kept_command (other rfl) _ _ _ _ (fun i u => (State.flow_closeRing i u).kept p) s
  | release n => cases h; exact Reg.kept_command (other rfl) _ _ _ _ (fun i u => (State.flow_releaseRing i u).kept p) s
  | ack n causes =>
    cases h
    exact Reg.kept_command (other rfl) _ _ _ _
      (fun i u => Reg.kept_modRing i _ u (fun _ => rfl) (fun _ => rfl) fun e => absurd e (other rfl)) s
  | ackGlobal n causes =>
    cases h
    exact Reg.kept_portWrite _ _ _ (fun u => Reg.kept_trans (Reg.kept_ackRefusal (other rfl) (other rfl) causes u)
      (Reg.kept_setResult (other rfl) _ _ _ _ _)) s
  | recordIssue => cases h; exact (State.flow_issueOne s.fresh).kept_fresh p
  | reExamination => cases h; exact (State.flow_reexamineNow s.fresh).kept_fresh p
  | releaseCompletion i k => cases h; exact (State.flow_completeRelease i k s.fresh).kept_fresh p
  | closingAdvance i k => cases h; exact (State.flow_advanceClosing i k s.fresh).kept_fresh p
  | settle i k => cases h; exact (State.flow_settleRecording i k s.fresh).kept_fresh p
  | pendingCommitApplication i => cases h; exact (State.flow_applyAlone i s.fresh).kept_fresh p
  | endingCompletion i => cases h; exact (State.flow_completeEnding i s.fresh).kept_fresh p
  | abortCompletion i => cases h; exact (State.flow_completeAborting i s.fresh).kept_fresh p

/-- Settles O58: a command that is none of a register's own keeps it. -/
theorem onlyOwnCommandsChangeRegisters : Obligations.OnlyOwnCommandsChangeRegisters := by
  intro c s t h notReset notRegister noWord
  have kept (p : Reg) (free : p.ownedBy c = false) : p.kept s t := exec_keeps_register c h notReset notRegister noWord free
  refine ⟨kept .queue ?_, fun other => kept .shadows ?_, fun other => kept .masks ?_, fun other => kept .globalMask ?_,
    fun other => kept .edges ?_, fun other noAck => kept .result ?_, fun other => kept .stray ?_,
    fun other => kept .attention ?_, fun other => kept .globalAttn ?_, fun other => kept .refusal ?_⟩
  · cases c <;> rfl
  · cases c with
    | shadowWrite i k w => exact absurd rfl (other i k w)
    | _ => rfl
  · cases c with
    | attentionMaskWrite i w => exact absurd rfl (other i w)
    | _ => rfl
  · cases c with
    | globalAttentionMaskWrite w => exact absurd rfl (other w)
    | _ => rfl
  · cases c with
    | eventLineConfiguration w => exact absurd rfl (other w)
    | _ => rfl
  · rw [Bool.eq_false_iff]
    intro owned
    have ⟨n, x, cases⟩ := Reg.ownedBy_result owned
    obtain ⟨commit, start, stop, abort, close, release⟩ := other n
    obtain ⟨ack, ackGlobal⟩ := noAck n x
    tauto
  · cases c with
    | downstreamResponse u x b => exact absurd rfl (other u x b)
    | _ => rfl
  · cases c with
    | ack n x => exact absurd rfl (other n x)
    | _ => rfl
  · cases c with
    | ackGlobal n x => exact absurd rfl (other n x)
    | _ => rfl
  · cases c with
    | ackGlobal n x => exact absurd rfl (other n x)
    | _ => rfl

end Sys2Proof.Machine
end

section
/-! PROOFS. RESET_N and its rise: the values that RESET_N loads, and the machine right after reset (06 R103, 07 R120, 09 R159,
10 R163). -/

namespace Sys2Proof.Machine

/-! ### The reset values -/

@[simp] theorem State.ring_reset (i : RingId) : State.reset.ring i = Ring.zero := by
  simp [State.ring, State.reset]

@[simp] theorem State.ring_inReset (i : RingId) (s : State) : s.inReset.ring i = Ring.zero := State.ring_reset i

theorem State.table_inReset (t : DownTag) (s : State) : s.inReset.table[t] = none := by
  simp [State.inReset, State.reset]

theorem State.edges_inReset (n : LineId) (s : State) : s.inReset.edges[n] = .none := by
  simp [State.inReset, State.reset]

/-! ### Attention: RESET_N empties every set (10 R169, R170) -/

/-- ATTN_N is released exactly while no ring's set meets its mask and the global one is not both set and unmasked (10 R170,
R171). -/
theorem State.attnAsserted_eq_false (s : State) : s.attnAsserted = false ↔
    (∀ i, (s.ring i).attnPending = false) ∧ s.globalPending = false := by
  simp [State.attnAsserted, State.ring, Vector.any_eq_false, Fin.forall_iff]

theorem Ring.attnPending_zero : Ring.zero.attnPending = false := rfl

theorem State.attnAsserted_inReset (s : State) : s.inReset.attnAsserted = false :=
  (State.attnAsserted_eq_false _).mpr ⟨fun i => by rw [State.ring_inReset, Ring.attnPending_zero], rfl⟩

/-- Settles O4: the tables and the rings element by element, ATTN_N from the empty sets; every other field as `State.inReset`
gives it. -/
theorem resetNLoadsResetValues : Obligations.ResetNLoadsResetValues := fun s =>
  ⟨s.inReset, rfl, rfl, rfl, rfl, fun t => State.table_inReset t s, rfl, rfl, rfl, rfl, rfl, rfl,
    fun n => State.edges_inReset n s, rfl, rfl, rfl, State.attnAsserted_inReset s, rfl, rfl, fun i => State.ring_inReset i s⟩

/-! ### The machine right after reset -/

theorem State.anyOffer_reset : State.reset.anyOffer = false :=
  (State.anyOffer_eq_false _).mpr fun i => by rw [State.ring_reset, Ring.offers_eq_false]; exact .inl rfl

theorem State.quiet_reset : State.reset.quiet = true :=
  State.quiet_of_flags rfl rfl (State.granted_of_noOffer State.anyOffer_reset) rfl

theorem State.sound_reset : State.reset.everyRing Ring.Sound := fun i => by
  rw [State.ring_reset]; exact Ring.sound_zero

theorem State.holdBounded_reset : State.reset.holdBounded := Nat.zero_le _

/-- The hold queue is empty, so there is no entry to stand out of order. -/
theorem State.holdOrdered_reset : State.reset.holdOrdered := by
  simp [State.holdOrdered, State.reset]

/-- The refusal record is empty, REFUSAL is clear, and LATER_COUNT is 0. -/
theorem State.refusalSound_reset : State.reset.refusalSound := ⟨rfl, fun _ => rfl, Nat.zero_le _⟩

/-- With CS_N high, the lines low, nothing waiting and the model's own fields empty, the rise of RESET_N after RESET_N leaves
the reset values alone (07 R120, 10 R163). -/
theorem State.riseFromReset_inReset {s : State} (high : s.port.csLow = false) (noWaiting : s.waiting = [])
    (noPending : s.pending = []) (noChoices : s.choices = 0) : s.inReset.fresh.riseFromReset 0 = State.reset := by
  simp [State.riseFromReset, State.fresh, State.inReset, State.reset, high, noWaiting, noPending, noChoices]

theorem exec_resetNRise_of_low (levels : BitVec 8) {s : State} (low : s.resetLow = true) :
    exec (.resetNRise levels) s = .next (s.fresh.riseFromReset levels).finish := by
  simp only [exec, execResetNRise, low, if_true]

/-- RESET_N and its rise leave `State.reset`: its event ends at once, since nothing is left to do in it. -/
theorem exec_resetNRise_inReset {s : State} (high : s.port.csLow = false) (noWaiting : s.waiting = [])
    (noPending : s.pending = []) (noChoices : s.choices = 0) : exec (.resetNRise 0) s.inReset = .next State.reset := by
  rw [exec_resetNRise_of_low 0 rfl, State.riseFromReset_inReset high noWaiting noPending noChoices,
    State.finish_of_quiet _ State.quiet_reset]

/-- Settles O7: the way to the reset state, and the invariants, which need the empty queues and `Ring.zero` alone. -/
theorem resetStateIsSound : Obligations.ResetStateIsSound :=
  ⟨fun s high noWaiting noPending noChoices => ⟨s.inReset, rfl, exec_resetNRise_inReset high noWaiting noPending noChoices⟩,
    State.holdBounded_reset, State.holdOrdered_reset, State.refusalSound_reset, State.quiet_reset,
    (State.everyRing_sound_iff _).mp State.sound_reset⟩

end Sys2Proof.Machine
end

section
/-! PROOFS. Event lines and the timebase: a transition that a detector sees, the delivery of an edge, the timers' countdown and their
expiries, and the lines' levels at the rise of RESET_N (07 R120 to R129, 10 R163). -/

namespace Sys2Proof.Machine

/-! ### A transition at one line -/

/-- The line's own level follows the transition, and the other lines keep theirs (07 R120). -/
theorem getLsbD_levelSet (n m : LineId) (up : Bool) (levels : BitVec 8) :
    (levelSet n up levels).getLsbD m.val = if m = n then up else levels.getLsbD m.val := by
  have bit : (1#8 <<< n.val).getLsbD m.val = decide (m = n) := by revert n m; decide
  have inside : m.val < 8 := m.isLt
  cases up with
  | true =>
    rw [levelSet, if_pos rfl, BitVec.getLsbD_or, bit]
    by_cases own : m = n <;> simp [own]
  | false =>
    rw [levelSet, if_neg Bool.false_ne_true, BitVec.getLsbD_and, BitVec.getLsbD_not, bit]
    by_cases own : m = n <;> simp [own, inside]

/-- The transitions that EDGE selects (Table 7-1). -/
theorem edgeSelects_eq_true (e : EdgeSel) (up : Bool) : edgeSelects e up = true ↔
    e = .both ∨ (e = .rising ∧ up = true) ∨ (e = .falling ∧ up = false) := by
  cases e <;> simp [edgeSelects]

/-- The transitions that EDGE leaves out (Table 7-1). -/
theorem edgeSelects_eq_false (e : EdgeSel) (up : Bool) : edgeSelects e up = false ↔
    e = .none ∨ (e = .rising ∧ up = false) ∨ (e = .falling ∧ up = true) := by
  cases e <;> simp [edgeSelects]

/-! ### The sides that an edge reaches -/

/-- CLOSE_EVENT for the fill side, RELEASE_EVENT for the drain side (07 R122). -/
def Descriptor.eventField (side : Side) (d : Descriptor) : BitVec 4 :=
  match side with
  | .fill => d.closeEvent
  | .drain => d.releaseEvent

theorem Ring.mem_receivers (n : LineId) (i j : RingId) (side : Side) (r : Ring) : (i, side) ∈ r.receivers n j ↔
    i = j ∧ namesLine (r.active.eventField side) n = true := by
  unfold Ring.receivers
  rw [List.mem_append]
  cases side <;> simp [Descriptor.eventField, and_comm]

/-- An edge of a line reaches the sides whose event field names the line (07 R122). -/
theorem State.mem_receivers (n : LineId) (i : RingId) (side : Side) (s : State) :
    (i, side) ∈ s.receivers n ↔ ((s.ring i).active.eventField side).toNat = 8 + n.val := by
  unfold State.receivers
  rw [List.mem_flatMap]
  constructor
  · rintro ⟨j, _, reached⟩
    obtain ⟨rfl, names⟩ := (Ring.mem_receivers n i j side _).mp reached
    exact beq_iff_eq.mp names
  · exact fun names => ⟨i, allRings_complete i, (Ring.mem_receivers n i i side _).mpr ⟨rfl, beq_iff_eq.mpr names⟩⟩

/-! ### The two rows of a transition -/

section

variable {c : Instr} {n : LineId} {up : Bool} {s : State}

/-- While RESET_N is low the detectors see no transition (07 R120). -/
theorem exec_transition_of_low (row : c = .eventEdge n up ∨ c = .lineTransition n up) (low : s.resetLow = true) :
    exec c s = .next s.fresh := by
  rcases row with rfl | rfl
  · simp only [exec, execEventEdge, low, if_true]
  · simp only [exec, execLineTransition, low, if_true]

/-- EVENT_EDGE and LINE_TRANSITION are one operation (log 23). -/
theorem exec_transition_of_high (row : c = .eventEdge n up ∨ c = .lineTransition n up) (high : s.resetLow = false) :
    exec c s = .next (s.fresh.seeTransition n up) := by
  rcases row with rfl | rfl
  · simp only [exec, execEventEdge, high, Bool.false_eq_true, if_false]
  · simp only [exec, execLineTransition, high, Bool.false_eq_true, if_false]

theorem State.seeTransition_of_unselected (no : edgeSelects s.edges[n] up = false) :
    s.seeTransition n up = { s with levels := levelSet n up s.levels } := by
  simp only [State.seeTransition, no, Bool.false_eq_true, if_false]

/-- A selected transition is delivered to its receivers in some order, and the event ends (07 R121, R122, log 10). -/
theorem State.seeTransition_of_selected (selected : edgeSelects s.edges[n] up = true) :
    ∃ (order : List (RingId × Side)) (count : Nat), order.Perm (s.receivers n) ∧
      s.seeTransition n up = State.finish (order.foldl (fun t x => t.takeEvent x)
        { s with levels := levelSet n up s.levels, choices := count }) := by
  refine ⟨takeOrder (s.receivers n).length s.choices (s.receivers n), s.choices + ((s.receivers n).length - 1),
    takeOrder_perm _ _ _, ?_⟩
  simp only [State.seeTransition, selected, if_true]
  rfl

end

/-- Settles O28: the level bit by bit, the receivers ring by ring, and the transition by whether EDGE selects it. -/
theorem transitionIsSeenAndDelivered : Obligations.TransitionIsSeenAndDelivered := by
  refine ⟨getLsbD_levelSet, fun s => rfl, State.nodup_receivers,
    fun n i s => ⟨State.mem_receivers n i .fill s, State.mem_receivers n i .drain s⟩, fun c n up s row => ?_⟩
  refine ⟨fun low => exec_transition_of_low row low, fun high no => ?_, fun high selected => ?_⟩
  · have seen := State.seeTransition_of_unselected (s := s.fresh) ((edgeSelects_eq_false _ _).mpr no)
    exact (exec_transition_of_high row high).trans (congrArg Host.Outcome.next seen)
  · obtain ⟨order, count, perm, seen⟩ :=
      State.seeTransition_of_selected (s := s.fresh) ((edgeSelects_eq_true _ _).mpr selected)
    exact ⟨order, count, perm, (exec_transition_of_high row high).trans (congrArg Host.Outcome.next seen)⟩

/-! ### A step of the timebase -/

/-- The decrement of a timebase step, ring by ring (07 R124). -/
theorem State.tickAll_eq (s : State) : s.tickAll = { s with rings := Vector.ofFn fun i => (s.ring i).tick } := by
  have rings : s.rings.map Ring.tick = Vector.ofFn fun i => (s.ring i).tick := by
    ext i inside
    simp [State.ring]
  rw [State.tickAll, rings]

/-- Each timer that reaches 0 stands once among those due. -/
theorem State.nodup_dueTimers (s : State) : s.dueTimers.Nodup := by
  unfold State.dueTimers
  rw [List.nodup_flatMap]
  refine ⟨fun i _ => by split <;> split <;> simp, ?_⟩
  refine (show allRings.Pairwise (· ≠ ·) by decide).imp ?_
  intro i j other x ofI ofJ
  have ring {k : RingId} {fill drain : Bool}
      (mem : x ∈ (if fill then [(k, Side.fill)] else []) ++ (if drain then [(k, Side.drain)] else [])) : x.1 = k := by
    rcases List.mem_append.mp mem with mem | mem <;> split at mem <;> simp at mem <;> rw [mem]
  exact other ((ring ofI).symm.trans (ring ofJ))

theorem State.dueTimers_eq_nil {s : State} (none : ∀ i side, (s.ring i).timer side ≠ some 0) : s.dueTimers = [] :=
  List.eq_nil_iff_forall_not_mem.mpr fun x due => none x.1 x.2 ((State.mem_dueTimers x.1 x.2 s).mp due)

/-- A step in which no timer reaches 0 is the decrement alone (07 R124). -/
theorem State.timebaseStep_of_noneDue {s : State} (none : s.tickAll.dueTimers = []) : s.timebaseStep = s.tickAll := by
  simp only [State.timebaseStep, none]
  rfl

theorem Ring.timerRunOut_iff (side : Side) (r : Ring) : r.timerRunOut side = true ↔
    r.timer side = some 0 ∧ (r.runState = .running ∨ r.runState = .ending) := by
  simp [Ring.timerRunOut, Ring.moves]

/-- A step of the timebase takes the turns of the due timers one after another, in some order (07 R127, R129, log 10). -/
theorem State.timebaseStep_order (s : State) : ∃ (order : List (RingId × Side)) (count : Nat), order.Nodup ∧
    (∀ x, x ∈ order ↔ (s.tickAll.ring x.1).timer x.2 = some 0) ∧
    s.timebaseStep = order.foldl State.takeExpiry { s.tickAll with choices := count } :=
  have perm := takeOrder_perm s.tickAll.dueTimers.length s.choices s.tickAll.dueTimers
  ⟨_, _, perm.nodup_iff.mpr (State.nodup_dueTimers _), fun x => perm.mem_iff.trans (State.mem_dueTimers x.1 x.2 _), rfl⟩

/-- Settles O30: the decrement as `State.tickAll_eq` has it, and each due timer's turn as `State.takeExpiry` takes it. -/
theorem timebaseCountsTimersDown : Obligations.TimebaseCountsTimersDown := by
  intro s ticked runOut
  have tick : s.fresh.tickAll = { s with sent := [], rings := Vector.ofFn ticked } := State.tickAll_eq s.fresh
  have out (x : RingId × Side) (t : State) : runOut x t ↔ (t.ring x.1).timer x.2 = some 0 := by
    obtain ⟨i, side⟩ := x
    cases side <;> exact Iff.rfl
  refine ⟨fun none => ⟨s.fresh.tickAll, ?_, rfl, fun i => State.ring_tickAll i s.fresh⟩, ?_⟩
  · refine congrArg Host.Outcome.next (State.timebaseStep_of_noneDue (State.dueTimers_eq_nil fun i side => ?_))
    rw [State.ring_tickAll]
    cases side with
    | fill => exact (none i).1
    | drain => exact (none i).2
  · obtain ⟨order, count, nodup, mem, step⟩ := State.timebaseStep_order s.fresh
    refine ⟨order, count, nodup, fun x => ?_, ?_⟩
    · rw [mem, out, tick]
      rfl
    · refine congrArg Host.Outcome.next (step.trans ?_)
      rw [tick]
      refine List.foldl_ext _ _ _ fun t x _ => ?_
      refine if_congr ((Ring.timerRunOut_iff _ _).trans (and_congr_left' (out x t).symm)) ?_ rfl
      obtain ⟨i, side⟩ := x
      cases side <;> rfl

/-! ### The rise of RESET_N -/

theorem exec_resetNRise_of_high (levels : BitVec 8) {s : State} (high : s.resetLow = false) :
    exec (.resetNRise levels) s = .next s.fresh := by
  simp only [exec, execResetNRise, high, Bool.false_eq_true, if_false]

/-- Settles O6: the rise of RESET_N ends its event after `State.riseFromReset`; without a fall before it, it is no event. -/
theorem resetNRiseSamplesLevels : Obligations.ResetNRiseSamplesLevels :=
  fun levels _ => ⟨fun low => exec_resetNRise_of_low levels low, fun high => exec_resetNRise_of_high levels high⟩

end Sys2Proof.Machine
end

section
/-! PROOFS. The event line configuration and the attention masks, written and read back, and the words of the register window that
have a fixed value (07 R120, 10 R170, 12 R174, R175, R179). -/

namespace Sys2Proof.Machine

/-! ### Words of fixed value -/

/-- The command register and every word address that Table 12-1 leaves unassigned read 0 (12 R174). -/
theorem State.readGlobal_unassigned {a : Nat}
    (gap : a ∉ [0x00, 0x01, 0x02, 0x05, 0x08, 0x09, 0x0A, 0x10, 0x11, 0x20, 0x21, 0x22]) (s : State) :
    s.readGlobal a = 0 := by
  simp only [List.mem_cons, List.not_mem_nil, or_false, not_or] at gap
  unfold State.readGlobal
  split
  case h_13 => rfl
  all_goals omega

theorem State.readWord_unassigned {a : WordAddr} (outside : a.toNat < 0x1000 ∨ 0x2000 ≤ a.toNat)
    (gap : a.toNat ∉ [0x00, 0x01, 0x02, 0x05, 0x08, 0x09, 0x0A, 0x10, 0x11, 0x20, 0x21, 0x22]) (s : State) :
    s.readWord a = 0 := by
  unfold State.readWord
  dsimp only
  split
  · exact State.readGlobal_unassigned gap s
  · rw [if_neg (by omega)]

/-- The offsets between the parts of a ring's block read 0 (12 R174, Table 12-2). -/
theorem Ring.readWord_gap {off : Nat} (gap : (0x020 ≤ off ∧ off < 0x040) ∨ (0x061 ≤ off ∧ off < 0x080) ∨
    (0x08C ≤ off ∧ off < 0x0C0) ∨ (0x0E0 ≤ off ∧ off < 0x100) ∨ (0x109 ≤ off ∧ off < 0x140) ∨
    (0x14A ≤ off ∧ off < 0x180) ∨ (0x182 ≤ off ∧ off < 0x400)) (r : Ring) : r.readWord off = 0 := by
  unfold Ring.readWord
  rcases gap with gap | gap | gap | gap | gap | gap | gap <;> simp (disch := omega) only [if_neg, if_pos]

/-! ### EDGE -/

/-- EDGE reads back the two bits that were written to it (12 R175). -/
theorem edgeCode_edgeOf (bits : BitVec 2) : edgeCode (edgeOf bits) = bits.toNat := by
  revert bits
  decide

theorem State.edgeWord_writeEdges (w : Word) (s : State) : (s.writeEdges w).edgeWord = w &&& 0x0000FFFF#32 := by
  have written : (s.writeEdges w).edgeWord =
      packWord ((List.finRange 8).map fun n : LineId => ⟨2 * n.val, 2, (w.extractLsb' (2 * n.val) 2).toNat⟩) := by
    simp only [State.edgeWord, State.edges_writeEdges, Fin.getElem_fin, Vector.getElem_ofFn, edgeCode_edgeOf]
  have packed := packWord_extracted ((List.finRange 8).map fun n : LineId => (2 * n.val, 2)) w
  rw [List.map_map, List.map_map] at packed
  exact written.trans packed

/-! ### The attention masks -/

/-- The attention mask of ring i stands at the offset 181h of its block (12 R179). -/
theorem State.readWord_maskAddr (i : RingId) (s : State) : s.readWord (maskAddr i) = (s.ring i).mask.setWidth 32 := by
  have addr : maskAddr i = BitVec.ofNat 16 (0x1000 + 0x400 * i.val + 0x181) := by
    rw [maskAddr, ringBlock, Nat.mul_comm i.val]
  rw [addr]
  exact State.ringWord_eq i 0x181 (by decide) s

/-- The ten low bits of a word, as they are read back in a word (12 R179). -/
theorem setWidth_extractLsb'_mask (w : Word) : (w.extractLsb' 0 10).setWidth 32 = w &&& 0x000003FF#32 := by
  apply BitVec.eq_of_getLsbD_eq
  intro n lt
  rw [BitVec.getLsbD_setWidth, BitVec.getLsbD_extractLsb', BitVec.getLsbD_and, Nat.zero_add]
  interval_cases n <;> simp

theorem State.readWord_globalMask (s : State) : s.readWord 0x0021#16 = packWord [⟨0, 1, s.globalMask.toNat⟩] := rfl

/-- Settles O35: the words of fixed value, and each of the three writes with what it reads back. -/
theorem configurationAndMaskWrites : Obligations.ConfigurationAndMaskWrites := by
  refine ⟨fun s => ⟨rfl, rfl, ?_, fun a outside gap => State.readWord_unassigned outside gap s⟩,
    fun i off s gap => ?_, fun w i s => ⟨fun takes => ?_, fun takes => ?_, fun takes => ?_⟩⟩
  · exact wordHolds_of_pack [⟨0, 1, s.globalAttn.toNat⟩] rfl rfl (by simp) (by simp)
  · rw [State.ringWord_eq i off (by omega), Ring.readWord_gap gap]
  · refine ⟨s.fresh.movePast.writeEdges w, congrArg Host.Outcome.next (State.portWrite_taken takes _), rfl, fun n => ?_,
      State.edgeWord_writeEdges w s.fresh.movePast⟩
    rw [State.edges_writeEdges, Fin.getElem_fin, Vector.getElem_ofFn]
    rfl
  · refine ⟨s.fresh.movePast.writeMask i w, congrArg Host.Outcome.next (State.portWrite_taken takes _), rfl, ?_⟩
    rw [State.readWord_maskAddr, State.writeMask, State.ring_modRing_self]
    exact setWidth_extractLsb'_mask w
  · refine ⟨s.fresh.movePast.writeGlobalMask w, congrArg Host.Outcome.next (State.portWrite_taken takes _), rfl, ?_⟩
    rw [State.readWord_globalMask, State.globalMask_writeGlobalMask, toNat_getLsbD]
    exact packWord_extracted [(0, 1)] w

end Sys2Proof.Machine
end

section
/-! PROOFS. What every command keeps of the hold queue, the refusal record and the queue of commands: the refusal record full exactly
while REFUSAL is set, and a next state of every well-formed command (08 R144, R145, log 17). -/

namespace Sys2Proof.Machine

/-! ### A property of the parts that only events, RESET_N and a global ACK change -/

/-- The hold queue with its arrival orders, the refusal state and the queue of commands. -/
def State.eventParts (s : State) : List Held × Nat × Option RefusalRecord × Nat × Bool × List Instr :=
  (s.hold, s.nextOrder, s.refusal, s.laterCount, s.globalAttn, s.pending)

/-- A property of those parts that work within an event keeps (`Flow`), and each of the three changes outside one: of any other
part of the state, a global ACK that carries REFUSAL (08 R145), and RESET_N. -/
structure Lasting (P : State → Prop) : Prop where
  flow : ∀ {s t : State}, Flow s t → P s → P t
  aside : ∀ {s t : State}, t.eventParts = s.eventParts → P s → P t
  acked : ∀ {s : State}, P s → P { s with globalAttn := false, refusal := none, laterCount := 0 }
  inReset : ∀ {s : State}, P s → P s.inReset

section
variable {P : State → Prop} (lasting : Lasting P)
include lasting

theorem Lasting.finish {s : State} (p : P s) : P s.finish := lasting.flow (State.flow_finish s) p

/-! ### The commands of the command register -/

theorem Lasting.setResult (c : CommandKind) (n : RingField) (g : Bool) (reply : Reply) {s : State} (p : P s) :
    P (s.setResult c n g reply) := by
  cases reply <;> exact lasting.aside (s := s) rfl p

theorem Lasting.startRing (i : RingId) {s : State} (p : P s) : P (s.startRing i).1 := by
  unfold State.startRing
  dsimp only
  split
  · exact p
  split
  · exact p
  split
  · exact p
  · exact lasting.finish (lasting.aside (s := s) rfl p)

theorem Lasting.ackRing (causes : BitVec 10) (i : RingId) {s : State} (p : P s) : P (s.ackRing causes i).1 :=
  lasting.aside (s := s) rfl p

theorem Lasting.takeCommand (c : CommandKind) (n : RingField) {f : RingId → State → State × Reply}
    (h : ∀ i (s : State), P s → P (f i s).1) {s : State} (p : P s) : P (s.takeCommand c n f) := by
  unfold State.takeCommand
  split
  · exact lasting.setResult _ _ _ _ (h _ s p)
  · exact lasting.setResult _ _ _ _ p

theorem Lasting.takeGlobalAck (n : RingField) (causes : BitVec 10) {s : State} (p : P s) : P (s.takeGlobalAck n causes) := by
  refine lasting.setResult _ _ _ _ ?_
  unfold State.ackRefusal
  split
  · exact lasting.acked p
  · exact p

theorem Lasting.writeCommand (w : Word) {s : State} (p : P s) : P (s.writeCommand w) := by
  unfold State.writeCommand
  dsimp only
  split
  · exact lasting.takeCommand _ _ (fun i s => lasting.flow (State.flow_commitRing i s)) p
  · exact lasting.takeCommand _ _ (fun i _ => lasting.startRing i) p
  · exact lasting.takeCommand _ _ (fun i s => lasting.flow (State.flow_stopRing i s)) p
  · exact lasting.takeCommand _ _ (fun i s => lasting.flow (State.flow_abortRing i s)) p
  · exact lasting.takeCommand _ _ (fun i s => lasting.flow (State.flow_closeRing i s)) p
  · exact lasting.takeCommand _ _ (fun i s => lasting.flow (State.flow_releaseRing i s)) p
  · split
    · exact lasting.takeGlobalAck _ _ p
    · exact lasting.takeCommand _ _ (fun i _ => lasting.ackRing _ i) p
  · exact p

/-! ### Words at the management port -/

theorem Lasting.writeWord (a : WordAddr) (w : Word) {s : State} (p : P s) : P (s.writeWord a w) := by
  unfold State.writeWord
  dsimp only
  split
  · exact lasting.aside (s := s) rfl p
  split
  · exact lasting.writeCommand w p
  split
  · exact lasting.aside (s := s) rfl p
  split
  · split
    · exact lasting.aside (s := s) rfl p
    split
    · exact lasting.aside (s := s) rfl p
    · exact p
  · exact p

theorem Lasting.portWrite (a : WordAddr) (w : Word) (f : State → State) (h : ∀ s, P s → P (f s)) {s : State} (p : P s) :
    P (s.portWrite a w f) := by
  unfold State.portWrite
  split
  · exact h _ (lasting.aside (s := s) rfl p)
  · exact lasting.aside (s := s) rfl p

theorem Lasting.command (c : CommandKind) (n : RingField) (causes : BitVec 10) {f : RingId → State → State × Reply}
    (h : ∀ i (s : State), P s → P (f i s).1) {s : State} (p : P s) : P (s.command c n causes f) :=
  lasting.portWrite _ _ _ (fun _ => lasting.takeCommand c n h) p

theorem Lasting.takeFrameBits (mosi : List Bool) {s : State} (p : P s) : P (s.takeFrameBits mosi) := by
  refine State.takeFrameBits_induct mosi s ?_ (fun _ _ => lasting.aside rfl) (fun _ => lasting.aside rfl)
    (fun _ _ => lasting.aside rfl) (fun a w _ => lasting.writeWord a w)
  unfold State.openFrame
  split <;> exact lasting.aside (s := s) rfl p

theorem Lasting.sampleRead {s : State} (p : P s) : P s.sampleRead := by
  unfold State.sampleRead
  split
  case h_1 | h_2 => exact lasting.aside (s := s) rfl p
  all_goals exact p

/-! ### Pins, ports and time -/

theorem Lasting.takeResponse (t : DownTag) (status : Status) (bytes : List Byte) {s : State} (p : P s) :
    P (s.takeResponse t status bytes) := by
  unfold State.takeResponse
  split
  · exact lasting.aside (s := s) rfl p
  next e _ => exact lasting.finish (lasting.flow (State.works_response e t status bytes s).flow p)

theorem Lasting.seeTransition (n : LineId) (rising : Bool) {s : State} (p : P s) : P (s.seeTransition n rising) := by
  unfold State.seeTransition
  dsimp only
  split
  · exact lasting.finish (lasting.flow (State.works_deliver n _).flow (lasting.aside (s := s) rfl p))
  · exact lasting.aside (s := s) rfl p

theorem Lasting.timebaseStep {s : State} (p : P s) : P s.timebaseStep :=
  lasting.flow (State.flow_timebaseStep s) (lasting.aside (s := s) rfl p)

/-! ### Every command -/

theorem Lasting.exec (c : Instr) {s t : State} (h : Machine.exec c s = .next t) (p : P s) : P t := by
  have fresh : P s.fresh := lasting.aside (s := s) rfl p
  cases c with
  | resetN => cases h; exact lasting.inReset p
  | resetNRise levels =>
    cases h
    split
    · exact lasting.finish (lasting.aside (s := s) rfl p)
    · exact fresh
  | upstreamRequest q =>
    simp only [Machine.exec, execUpstreamRequest] at h
    split at h
    · cases h
      split
      · exact lasting.aside (s := s) rfl p
      · exact lasting.finish (lasting.aside (s := s) rfl p)
    · cases h
  | downstreamResponse tag status data =>
    simp only [Machine.exec, execDownstreamResponse] at h
    split at h
    · cases h
      split
      · exact fresh
      · exact lasting.takeResponse tag status data fresh
    · cases h
  | eventEdge n rising | lineTransition n rising =>
    cases h
    split
    · exact fresh
    · exact lasting.seeTransition n rising fresh
  | stallTimerExpiry i side => cases h; exact lasting.flow (State.flow_expire i side s.fresh) fresh
  | timebaseStep => cases h; exact lasting.timebaseStep fresh
  | frameBegin mosi => cases h; exact lasting.takeFrameBits mosi p
  | frameEnd => cases h; exact lasting.aside (s := s) rfl p
  | shadowWrite i k w => cases h; exact lasting.portWrite _ _ (State.writeShadow i k w) (fun _ => lasting.aside rfl) p
  | eventLineConfiguration w => cases h; exact lasting.portWrite _ _ (State.writeEdges w) (fun _ => lasting.aside rfl) p
  | attentionMaskWrite i w => cases h; exact lasting.portWrite _ _ (State.writeMask i w) (fun _ => lasting.aside rfl) p
  | globalAttentionMaskWrite w => cases h; exact lasting.portWrite _ _ (State.writeGlobalMask w) (fun _ => lasting.aside rfl) p
  | registerWrite a w => cases h; exact lasting.portWrite _ _ _ (fun _ => lasting.writeWord a w) p
  | commit n => cases h; exact lasting.command _ _ _ (fun i s => lasting.flow (State.flow_commitRing i s)) p
  | start n => cases h; exact lasting.command _ _ _ (fun i _ => lasting.startRing i) p
  | stop n => cases h; exact lasting.command _ _ _ (fun i s => lasting.flow (State.flow_stopRing i s)) p
  | abort n => cases h; exact lasting.command _ _ _ (fun i s => lasting.flow (State.flow_abortRing i s)) p
  | close n => cases h; exact lasting.command _ _ _ (fun i s => lasting.flow (State.flow_closeRing i s)) p
  | release n => cases h; exact lasting.command _ _ _ (fun i s => lasting.flow (State.flow_releaseRing i s)) p
  | ack n causes => cases h; exact lasting.command _ _ _ (fun i _ => lasting.ackRing causes i) p
  | ackGlobal n causes => cases h; exact lasting.portWrite _ _ _ (fun _ => lasting.takeGlobalAck n causes) p
  | recordIssue => cases h; exact lasting.flow (State.flow_issueOne s.fresh) fresh
  | reExamination => cases h; exact lasting.flow (State.flow_reexamineNow s.fresh) fresh
  | releaseCompletion i k => cases h; exact lasting.flow (State.flow_completeRelease i k s.fresh) fresh
  | closingAdvance i k => cases h; exact lasting.flow (State.flow_advanceClosing i k s.fresh) fresh
  | settle i k => cases h; exact lasting.flow (State.flow_settleRecording i k s.fresh) fresh
  | pendingCommitApplication i => cases h; exact lasting.flow (State.flow_applyAlone i s.fresh) fresh
  | endingCompletion i => cases h; exact lasting.flow (State.flow_completeEnding i s.fresh) fresh
  | abortCompletion i => cases h; exact lasting.flow (State.flow_completeAborting i s.fresh) fresh

end

/-! ### The refusal record -/

/-- The refusal record stays full exactly while REFUSAL is set: an event keeps it so (`Flow`), and a global ACK and RESET_N empty
both together (08 R144, R145). -/
theorem lasting_refusalSound : Lasting State.refusalSound where
  flow f := f.refusal
  aside same p := by
    simp only [State.eventParts, Prod.mk.injEq] at same
    obtain ⟨_, _, record, count, set, _⟩ := same
    unfold State.refusalSound
    rw [record, count, set]
    exact p
  acked _ := ⟨rfl, fun _ => rfl, Nat.zero_le _⟩
  inReset _ := State.refusalSound_reset

/-- Settles O55: the property lasts through every command, and the port's own action leaves it. -/
theorem refusalRecordStaysSound : Obligations.RefusalRecordStaysSound := by
  intro s t p h
  unfold step at h
  split at h
  · cases h
    exact lasting_refusalSound.sampleRead p
  next c rest _ => exact lasting_refusalSound.exec c (s := s.withQueue rest) h p

/-! ### Every command completes -/

/-- The queue of commands is no command's to change. -/
theorem lasting_pending (rest : List Instr) : Lasting fun s => s.pending = rest where
  flow f p := f.pending.trans p
  aside same p := by
    simp only [State.eventParts, Prod.mk.injEq] at same
    obtain ⟨_, _, _, _, _, queue⟩ := same
    exact queue.trans p
  acked p := p
  inReset p := p

theorem exec_next_of_wellFormed {c : Instr} (formed : c.wellFormed = true) (s : State) : ∃ t, exec c s = .next t := by
  cases c with
  | upstreamRequest q => exact ⟨_, if_pos formed⟩
  | downstreamResponse tag status data => exact ⟨_, if_pos (of_decide_eq_true formed)⟩
  | _ => exact ⟨_, rfl⟩

/-- Only a request and a response have lengths that the types do not bound (08 R130, R132). -/
theorem exec_refused_of_illFormed {c : Instr} (ill : c.wellFormed = false) (s : State) : exec c s = .refused .illFormed := by
  cases c with
  | upstreamRequest q => exact if_neg (by rw [show q.wellFormed = false from ill]; decide)
  | downstreamResponse tag status data => exact if_neg (of_decide_eq_false ill)
  | _ => cases ill

/-- Settles O3: a command in the formats gives a next state, and the queue's rest lasts through it. -/
theorem everyCommandCompletes : Obligations.EveryCommandCompletes := by
  refine fun c s => ⟨fun formed => ?_, fun ill => exec_refused_of_illFormed ill s⟩
  obtain ⟨t, h⟩ := exec_next_of_wellFormed formed s
  exact ⟨t, h, (lasting_pending s.pending).exec c h rfl⟩

end Sys2Proof.Machine
end

section
/-! PROOFS. The decoder: how a request matches the apertures, the backing guard, the refusals with their record, and pass-through (08
R131 to R145, 09 R149, R156, 12 R175). -/

namespace Sys2Proof.Machine

/-! ### Aperture matching -/

section
variable (q : Request) (s : State)

/-- The decoded apertures that share a byte with the request, rings in ascending order (08 R134). -/
def State.touched : List (RingId × Side × ByteRange) :=
  s.decodedApertures.filter fun a => (requestRange q).overlaps a.2.2

variable {q s}

theorem State.mem_touched {i : RingId} {side : Side} {b : ByteRange} : (i, side, b) ∈ s.touched q ↔
    s.touchesAperture q i side = true ∧ b = (s.ring i).active.aperture side := by
  rw [State.touched, List.mem_filter, State.mem_decodedApertures, State.touchesAperture, Bool.and_eq_true]
  constructor
  · rintro ⟨⟨notIdle, rfl⟩, overlaps⟩
    exact ⟨⟨notIdle, overlaps⟩, rfl⟩
  · rintro ⟨⟨notIdle, overlaps⟩, rfl⟩
    exact ⟨⟨notIdle, rfl⟩, overlaps⟩

theorem State.touched_eq_nil : s.touched q = [] ↔ ∀ i side, s.touchesAperture q i side = false := by
  rw [List.eq_nil_iff_forall_not_mem]
  constructor
  · intro none i side
    by_contra touches
    exact none _ (State.mem_touched.mpr ⟨by simpa using touches, rfl⟩)
  · rintro none ⟨i, side, b⟩ touched
    rw [State.mem_touched, none i side] at touched
    exact absurd touched.1 Bool.false_ne_true

/-- The match by what the request touches: nothing, an aperture that holds all of it, or only such as do not (08 R134, R135). -/
theorem State.matchRequest_cases :
    (s.touched q = [] ∧ s.matchRequest q = .outside) ∨
    (∃ a ∈ s.touched q, (requestRange q).inside a.2.2 = true ∧ s.matchRequest q = .lies a.1 a.2.1) ∨
    (∃ a rest, s.touched q = a :: rest ∧ (∀ x ∈ s.touched q, (requestRange q).inside x.2.2 = false) ∧
      s.matchRequest q = .straddles a.1) := by
  unfold State.matchRequest
  dsimp only
  rw [← State.touched]
  cases found : (s.touched q).find? (fun a => (requestRange q).inside a.2.2) with
  | some a =>
    exact Or.inr (Or.inl ⟨a, List.mem_of_find?_eq_some found,
      List.find?_some (p := fun a : RingId × Side × ByteRange => (requestRange q).inside a.2.2) found, rfl⟩)
  | none =>
    cases touched : s.touched q with
    | nil => exact Or.inl ⟨rfl, rfl⟩
    | cons a rest =>
      rw [touched] at found
      exact Or.inr (Or.inr ⟨a, rest, rfl, by simpa using found, rfl⟩)

/-- The first aperture touched is of the lowest ring touched. -/
theorem State.touched_head_le {a : RingId × Side × ByteRange} {rest : List (RingId × Side × ByteRange)}
    (touched : s.touched q = a :: rest) : ∀ x ∈ s.touched q, a.1 ≤ x.1 := by
  have sorted : (s.touched q).Pairwise fun x y => x.1 ≤ y.1 := s.decodedApertures_sorted.sublist List.filter_sublist
  rw [touched] at sorted ⊢
  exact List.forall_mem_cons.mpr ⟨le_refl _, (List.pairwise_cons.mp sorted).1⟩

end

/-- Settles O10: the three ways of a match, each of which excludes the other two. -/
theorem apertureMatching : Obligations.ApertureMatching := by
  intro q s
  rcases State.matchRequest_cases (q := q) (s := s) with
    ⟨none, outside⟩ | ⟨⟨i, side, b⟩, mem, inside, lies⟩ | ⟨⟨i, side, b⟩, rest, touched, notInside, straddles⟩
  · rw [outside, ← State.touched_eq_nil]
    exact ⟨⟨fun _ => none, fun _ => rfl⟩, nofun, nofun⟩
  · obtain ⟨touches, rfl⟩ := State.mem_touched.mp mem
    rw [lies, ← State.touched_eq_nil]
    refine ⟨⟨nofun, fun none => ?_⟩, ?_, nofun⟩
    · rw [none] at mem
      cases mem
    · rintro _ _ ⟨⟩
      exact ⟨touches, inside⟩
  · rw [straddles, ← State.touched_eq_nil]
    refine ⟨⟨nofun, fun none => ?_⟩, nofun, ?_⟩
    · rw [none] at touched
      cases touched
    · rintro _ ⟨⟩
      refine ⟨⟨side, (State.mem_touched.mp (touched ▸ List.mem_cons_self)).1⟩, fun j other touches => ?_⟩
      have mem := State.mem_touched.mpr ⟨touches, rfl⟩
      exact ⟨State.touched_head_le touched _ mem, notInside _ mem⟩

/-! ### The backing guard -/

/-- GUARD's encodings: 1 catches writes, 2 catches both directions (08 R139). -/
theorem Descriptor.guardCatches_iff (d : Descriptor) (k : Kind) :
    d.guardCatches k = true ↔ d.guard = 2 ∨ (d.guard = 1 ∧ k = .write) := by
  unfold Descriptor.guardCatches
  generalize d.guard = g
  cases k <;> revert g <;> decide

theorem Ring.mem_guardedRanges (r : Ring) (g : ByteRange) :
    g ∈ r.guardedRanges ↔ r.latchedRange g ∨ r.active.logRange g := by
  simp only [Ring.guardedRanges, List.mem_append, Descriptor.mem_recordRegions, List.mem_map, Descriptor.mem_usedSlots,
    Ring.latchedRange, Descriptor.slotRegion, @eq_comm _ g]

/-- A ring's guard hits a request that it catches and that shares a byte with a slot or with the record region (08 R140). -/
theorem Ring.guardHits_iff (q : Request) (r : Ring) : r.guardHits q = true ↔
    r.runState ≠ .idle ∧ r.active.guardCatches (requestKind q) = true ∧
      ∃ g, (r.latchedRange g ∨ r.active.logRange g) ∧ (requestRange q).overlaps g = true := by
  simp only [Ring.guardHits, Bool.and_eq_true, Ring.notIdle, bne_iff_ne, List.any_eq_true, Ring.mem_guardedRanges, and_assoc]

/-- What the guard counts changes no offer of a record. -/
theorem Ring.offers_count (c : Counter) (r : Ring) : (r.count c).offers = r.offers := rfl

theorem State.decode_of_outside {q : Request} {s : State} (who : Option Nat) (outside : s.matchRequest q = .outside) :
    s.decode who q = s.decodeOutside who q := by
  unfold State.decode
  rw [outside]

/-- A refusal GUARD is the whole event of an arrival, with the count in the guarding ring (08 R140, 10 R172). -/
theorem exec_upstreamRequest_of_guard {q : Request} {i : RingId} {s : State} (now : s.decodesNow q = true)
    (outside : s.matchRequest q = .outside) (guard : s.guardRing? q = some i) :
    exec (.upstreamRequest q) s = .next (State.refuse q .guard i (s.fresh.modRing i (Ring.count .guardRefusals))) := by
  obtain ⟨_, rings, _, table, _, asked, changed⟩ := State.refuse_frame q .guard i (s.fresh.modRing i (Ring.count .guardRefusals))
  refine exec_upstreamRequest_of_decodeArrival now ?_ asked changed
    (State.granted_set now table rings (Ring.offers_count _ _)) (State.steady_refuse q .guard i _).waiting
  have guard' : s.fresh.guardRing? q = some i := guard
  unfold State.decodeArrival
  rw [State.decode_of_outside (s := s.fresh) none outside, State.decodeOutside, guard']
  rfl

/-- Settles O12: GUARD's encodings, the guard's hit as a condition on ranges, the lowest such ring, and its refusal. -/
theorem guardRefusesBackingAccess : Obligations.GuardRefusesBackingAccess := by
  refine fun q s => ⟨Descriptor.guardCatches_iff, fun r => ?_, State.guardRing?_eq_some q s,
    fun i => exec_upstreamRequest_of_guard⟩
  rw [Ring.guardHits_iff]
  refine and_congr_right fun _ => and_congr_right fun _ => ?_
  constructor
  · rintro ⟨g, ⟨k, used, rfl⟩ | ⟨enabled, rfl⟩, overlaps⟩
    · exact Or.inl ⟨k, used, overlaps⟩
    · exact Or.inr ⟨enabled, overlaps⟩
  · rintro (⟨k, used, overlaps⟩ | ⟨enabled, overlaps⟩)
    · exact ⟨_, Or.inl ⟨k, used, rfl⟩, overlaps⟩
    · exact ⟨_, Or.inr ⟨enabled, rfl⟩, overlaps⟩

/-! ### Pass-through -/

/-- Settles O11: the decode grants the entry and sends the request, and no record is offered that would be issued after it. -/
theorem passThroughIsIssuedUnchanged : Obligations.PassThroughIsIssuedUnchanged := by
  intro q t s now outside noGuard entry
  have noOffer := (State.entryFor_facts entry).1
  have decoded : s.fresh.decode none q = ((s.fresh.grant t (.pass q.initiator q.tag (requestKind q))).sendDown
      ⟨t, q.initiator, q.tag, q.addr, q.payload⟩, .done) := by
    have noGuard' : s.fresh.guardRing? q = none := noGuard
    have issue : s.fresh.mayIssue none = some t := State.mayIssue_of_entryFor (s := s.fresh) entry
    rw [State.decode_of_outside (s := s.fresh) none outside, State.decodeOutside, noGuard']
    dsimp only
    rw [State.passThrough, issue]
    rfl
  refine exec_upstreamRequest_of_decodeArrival now ?_ rfl rfl (State.granted_of_noOffer (s := s.fresh.grant t _) noOffer) rfl
  unfold State.decodeArrival
  rw [decoded]
  rfl

/-- Settles O25: the entry's owner is the requester alone, which no completion test follows; in reset no response is taken in. -/
theorem passResponseIsReturned : Obligations.PassResponseIsReturned := by
  intro t status bytes who tag kind s len
  refine ⟨fun low => (if_pos len).trans (congrArg Host.Outcome.next (if_pos low)), fun high inUse => ?_⟩
  rw [exec_downstreamResponse_inUse len high inUse]
  cases kind <;> rfl

/-! ### The decoder's refusals -/

section
variable {i : RingId} {side : Side} {q : Request} {s : State} (who : Option Nat)

theorem State.decode_of_straddles (straddles : s.matchRequest q = .straddles i) :
    s.decode who q = s.refuseAnswer who q .straddle i := by
  unfold State.decode
  rw [straddles]

theorem State.decodeInside_of_fault (fault : (s.ring i).runState = .fault) :
    s.decodeInside who i side q = s.refuseAnswer who q .ringFault i := by
  unfold State.decodeInside
  rw [fault]

theorem State.decodeInside_of_aborting (aborting : (s.ring i).runState = .aborting) :
    s.decodeInside who i side q = s.refuseAnswer who q .aborted i := by
  unfold State.decodeInside
  rw [aborting]

theorem State.decodeInside_of_wrongDirection (notFault : (s.ring i).runState ≠ .fault)
    (notAborting : (s.ring i).runState ≠ .aborting)
    (wrong : (side = .fill ∧ requestKind q = .read) ∨ (side = .drain ∧ requestKind q = .write)) :
    s.decodeInside who i side q = s.refuseAnswer who q .wrongDirection i := by
  unfold State.decodeInside
  rcases wrong with ⟨rfl, kind⟩ | ⟨rfl, kind⟩
  all_goals
    rw [kind]
    cases state : (s.ring i).runState with
    | fault => exact absurd state notFault
    | aborting => exact absurd state notAborting
    | idle | running | ending => rfl

theorem State.decodeInside_of_fillClosed (ending : (s.ring i).runState = .ending) (write : requestKind q = .write) :
    s.decodeInside who i .fill q = s.refuseAnswer who q .fillClosed i := by
  unfold State.decodeInside
  rw [ending, write]

end

/-- Settles O14: the branch of the decode is the refusal, which is the whole event. -/
theorem decoderRefusals : Obligations.DecoderRefusals := by
  intro q i side s now
  have refused {cause : RefusalCause} (lies : s.matchRequest q = .lies i side)
      (inside : s.fresh.decodeInside none i side q = s.fresh.refuseAnswer none q cause i) :
      exec (.upstreamRequest q) s = .next (State.refuse q cause i s.fresh) :=
    exec_upstreamRequest_of_refuse now ((State.decode_of_lies lies none).trans inside)
  refine ⟨fun straddles => exec_upstreamRequest_of_refuse now (State.decode_of_straddles (s := s.fresh) none straddles),
    fun lies => ⟨fun fault => refused lies ?_, fun aborting => refused lies ?_,
      fun notFault notAborting wrong => refused lies ?_, fun ending fill write => refused lies ?_⟩⟩
  · exact State.decodeInside_of_fault (s := s.fresh) none fault
  · exact State.decodeInside_of_aborting (s := s.fresh) none aborting
  · exact State.decodeInside_of_wrongDirection (s := s.fresh) none notFault notAborting wrong
  · subst fill
    exact State.decodeInside_of_fillClosed (s := s.fresh) none ending write

/-! ### The refusal record -/

theorem State.refuse_of_empty {s : State} (empty : s.refusal = none) (q : Request) (cause : RefusalCause) (i : RingId) :
    s.refuse q cause i = { s with
      sent := s.sent ++ [errorAnswer q]
      refusal := some ⟨cause, q.initiator, q.tag, q.addr, requestKind q, i⟩
      globalAttn := true } := by
  unfold State.refuse State.noteRefusal
  rw [State.refusal_respond, empty]
  rfl

theorem State.refuse_of_full {s : State} (full : s.refusal ≠ none) (q : Request) (cause : RefusalCause) (i : RingId) :
    s.refuse q cause i = { s with
      sent := s.sent ++ [errorAnswer q]
      laterCount := min (s.laterCount + 1) 65535 } := by
  obtain ⟨x, record⟩ := Option.ne_none_iff_exists'.mp full
  unfold State.refuse State.noteRefusal
  rw [State.refusal_respond, record]
  rfl

theorem State.refusalWord_of_empty {s : State} (empty : s.refusal = none) (n : Fin 3) : s.refusalWord n = 0 := by
  unfold State.refusalWord
  rw [empty]

theorem baseHigh_toNat (a : Addr) : (baseHigh a).toNat = (a.extractLsb' 32 8).toNat :=
  BitVec.toNat_setWidth_of_le (by decide)

/-- The three words of a full refusal record (12 R175). -/
theorem State.refusalWord_of_full {s : State} {x : RefusalRecord} (full : s.refusal = some x) :
    wordHolds (s.refusalWord 0) [(31, 1, 1), (24, 4, refusalCode x.cause), (23, 1, kindCode x.kind), (20, 2, x.ring.val),
      (16, 4, x.initiator.val), (0, 16, s.laterCount)] ∧
    s.refusalWord 1 = baseLow x.addr ∧
    wordHolds (s.refusalWord 2) [(8, 8, x.tag.toNat), (0, 8, (x.addr.extractLsb' 32 8).toNat)] := by
  unfold State.refusalWord
  rw [full, ← baseHigh_toNat]
  exact ⟨wordHolds_of_pack _ rfl rfl (by simp [Field.apart]) (by simp), rfl,
    wordHolds_of_pack _ rfl rfl (by simp [Field.apart]) (by simp)⟩

/-- Settles O13: the refusal by whether the record was empty, and the record's words. -/
theorem refusalIsAnsweredAndRecorded : Obligations.RefusalIsAnsweredAndRecorded := by
  refine fun q cause i s => ⟨fun empty => State.refuse_of_empty empty q cause i, fun full => State.refuse_of_full full q cause i,
    fun empty => ⟨State.refusalWord_of_empty empty 0, State.refusalWord_of_empty empty 1, State.refusalWord_of_empty empty 2⟩,
    fun x full => State.refusalWord_of_full full⟩

/-! ### ACK -/

theorem State.ackRefusal_of_carried {causes : BitVec 10} (carried : causes.getLsbD 0 = true) (s : State) :
    s.ackRefusal causes = { s with globalAttn := false, refusal := none, laterCount := 0 } := if_pos carried

theorem State.ackRefusal_of_not_carried {causes : BitVec 10} (other : causes.getLsbD 0 = false) (s : State) :
    s.ackRefusal causes = s := if_neg (by rw [other]; decide)

theorem exec_ackGlobal {n : RingField} {causes : BitVec 10} {s : State} (takes : s.takesCommand .ack n true causes = true) :
    exec (.ackGlobal n causes) s = .next ((s.fresh.movePast.ackRefusal causes).setResult .ack n true .accepted) :=
  congrArg Host.Outcome.next (State.portWrite_taken takes _)

/-- Settles O46: the ring accepts its ACK, and a global one goes by whether it carries REFUSAL. -/
theorem ackClearsAttention : Obligations.AckClearsAttention := by
  intro i n causes s
  refine ⟨fun takes => ?_, fun takes => ⟨fun carried => ?_, fun other => ?_⟩⟩
  · exact congrArg Host.Outcome.next (State.command_accepted takes (f := State.ackRing causes) rfl rfl)
  · rw [exec_ackGlobal takes, State.ackRefusal_of_carried carried]
    rfl
  · rw [exec_ackGlobal takes, State.ackRefusal_of_not_carried other]
    rfl

end Sys2Proof.Machine
end

section
/-! PROOFS. The upstream port and the hold queue: a request that waits, one that is held behind its initiator's or for want of a
table entry, the invariants of the queue and of an event's end, and stray responses (09 R147 to R158, 12 R175). -/

namespace Sys2Proof.Machine

/-! ### The hold queue keeps its bound and its order -/

/-- An event keeps the queue so (`Flow`); outside events only RESET_N touches it, and empties it (09 R147, R148). -/
theorem lasting_holdSound : Lasting fun s => s.holdBounded ∧ s.holdOrdered where
  flow f p := p.imp f.bounded f.ordered
  aside same p := by
    simp only [State.eventParts, Prod.mk.injEq] at same
    obtain ⟨held, orders, _⟩ := same
    unfold State.holdBounded State.holdOrdered
    rw [held, orders]
    exact p
  acked p := p
  inReset _ := ⟨State.holdBounded_reset, State.holdOrdered_reset⟩

/-- Settles O54: the two properties last together through every command, and the port's own action leaves them. -/
theorem holdQueueStaysSound : Obligations.HoldQueueStaysSound := by
  intro s t bounded ordered h
  unfold step at h
  split at h
  · cases h
    exact lasting_holdSound.sampleRead ⟨bounded, ordered⟩
  next c rest _ => exact lasting_holdSound.exec c (s := s.withQueue rest) h ⟨bounded, ordered⟩

/-! ### What leaves nothing to do -/

/-- A ring changed in what neither offers nor withdraws a record. -/
theorem State.quiet_modRing {s : State} (i : RingId) (f : Ring → Ring) (same : (f (s.ring i)).offers = (s.ring i).offers)
    (p : s.quiet = true) : (s.modRing i f).quiet = true := by
  refine State.quiet_congr (s := s) rfl rfl rfl rfl rfl rfl (fun j => ?_) p
  by_cases e : j = i
  · subst e
    rw [State.ring_modRing_self]
    exact same
  · rw [State.ring_modRing_ne _ _ _ _ e]

/-- An event that may not take place: the state as it was, or an event up to its end. -/
theorem State.quiet_ite {s t : State} {c : Prop} [Decidable c] (p : s.quiet = true) :
    (if c then t.finish else s).quiet = true := by
  split
  · exact State.quiet_finish t
  · exact p

/-- At a port that cannot accept, requests may wait (09 R158). -/
theorem State.quiet_waiting {s : State} (busy : s.upstreamReady = false) (waiting : List Request) (p : s.quiet = true) :
    State.quiet { s with waiting := waiting } = true := by
  unfold State.quiet at p ⊢
  simp only [Bool.and_eq_true] at p ⊢
  refine ⟨p.1, ?_⟩
  show (waiting.isEmpty || !s.upstreamReady) = true
  rw [busy, Bool.not_false, Bool.or_true]

/-- RESET_N clears both walk flags and leaves no record to offer, and its port accepts nothing (09 R159). -/
theorem State.quiet_inReset (s : State) : s.inReset.quiet = true :=
  State.quiet_waiting (s := { s.inReset with waiting := [] }) rfl s.waiting
    (State.quiet_of_flags rfl rfl (State.granted_of_noOffer State.anyOffer_reset) rfl)

/-! ### The commands that a ring takes -/

section
variable (i : RingId) {s : State} (p : s.quiet = true)
include p

theorem State.quiet_commitRing : (s.commitRing i).1.quiet = true := by
  have pend : (if (s.ring i).shadow.sameStructure (s.ring i).active then (s.modRing i Ring.pendCommit, Reply.accepted)
      else (s, .refused .structuralChange 0)).1.quiet = true := by
    split
    · exact State.quiet_modRing i _ rfl p
    · exact p
  unfold State.commitRing
  dsimp only
  split
  next => exact State.quiet_finish _
  next => exact pend
  next => exact pend
  next => exact p
  next => exact p

theorem State.quiet_startRing : (s.startRing i).1.quiet = true := by
  unfold State.startRing
  dsimp only
  split
  · exact p
  split
  · exact p
  split
  · exact p
  · exact State.quiet_finish _

theorem State.quiet_stopRing : (s.stopRing i).1.quiet = true := by
  unfold State.stopRing
  split
  · exact p
  · dsimp only
    exact State.quiet_finish _

theorem State.quiet_abortRing : (s.abortRing i).1.quiet = true := by
  unfold State.abortRing
  dsimp only
  split
  · exact p
  · exact State.quiet_finish _

theorem State.quiet_closeRing : (s.closeRing i).1.quiet = true := by
  unfold State.closeRing
  dsimp only
  split
  · exact p
  split
  · exact State.quiet_finish _
  · exact p

theorem State.quiet_releaseRing : (s.releaseRing i).1.quiet = true := by
  unfold State.releaseRing
  dsimp only
  split
  · exact p
  split
  · exact State.quiet_finish _
  · exact p

theorem State.quiet_ackRing (causes : BitVec 10) : (s.ackRing causes i).1.quiet = true :=
  State.quiet_modRing i _ rfl p

end

/-! ### Words at the management port -/

theorem State.quiet_setResult (c : CommandKind) (n : RingField) (g : Bool) (reply : Reply) {s : State}
    (p : s.quiet = true) : (s.setResult c n g reply).quiet = true := by
  cases reply <;> exact p

theorem State.quiet_takeCommand (c : CommandKind) (n : RingField) {f : RingId → State → State × Reply}
    (h : ∀ i {s : State}, s.quiet = true → (f i s).1.quiet = true) {s : State} (p : s.quiet = true) :
    (s.takeCommand c n f).quiet = true := by
  unfold State.takeCommand
  split
  · exact State.quiet_setResult _ _ _ _ (h _ p)
  · exact State.quiet_setResult _ _ _ _ p

theorem State.quiet_takeGlobalAck (n : RingField) (causes : BitVec 10) {s : State} (p : s.quiet = true) :
    (s.takeGlobalAck n causes).quiet = true := by
  refine State.quiet_setResult _ _ _ _ ?_
  unfold State.ackRefusal
  split <;> exact p

theorem State.quiet_writeCommand (w : Word) {s : State} (p : s.quiet = true) : (s.writeCommand w).quiet = true := by
  unfold State.writeCommand
  dsimp only
  split
  · exact State.quiet_takeCommand _ _ State.quiet_commitRing p
  · exact State.quiet_takeCommand _ _ State.quiet_startRing p
  · exact State.quiet_takeCommand _ _ State.quiet_stopRing p
  · exact State.quiet_takeCommand _ _ State.quiet_abortRing p
  · exact State.quiet_takeCommand _ _ State.quiet_closeRing p
  · exact State.quiet_takeCommand _ _ State.quiet_releaseRing p
  · split
    · exact State.quiet_takeGlobalAck _ _ p
    · exact State.quiet_takeCommand _ _ (fun i _ p => State.quiet_ackRing i p _) p
  · exact p

theorem State.quiet_writeShadow (i : RingId) (k : Fin 32) (w : Word) {s : State} (p : s.quiet = true) :
    (s.writeShadow i k w).quiet = true := State.quiet_modRing i _ rfl p

theorem State.quiet_writeMask (i : RingId) (w : Word) {s : State} (p : s.quiet = true) :
    (s.writeMask i w).quiet = true := State.quiet_modRing i _ rfl p

theorem State.quiet_writeWord (a : WordAddr) (w : Word) {s : State} (p : s.quiet = true) :
    (s.writeWord a w).quiet = true := by
  unfold State.writeWord
  dsimp only
  split
  · exact p
  split
  · exact State.quiet_writeCommand w p
  split
  · exact p
  split
  · split
    · exact State.quiet_writeShadow _ _ w p
    split
    · exact State.quiet_writeMask _ w p
    · exact p
  · exact p

theorem State.quiet_portWrite (a : WordAddr) (w : Word) (f : State → State)
    (h : ∀ {s : State}, s.quiet = true → (f s).quiet = true) {s : State} (p : s.quiet = true) :
    (s.portWrite a w f).quiet = true := by
  have taken : s.fresh.movePast.quiet = true := p
  unfold State.portWrite
  split
  · exact h taken
  · exact p

theorem State.quiet_command (c : CommandKind) (n : RingField) (causes : BitVec 10) {f : RingId → State → State × Reply}
    (h : ∀ i {s : State}, s.quiet = true → (f i s).1.quiet = true) {s : State} (p : s.quiet = true) :
    (s.command c n causes f).quiet = true :=
  State.quiet_portWrite _ _ _ (State.quiet_takeCommand c n h) p

theorem State.quiet_takeFrameBits (mosi : List Bool) {s : State} (p : s.quiet = true) :
    (s.takeFrameBits mosi).quiet = true := by
  refine State.takeFrameBits_induct (P := fun t => t.quiet = true) mosi s ?_ (fun _ _ => id) (fun _ => id)
    (fun _ _ => id) (fun a w _ => State.quiet_writeWord a w)
  unfold State.openFrame
  split <;> exact p

theorem State.quiet_sampleRead {s : State} (p : s.quiet = true) : s.sampleRead.quiet = true := by
  unfold State.sampleRead
  split <;> exact p

/-! ### Pins, ports and time -/

theorem State.quiet_takeResponse (t : DownTag) (status : Status) (bytes : List Byte) {s : State} (p : s.quiet = true) :
    (s.takeResponse t status bytes).quiet = true := by
  unfold State.takeResponse
  split
  · exact p
  · exact State.quiet_finish _

theorem State.quiet_seeTransition (n : LineId) (rising : Bool) {s : State} (p : s.quiet = true) :
    (s.seeTransition n rising).quiet = true := State.quiet_ite p

theorem State.quiet_tickAll {s : State} (p : s.quiet = true) : s.tickAll.quiet = true :=
  State.quiet_congr (s := s) rfl rfl rfl rfl rfl rfl (fun i => by rw [State.ring_tickAll]; rfl) p

/-- Each expiry of a timebase step is an event of its own. -/
theorem State.quiet_timebaseStep {s : State} (p : s.quiet = true) : s.timebaseStep.quiet = true := by
  have expiries (xs : List (RingId × Side)) {t : State} (q : t.quiet = true) :
      (xs.foldl State.takeExpiry t).quiet = true := by
    induction xs generalizing t with
    | nil => exact q
    | cons x xs ih => exact ih (State.quiet_ite q)
  exact expiries _ (State.quiet_tickAll p)

theorem State.quiet_issueOne {s : State} (p : s.quiet = true) : s.issueOne.quiet = true := by
  unfold State.issueOne
  split
  · exact p
  · exact State.quiet_finish _

theorem State.quiet_reexamineNow {s : State} (p : s.quiet = true) : s.reexamineNow.quiet = true := by
  unfold State.reexamineNow
  split
  · exact p
  · exact State.quiet_finish _

/-! ### Every command -/

theorem exec_keeps_quiet (c : Instr) {s t : State} (p : s.quiet = true) (h : exec c s = .next t) : t.quiet = true := by
  have fresh : s.fresh.quiet = true := p
  cases c with
  | resetN => cases h; exact State.quiet_inReset s
  | resetNRise levels => cases h; exact State.quiet_ite fresh
  | upstreamRequest q =>
    simp only [exec, execUpstreamRequest] at h
    split at h
    · cases h
      split
      next low =>
        have busy : s.fresh.upstreamReady = false := by simp [State.upstreamReady, low]
        exact State.quiet_waiting busy _ fresh
      next => exact State.quiet_finish _
    · cases h
  | downstreamResponse tag status data =>
    simp only [exec, execDownstreamResponse] at h
    split at h
    · cases h
      split
      · exact fresh
      · exact State.quiet_takeResponse tag status data fresh
    · cases h
  | eventEdge n rising | lineTransition n rising =>
    cases h
    split
    · exact fresh
    · exact State.quiet_seeTransition n rising fresh
  | stallTimerExpiry i side => cases h; exact State.quiet_ite fresh
  | timebaseStep => cases h; exact State.quiet_timebaseStep fresh
  | frameBegin mosi => cases h; exact State.quiet_takeFrameBits mosi p
  | frameEnd => cases h; exact p
  | shadowWrite i k w => cases h; exact State.quiet_portWrite _ _ _ (State.quiet_writeShadow i k w) p
  | eventLineConfiguration w => cases h; exact State.quiet_portWrite _ _ (State.writeEdges w) id p
  | attentionMaskWrite i w => cases h; exact State.quiet_portWrite _ _ _ (State.quiet_writeMask i w) p
  | globalAttentionMaskWrite w => cases h; exact State.quiet_portWrite _ _ (State.writeGlobalMask w) id p
  | registerWrite a w => cases h; exact State.quiet_portWrite _ _ _ (State.quiet_writeWord a w) p
  | commit n => cases h; exact State.quiet_command _ _ _ State.quiet_commitRing p
  | start n => cases h; exact State.quiet_command _ _ _ State.quiet_startRing p
  | stop n => cases h; exact State.quiet_command _ _ _ State.quiet_stopRing p
  | abort n => cases h; exact State.quiet_command _ _ _ State.quiet_abortRing p
  | close n => cases h; exact State.quiet_command _ _ _ State.quiet_closeRing p
  | release n => cases h; exact State.quiet_command _ _ _ State.quiet_releaseRing p
  | ack n causes => cases h; exact State.quiet_command _ _ _ (fun i _ p => State.quiet_ackRing i p causes) p
  | ackGlobal n causes => cases h; exact State.quiet_portWrite _ _ _ (State.quiet_takeGlobalAck n causes) p
  | recordIssue => cases h; exact State.quiet_issueOne fresh
  | reExamination => cases h; exact State.quiet_reexamineNow fresh
  | releaseCompletion i k | closingAdvance i k | settle i k => cases h; exact State.quiet_ite fresh
  | pendingCommitApplication i | endingCompletion i | abortCompletion i => cases h; exact State.quiet_ite fresh

/-- Settles O56: each command ends its event (`State.quiet_finish`), or changes nothing that is left to do. -/
theorem eventsEndQuiet : Obligations.EventsEndQuiet := by
  intro s t p h
  unfold step at h
  split at h
  · cases h
    exact State.quiet_sampleRead p
  next c rest _ => exact exec_keeps_quiet c (s := s.withQueue rest) p h

/-! ### A request that does not get in, or not past the queue -/

theorem State.rested_of_quiet {s : State} (p : s.quiet = true) : s.rested = true := by
  obtain ⟨asked, changed, granted, _⟩ := State.quiet_flags p
  simp [State.rested, asked, changed, granted]

theorem State.grantRecords_reexamine_of_rested {s : State} (rested : s.rested = true) : s.grantRecords.reexamine = s := by
  simp only [State.rested, Bool.and_eq_true, Bool.not_eq_true'] at rested
  obtain ⟨⟨asked, changed⟩, granted⟩ := rested
  rw [State.grantRecords_of_granted s granted, State.reexamine_of_calm asked changed]

/-- Where nothing is left to do, an event's end is the acceptance of what waits (09 R151, R158). -/
theorem State.finish_of_rested {s : State} (rested : s.rested = true) : s.finish = State.acceptFrom s.waiting s := by
  unfold State.finish
  rw [State.grantRecords_reexamine_of_rested rested]

theorem State.acceptFrom_single {q : Request} {s : State} (ready : s.upstreamReady = true) :
    State.acceptFrom [q] s = { State.arrive q { s with waiting := [] } with waiting := [] } := by
  rw [State.acceptFrom, if_pos ready, State.acceptFrom]

/-- An arrival behind a held entry of its initiator joins the queue, and leaves nothing else to do (09 R149). -/
theorem State.arrive_of_heldInitiator {q : Request} {s : State} (rested : s.rested = true)
    (held : s.hold.any (fun h => h.request.initiator == q.initiator) = true) : s.arrive q = s.join q .order := by
  have joined : (s.join q .order).rested = true := rested
  unfold State.arrive
  rw [held, if_pos rfl]
  exact State.grantRecords_reexamine_of_rested joined

theorem exec_upstreamRequest_of_high {q : Request} {s : State} (formed : q.wellFormed = true) (high : s.resetLow = false) :
    exec (.upstreamRequest q) s = .next (State.finish { s.fresh with waiting := s.waiting ++ [q] }) := by
  simp [exec, execUpstreamRequest, formed, high]

theorem exec_upstreamRequest_of_low {q : Request} {s : State} (formed : q.wellFormed = true) (low : s.resetLow = true) :
    exec (.upstreamRequest q) s = .next { s.fresh with waiting := s.waiting ++ [q] } := by
  simp [exec, execUpstreamRequest, formed, low]

/-- Settles O8: the request is taken at once and alone, and its arrival is the join. -/
theorem heldInitiatorHoldsOrder : Obligations.HeldInitiatorHoldsOrder := by
  intro q s formed ready quiet noneWaits held
  have rested : s.rested = true := State.rested_of_quiet quiet
  have high : s.resetLow = false := by
    simp only [State.upstreamReady, Bool.and_eq_true, Bool.not_eq_true'] at ready
    exact ready.1
  have presented : State.finish { s.fresh with waiting := [q] } = { s.fresh.join q .order with waiting := [] } := by
    have alone : ({ s.fresh with waiting := [] } : State) = s.fresh := by rw [← noneWaits]; rfl
    have taken := State.acceptFrom_single (q := q) (s := { s.fresh with waiting := [q] }) ready
    rw [alone, State.arrive_of_heldInitiator (s := s.fresh) rested held] at taken
    exact (State.finish_of_rested (s := { s.fresh with waiting := [q] }) rested).trans taken
  rw [exec_upstreamRequest_of_high formed high, noneWaits, List.nil_append, presented, ← noneWaits]
  rfl

/-- Settles O9: a request more at a busy port leaves nothing to do, so the event ends with it waiting. -/
theorem busyPortLeavesRequestWaiting : Obligations.BusyPortLeavesRequestWaiting := by
  intro q s formed busy quiet
  have waits : State.quiet { s.fresh with waiting := s.waiting ++ [q] } = true :=
    State.quiet_waiting (s := s.fresh) busy _ quiet
  by_cases low : s.resetLow = true
  · exact exec_upstreamRequest_of_low formed low
  · rw [exec_upstreamRequest_of_high formed (Bool.eq_false_iff.mpr low), State.finish_of_quiet _ waits]
    rfl

/-! ### A request without a table entry -/

section
variable {q : Request} {i : RingId} {s : State} {who : Option Nat}

theorem State.passThrough_of_noEntry (noEntry : s.mayIssue who = none) : s.passThrough who q = (s, .hold .table) := by
  unfold State.passThrough
  rw [noEntry]

theorem State.placeRead_of_noEntry (noEntry : s.mayIssue who = none) (notPast : (s.ring i).readPastEnd q = false) :
    s.placeRead who i q = (s, .hold .table) := by
  unfold State.placeRead
  rw [notPast, noEntry]
  rfl

/-- A read that the drain slot serves takes reason TABLE without an entry (03 R51 to R53). -/
theorem State.decideRead_of_noEntry (noEntry : s.mayIssue who = none) (has : (s.ring i).hasDrainSlot = true)
    (streamed : (s.ring i).active.drainStreamed = true →
      (s.ring i).drainCursor + q.payload.length ≤ (s.ring i).active.slotSize.toNat)
    (inside : (s.ring i).readInside q) : s.decideRead who i q = (s, .hold .table) := by
  have notPast : (s.ring i).readPastEnd q = false := by
    rw [Bool.eq_false_iff, ne_eq, Ring.readPastEnd_iff]
    exact fun ⟨mode, past⟩ => absurd (streamed mode) (Nat.not_le_of_lt past)
  rw [State.decideRead_of_hasDrainSlot who inside has, State.placeRead_of_noEntry noEntry notPast]

/-- A write that fits the FILLING slot takes reason TABLE without an entry (02 R23 to R27). -/
theorem State.decideWrite_of_noEntry (noEntry : s.mayIssue who = none) (filling : (s.ring i).fillSub = .filling)
    (streamed : (s.ring i).active.fillStreamed = true →
      (s.ring i).fillCursor + q.payload.length ≤ (s.ring i).active.slotSize.toNat)
    (mapped : (s.ring i).active.fillStreamed = false →
      (q.addr.toNat - (s.ring i).active.fillBase.toNat) + q.payload.length ≤ (s.ring i).active.slotSize.toNat ∧
      (s.ring i).fillBytes + q.payload.length ≤ (s.ring i).active.slotSize.toNat) :
    s.decideWrite who i q = (s, .hold .table) := by
  have fits : (s.ring i).fillOffset q + q.payload.length ≤ (s.ring i).active.slotSize.toNat := by
    unfold Ring.fillOffset
    split
    next mode => exact streamed mode
    next mode => exact (mapped (by simpa using mode)).1
  rw [State.decideWrite_eq_placeWrite who filling fits fun mode => (mapped mode).2, State.placeWrite_of_noEntry noEntry]

end

theorem State.toList_table (s : State) : s.table.toList = (List.finRange 32).map fun t : DownTag => s.table[t] := by
  refine List.ext_getElem (by simp) fun n _ _ => ?_
  simp

theorem State.tableInUse_eq (s : State) :
    s.tableInUse = ((List.finRange 32).filter fun t : DownTag => s.table[t] ≠ none).length := by
  unfold State.tableInUse
  rw [State.toList_table, List.countP_map, List.countP_eq_length_filter]
  refine congrArg List.length (List.filter_congr fun t _ => ?_)
  rw [Function.comp_apply, Bool.eq_iff_iff, Option.isSome_iff_ne_none, decide_eq_true_eq]

/-- Settles O16: the decode comes to a hold with reason TABLE in the state as it was, which is the whole event. -/
theorem noEntryHoldsTable : Obligations.NoEntryHoldsTable := by
  refine ⟨fun s => ?_, ?_⟩
  · rw [← State.tableInUse_eq]
    exact wordHolds_of_pack _ rfl rfl (by simp [Field.apart]) (by simp)
  · intro q i s now denied r n ways
    have noEntry : s.fresh.mayIssue none = none := State.mayIssue_of_entryNone (s := s.fresh) denied
    have decoded : s.fresh.decode none q = (s.fresh, .hold .table) := by
      rcases ways with ⟨outside, noGuard⟩ | ⟨decides, filling, streamed, mapped⟩ | ⟨decides, has, streamed, inside⟩
      · have noGuard' : s.fresh.guardRing? q = none := noGuard
        rw [State.decode_of_outside (s := s.fresh) none outside, State.decodeOutside, noGuard']
        exact State.passThrough_of_noEntry noEntry
      · rw [State.decode_of_fillDecides decides]
        exact State.decideWrite_of_noEntry noEntry filling streamed mapped
      · rw [State.decode_of_drainDecides decides]
        exact State.decideRead_of_noEntry noEntry has streamed inside
    exact exec_upstreamRequest_of_hold now decoded rfl rfl (State.granted_fresh now) rfl

/-! ### Stray responses -/

theorem satInc_eq (x : BitVec 32) : satInc x = if x = 0xFFFFFFFF#32 then 0xFFFFFFFF#32 else x + 1 := by
  have top : BitVec.allOnes 32 = 0xFFFFFFFF#32 := rfl
  unfold satInc
  rw [top]
  split
  next full => exact full
  next => rfl

theorem exec_downstreamResponse_free {t : DownTag} {status : Status} {bytes : List Byte} {s : State}
    (len : bytes.length ≤ 256) (high : s.resetLow = false) (free : s.table[t] = none) :
    exec (.downstreamResponse t status bytes) s = .next s.fresh.countStray := by
  have free' : s.fresh.table[t] = none := free
  simp only [exec, execDownstreamResponse, if_pos len, high, Bool.false_eq_true, if_false, State.takeResponse, free']

/-- Settles O24: a free entry's response is the count alone, and an event leaves the count as it was (`Flow`). -/
theorem strayResponseIsCounted : Obligations.StrayResponseIsCounted := by
  refine ⟨fun t status bytes s len high => ⟨fun free => ?_, fun inUse => ?_⟩, fun s => ⟨s.inReset, rfl, rfl⟩, fun s => rfl⟩
  · rw [exec_downstreamResponse_free len high free, ← satInc_eq]
    rfl
  · obtain ⟨e, entry⟩ := Option.ne_none_iff_exists'.mp inUse
    refine ⟨_, exec_downstreamResponse_inUse len high entry, ?_⟩
    exact ((State.works_response e t status bytes s.fresh).flow.trans (State.flow_finish _)).stray

end Sys2Proof.Machine
end

section
/-! PROOFS. Words at the management port: when the port takes one, what it leaves where it takes none, and what a step on an empty
queue does (10 R161 to R164, logs 1, 3 and 4). -/

namespace Sys2Proof.Machine

/-! ### When a word is taken -/

/-- Between frames, or as the rest of the word being moved of a write frame at that address (10 R161, log 1). -/
theorem State.takesWord_iff {a : WordAddr} {w : Word} {s : State} : s.takesWord a w = true ↔
    s.resetLow = false ∧ ((s.port.frame = .none ∧ s.port.csLow = false) ∨
      ∃ moving, s.port.frame = .write a moving ∧ (wordBits w).take moving.length = moving) := by
  unfold State.takesWord
  cases frame : s.port.frame with
  | write addr moving =>
    simp only [Bool.and_eq_true, Bool.not_eq_true', beq_iff_eq, Frame.write.injEq, reduceCtorEq, false_and, false_or]
    refine and_congr_right fun _ => ⟨?_, ?_⟩
    · rintro ⟨rfl, begins⟩
      exact ⟨moving, ⟨rfl, rfl⟩, begins⟩
    · rintro ⟨_, ⟨rfl, rfl⟩, begins⟩
      exact ⟨rfl, begins⟩
  | _ => simp

/-- Settles O32: `State.takesWord` by the frame, and every row of a word by `State.portWrite_ignored`. -/
theorem portTakesWholeWords : Obligations.PortTakesWholeWords := by
  refine ⟨fun a w s => State.takesWord_iff, fun a moving => ⟨rfl, rfl⟩, fun s i k a w n causes => ?_⟩
  have ignored {a : WordAddr} {w : Word} {effect : State → State} (no : s.takesWord a w = false) :
      Host.Outcome.next (φ := Fault) (ρ := Refusal) (s.portWrite a w effect) = .next { s with sent := [] } :=
    congrArg Host.Outcome.next (State.portWrite_ignored no effect)
  exact ⟨ignored, ignored, ignored, ignored, ignored, ignored, ignored, ignored, ignored, ignored, ignored, ignored,
    ignored⟩

/-! ### A step on an empty queue -/

theorem step_of_empty {s : State} (empty : s.pending = []) : step s = .next s.sampleRead := by
  unfold step
  rw [empty]

theorem State.sampleRead_of_turnaround {a : WordAddr} {n : Nat} {s : State} (frame : s.port.frame = .turnaround a n) :
    s.sampleRead = s.fresh.sample a := by
  simp only [State.sampleRead, frame]

theorem State.sampleRead_of_read {a : WordAddr} {bits : List Bool} {s : State} (frame : s.port.frame = .read a bits) :
    s.sampleRead = s.fresh.sample a := by
  simp only [State.sampleRead, frame]

/-- Without an open read frame the block idles (log 4). -/
theorem State.sampleRead_of_noRead {s : State} (noTurnaround : ∀ a n, s.port.frame ≠ .turnaround a n)
    (noRead : ∀ a bits, s.port.frame ≠ .read a bits) : s.sampleRead = s := by
  unfold State.sampleRead
  split
  next a n frame => exact absurd frame (noTurnaround a n)
  next a bits frame => exact absurd frame (noRead a bits)
  all_goals rfl

/-- Settles O2: the step is `State.sampleRead`, by the frame that is open. -/
theorem emptyQueueSamplesOrIdles : Obligations.EmptyQueueSamplesOrIdles := by
  intro s empty
  rw [step_of_empty empty]
  refine ⟨fun a open_ => ?_, fun noTurnaround noRead => by rw [State.sampleRead_of_noRead noTurnaround noRead]⟩
  rcases open_ with ⟨n, frame⟩ | ⟨bits, frame⟩
  · rw [State.sampleRead_of_turnaround frame]
    rfl
  · rw [State.sampleRead_of_read frame]
    rfl

end Sys2Proof.Machine
end

section
/-! PROOFS. The command register and the writable words: what a word written anywhere in the window does (10 R164, R166,
12 R174, R180). -/

namespace Sys2Proof.Machine

/-! ### The addresses of the window -/

theorem shadowAddr_toNat (i : RingId) (k : Fin 32) : (shadowAddr i k).toNat = 0x1000 + 0x400 * i.val + k.val := by
  rw [shadowAddr, ringBlock, BitVec.toNat_ofNat]
  omega

theorem maskAddr_toNat (i : RingId) : (maskAddr i).toNat = 0x1000 + 0x400 * i.val + 0x181 := by
  rw [maskAddr, ringBlock, BitVec.toNat_ofNat]
  omega

/-- A word of ring i's block, written at its offset (12 R174). -/
theorem State.writeWord_ringBlock {a : WordAddr} {i : RingId} {off : Nat} (addr : a.toNat = 0x1000 + 0x400 * i.val + off)
    (inside : off < 0x400) (w : Word) (s : State) : s.writeWord a w =
      if off < 0x020 then s.writeShadow i (Fin.ofNat 32 off) w else if off = 0x181 then s.writeMask i w else s := by
  have ring : Fin.ofNat 4 ((a.toNat - 0x1000) / 0x400) = i :=
    Fin.ext (show (a.toNat - 0x1000) / 0x400 % 4 = i.val by omega)
  have offset : (a.toNat - 0x1000) % 0x400 = off := by omega
  unfold State.writeWord
  dsimp only
  rw [if_neg (by omega), if_neg (by omega), if_neg (by omega), if_pos (by omega), ring, offset]

theorem State.writeWord_shadowAddr (i : RingId) (k : Fin 32) (w : Word) (s : State) :
    s.writeWord (shadowAddr i k) w = s.writeShadow i k w := by
  have index : Fin.ofNat 32 k.val = k := by simp
  rw [State.writeWord_ringBlock (shadowAddr_toNat i k) (by omega), if_pos k.isLt, index]

theorem State.writeWord_maskAddr (i : RingId) (w : Word) (s : State) : s.writeWord (maskAddr i) w = s.writeMask i w := by
  rw [State.writeWord_ringBlock (maskAddr_toNat i) (by decide), if_neg (by decide), if_pos rfl]

/-- A word at a read-only or unassigned address is ignored (10 R164). -/
theorem State.writeWord_of_not_writable {a : WordAddr} (readOnly : ¬ writableWord a) (w : Word) (s : State) :
    s.writeWord a w = s := by
  simp only [writableWord, not_or, not_exists] at readOnly
  obtain ⟨notEdges, notCommand, notGlobalMask, notShadow, notMask⟩ := readOnly
  by_cases block : 0x1000 ≤ a.toNat ∧ a.toNat < 0x2000
  · obtain ⟨i, off, addr, inside⟩ : ∃ (i : RingId) (off : Nat), a.toNat = 0x1000 + 0x400 * i.val + off ∧ off < 0x400 :=
      ⟨⟨(a.toNat - 0x1000) / 0x400, by omega⟩, (a.toNat - 0x1000) % 0x400, by dsimp only; omega, by omega⟩
    rw [State.writeWord_ringBlock addr inside, if_neg, if_neg]
    · rintro rfl
      exact notMask i (BitVec.eq_of_toNat_eq (addr.trans (maskAddr_toNat i).symm))
    · intro shadow
      exact notShadow i ⟨off, shadow⟩ (BitVec.eq_of_toNat_eq (addr.trans (shadowAddr_toNat i ⟨off, shadow⟩).symm))
  · have other {n : Nat} (lt : n < 2 ^ 16) (ne : a ≠ BitVec.ofNat 16 n) : a.toNat ≠ n := fun e =>
      ne (BitVec.eq_of_toNat_eq (e.trans (Nat.mod_eq_of_lt lt).symm))
    unfold State.writeWord
    dsimp only
    rw [if_neg (other (by decide) notEdges), if_neg (other (by decide) notCommand),
      if_neg (other (by decide) notGlobalMask), if_neg block]

/-! ### The command register -/

/-- The row of the table that a command's fields name: GLOBAL and the cause set count for ACK alone (10 R166). -/
def CommandKind.row (c : CommandKind) (target : RingField) (isGlobal : Bool) (causes : BitVec 10) : Instr :=
  match c with
  | .commit => .commit target
  | .start => .start target
  | .stop => .stop target
  | .abort => .abort target
  | .close => .close target
  | .release => .release target
  | .ack => if isGlobal then .ackGlobal target causes else .ack target causes

/-- The ring number in a word written to the command register (12 Table 12-7). -/
def commandTarget (w : Word) : RingField := Fin.ofNat 8 (w.extractLsb' 4 3).toNat

/-- A word whose bits 3:0 are no command code is no command (10 R166). -/
theorem State.writeCommand_of_noCode {w : Word} (unused : (w.extractLsb' 0 4).toNat = 0 ∨ 8 ≤ (w.extractLsb' 0 4).toNat)
    (s : State) : s.writeCommand w = s := by
  unfold State.writeCommand
  split
  case h_8 => rfl
  all_goals omega

/-- Two words of one code and one ring number are one command; GLOBAL and the cause set count for ACK alone (10 R166). -/
theorem State.writeCommand_congr {v w : Word} {c : CommandKind} (codeV : (v.extractLsb' 0 4).toNat = commandCode c)
    (codeW : (w.extractLsb' 0 4).toNat = commandCode c) (target : commandTarget v = commandTarget w)
    (ack : c = .ack → v.getLsbD 7 = w.getLsbD 7 ∧ v.extractLsb' 16 10 = w.extractLsb' 16 10) (s : State) :
    s.writeCommand v = s.writeCommand w := by
  unfold commandTarget at target
  unfold State.writeCommand
  rw [codeV, codeW, target]
  cases c with
  | ack =>
    obtain ⟨isGlobal, causes⟩ := ack rfl
    rw [isGlobal, causes]
  | _ => simp only [commandCode]

theorem State.writeWord_commandRegister (w : Word) : State.writeWord 0x0004#16 w = State.writeCommand w := rfl

theorem exec_registerWrite (a : WordAddr) (w : Word) (s : State) :
    exec (.registerWrite a w) s = .next (s.portWrite a w (State.writeWord a w)) := rfl

/-- A command of the table is its word written to the command register (10 R166, log 1). -/
theorem exec_row {c : CommandKind} {isGlobal : Bool} {causes : BitVec 10}
    (plain : c ≠ .ack → isGlobal = false ∧ causes = 0) (n : RingField) (s : State) :
    exec (c.row n isGlobal causes) s =
      .next (s.portWrite 0x0004#16 (commandWord c n isGlobal causes)
        (State.writeCommand (commandWord c n isGlobal causes))) := by
  obtain ⟨code, target, bit7, set⟩ := commandWord_fields c n isGlobal causes
  unfold State.writeCommand
  rw [code, target, bit7, set]
  cases c with
  | ack => cases isGlobal <;> rfl
  | _ =>
    obtain ⟨rfl, rfl⟩ := plain (by decide)
    rfl

/-- The port at the beginning of the word being moved. -/
def State.atWordStart (s : State) : State := { s with port := { s.port with frame := s.port.frame.wordStart } }

/-- Where the port takes one word, it takes any other from the beginning of the word being moved. -/
theorem State.takesWord_atWordStart {a : WordAddr} {w : Word} {s : State} (takes : s.takesWord a w = true) (v : Word) :
    s.atWordStart.takesWord a v = true := by
  obtain ⟨high, ⟨none, cs⟩ | ⟨moving, write, _⟩⟩ := State.takesWord_iff.mp takes
  · refine State.takesWord_iff.mpr ⟨high, .inl ⟨?_, cs⟩⟩
    simp only [State.atWordStart, none, Frame.wordStart]
  · refine State.takesWord_iff.mpr ⟨high, .inr ⟨[], ?_, rfl⟩⟩
    simp only [State.atWordStart, write, Frame.wordStart]

/-- The word being moved ends at the next address, from its beginning on as from any of its bits. -/
theorem State.movePast_atWordStart (s : State) : s.atWordStart.fresh.movePast = s.fresh.movePast := by
  have after (f : Frame) : f.wordStart.afterWord = f.afterWord := by cases f <;> rfl
  show State.setFrame s.port.frame.wordStart.afterWord s.fresh = _
  rw [after]
  rfl

/-- The row that a word at the command register is, by its code: the bits that the row does not carry are disregarded (10 R166,
12 R174). -/
theorem exec_registerWrite_of_code {w : Word} {c : CommandKind} {isGlobal : Bool} {causes : BitVec 10} {s : State}
    (takes : s.takesWord 0x0004#16 w = true) (code : (w.extractLsb' 0 4).toNat = commandCode c)
    (plain : c ≠ .ack → isGlobal = false ∧ causes = 0)
    (ack : c = .ack → isGlobal = w.getLsbD 7 ∧ causes = w.extractLsb' 16 10) :
    exec (.registerWrite 0x0004#16 w) s = exec (c.row (commandTarget w) isGlobal causes) s.atWordStart := by
  obtain ⟨rowCode, target, bit7, set⟩ := commandWord_fields c (commandTarget w) isGlobal causes
  have same : ∀ t : State, t.writeCommand (commandWord c (commandTarget w) isGlobal causes) = t.writeCommand w :=
    State.writeCommand_congr rowCode code target fun isAck => by rw [bit7, set]; exact ack isAck
  rw [exec_row plain, exec_registerWrite, State.portWrite_taken takes,
    State.portWrite_taken (State.takesWord_atWordStart takes _), State.movePast_atWordStart, same,
    State.writeWord_commandRegister]

/-- Settles O36: each writable address by the equation of its word, the command register by the row that the word's code names. -/
theorem registerWriteDispatches : Obligations.RegisterWriteDispatches := by
  intro w i k n causes a s
  have shadow : State.writeWord (shadowAddr i k) w = State.writeShadow i k w :=
    funext (State.writeWord_shadowAddr i k w)
  have mask : State.writeWord (maskAddr i) w = State.writeMask i w := funext (State.writeWord_maskAddr i w)
  have command {c : CommandKind} {isGlobal : Bool} {set : BitVec 10} (plain : c ≠ .ack → isGlobal = false ∧ set = 0) :
      exec (.registerWrite 0x0004#16 (commandWord c n isGlobal set)) s = exec (c.row n isGlobal set) s :=
    (exec_row plain n s).symm
  refine ⟨?_, rfl, ?_, rfl, command fun _ => ⟨rfl, rfl⟩, command fun _ => ⟨rfl, rfl⟩, command fun _ => ⟨rfl, rfl⟩,
    command fun _ => ⟨rfl, rfl⟩, command fun _ => ⟨rfl, rfl⟩, command fun _ => ⟨rfl, rfl⟩,
    command fun other => absurd rfl other, command fun other => absurd rfl other, fun takes => ?_, fun takes => ?_,
    fun takes noEffect => ?_⟩
  · rw [exec_registerWrite, shadow]
    rfl
  · rw [exec_registerWrite, mask]
    rfl
  · have row {c : CommandKind} (other : c ≠ .ack) (code : (w.extractLsb' 0 4).toNat = commandCode c) :
        exec (.registerWrite 0x0004#16 w) s = exec (c.row (commandTarget w) false 0) s.atWordStart :=
      exec_registerWrite_of_code takes code (fun _ => ⟨rfl, rfl⟩) fun isAck => absurd isAck other
    have ackRow {isGlobal : Bool} (code : (w.extractLsb' 0 4).toNat = 7) (bit7 : w.getLsbD 7 = isGlobal) :
        exec (.registerWrite 0x0004#16 w) s =
          exec (CommandKind.ack.row (commandTarget w) isGlobal (w.extractLsb' 16 10)) s.atWordStart :=
      exec_registerWrite_of_code takes code (fun other => absurd rfl other) fun _ => ⟨bit7.symm, rfl⟩
    exact ⟨row (c := .commit) (by decide), row (c := .start) (by decide), row (c := .stop) (by decide),
      row (c := .abort) (by decide), row (c := .close) (by decide), row (c := .release) (by decide), ackRow, ackRow⟩
  · rw [exec_registerWrite, shadow, State.portWrite_taken takes]
    rfl
  · rw [exec_registerWrite, State.portWrite_taken takes]
    rcases noEffect with ⟨rfl, unused⟩ | readOnly
    · rw [State.writeWord_commandRegister, State.writeCommand_of_noCode unused]
      rfl
    · rw [State.writeWord_of_not_writable readOnly]
      rfl

end Sys2Proof.Machine
end

section
/-! PROOFS. Attention: the summary word, and the level of ATTN_N (10 R170, R171, 12 R175). -/

namespace Sys2Proof.Machine

/-! ### PRESENT and PENDING -/

theorem Ring.present_iff (r : Ring) : r.present = true ↔ r.attention ≠ 0 := bne_iff_ne

/-- A ring's PENDING: its set and its mask share a cause (10 R171). -/
theorem Ring.attnPending_iff (r : Ring) : r.attnPending = true ↔
    ∃ n, r.attention.getLsbD n = true ∧ r.mask.getLsbD n = true := by
  have common (n : Nat) : (r.attention &&& r.mask).getLsbD n = true ↔
      r.attention.getLsbD n = true ∧ r.mask.getLsbD n = true := by
    rw [BitVec.getLsbD_and, Bool.and_eq_true]
  simp only [← common]
  refine bne_iff_ne.trans ⟨fun nonzero => ?_, ?_⟩
  · by_contra none
    refine nonzero (BitVec.eq_of_getLsbD_eq fun n _ => ?_)
    rw [Bool.eq_false_iff.mpr fun set => none ⟨n, set⟩, BitVec.ofNat_eq_ofNat, BitVec.getLsbD_zero]
  · rintro ⟨n, set⟩ zero
    rw [zero, BitVec.ofNat_eq_ofNat, BitVec.getLsbD_zero] at set
    cases set

/-- ATTN_N is asserted exactly while some PENDING is true (10 R171). -/
theorem State.attnAsserted_iff (s : State) : s.attnAsserted = true ↔
    (∃ i, (s.ring i).attnPending = true) ∨ s.globalPending = true := by
  rw [← not_iff_not, Bool.not_eq_true, State.attnAsserted_eq_false, not_or, not_exists]
  simp only [Bool.not_eq_true]

/-! ### The summary word -/

/-- The bits of the attention summary word (12 R175). -/
def State.summaryFields (s : State) : List (Nat × Nat × Nat) :=
  (allRings.flatMap fun i =>
    [(2 * i.val, 1, (s.ring i).present.toNat), (2 * i.val + 1, 1, (s.ring i).attnPending.toNat)]) ++
    [(8, 1, s.globalAttn.toNat), (9, 1, s.globalPending.toNat)]

theorem State.wordHolds_summary (s : State) : wordHolds (s.readWord 0x0022#16) s.summaryFields :=
  wordHolds_of_pack _ rfl rfl (by simp [Field.apart, allRings]) (by simp [allRings])

/-- A field of one bit is that bit of the word. -/
theorem getLsbD_of_wordHolds {w : Word} {fields : List (Nat × Nat × Nat)} {low : Nat} {b : Bool}
    (holds : wordHolds w fields) (mem : (low, 1, b.toNat) ∈ fields) : w.getLsbD low = b := by
  have field := congrArg (fun v : BitVec 1 => v.getLsbD 0) (holds.1 _ mem)
  dsimp only at field
  rw [BitVec.getLsbD_extractLsb', BitVec.getLsbD_ofNat, testBit_toNat_bool] at field
  simpa using field

theorem State.mem_summaryFields (i : RingId) (s : State) :
    (2 * i.val, 1, (s.ring i).present.toNat) ∈ s.summaryFields ∧
      (2 * i.val + 1, 1, (s.ring i).attnPending.toNat) ∈ s.summaryFields := by
  have every : i ∈ allRings := by revert i; decide
  constructor
  · exact List.mem_append_left _ (List.mem_flatMap.mpr ⟨i, every, by simp⟩)
  · exact List.mem_append_left _ (List.mem_flatMap.mpr ⟨i, every, by simp⟩)

/-- The bits above the global set's are unassigned and read 0 (12 R174). -/
theorem State.getLsbD_summary_high {n : Nat} (high : 10 ≤ n) (s : State) : (s.readWord 0x0022#16).getLsbD n = false := by
  by_cases inside : n < 32
  · have below : ∀ f ∈ s.summaryFields, f.1 + f.2.1 ≤ 10 := by simp [State.summaryFields, allRings]
    exact s.wordHolds_summary.2 n inside fun f mem => .inr (Nat.le_trans (below f mem) high)
  · exact BitVec.getLsbD_of_ge _ n (by omega)

theorem not_writableWord_summary : ¬ writableWord 0x0022#16 := by
  rintro (edges | command | mask | ⟨i, k, shadow⟩ | ⟨i, ringMask⟩)
  · exact absurd edges (by decide)
  · exact absurd command (by decide)
  · exact absurd mask (by decide)
  · have addr := (congrArg BitVec.toNat shadow).trans (shadowAddr_toNat i k)
    simp only [BitVec.toNat_ofNat] at addr
    omega
  · have addr := (congrArg BitVec.toNat ringMask).trans (maskAddr_toNat i)
    simp only [BitVec.toNat_ofNat] at addr
    omega

/-- Settles O60: the summary's bits by its layout, ATTN_N by the rings' PENDING, and the write as one of a read-only word. -/
theorem attentionSummaryAndLine : Obligations.AttentionSummaryAndLine := by
  intro s pending
  have ringPending (i : RingId) : (s.ring i).attnPending = true ↔ pending i := Ring.attnPending_iff _
  refine ⟨fun i => ?_, ?_, ?_, fun n high => State.getLsbD_summary_high high s, ?_, fun w takes => ?_⟩
  · obtain ⟨presentBit, pendingBit⟩ := s.mem_summaryFields i
    rw [getLsbD_of_wordHolds s.wordHolds_summary presentBit, getLsbD_of_wordHolds s.wordHolds_summary pendingBit]
    exact ⟨Ring.present_iff _, ringPending i⟩
  · exact getLsbD_of_wordHolds s.wordHolds_summary (List.mem_append_right _ (by simp))
  · exact getLsbD_of_wordHolds (b := s.globalPending) s.wordHolds_summary (List.mem_append_right _ (by simp))
  · rw [State.attnAsserted_iff]
    exact or_congr (exists_congr ringPending) (by rw [State.globalPending, Bool.and_eq_true])
  · rw [exec_registerWrite, State.portWrite_taken takes, State.writeWord_of_not_writable not_writableWord_summary]
    rfl

end Sys2Proof.Machine
end

section
/-! PROOFS. A frame bit by bit: its header, the words it carries, and the level of MISO (10 R160 to R163, logs 2 and 8). -/

namespace Sys2Proof.Machine

/-! ### The header -/

/-- The number that the first byte of a frame spells: its code (10 R160). -/
def frameCode (bits : List Bool) : Nat := bitsToNat (bits.take 8)

/-- The word address in the second and the third byte of a frame, high byte first (10 R160). -/
def frameAddr (bits : List Bool) : WordAddr := BitVec.ofNat 16 (bitsToNat ((bits.drop 8).take 16))

theorem headerFrame_eq (bits : List Bool) : headerFrame bits =
    if bits.length < 8 then .header bits
    else if frameCode bits = Config.writeCode then
      if bits.length < 24 then .header bits else .write (frameAddr bits) []
    else if frameCode bits = Config.readCode then
      if bits.length < 24 then .header bits else .turnaround (frameAddr bits) 0
    else .ignored := rfl

section
variable {bits : List Bool}

theorem headerFrame_of_noCode (short : bits.length < 8) : headerFrame bits = .header bits := if_pos short

theorem headerFrame_of_noAddr (short : bits.length < 24)
    (known : frameCode bits = Config.writeCode ∨ frameCode bits = Config.readCode) : headerFrame bits = .header bits := by
  rw [headerFrame_eq, if_pos short, if_pos short]
  rcases known with code | code <;> simp [code]

theorem headerFrame_of_write (long : 24 ≤ bits.length) (code : frameCode bits = Config.writeCode) :
    headerFrame bits = .write (frameAddr bits) [] := by
  rw [headerFrame_eq, if_neg (by omega), if_pos code, if_neg (by omega)]

theorem headerFrame_of_read (long : 24 ≤ bits.length) (code : frameCode bits = Config.readCode) :
    headerFrame bits = .turnaround (frameAddr bits) 0 := by
  rw [headerFrame_eq, if_neg (by omega), if_neg (by rw [code]; decide), if_pos code, if_neg (by omega)]

theorem headerFrame_of_unknown (long : 8 ≤ bits.length) (notWrite : frameCode bits ≠ Config.writeCode)
    (notRead : frameCode bits ≠ Config.readCode) : headerFrame bits = .ignored := by
  rw [headerFrame_eq, if_neg (by omega), if_neg notWrite, if_neg notRead]

/-- The code is that of the first byte, whatever follows it. -/
theorem frameCode_take {n : Nat} (byte : 8 ≤ n) : frameCode (bits.take n) = frameCode bits := by
  rw [frameCode, List.take_take, Nat.min_eq_left byte, frameCode]

theorem frameAddr_take : frameAddr (bits.take 24) = frameAddr bits := by
  rw [frameAddr, List.drop_take, List.take_take, Nat.min_self, frameAddr]

theorem headerFrame_take_of_noCode {n : Nat} (short : n < 8) : headerFrame (bits.take n) = .header (bits.take n) :=
  headerFrame_of_noCode (Nat.lt_of_le_of_lt (List.length_take_le n bits) short)

theorem headerFrame_take_of_noAddr {n : Nat} (known : frameCode bits = Config.writeCode ∨ frameCode bits = Config.readCode)
    (short : n < 24) : headerFrame (bits.take n) = .header (bits.take n) := by
  by_cases byte : n < 8
  · exact headerFrame_take_of_noCode byte
  · exact headerFrame_of_noAddr (Nat.lt_of_le_of_lt (List.length_take_le n bits) short)
      (by rwa [frameCode_take (Nat.le_of_not_lt byte)])

end

/-! ### One bit -/

@[simp] theorem State.frame_setFrame (f : Frame) (s : State) : (s.setFrame f).port.frame = f := rfl

@[simp] theorem State.setFrame_setFrame (f g : Frame) (s : State) : (s.setFrame f).setFrame g = s.setFrame g := rfl

section
variable {s : State} (b : Bool)

theorem State.takeBit_of_idle (frame : s.port.frame = .none ∨ s.port.frame = .ignored) : s.takeBit b = s := by
  rcases frame with frame | frame <;> simp only [State.takeBit, frame]

theorem State.takeBit_of_blocked (frame : s.port.frame = .blocked) : s.takeBit b = { s with choices := s.choices + 1 } := by
  simp only [State.takeBit, frame]

theorem State.takeBit_of_header {taken : List Bool} (frame : s.port.frame = .header taken) :
    s.takeBit b = s.setFrame (headerFrame (taken ++ [b])) := by
  simp only [State.takeBit, frame]

theorem State.takeBit_of_write {a : WordAddr} {moving : List Bool} (frame : s.port.frame = .write a moving)
    (more : moving.length < 31) : s.takeBit b = s.setFrame (.write a (moving ++ [b])) := by
  simp only [State.takeBit, frame, State.takeWriteBit]
  exact if_pos (by rw [List.length_append, List.length_singleton]; omega)

/-- The last bit of a word writes it, and the next word begins (10 R161). -/
theorem State.takeBit_of_lastWriteBit {a : WordAddr} {moving : List Bool} {w : Word} (frame : s.port.frame = .write a moving)
    (last : moving ++ [b] = wordBits w) : s.takeBit b = (s.setFrame (.write (a + 1) [])).writeWord a w := by
  have whole : ¬ (wordBits w).length < 32 := by simp [wordBits]
  simp only [State.takeBit, frame, State.takeWriteBit, last]
  rw [if_neg whole, ofNat_bitsToNat_wordBits]

theorem State.takeBit_of_turnaround {a : WordAddr} {n : Nat} (frame : s.port.frame = .turnaround a n) (more : n < 7) :
    s.takeBit b = s.setFrame (.turnaround a (n + 1)) := by
  simp only [State.takeBit, frame]
  exact if_pos (by omega)

theorem State.takeBit_of_lastTurnaroundBit {a : WordAddr} (frame : s.port.frame = .turnaround a 7) :
    s.takeBit b = s.sample a := by
  simp only [State.takeBit, frame]
  exact if_neg (by decide)

theorem State.takeBit_of_read {a : WordAddr} {x y : Bool} {rest : List Bool} (frame : s.port.frame = .read a (x :: y :: rest)) :
    s.takeBit b = s.setFrame (.read a (y :: rest)) := by
  simp only [State.takeBit, frame]
  exact if_pos (by rw [List.length_cons, List.length_cons]; omega)

theorem State.takeBit_of_lastReadBit {a : WordAddr} {x : Bool} (frame : s.port.frame = .read a [x]) :
    s.takeBit b = s.sample a := by
  simp only [State.takeBit, frame]
  exact if_neg (by simp)

end

/-! ### The bits of one FRAME_BEGIN, taken one after another -/

section
variable {s : State}

theorem State.foldl_takeBit_of_idle (bits : List Bool) (frame : s.port.frame = .none ∨ s.port.frame = .ignored) :
    bits.foldl State.takeBit s = s := by
  induction bits with
  | nil => rfl
  | cons b bits ih => rw [List.foldl_cons, State.takeBit_of_idle b frame, ih]

/-- While the bits make no more than a header, the frame is what `headerFrame` makes of them (10 R160). -/
theorem State.foldl_takeBit_of_header (bits : List Bool) (n : Nat)
    (open_ : ∀ m < n, headerFrame (bits.take m) = .header (bits.take m)) :
    bits.foldl State.takeBit (s.setFrame (.header [])) =
      (bits.drop n).foldl State.takeBit (s.setFrame (headerFrame (bits.take n))) := by
  induction n with
  | zero => rfl
  | succ n ih =>
    rw [ih fun m lt => open_ m (by omega), open_ n (Nat.lt_succ_self n)]
    by_cases more : n < bits.length
    · rw [List.drop_eq_getElem_cons more, List.foldl_cons, State.takeBit_of_header _ (State.frame_setFrame _ s),
        State.setFrame_setFrame, List.take_append_getElem more]
    · have all : bits.length ≤ n := Nat.le_of_not_lt more
      have same : bits.take (n + 1) = bits.take n := by
        rw [List.take_of_length_le all, List.take_of_length_le (by omega)]
      rw [List.drop_eq_nil_of_le all, List.drop_eq_nil_of_le (by omega), same, open_ n (Nat.lt_succ_self n)]

theorem State.foldl_takeBit_of_write (a : WordAddr) (moving bits : List Bool) (short : moving.length + bits.length < 32) :
    bits.foldl State.takeBit (s.setFrame (.write a moving)) = s.setFrame (.write a (moving ++ bits)) := by
  induction bits generalizing moving with
  | nil => rw [List.append_nil, List.foldl_nil]
  | cons b bits ih =>
    rw [List.length_cons] at short
    rw [List.foldl_cons, State.takeBit_of_write b (State.frame_setFrame _ s) (by omega), State.setFrame_setFrame,
      ih _ (by rw [List.length_append, List.length_singleton]; omega), List.append_assoc, List.singleton_append]

theorem State.foldl_takeBit_of_turnaround (a : WordAddr) (n : Nat) (bits : List Bool) (short : n + bits.length < 8) :
    bits.foldl State.takeBit (s.setFrame (.turnaround a n)) = s.setFrame (.turnaround a (n + bits.length)) := by
  induction bits generalizing n with
  | nil => rfl
  | cons b bits ih =>
    rw [List.length_cons] at short
    rw [List.foldl_cons, State.takeBit_of_turnaround b (State.frame_setFrame _ s) (by omega), State.setFrame_setFrame,
      ih _ (by omega), List.length_cons, Nat.add_assoc, Nat.add_comm 1]

end

/-! ### The fall of CS_N -/

section
variable {mosi : List Bool} {s : State}

theorem exec_frameBegin_of_open (low : s.port.csLow = true) :
    exec (.frameBegin mosi) s = .next (mosi.foldl State.takeBit s.fresh) :=
  congrArg (fun t => Host.Outcome.next (mosi.foldl State.takeBit t)) (if_pos low)

/-- CS_N has fallen, and no frame has begun. -/
def State.selected (s : State) : State := { s with sent := [], port := ⟨true, .none⟩ }

theorem exec_frameBegin_of_fall (high : s.port.csLow = false) : exec (.frameBegin mosi) s =
    .next (mosi.foldl State.takeBit (s.selected.setFrame (if s.resetLow then .none else .header []))) :=
  congrArg (fun t => Host.Outcome.next (mosi.foldl State.takeBit t)) (if_neg (ne_true_of_eq_false high))

theorem exec_frameBegin_of_resetLow (high : s.port.csLow = false) (low : s.resetLow = true) :
    exec (.frameBegin mosi) s = .next s.selected := by
  rw [exec_frameBegin_of_fall high, if_pos low, State.foldl_takeBit_of_idle mosi (.inl rfl)]
  rfl

/-- CS_N falls with RESET_N high: a frame begins with its header (10 R160). -/
theorem exec_frameBegin_of_begin (high : s.port.csLow = false) (running : s.resetLow = false) : exec (.frameBegin mosi) s =
    .next (mosi.foldl State.takeBit (s.selected.setFrame (.header []))) := by
  rw [exec_frameBegin_of_fall high, running]
  rfl

/-- The frame that the bits of one FRAME_BEGIN leave, by their number and the code they begin with. -/
theorem State.foldl_takeBit_of_short (short : mosi.length < 8 ∨ mosi.length < 24 ∧
    (frameCode mosi = Config.writeCode ∨ frameCode mosi = Config.readCode)) :
    mosi.foldl State.takeBit (s.setFrame (.header [])) = s.setFrame (.header mosi) := by
  rw [State.foldl_takeBit_of_header mosi mosi.length, List.drop_length, List.take_length, List.foldl_nil]
  · rcases short with noCode | ⟨noAddr, known⟩
    · rw [headerFrame_of_noCode noCode]
    · rw [headerFrame_of_noAddr noAddr known]
  · intro m lt
    rcases short with noCode | ⟨noAddr, known⟩
    · exact headerFrame_take_of_noCode (Nat.lt_trans lt noCode)
    · exact headerFrame_take_of_noAddr known (Nat.lt_trans lt noAddr)

theorem State.foldl_takeBit_of_writeFrame (header : 24 ≤ mosi.length) (short : mosi.length < 56)
    (code : frameCode mosi = Config.writeCode) :
    mosi.foldl State.takeBit (s.setFrame (.header [])) = s.setFrame (.write (frameAddr mosi) (mosi.drop 24)) := by
  have opened : headerFrame (mosi.take 24) = .write (frameAddr mosi) [] := by
    rw [headerFrame_of_write (by rw [List.length_take]; omega) (by rwa [frameCode_take (by decide)]), frameAddr_take]
  rw [State.foldl_takeBit_of_header mosi 24 fun m => headerFrame_take_of_noAddr (.inl code), opened,
    State.foldl_takeBit_of_write _ _ _ (by rw [List.length_nil, List.length_drop]; omega), List.nil_append]

theorem State.foldl_takeBit_of_readFrame (header : 24 ≤ mosi.length) (short : mosi.length < 32)
    (code : frameCode mosi = Config.readCode) :
    mosi.foldl State.takeBit (s.setFrame (.header [])) = s.setFrame (.turnaround (frameAddr mosi) (mosi.length - 24)) := by
  have opened : headerFrame (mosi.take 24) = .turnaround (frameAddr mosi) 0 := by
    rw [headerFrame_of_read (by rw [List.length_take]; omega) (by rwa [frameCode_take (by decide)]), frameAddr_take]
  rw [State.foldl_takeBit_of_header mosi 24 fun m => headerFrame_take_of_noAddr (.inr code), opened,
    State.foldl_takeBit_of_turnaround _ _ _ (by rw [List.length_drop]; omega), List.length_drop, Nat.zero_add]

theorem State.foldl_takeBit_of_unknown (byte : 8 ≤ mosi.length) (notWrite : frameCode mosi ≠ Config.writeCode)
    (notRead : frameCode mosi ≠ Config.readCode) :
    mosi.foldl State.takeBit (s.setFrame (.header [])) = s.setFrame .ignored := by
  have opened : headerFrame (mosi.take 8) = .ignored :=
    headerFrame_of_unknown (by rw [List.length_take]; omega) (by rwa [frameCode_take (Nat.le_refl 8)])
      (by rwa [frameCode_take (Nat.le_refl 8)])
  rw [State.foldl_takeBit_of_header mosi 8 fun m => headerFrame_take_of_noCode, opened,
    State.foldl_takeBit_of_idle _ (.inr rfl)]

end

/-! ### The last bit of a write word -/

/-- The rest of a word in one FRAME_BEGIN is the word's REGISTER_WRITE (10 R161, logs 1 and 2). -/
theorem exec_frameBegin_lastWriteBit {a : WordAddr} {moving : List Bool} {b : Bool} {w : Word} {s : State}
    (frame : s.port.frame = .write a moving) (last : moving ++ [b] = wordBits w) (low : s.port.csLow = true)
    (running : s.resetLow = false) : exec (.frameBegin [b]) s = exec (.registerWrite a w) s := by
  have begins : (wordBits w).take moving.length = moving := by rw [← last, List.take_left]
  have takes : s.takesWord a w = true := State.takesWord_iff.mpr ⟨running, .inr ⟨moving, frame, begins⟩⟩
  have past : s.fresh.movePast = s.fresh.setFrame (.write (a + 1) []) := by
    show s.fresh.setFrame s.port.frame.afterWord = _
    rw [frame]
    rfl
  rw [exec_frameBegin_of_open low, List.foldl_cons, List.foldl_nil, State.takeBit_of_lastWriteBit (s := s.fresh) b frame last,
    exec_registerWrite, State.portWrite_taken takes, past]

/-! ### MISO -/

section
variable {s : State}

theorem State.misoLevel_eq_none : s.misoLevel = none ↔ s.port.csLow = false ∨ s.resetLow = true := by
  have driven : s.misoDriven = true ↔ s.port.csLow = true ∧ s.resetLow = false := by
    rw [State.misoDriven, Bool.and_eq_true, Bool.not_eq_true']
  unfold State.misoLevel
  split
  next on =>
    obtain ⟨low, running⟩ := driven.mp on
    simp only [low, running]
    split <;> simp
  next off =>
    rw [driven, not_and_or, Bool.not_eq_true, Bool.not_eq_false] at off
    exact iff_of_true rfl off

/-- MISO by the frame, while it is driven. -/
theorem State.misoLevel_of_read {a : WordAddr} {x : Bool} {rest : List Bool} (driven : s.misoDriven = true)
    (frame : s.port.frame = .read a (x :: rest)) : s.misoLevel = some x := by
  unfold State.misoLevel
  rw [if_pos driven, frame]
  rfl

/-- FFh outside the words of a read frame (10 R160, R162). -/
theorem State.misoLevel_of_noWord (driven : s.misoDriven = true) (notBlocked : s.port.frame ≠ .blocked)
    (noRead : ∀ a bits, s.port.frame ≠ .read a bits) : s.misoLevel = some true := by
  unfold State.misoLevel
  rw [if_pos driven]
  split
  next a bits frame => exact absurd frame (noRead a bits)
  next frame => exact absurd frame notBlocked
  all_goals rfl

end

/-- Settles O37: the header, the bits of a frame one by one and MISO by the frame that is open. -/
theorem framesBeginAndEnd : Obligations.FramesBeginAndEnd := by
  refine ⟨fun s => rfl, fun mosi s => ?_, fun b s => ?_, fun w j => ⟨by simp [wordBits], wordBits_getElem? w j⟩, fun s => ?_⟩
  · refine ⟨exec_frameBegin_of_open, exec_frameBegin_of_resetLow, fun high running => ?_⟩
    have opens {f : Frame} (taken : mosi.foldl State.takeBit (s.selected.setFrame (.header [])) = s.selected.setFrame f) :
        exec (.frameBegin mosi) s = .next (s.selected.setFrame f) :=
      (exec_frameBegin_of_begin high running).trans (congrArg Host.Outcome.next taken)
    exact ⟨exec_frameBegin_of_begin high running,
      fun noCode => opens (State.foldl_takeBit_of_short (.inl noCode)),
      fun _ noAddr known => opens (State.foldl_takeBit_of_short (.inr ⟨noAddr, known⟩)),
      fun header short code => opens (State.foldl_takeBit_of_writeFrame header short code),
      fun header short code => opens (State.foldl_takeBit_of_readFrame header short code),
      fun byte notWrite notRead => opens (State.foldl_takeBit_of_unknown byte notWrite notRead)⟩
  · refine ⟨State.takeBit_of_idle b, fun frame => ⟨_, State.takeBit_of_blocked b frame⟩, fun taken frame => ?_,
      fun a moving frame => ⟨State.takeBit_of_write b frame, fun w => exec_frameBegin_lastWriteBit frame⟩,
      fun a n frame => ⟨State.takeBit_of_turnaround b frame, ?_⟩, fun a x y rest => State.takeBit_of_read b,
      fun a x => State.takeBit_of_lastReadBit b⟩
    · have becomes {f : Frame} (header : headerFrame (taken ++ [b]) = f) : s.takeBit b = s.setFrame f :=
        (State.takeBit_of_header b frame).trans (congrArg (State.setFrame · s) header)
      exact ⟨fun noCode => becomes (headerFrame_of_noCode noCode),
        fun _ noAddr known => becomes (headerFrame_of_noAddr noAddr known),
        fun byte notWrite notRead => becomes (headerFrame_of_unknown byte notWrite notRead),
        fun header code => becomes (headerFrame_of_write header code),
        fun header code => becomes (headerFrame_of_read header code)⟩
    · rintro rfl
      exact State.takeBit_of_lastTurnaroundBit b frame
  · refine ⟨State.misoLevel_eq_none, fun low running => ?_⟩
    have driven : s.misoDriven = true := by rw [State.misoDriven, low, running]; rfl
    refine ⟨fun noWord => ?_, fun a x rest => State.misoLevel_of_read driven⟩
    rcases noWord with frame | ⟨taken, frame⟩ | ⟨a, moving, frame⟩ | ⟨a, n, frame⟩
    all_goals exact State.misoLevel_of_noWord driven (by rw [frame]; nofun) (by rw [frame]; nofun)

end Sys2Proof.Machine
end

section
/-! PROOFS. The layout of a record: its little-endian fields and its coded bytes (12 R181, Table 12-9). -/

namespace Sys2Proof.Machine

/-! ### Little-endian fields -/

/-- Byte i of a word's little-endian form is the word's bits from 8i on, for every width. -/
theorem littleEndian_toNat {n : Nat} (w : BitVec n) (count : Nat) :
    littleEndian w.toNat count = (List.range count).map fun i => w.extractLsb' (8 * i) 8 := by
  refine List.map_congr_left fun i _ => BitVec.eq_of_toNat_eq ?_
  rw [BitVec.toNat_ofNat, BitVec.extractLsb'_toNat, Nat.shiftRight_eq_div_pow, pow_mul]
  rfl

/-- The four bytes of a 32-bit field; what lies above bit 31 is left out. -/
theorem littleEndian_four (n : Nat) : littleEndian n 4 =
    [BitVec.ofNat 8 n, BitVec.ofNat 8 (n / 2 ^ 8), BitVec.ofNat 8 (n / 2 ^ 16), BitVec.ofNat 8 (n / 2 ^ 24)] := by
  simp [littleEndian, List.range_succ]

/-! ### Coded bytes -/

theorem ofNat_recordKindCode (k : RecordKind) : BitVec.ofNat 8 (recordKindCode k) = if k = .close then 1 else 2 := by
  cases k <;> rfl

/-- The FLAGS byte: its two bits do not carry into each other. -/
theorem ofNat_recordFlags (tainted afterGap : Bool) : BitVec.ofNat 8 (tainted.toNat + 2 * afterGap.toNat) =
    (if tainted then 1 else 0) + (if afterGap then 2 else 0) := by
  cases tainted <;> cases afterGap <;> rfl

/-- Settles O59: the multi-byte fields by their little-endian bytes, KIND and FLAGS by their codes, and CAUSE cause by cause. -/
theorem recordLayout : Obligations.RecordLayout := by
  intro x lap
  rw [recordBytes, littleEndian_toNat, littleEndian_four, littleEndian_four, ofNat_recordKindCode, ofNat_recordFlags]
  cases x.cause with
  | none => rfl
  | some cause => cases cause <;> rfl

end Sys2Proof.Machine
end

section
/-! PROOFS. A step on a nonempty queue: the command at its front, taken (the case beside `step_of_empty`). -/

namespace Sys2Proof.Machine

/-- Taking a command leaves of the old queue nothing but what is put in its place. -/
@[simp] theorem State.withQueue_withQueue (rest queue : List Instr) (s : State) :
    (s.withQueue queue).withQueue rest = s.withQueue rest := rfl

theorem step_of_front {c : Instr} {rest : List Instr} {s : State} (front : s.pending = c :: rest) :
    step s = exec c (s.withQueue rest) := by
  unfold step
  rw [front]

/-- Settles O1: the state of the statement is `s.withQueue (c :: rest)`, whose front is `c`. -/
theorem stepTakesFrontCommand : Obligations.StepTakesFrontCommand := by
  intro c rest s
  calc step (s.withQueue (c :: rest))
    _ = exec c ((s.withQueue (c :: rest)).withQueue rest) := step_of_front rfl
    _ = exec c (s.withQueue rest) := by rw [State.withQueue_withQueue]

end Sys2Proof.Machine
end
